-- ==== Sys2Proof/Word.lean ====
section
/-! DEFINITION. The word types of the block: 32-bit words, bytes, register numbers (spec R7, R20, R79, R137). -/

namespace Sys2Proof

/-- A register or an address: "32 bits" (R7). -/
abbrev Word := BitVec 32

/-- The smallest addressable unit (R7, R70). -/
abbrev Byte := BitVec 8

/-- An ARM register field, R0 to R15 (R137). -/
abbrev Reg := BitVec 4

/-- A Thumb 3-bit register field, R0 to R7 (R137). -/
abbrev LowReg := BitVec 3

/-- The register a Thumb 3-bit field names (R137). -/
abbrev LowReg.reg (r : LowReg) : Reg := r.setWidth 4

end Sys2Proof
end

