-- ==== Sys2Proof/Syntax.lean ====
section
/-! DEFINITION. The instructions: one constructor for each row of spec/opcode_table.json, in the table's order (R131, R134). A field the spec does not check (SBO, SBZ: R145) is no field of the constructor. -/

namespace Sys2Proof

/-- The fourteen conditions and "always" (R140). The field value 1111 is not a condition (R141). -/
inductive Cond where
  | eq | ne | cs | cc | mi | pl | vs | vc | hi | ls | ge | lt | gt | le | al
  deriving DecidableEq, Repr

/-- The `shift` field of A2, A3 and A14 (R131). -/
inductive ShiftKind where
  | lsl | lsr | asr | ror
  deriving DecidableEq, Repr

/-- One constructor for each row of spec/opcode_table.json. -/
inductive Instr where
  /-- Any ARM word whose condition field is 1111 (R141); `bits` are its bits 27:0. -/
  | cond1111 (bits : BitVec 28)
  /-- BX (A10, R283). -/
  | bx (c : Cond) (rm : Reg)
  /-- SWP (A9, R270). -/
  | swp (c : Cond) (rn rd rm : Reg)
  /-- SWPB (A9, R271). -/
  | swpb (c : Cond) (rn rd rm : Reg)
  /-- MUL (A7, R231). -/
  | mul (c : Cond) (sf : Bool) (rd rs rm : Reg)
  /-- MLA (A7, R232). -/
  | mla (c : Cond) (sf : Bool) (rd rn rs rm : Reg)
  /-- UMULL (A8, R233). -/
  | umull (c : Cond) (sf : Bool) (rdHi rdLo rs rm : Reg)
  /-- UMLAL (A8, R234). -/
  | umlal (c : Cond) (sf : Bool) (rdHi rdLo rs rm : Reg)
  /-- SMULL (A8, R235). -/
  | smull (c : Cond) (sf : Bool) (rdHi rdLo rs rm : Reg)
  /-- SMLAL (A8, R236). -/
  | smlal (c : Cond) (sf : Bool) (rdHi rdLo rs rm : Reg)
  /-- STRH, register offset (A11, R248). -/
  | strhReg (c : Cond) (p u w : Bool) (rn rd rm : Reg)
  /-- STRH, immediate offset (A12, R248). -/
  | strhImm (c : Cond) (p u w : Bool) (rn rd : Reg) (immH immL : BitVec 4)
  /-- LDRH, register offset (A11, R247). -/
  | ldrhReg (c : Cond) (p u w : Bool) (rn rd rm : Reg)
  /-- LDRH, immediate offset (A12, R247). -/
  | ldrhImm (c : Cond) (p u w : Bool) (rn rd : Reg) (immH immL : BitVec 4)
  /-- LDRSB, register offset (A11, R249). -/
  | ldrsbReg (c : Cond) (p u w : Bool) (rn rd rm : Reg)
  /-- LDRSB, immediate offset (A12, R249). -/
  | ldrsbImm (c : Cond) (p u w : Bool) (rn rd : Reg) (immH immL : BitVec 4)
  /-- LDRSH, register offset (A11, R250). -/
  | ldrshReg (c : Cond) (p u w : Bool) (rn rd rm : Reg)
  /-- LDRSH, immediate offset (A12, R250). -/
  | ldrshImm (c : Cond) (p u w : Bool) (rn rd : Reg) (immH immL : BitVec 4)
  /-- The unallocated halfword-store space, L = 0 with SH = 10 or 11 (R253): bits 24:21, 19:8, 5 and 3:0. -/
  | unallocHalfStore (c : Cond) (hi : BitVec 4) (mid : BitVec 12) (sh : BitVec 1) (lo : BitVec 4)
  /-- The unallocated multiply and extra space (R145): bits 24:20, 19:8 and 3:0. -/
  | unallocMul (c : Cond) (op : BitVec 5) (mid : BitVec 12) (lo : BitVec 4)
  /-- MRS (A4, R220); `r` chooses the SPSR. -/
  | mrs (c : Cond) (r : Bool) (rd : Reg)
  /-- MSR CPSR, register (A5, R221). -/
  | msrCpsrReg (c : Cond) (mask : BitVec 4) (rm : Reg)
  /-- MSR SPSR, register (A5, R222). -/
  | msrSpsrReg (c : Cond) (mask : BitVec 4) (rm : Reg)
  /-- MSR CPSR, immediate (A6, R221). -/
  | msrCpsrImm (c : Cond) (mask rot : BitVec 4) (imm : BitVec 8)
  /-- MSR SPSR, immediate (A6, R222). -/
  | msrSpsrImm (c : Cond) (mask rot : BitVec 4) (imm : BitVec 8)
  /-- The unallocated PSR-transfer space, op = 10xx with S = 0 (R145): bits 25, 22:21, 19:8, 7:4 and 3:0. -/
  | unallocPsr (c : Cond) (im : Bool) (op : BitVec 2) (mid : BitVec 12) (nib lo : BitVec 4)
  /-- AND, rotated immediate (A1, R188). -/
  | andImm (c : Cond) (sf : Bool) (rn rd : Reg) (rot : BitVec 4) (imm : BitVec 8)
  /-- AND, register shifted by an immediate (A2, R188). -/
  | andImmShift (c : Cond) (sf : Bool) (rn rd : Reg) (n : BitVec 5) (sh : ShiftKind) (rm : Reg)
  /-- AND, register shifted by a register (A3, R188). -/
  | andRegShift (c : Cond) (sf : Bool) (rn rd rs : Reg) (sh : ShiftKind) (rm : Reg)
  /-- EOR, rotated immediate (A1, R189). -/
  | eorImm (c : Cond) (sf : Bool) (rn rd : Reg) (rot : BitVec 4) (imm : BitVec 8)
  /-- EOR, register shifted by an immediate (A2, R189). -/
  | eorImmShift (c : Cond) (sf : Bool) (rn rd : Reg) (n : BitVec 5) (sh : ShiftKind) (rm : Reg)
  /-- EOR, register shifted by a register (A3, R189). -/
  | eorRegShift (c : Cond) (sf : Bool) (rn rd rs : Reg) (sh : ShiftKind) (rm : Reg)
  /-- SUB, rotated immediate (A1, R190). -/
  | subImm (c : Cond) (sf : Bool) (rn rd : Reg) (rot : BitVec 4) (imm : BitVec 8)
  /-- SUB, register shifted by an immediate (A2, R190). -/
  | subImmShift (c : Cond) (sf : Bool) (rn rd : Reg) (n : BitVec 5) (sh : ShiftKind) (rm : Reg)
  /-- SUB, register shifted by a register (A3, R190). -/
  | subRegShift (c : Cond) (sf : Bool) (rn rd rs : Reg) (sh : ShiftKind) (rm : Reg)
  /-- RSB, rotated immediate (A1, R191). -/
  | rsbImm (c : Cond) (sf : Bool) (rn rd : Reg) (rot : BitVec 4) (imm : BitVec 8)
  /-- RSB, register shifted by an immediate (A2, R191). -/
  | rsbImmShift (c : Cond) (sf : Bool) (rn rd : Reg) (n : BitVec 5) (sh : ShiftKind) (rm : Reg)
  /-- RSB, register shifted by a register (A3, R191). -/
  | rsbRegShift (c : Cond) (sf : Bool) (rn rd rs : Reg) (sh : ShiftKind) (rm : Reg)
  /-- ADD, rotated immediate (A1, R192). -/
  | addImm (c : Cond) (sf : Bool) (rn rd : Reg) (rot : BitVec 4) (imm : BitVec 8)
  /-- ADD, register shifted by an immediate (A2, R192). -/
  | addImmShift (c : Cond) (sf : Bool) (rn rd : Reg) (n : BitVec 5) (sh : ShiftKind) (rm : Reg)
  /-- ADD, register shifted by a register (A3, R192). -/
  | addRegShift (c : Cond) (sf : Bool) (rn rd rs : Reg) (sh : ShiftKind) (rm : Reg)
  /-- ADC, rotated immediate (A1, R193). -/
  | adcImm (c : Cond) (sf : Bool) (rn rd : Reg) (rot : BitVec 4) (imm : BitVec 8)
  /-- ADC, register shifted by an immediate (A2, R193). -/
  | adcImmShift (c : Cond) (sf : Bool) (rn rd : Reg) (n : BitVec 5) (sh : ShiftKind) (rm : Reg)
  /-- ADC, register shifted by a register (A3, R193). -/
  | adcRegShift (c : Cond) (sf : Bool) (rn rd rs : Reg) (sh : ShiftKind) (rm : Reg)
  /-- SBC, rotated immediate (A1, R194). -/
  | sbcImm (c : Cond) (sf : Bool) (rn rd : Reg) (rot : BitVec 4) (imm : BitVec 8)
  /-- SBC, register shifted by an immediate (A2, R194). -/
  | sbcImmShift (c : Cond) (sf : Bool) (rn rd : Reg) (n : BitVec 5) (sh : ShiftKind) (rm : Reg)
  /-- SBC, register shifted by a register (A3, R194). -/
  | sbcRegShift (c : Cond) (sf : Bool) (rn rd rs : Reg) (sh : ShiftKind) (rm : Reg)
  /-- RSC, rotated immediate (A1, R195). -/
  | rscImm (c : Cond) (sf : Bool) (rn rd : Reg) (rot : BitVec 4) (imm : BitVec 8)
  /-- RSC, register shifted by an immediate (A2, R195). -/
  | rscImmShift (c : Cond) (sf : Bool) (rn rd : Reg) (n : BitVec 5) (sh : ShiftKind) (rm : Reg)
  /-- RSC, register shifted by a register (A3, R195). -/
  | rscRegShift (c : Cond) (sf : Bool) (rn rd rs : Reg) (sh : ShiftKind) (rm : Reg)
  /-- TST, rotated immediate (A1, R196). -/
  | tstImm (c : Cond) (rn rd : Reg) (rot : BitVec 4) (imm : BitVec 8)
  /-- TST, register shifted by an immediate (A2, R196). -/
  | tstImmShift (c : Cond) (rn rd : Reg) (n : BitVec 5) (sh : ShiftKind) (rm : Reg)
  /-- TST, register shifted by a register (A3, R196). -/
  | tstRegShift (c : Cond) (rn rd rs : Reg) (sh : ShiftKind) (rm : Reg)
  /-- TEQ, rotated immediate (A1, R197). -/
  | teqImm (c : Cond) (rn rd : Reg) (rot : BitVec 4) (imm : BitVec 8)
  /-- TEQ, register shifted by an immediate (A2, R197). -/
  | teqImmShift (c : Cond) (rn rd : Reg) (n : BitVec 5) (sh : ShiftKind) (rm : Reg)
  /-- TEQ, register shifted by a register (A3, R197). -/
  | teqRegShift (c : Cond) (rn rd rs : Reg) (sh : ShiftKind) (rm : Reg)
  /-- CMP, rotated immediate (A1, R198). -/
  | cmpImm (c : Cond) (rn rd : Reg) (rot : BitVec 4) (imm : BitVec 8)
  /-- CMP, register shifted by an immediate (A2, R198). -/
  | cmpImmShift (c : Cond) (rn rd : Reg) (n : BitVec 5) (sh : ShiftKind) (rm : Reg)
  /-- CMP, register shifted by a register (A3, R198). -/
  | cmpRegShift (c : Cond) (rn rd rs : Reg) (sh : ShiftKind) (rm : Reg)
  /-- CMN, rotated immediate (A1, R199). -/
  | cmnImm (c : Cond) (rn rd : Reg) (rot : BitVec 4) (imm : BitVec 8)
  /-- CMN, register shifted by an immediate (A2, R199). -/
  | cmnImmShift (c : Cond) (rn rd : Reg) (n : BitVec 5) (sh : ShiftKind) (rm : Reg)
  /-- CMN, register shifted by a register (A3, R199). -/
  | cmnRegShift (c : Cond) (rn rd rs : Reg) (sh : ShiftKind) (rm : Reg)
  /-- ORR, rotated immediate (A1, R200). -/
  | orrImm (c : Cond) (sf : Bool) (rn rd : Reg) (rot : BitVec 4) (imm : BitVec 8)
  /-- ORR, register shifted by an immediate (A2, R200). -/
  | orrImmShift (c : Cond) (sf : Bool) (rn rd : Reg) (n : BitVec 5) (sh : ShiftKind) (rm : Reg)
  /-- ORR, register shifted by a register (A3, R200). -/
  | orrRegShift (c : Cond) (sf : Bool) (rn rd rs : Reg) (sh : ShiftKind) (rm : Reg)
  /-- MOV, rotated immediate (A1, R201). -/
  | movImm (c : Cond) (sf : Bool) (rd : Reg) (rot : BitVec 4) (imm : BitVec 8)
  /-- MOV, register shifted by an immediate (A2, R201). -/
  | movImmShift (c : Cond) (sf : Bool) (rd : Reg) (n : BitVec 5) (sh : ShiftKind) (rm : Reg)
  /-- MOV, register shifted by a register (A3, R201). -/
  | movRegShift (c : Cond) (sf : Bool) (rd rs : Reg) (sh : ShiftKind) (rm : Reg)
  /-- BIC, rotated immediate (A1, R202). -/
  | bicImm (c : Cond) (sf : Bool) (rn rd : Reg) (rot : BitVec 4) (imm : BitVec 8)
  /-- BIC, register shifted by an immediate (A2, R202). -/
  | bicImmShift (c : Cond) (sf : Bool) (rn rd : Reg) (n : BitVec 5) (sh : ShiftKind) (rm : Reg)
  /-- BIC, register shifted by a register (A3, R202). -/
  | bicRegShift (c : Cond) (sf : Bool) (rn rd rs : Reg) (sh : ShiftKind) (rm : Reg)
  /-- MVN, rotated immediate (A1, R203). -/
  | mvnImm (c : Cond) (sf : Bool) (rd : Reg) (rot : BitVec 4) (imm : BitVec 8)
  /-- MVN, register shifted by an immediate (A2, R203). -/
  | mvnImmShift (c : Cond) (sf : Bool) (rd : Reg) (n : BitVec 5) (sh : ShiftKind) (rm : Reg)
  /-- MVN, register shifted by a register (A3, R203). -/
  | mvnRegShift (c : Cond) (sf : Bool) (rd rs : Reg) (sh : ShiftKind) (rm : Reg)
  /-- The architecturally undefined space (A15, R286): bits 24:5 and 3:0. -/
  | undefined (c : Cond) (hi : BitVec 20) (lo : BitVec 4)
  /-- STRT, immediate offset (A13 with P = 0, W = 1, R254). -/
  | strtImm (c : Cond) (u : Bool) (rn rd : Reg) (off : BitVec 12)
  /-- STRT, register offset (A14 with P = 0, W = 1, R254). -/
  | strtReg (c : Cond) (u : Bool) (rn rd : Reg) (n : BitVec 5) (sh : ShiftKind) (rm : Reg)
  /-- LDRT, immediate offset (A13 with P = 0, W = 1, R254). -/
  | ldrtImm (c : Cond) (u : Bool) (rn rd : Reg) (off : BitVec 12)
  /-- LDRT, register offset (A14 with P = 0, W = 1, R254). -/
  | ldrtReg (c : Cond) (u : Bool) (rn rd : Reg) (n : BitVec 5) (sh : ShiftKind) (rm : Reg)
  /-- STRBT, immediate offset (A13 with P = 0, W = 1, R254). -/
  | strbtImm (c : Cond) (u : Bool) (rn rd : Reg) (off : BitVec 12)
  /-- STRBT, register offset (A14 with P = 0, W = 1, R254). -/
  | strbtReg (c : Cond) (u : Bool) (rn rd : Reg) (n : BitVec 5) (sh : ShiftKind) (rm : Reg)
  /-- LDRBT, immediate offset (A13 with P = 0, W = 1, R254). -/
  | ldrbtImm (c : Cond) (u : Bool) (rn rd : Reg) (off : BitVec 12)
  /-- LDRBT, register offset (A14 with P = 0, W = 1, R254). -/
  | ldrbtReg (c : Cond) (u : Bool) (rn rd : Reg) (n : BitVec 5) (sh : ShiftKind) (rm : Reg)
  /-- STR, immediate offset (A13, R243). -/
  | strImm (c : Cond) (p u w : Bool) (rn rd : Reg) (off : BitVec 12)
  /-- STR, register offset (A14, R243). -/
  | strReg (c : Cond) (p u w : Bool) (rn rd : Reg) (n : BitVec 5) (sh : ShiftKind) (rm : Reg)
  /-- LDR, immediate offset (A13, R241). -/
  | ldrImm (c : Cond) (p u w : Bool) (rn rd : Reg) (off : BitVec 12)
  /-- LDR, register offset (A14, R241). -/
  | ldrReg (c : Cond) (p u w : Bool) (rn rd : Reg) (n : BitVec 5) (sh : ShiftKind) (rm : Reg)
  /-- STRB, immediate offset (A13, R245). -/
  | strbImm (c : Cond) (p u w : Bool) (rn rd : Reg) (off : BitVec 12)
  /-- STRB, register offset (A14, R245). -/
  | strbReg (c : Cond) (p u w : Bool) (rn rd : Reg) (n : BitVec 5) (sh : ShiftKind) (rm : Reg)
  /-- LDRB, immediate offset (A13, R244). -/
  | ldrbImm (c : Cond) (p u w : Bool) (rn rd : Reg) (off : BitVec 12)
  /-- LDRB, register offset (A14, R244). -/
  | ldrbReg (c : Cond) (p u w : Bool) (rn rd : Reg) (n : BitVec 5) (sh : ShiftKind) (rm : Reg)
  /-- STM (A16 with S = 0, R263). -/
  | stm (c : Cond) (p u w : Bool) (rn : Reg) (list : BitVec 16)
  /-- LDM (A16 with S = 0, R262). -/
  | ldm (c : Cond) (p u w : Bool) (rn : Reg) (list : BitVec 16)
  /-- STM of the user bank (A16 with S = 1, R266). -/
  | stmUser (c : Cond) (p u w : Bool) (rn : Reg) (list : BitVec 16)
  /-- LDM of the user bank, R15 not in the list (A16 with S = 1, R266); `list` is bits 14:0. -/
  | ldmUser (c : Cond) (p u w : Bool) (rn : Reg) (list : BitVec 15)
  /-- LDM with PSR restore, R15 in the list (A16 with S = 1, R267); `list` is bits 14:0. -/
  | ldmRestore (c : Cond) (p u w : Bool) (rn : Reg) (list : BitVec 15)
  /-- B (A17, R280). -/
  | b (c : Cond) (off : BitVec 24)
  /-- BL (A17, R281). -/
  | bl (c : Cond) (off : BitVec 24)
  /-- STC (A18, R287). -/
  | stc (c : Cond) (p u n w : Bool) (rn : Reg) (crd cp : BitVec 4) (off : BitVec 8)
  /-- LDC (A18, R287). -/
  | ldc (c : Cond) (p u n w : Bool) (rn : Reg) (crd cp : BitVec 4) (off : BitVec 8)
  /-- CDP (A19, R287). -/
  | cdp (c : Cond) (op1 crn crd cp : BitVec 4) (op2 : BitVec 3) (crm : BitVec 4)
  /-- MCR (A20, R287). -/
  | mcr (c : Cond) (op1 : BitVec 3) (crn : BitVec 4) (rd : Reg) (cp : BitVec 4) (op2 : BitVec 3) (crm : BitVec 4)
  /-- MRC (A20, R287). -/
  | mrc (c : Cond) (op1 : BitVec 3) (crn : BitVec 4) (rd : Reg) (cp : BitVec 4) (op2 : BitVec 3) (crm : BitVec 4)
  /-- SWI (A21, R285). -/
  | swi (c : Cond) (comment : BitVec 24)
  /-- Thumb ADD, register (T2, R303). -/
  | tAddReg (rn rs rd : LowReg)
  /-- Thumb SUB, register (T2, R304). -/
  | tSubReg (rn rs rd : LowReg)
  /-- Thumb ADD, immediate 3 (T2, R305). -/
  | tAddImm3 (imm : BitVec 3) (rs rd : LowReg)
  /-- Thumb SUB, immediate 3 (T2, R306). -/
  | tSubImm3 (imm : BitVec 3) (rs rd : LowReg)
  /-- Thumb LSL by an immediate (T1, R300). -/
  | tLslImm (off : BitVec 5) (rs rd : LowReg)
  /-- Thumb LSR by an immediate (T1, R301). -/
  | tLsrImm (off : BitVec 5) (rs rd : LowReg)
  /-- Thumb ASR by an immediate (T1, R302). -/
  | tAsrImm (off : BitVec 5) (rs rd : LowReg)
  /-- Thumb MOV, 8-bit immediate (T3, R307). -/
  | tMovImm8 (rd : LowReg) (imm : BitVec 8)
  /-- Thumb CMP, 8-bit immediate (T3, R308). -/
  | tCmpImm8 (rd : LowReg) (imm : BitVec 8)
  /-- Thumb ADD, 8-bit immediate (T3, R309). -/
  | tAddImm8 (rd : LowReg) (imm : BitVec 8)
  /-- Thumb SUB, 8-bit immediate (T3, R310). -/
  | tSubImm8 (rd : LowReg) (imm : BitVec 8)
  /-- Thumb AND, register (T4, R311). -/
  | tAnd (rs rd : LowReg)
  /-- Thumb EOR, register (T4, R312). -/
  | tEor (rs rd : LowReg)
  /-- Thumb LSL, register (T4, R313). -/
  | tLslReg (rs rd : LowReg)
  /-- Thumb LSR, register (T4, R314). -/
  | tLsrReg (rs rd : LowReg)
  /-- Thumb ASR, register (T4, R315). -/
  | tAsrReg (rs rd : LowReg)
  /-- Thumb ADC, register (T4, R316). -/
  | tAdc (rs rd : LowReg)
  /-- Thumb SBC, register (T4, R317). -/
  | tSbc (rs rd : LowReg)
  /-- Thumb ROR, register (T4, R318). -/
  | tRor (rs rd : LowReg)
  /-- Thumb TST, register (T4, R319). -/
  | tTst (rs rd : LowReg)
  /-- Thumb NEG, register (T4, R320). -/
  | tNeg (rs rd : LowReg)
  /-- Thumb CMP, register (T4, R321). -/
  | tCmpReg (rs rd : LowReg)
  /-- Thumb CMN, register (T4, R322). -/
  | tCmn (rs rd : LowReg)
  /-- Thumb ORR, register (T4, R323). -/
  | tOrr (rs rd : LowReg)
  /-- Thumb MUL, register (T4, R324). -/
  | tMul (rs rd : LowReg)
  /-- Thumb BIC, register (T4, R325). -/
  | tBic (rs rd : LowReg)
  /-- Thumb MVN, register (T4, R326). -/
  | tMvn (rs rd : LowReg)
  /-- Thumb ADD, hi registers (T5, R327). -/
  | tAddHi (h1 h2 : Bool) (rs rd : LowReg)
  /-- Thumb CMP, hi registers (T5, R328). -/
  | tCmpHi (h1 h2 : Bool) (rs rd : LowReg)
  /-- Thumb MOV, hi registers (T5, R329). -/
  | tMovHi (h1 h2 : Bool) (rs rd : LowReg)
  /-- Thumb BX (T5, R330). -/
  | tBx (h1 h2 : Bool) (rs : LowReg)
  /-- Thumb LDR, PC-relative (T6, R340). -/
  | tLdrPc (rd : LowReg) (imm : BitVec 8)
  /-- Thumb STR, register offset (T7, R341). -/
  | tStrReg (ro rb rd : LowReg)
  /-- Thumb STRB, register offset (T7, R342). -/
  | tStrbReg (ro rb rd : LowReg)
  /-- Thumb LDR, register offset (T7, R343). -/
  | tLdrReg (ro rb rd : LowReg)
  /-- Thumb LDRB, register offset (T7, R344). -/
  | tLdrbReg (ro rb rd : LowReg)
  /-- Thumb STRH, register offset (T8, R345). -/
  | tStrhReg (ro rb rd : LowReg)
  /-- Thumb LDSB, register offset (T8, R346). -/
  | tLdsbReg (ro rb rd : LowReg)
  /-- Thumb LDRH, register offset (T8, R347). -/
  | tLdrhReg (ro rb rd : LowReg)
  /-- Thumb LDSH, register offset (T8, R348). -/
  | tLdshReg (ro rb rd : LowReg)
  /-- Thumb STR, immediate offset (T9, R349). -/
  | tStrImm (off : BitVec 5) (rb rd : LowReg)
  /-- Thumb LDR, immediate offset (T9, R350). -/
  | tLdrImm (off : BitVec 5) (rb rd : LowReg)
  /-- Thumb STRB, immediate offset (T9, R351). -/
  | tStrbImm (off : BitVec 5) (rb rd : LowReg)
  /-- Thumb LDRB, immediate offset (T9, R352). -/
  | tLdrbImm (off : BitVec 5) (rb rd : LowReg)
  /-- Thumb STRH, immediate offset (T10, R353). -/
  | tStrhImm (off : BitVec 5) (rb rd : LowReg)
  /-- Thumb LDRH, immediate offset (T10, R354). -/
  | tLdrhImm (off : BitVec 5) (rb rd : LowReg)
  /-- Thumb STR, SP-relative (T11, R355). -/
  | tStrSp (rd : LowReg) (imm : BitVec 8)
  /-- Thumb LDR, SP-relative (T11, R356). -/
  | tLdrSp (rd : LowReg) (imm : BitVec 8)
  /-- Thumb ADD Rd, PC, immediate (T12, R331). -/
  | tAddPc (rd : LowReg) (imm : BitVec 8)
  /-- Thumb ADD Rd, SP, immediate (T12, R332). -/
  | tAddSp (rd : LowReg) (imm : BitVec 8)
  /-- Thumb ADD or SUB SP, immediate (T13, R333). -/
  | tAdjSp (neg : Bool) (imm : BitVec 7)
  /-- Thumb PUSH (T14, R360). -/
  | tPush (r : Bool) (list : BitVec 8)
  /-- Thumb POP (T14, R361). -/
  | tPop (r : Bool) (list : BitVec 8)
  /-- The Thumb 1011 holes (R146, R286): bits 11:0. -/
  | tUndef1011 (bits : BitVec 12)
  /-- Thumb STMIA (T15, R362). -/
  | tStmia (rb : LowReg) (list : BitVec 8)
  /-- Thumb LDMIA (T15, R363). -/
  | tLdmia (rb : LowReg) (list : BitVec 8)
  /-- Thumb 0xDExx (R146, R286): bits 7:0. -/
  | tUndef1110 (bits : BitVec 8)
  /-- Thumb 0xE800 to 0xEFFF (R146, R286): bits 10:0. -/
  | tUndef11101 (bits : BitVec 11)
  /-- Thumb SWI (T17, R371). -/
  | tSwi (value : BitVec 8)
  /-- Thumb conditional branch (T16, R370). -/
  | tBCond (c : Cond) (off : BitVec 8)
  /-- Thumb B (T18, R374). -/
  | tB (off : BitVec 11)
  /-- Thumb BL prefix (T19 with H = 0, R372). -/
  | tBlPrefix (off : BitVec 11)
  /-- Thumb BL suffix (T19 with H = 1, R373). -/
  | tBlSuffix (off : BitVec 11)
  deriving DecidableEq, Repr

end Sys2Proof
end

