-- ==== Sys2Proof/WellFormed.lean ====
section
/-! DEFINITION. Which terms of Instr are encodings: the checks that the classifiers R144, R145 and R146 put on a row's free bits. -/

namespace Sys2Proof

/-- Bits 24:20 of a word of category 6: those that priorities 2 to 4 of R144 do not take (SWP and SWPB 10x00, MUL and
MLA 000xx, the long multiplies 01xxx). -/
def unallocMulOp (op : BitVec 5) : Bool :=
  let n := op.toNat
  n / 4 != 0 && n / 8 != 1 && n != 16 && n != 20

/-- Bits 25, 22:21 and 7:4 of a word of the PSR-transfer space that is neither MRS, MSR nor BX, and that the multiply
and halfword spaces do not take (R145). -/
def unallocPsrBits (im : Bool) (op : BitVec 2) (nib : BitVec 4) : Bool :=
  if im then op.toNat % 2 == 0
  else nib.toNat != 0 && !(nib.toNat / 8 == 1 && nib.toNat % 2 == 1) && !(op.toNat == 1 && nib.toNat == 1)

/-- Bits 11:0 of a halfword 1011xxxxxxxxxxxx that is neither T13 nor T14 (R146, priority 15). -/
def thumbHole (bits : BitVec 12) : Bool :=
  bits.toNat / 256 != 0 && bits.toNat / 512 % 4 != 2

/-- The check a term of Instr passes iff some word of the spec's encoding decodes to it. -/
def Instr.wf : Instr → Bool
  | .cond1111 _ => true
  | .bx _ _ => true
  | .swp _ _ _ _ => true
  | .swpb _ _ _ _ => true
  | .mul _ _ _ _ _ => true
  | .mla _ _ _ _ _ _ => true
  | .umull _ _ _ _ _ _ => true
  | .umlal _ _ _ _ _ _ => true
  | .smull _ _ _ _ _ _ => true
  | .smlal _ _ _ _ _ _ => true
  | .strhReg _ _ _ _ _ _ _ => true
  | .strhImm _ _ _ _ _ _ _ _ => true
  | .ldrhReg _ _ _ _ _ _ _ => true
  | .ldrhImm _ _ _ _ _ _ _ _ => true
  | .ldrsbReg _ _ _ _ _ _ _ => true
  | .ldrsbImm _ _ _ _ _ _ _ _ => true
  | .ldrshReg _ _ _ _ _ _ _ => true
  | .ldrshImm _ _ _ _ _ _ _ _ => true
  | .unallocHalfStore _ _ _ _ _ => true
  | .unallocMul _ op _ _ => unallocMulOp op
  | .mrs _ _ _ => true
  | .msrCpsrReg _ _ _ => true
  | .msrSpsrReg _ _ _ => true
  | .msrCpsrImm _ _ _ _ => true
  | .msrSpsrImm _ _ _ _ => true
  | .unallocPsr _ im op _ nib _ => unallocPsrBits im op nib
  | .andImm _ _ _ _ _ _ => true
  | .andImmShift _ _ _ _ _ _ _ => true
  | .andRegShift _ _ _ _ _ _ _ => true
  | .eorImm _ _ _ _ _ _ => true
  | .eorImmShift _ _ _ _ _ _ _ => true
  | .eorRegShift _ _ _ _ _ _ _ => true
  | .subImm _ _ _ _ _ _ => true
  | .subImmShift _ _ _ _ _ _ _ => true
  | .subRegShift _ _ _ _ _ _ _ => true
  | .rsbImm _ _ _ _ _ _ => true
  | .rsbImmShift _ _ _ _ _ _ _ => true
  | .rsbRegShift _ _ _ _ _ _ _ => true
  | .addImm _ _ _ _ _ _ => true
  | .addImmShift _ _ _ _ _ _ _ => true
  | .addRegShift _ _ _ _ _ _ _ => true
  | .adcImm _ _ _ _ _ _ => true
  | .adcImmShift _ _ _ _ _ _ _ => true
  | .adcRegShift _ _ _ _ _ _ _ => true
  | .sbcImm _ _ _ _ _ _ => true
  | .sbcImmShift _ _ _ _ _ _ _ => true
  | .sbcRegShift _ _ _ _ _ _ _ => true
  | .rscImm _ _ _ _ _ _ => true
  | .rscImmShift _ _ _ _ _ _ _ => true
  | .rscRegShift _ _ _ _ _ _ _ => true
  | .tstImm _ _ _ _ _ => true
  | .tstImmShift _ _ _ _ _ _ => true
  | .tstRegShift _ _ _ _ _ _ => true
  | .teqImm _ _ _ _ _ => true
  | .teqImmShift _ _ _ _ _ _ => true
  | .teqRegShift _ _ _ _ _ _ => true
  | .cmpImm _ _ _ _ _ => true
  | .cmpImmShift _ _ _ _ _ _ => true
  | .cmpRegShift _ _ _ _ _ _ => true
  | .cmnImm _ _ _ _ _ => true
  | .cmnImmShift _ _ _ _ _ _ => true
  | .cmnRegShift _ _ _ _ _ _ => true
  | .orrImm _ _ _ _ _ _ => true
  | .orrImmShift _ _ _ _ _ _ _ => true
  | .orrRegShift _ _ _ _ _ _ _ => true
  | .movImm _ _ _ _ _ => true
  | .movImmShift _ _ _ _ _ _ => true
  | .movRegShift _ _ _ _ _ _ => true
  | .bicImm _ _ _ _ _ _ => true
  | .bicImmShift _ _ _ _ _ _ _ => true
  | .bicRegShift _ _ _ _ _ _ _ => true
  | .mvnImm _ _ _ _ _ => true
  | .mvnImmShift _ _ _ _ _ _ => true
  | .mvnRegShift _ _ _ _ _ _ => true
  | .undefined _ _ _ => true
  | .strtImm _ _ _ _ _ => true
  | .strtReg _ _ _ _ _ _ _ => true
  | .ldrtImm _ _ _ _ _ => true
  | .ldrtReg _ _ _ _ _ _ _ => true
  | .strbtImm _ _ _ _ _ => true
  | .strbtReg _ _ _ _ _ _ _ => true
  | .ldrbtImm _ _ _ _ _ => true
  | .ldrbtReg _ _ _ _ _ _ _ => true
  | .strImm _ p _ w _ _ _ => p || !w
  | .strReg _ p _ w _ _ _ _ _ => p || !w
  | .ldrImm _ p _ w _ _ _ => p || !w
  | .ldrReg _ p _ w _ _ _ _ _ => p || !w
  | .strbImm _ p _ w _ _ _ => p || !w
  | .strbReg _ p _ w _ _ _ _ _ => p || !w
  | .ldrbImm _ p _ w _ _ _ => p || !w
  | .ldrbReg _ p _ w _ _ _ _ _ => p || !w
  | .stm _ _ _ _ _ _ => true
  | .ldm _ _ _ _ _ _ => true
  | .stmUser _ _ _ _ _ _ => true
  | .ldmUser _ _ _ _ _ _ => true
  | .ldmRestore _ _ _ _ _ _ => true
  | .b _ _ => true
  | .bl _ _ => true
  | .stc _ _ _ _ _ _ _ _ _ => true
  | .ldc _ _ _ _ _ _ _ _ _ => true
  | .cdp _ _ _ _ _ _ _ => true
  | .mcr _ _ _ _ _ _ _ => true
  | .mrc _ _ _ _ _ _ _ => true
  | .swi _ _ => true
  | .tAddReg _ _ _ => true
  | .tSubReg _ _ _ => true
  | .tAddImm3 _ _ _ => true
  | .tSubImm3 _ _ _ => true
  | .tLslImm _ _ _ => true
  | .tLsrImm _ _ _ => true
  | .tAsrImm _ _ _ => true
  | .tMovImm8 _ _ => true
  | .tCmpImm8 _ _ => true
  | .tAddImm8 _ _ => true
  | .tSubImm8 _ _ => true
  | .tAnd _ _ => true
  | .tEor _ _ => true
  | .tLslReg _ _ => true
  | .tLsrReg _ _ => true
  | .tAsrReg _ _ => true
  | .tAdc _ _ => true
  | .tSbc _ _ => true
  | .tRor _ _ => true
  | .tTst _ _ => true
  | .tNeg _ _ => true
  | .tCmpReg _ _ => true
  | .tCmn _ _ => true
  | .tOrr _ _ => true
  | .tMul _ _ => true
  | .tBic _ _ => true
  | .tMvn _ _ => true
  | .tAddHi _ _ _ _ => true
  | .tCmpHi _ _ _ _ => true
  | .tMovHi _ _ _ _ => true
  | .tBx _ _ _ => true
  | .tLdrPc _ _ => true
  | .tStrReg _ _ _ => true
  | .tStrbReg _ _ _ => true
  | .tLdrReg _ _ _ => true
  | .tLdrbReg _ _ _ => true
  | .tStrhReg _ _ _ => true
  | .tLdsbReg _ _ _ => true
  | .tLdrhReg _ _ _ => true
  | .tLdshReg _ _ _ => true
  | .tStrImm _ _ _ => true
  | .tLdrImm _ _ _ => true
  | .tStrbImm _ _ _ => true
  | .tLdrbImm _ _ _ => true
  | .tStrhImm _ _ _ => true
  | .tLdrhImm _ _ _ => true
  | .tStrSp _ _ => true
  | .tLdrSp _ _ => true
  | .tAddPc _ _ => true
  | .tAddSp _ _ => true
  | .tAdjSp _ _ => true
  | .tPush _ _ => true
  | .tPop _ _ => true
  | .tUndef1011 bits => thumbHole bits
  | .tStmia _ _ => true
  | .tLdmia _ _ => true
  | .tUndef1110 _ => true
  | .tUndef11101 _ => true
  | .tSwi _ => true
  | .tBCond c _ => decide (c ≠ .al)
  | .tB _ => true
  | .tBlPrefix _ => true
  | .tBlSuffix _ => true

end Sys2Proof
end

