-- ==== Sys2Proof/Decode.lean ====
section
/-! DEFINITION. The decoder, total on any word, and after it the encoder, both from the formats R131 and R134; the reduced keys R143 and the reference classifiers R144 and R146. -/

namespace Sys2Proof

/-! ## Fields -/

/-- `v[hi:lo]` (R10). -/
def fieldOf (v hi lo : Nat) : Nat := v / 2 ^ lo % 2 ^ (hi + 1 - lo)

/-- `v[i]` (R10). -/
def bitOf (v i : Nat) : Bool := v / 2 ^ i % 2 == 1

/-- The `n`-bit field of `v` whose lowest bit is `lo` (R10). -/
def bitsOf (n v lo : Nat) : BitVec n := BitVec.ofNat n (v / 2 ^ lo)

/-- The condition a 4-bit field names (R140), none for 1111 (R141). -/
def Cond.ofCode : Nat → Option Cond
  | 0 => some .eq
  | 1 => some .ne
  | 2 => some .cs
  | 3 => some .cc
  | 4 => some .mi
  | 5 => some .pl
  | 6 => some .vs
  | 7 => some .vc
  | 8 => some .hi
  | 9 => some .ls
  | 10 => some .ge
  | 11 => some .lt
  | 12 => some .gt
  | 13 => some .le
  | 14 => some .al
  | _ => none

/-- The 4-bit field of a condition (R140). -/
def Cond.code : Cond → Nat
  | .eq => 0
  | .ne => 1
  | .cs => 2
  | .cc => 3
  | .mi => 4
  | .pl => 5
  | .vs => 6
  | .vc => 7
  | .hi => 8
  | .ls => 9
  | .ge => 10
  | .lt => 11
  | .gt => 12
  | .le => 13
  | .al => 14

/-- The shift a 2-bit field names: 00 LSL, 01 LSR, 10 ASR, 11 ROR (R131). -/
def ShiftKind.ofCode : Nat → ShiftKind
  | 0 => .lsl
  | 1 => .lsr
  | 2 => .asr
  | _ => .ror

/-- The 2-bit field of a shift (R131). -/
def ShiftKind.code : ShiftKind → Nat
  | .lsl => 0
  | .lsr => 1
  | .asr => 2
  | .ror => 3

/-! ## The ARM decoder (R131, R132, R144, R145); `v` is the word, `c` its condition -/

/-- Bits 27:25 = 000 with bits 7 and 4 set: multiplies, swaps, halfword and signed transfers, and the two unallocated
spaces among them (A7, A8, A9, A11, A12, R145, R253). -/
def decodeExtra (c : Cond) (v : Nat) : Instr :=
  match fieldOf v 6 5 with
  | 0 =>
    match fieldOf v 24 20 with
    | 0 => .mul c (bitOf v 20) (bitsOf 4 v 16) (bitsOf 4 v 8) (bitsOf 4 v 0)
    | 1 => .mul c (bitOf v 20) (bitsOf 4 v 16) (bitsOf 4 v 8) (bitsOf 4 v 0)
    | 2 => .mla c (bitOf v 20) (bitsOf 4 v 16) (bitsOf 4 v 12) (bitsOf 4 v 8) (bitsOf 4 v 0)
    | 3 => .mla c (bitOf v 20) (bitsOf 4 v 16) (bitsOf 4 v 12) (bitsOf 4 v 8) (bitsOf 4 v 0)
    | 8 => .umull c (bitOf v 20) (bitsOf 4 v 16) (bitsOf 4 v 12) (bitsOf 4 v 8) (bitsOf 4 v 0)
    | 9 => .umull c (bitOf v 20) (bitsOf 4 v 16) (bitsOf 4 v 12) (bitsOf 4 v 8) (bitsOf 4 v 0)
    | 10 => .umlal c (bitOf v 20) (bitsOf 4 v 16) (bitsOf 4 v 12) (bitsOf 4 v 8) (bitsOf 4 v 0)
    | 11 => .umlal c (bitOf v 20) (bitsOf 4 v 16) (bitsOf 4 v 12) (bitsOf 4 v 8) (bitsOf 4 v 0)
    | 12 => .smull c (bitOf v 20) (bitsOf 4 v 16) (bitsOf 4 v 12) (bitsOf 4 v 8) (bitsOf 4 v 0)
    | 13 => .smull c (bitOf v 20) (bitsOf 4 v 16) (bitsOf 4 v 12) (bitsOf 4 v 8) (bitsOf 4 v 0)
    | 14 => .smlal c (bitOf v 20) (bitsOf 4 v 16) (bitsOf 4 v 12) (bitsOf 4 v 8) (bitsOf 4 v 0)
    | 15 => .smlal c (bitOf v 20) (bitsOf 4 v 16) (bitsOf 4 v 12) (bitsOf 4 v 8) (bitsOf 4 v 0)
    | 16 => .swp c (bitsOf 4 v 16) (bitsOf 4 v 12) (bitsOf 4 v 0)
    | 20 => .swpb c (bitsOf 4 v 16) (bitsOf 4 v 12) (bitsOf 4 v 0)
    | _ => .unallocMul c (bitsOf 5 v 20) (bitsOf 12 v 8) (bitsOf 4 v 0)
  | 1 =>
    if bitOf v 20 then
      if bitOf v 22 then .ldrhImm c (bitOf v 24) (bitOf v 23) (bitOf v 21) (bitsOf 4 v 16) (bitsOf 4 v 12) (bitsOf 4 v 8) (bitsOf 4 v 0)
      else .ldrhReg c (bitOf v 24) (bitOf v 23) (bitOf v 21) (bitsOf 4 v 16) (bitsOf 4 v 12) (bitsOf 4 v 0)
    else if bitOf v 22 then .strhImm c (bitOf v 24) (bitOf v 23) (bitOf v 21) (bitsOf 4 v 16) (bitsOf 4 v 12) (bitsOf 4 v 8) (bitsOf 4 v 0)
    else .strhReg c (bitOf v 24) (bitOf v 23) (bitOf v 21) (bitsOf 4 v 16) (bitsOf 4 v 12) (bitsOf 4 v 0)
  | 2 =>
    if bitOf v 20 then
      if bitOf v 22 then .ldrsbImm c (bitOf v 24) (bitOf v 23) (bitOf v 21) (bitsOf 4 v 16) (bitsOf 4 v 12) (bitsOf 4 v 8) (bitsOf 4 v 0)
      else .ldrsbReg c (bitOf v 24) (bitOf v 23) (bitOf v 21) (bitsOf 4 v 16) (bitsOf 4 v 12) (bitsOf 4 v 0)
    else .unallocHalfStore c (bitsOf 4 v 21) (bitsOf 12 v 8) (bitsOf 1 v 5) (bitsOf 4 v 0)
  | _ =>
    if bitOf v 20 then
      if bitOf v 22 then .ldrshImm c (bitOf v 24) (bitOf v 23) (bitOf v 21) (bitsOf 4 v 16) (bitsOf 4 v 12) (bitsOf 4 v 8) (bitsOf 4 v 0)
      else .ldrshReg c (bitOf v 24) (bitOf v 23) (bitOf v 21) (bitsOf 4 v 16) (bitsOf 4 v 12) (bitsOf 4 v 0)
    else .unallocHalfStore c (bitsOf 4 v 21) (bitsOf 12 v 8) (bitsOf 1 v 5) (bitsOf 4 v 0)

/-- Bits 27:25 = 000, op = 10xx, S = 0, not both of bits 7 and 4 set: BX, MRS, MSR register and the unallocated rest
(A4, A5, A10, R144 priority 1, R145). -/
def decodePsrReg (c : Cond) (v : Nat) : Instr :=
  match fieldOf v 7 4 with
  | 0 =>
    if bitOf v 21 then
      if bitOf v 22 then .msrSpsrReg c (bitsOf 4 v 16) (bitsOf 4 v 0)
      else .msrCpsrReg c (bitsOf 4 v 16) (bitsOf 4 v 0)
    else .mrs c (bitOf v 22) (bitsOf 4 v 12)
  | 1 =>
    if fieldOf v 22 21 == 1 then .bx c (bitsOf 4 v 0)
    else .unallocPsr c (bitOf v 25) (bitsOf 2 v 21) (bitsOf 12 v 8) (bitsOf 4 v 4) (bitsOf 4 v 0)
  | _ => .unallocPsr c (bitOf v 25) (bitsOf 2 v 21) (bitsOf 12 v 8) (bitsOf 4 v 4) (bitsOf 4 v 0)

/-- Bits 27:25 = 001, op = 10xx, S = 0: MSR immediate and the unallocated rest (A6, R145). -/
def decodePsrImm (c : Cond) (v : Nat) : Instr :=
  if bitOf v 21 then
    if bitOf v 22 then .msrSpsrImm c (bitsOf 4 v 16) (bitsOf 4 v 8) (bitsOf 8 v 0)
    else .msrCpsrImm c (bitsOf 4 v 16) (bitsOf 4 v 8) (bitsOf 8 v 0)
  else .unallocPsr c (bitOf v 25) (bitsOf 2 v 21) (bitsOf 12 v 8) (bitsOf 4 v 4) (bitsOf 4 v 0)

/-- Data processing, format A1: the operation of bits 24:21 (R132). -/
def decodeDpImm (c : Cond) (v : Nat) : Instr :=
  match fieldOf v 24 21 with
  | 0 => .andImm c (bitOf v 20) (bitsOf 4 v 16) (bitsOf 4 v 12) (bitsOf 4 v 8) (bitsOf 8 v 0)
  | 1 => .eorImm c (bitOf v 20) (bitsOf 4 v 16) (bitsOf 4 v 12) (bitsOf 4 v 8) (bitsOf 8 v 0)
  | 2 => .subImm c (bitOf v 20) (bitsOf 4 v 16) (bitsOf 4 v 12) (bitsOf 4 v 8) (bitsOf 8 v 0)
  | 3 => .rsbImm c (bitOf v 20) (bitsOf 4 v 16) (bitsOf 4 v 12) (bitsOf 4 v 8) (bitsOf 8 v 0)
  | 4 => .addImm c (bitOf v 20) (bitsOf 4 v 16) (bitsOf 4 v 12) (bitsOf 4 v 8) (bitsOf 8 v 0)
  | 5 => .adcImm c (bitOf v 20) (bitsOf 4 v 16) (bitsOf 4 v 12) (bitsOf 4 v 8) (bitsOf 8 v 0)
  | 6 => .sbcImm c (bitOf v 20) (bitsOf 4 v 16) (bitsOf 4 v 12) (bitsOf 4 v 8) (bitsOf 8 v 0)
  | 7 => .rscImm c (bitOf v 20) (bitsOf 4 v 16) (bitsOf 4 v 12) (bitsOf 4 v 8) (bitsOf 8 v 0)
  | 8 => .tstImm c (bitsOf 4 v 16) (bitsOf 4 v 12) (bitsOf 4 v 8) (bitsOf 8 v 0)
  | 9 => .teqImm c (bitsOf 4 v 16) (bitsOf 4 v 12) (bitsOf 4 v 8) (bitsOf 8 v 0)
  | 10 => .cmpImm c (bitsOf 4 v 16) (bitsOf 4 v 12) (bitsOf 4 v 8) (bitsOf 8 v 0)
  | 11 => .cmnImm c (bitsOf 4 v 16) (bitsOf 4 v 12) (bitsOf 4 v 8) (bitsOf 8 v 0)
  | 12 => .orrImm c (bitOf v 20) (bitsOf 4 v 16) (bitsOf 4 v 12) (bitsOf 4 v 8) (bitsOf 8 v 0)
  | 13 => .movImm c (bitOf v 20) (bitsOf 4 v 12) (bitsOf 4 v 8) (bitsOf 8 v 0)
  | 14 => .bicImm c (bitOf v 20) (bitsOf 4 v 16) (bitsOf 4 v 12) (bitsOf 4 v 8) (bitsOf 8 v 0)
  | _ => .mvnImm c (bitOf v 20) (bitsOf 4 v 12) (bitsOf 4 v 8) (bitsOf 8 v 0)

/-- Data processing, format A2: the operation of bits 24:21 (R132). -/
def decodeDpImmShift (c : Cond) (v : Nat) : Instr :=
  match fieldOf v 24 21 with
  | 0 => .andImmShift c (bitOf v 20) (bitsOf 4 v 16) (bitsOf 4 v 12) (bitsOf 5 v 7) (ShiftKind.ofCode (fieldOf v 6 5)) (bitsOf 4 v 0)
  | 1 => .eorImmShift c (bitOf v 20) (bitsOf 4 v 16) (bitsOf 4 v 12) (bitsOf 5 v 7) (ShiftKind.ofCode (fieldOf v 6 5)) (bitsOf 4 v 0)
  | 2 => .subImmShift c (bitOf v 20) (bitsOf 4 v 16) (bitsOf 4 v 12) (bitsOf 5 v 7) (ShiftKind.ofCode (fieldOf v 6 5)) (bitsOf 4 v 0)
  | 3 => .rsbImmShift c (bitOf v 20) (bitsOf 4 v 16) (bitsOf 4 v 12) (bitsOf 5 v 7) (ShiftKind.ofCode (fieldOf v 6 5)) (bitsOf 4 v 0)
  | 4 => .addImmShift c (bitOf v 20) (bitsOf 4 v 16) (bitsOf 4 v 12) (bitsOf 5 v 7) (ShiftKind.ofCode (fieldOf v 6 5)) (bitsOf 4 v 0)
  | 5 => .adcImmShift c (bitOf v 20) (bitsOf 4 v 16) (bitsOf 4 v 12) (bitsOf 5 v 7) (ShiftKind.ofCode (fieldOf v 6 5)) (bitsOf 4 v 0)
  | 6 => .sbcImmShift c (bitOf v 20) (bitsOf 4 v 16) (bitsOf 4 v 12) (bitsOf 5 v 7) (ShiftKind.ofCode (fieldOf v 6 5)) (bitsOf 4 v 0)
  | 7 => .rscImmShift c (bitOf v 20) (bitsOf 4 v 16) (bitsOf 4 v 12) (bitsOf 5 v 7) (ShiftKind.ofCode (fieldOf v 6 5)) (bitsOf 4 v 0)
  | 8 => .tstImmShift c (bitsOf 4 v 16) (bitsOf 4 v 12) (bitsOf 5 v 7) (ShiftKind.ofCode (fieldOf v 6 5)) (bitsOf 4 v 0)
  | 9 => .teqImmShift c (bitsOf 4 v 16) (bitsOf 4 v 12) (bitsOf 5 v 7) (ShiftKind.ofCode (fieldOf v 6 5)) (bitsOf 4 v 0)
  | 10 => .cmpImmShift c (bitsOf 4 v 16) (bitsOf 4 v 12) (bitsOf 5 v 7) (ShiftKind.ofCode (fieldOf v 6 5)) (bitsOf 4 v 0)
  | 11 => .cmnImmShift c (bitsOf 4 v 16) (bitsOf 4 v 12) (bitsOf 5 v 7) (ShiftKind.ofCode (fieldOf v 6 5)) (bitsOf 4 v 0)
  | 12 => .orrImmShift c (bitOf v 20) (bitsOf 4 v 16) (bitsOf 4 v 12) (bitsOf 5 v 7) (ShiftKind.ofCode (fieldOf v 6 5)) (bitsOf 4 v 0)
  | 13 => .movImmShift c (bitOf v 20) (bitsOf 4 v 12) (bitsOf 5 v 7) (ShiftKind.ofCode (fieldOf v 6 5)) (bitsOf 4 v 0)
  | 14 => .bicImmShift c (bitOf v 20) (bitsOf 4 v 16) (bitsOf 4 v 12) (bitsOf 5 v 7) (ShiftKind.ofCode (fieldOf v 6 5)) (bitsOf 4 v 0)
  | _ => .mvnImmShift c (bitOf v 20) (bitsOf 4 v 12) (bitsOf 5 v 7) (ShiftKind.ofCode (fieldOf v 6 5)) (bitsOf 4 v 0)

/-- Data processing, format A3: the operation of bits 24:21 (R132). -/
def decodeDpRegShift (c : Cond) (v : Nat) : Instr :=
  match fieldOf v 24 21 with
  | 0 => .andRegShift c (bitOf v 20) (bitsOf 4 v 16) (bitsOf 4 v 12) (bitsOf 4 v 8) (ShiftKind.ofCode (fieldOf v 6 5)) (bitsOf 4 v 0)
  | 1 => .eorRegShift c (bitOf v 20) (bitsOf 4 v 16) (bitsOf 4 v 12) (bitsOf 4 v 8) (ShiftKind.ofCode (fieldOf v 6 5)) (bitsOf 4 v 0)
  | 2 => .subRegShift c (bitOf v 20) (bitsOf 4 v 16) (bitsOf 4 v 12) (bitsOf 4 v 8) (ShiftKind.ofCode (fieldOf v 6 5)) (bitsOf 4 v 0)
  | 3 => .rsbRegShift c (bitOf v 20) (bitsOf 4 v 16) (bitsOf 4 v 12) (bitsOf 4 v 8) (ShiftKind.ofCode (fieldOf v 6 5)) (bitsOf 4 v 0)
  | 4 => .addRegShift c (bitOf v 20) (bitsOf 4 v 16) (bitsOf 4 v 12) (bitsOf 4 v 8) (ShiftKind.ofCode (fieldOf v 6 5)) (bitsOf 4 v 0)
  | 5 => .adcRegShift c (bitOf v 20) (bitsOf 4 v 16) (bitsOf 4 v 12) (bitsOf 4 v 8) (ShiftKind.ofCode (fieldOf v 6 5)) (bitsOf 4 v 0)
  | 6 => .sbcRegShift c (bitOf v 20) (bitsOf 4 v 16) (bitsOf 4 v 12) (bitsOf 4 v 8) (ShiftKind.ofCode (fieldOf v 6 5)) (bitsOf 4 v 0)
  | 7 => .rscRegShift c (bitOf v 20) (bitsOf 4 v 16) (bitsOf 4 v 12) (bitsOf 4 v 8) (ShiftKind.ofCode (fieldOf v 6 5)) (bitsOf 4 v 0)
  | 8 => .tstRegShift c (bitsOf 4 v 16) (bitsOf 4 v 12) (bitsOf 4 v 8) (ShiftKind.ofCode (fieldOf v 6 5)) (bitsOf 4 v 0)
  | 9 => .teqRegShift c (bitsOf 4 v 16) (bitsOf 4 v 12) (bitsOf 4 v 8) (ShiftKind.ofCode (fieldOf v 6 5)) (bitsOf 4 v 0)
  | 10 => .cmpRegShift c (bitsOf 4 v 16) (bitsOf 4 v 12) (bitsOf 4 v 8) (ShiftKind.ofCode (fieldOf v 6 5)) (bitsOf 4 v 0)
  | 11 => .cmnRegShift c (bitsOf 4 v 16) (bitsOf 4 v 12) (bitsOf 4 v 8) (ShiftKind.ofCode (fieldOf v 6 5)) (bitsOf 4 v 0)
  | 12 => .orrRegShift c (bitOf v 20) (bitsOf 4 v 16) (bitsOf 4 v 12) (bitsOf 4 v 8) (ShiftKind.ofCode (fieldOf v 6 5)) (bitsOf 4 v 0)
  | 13 => .movRegShift c (bitOf v 20) (bitsOf 4 v 12) (bitsOf 4 v 8) (ShiftKind.ofCode (fieldOf v 6 5)) (bitsOf 4 v 0)
  | 14 => .bicRegShift c (bitOf v 20) (bitsOf 4 v 16) (bitsOf 4 v 12) (bitsOf 4 v 8) (ShiftKind.ofCode (fieldOf v 6 5)) (bitsOf 4 v 0)
  | _ => .mvnRegShift c (bitOf v 20) (bitsOf 4 v 12) (bitsOf 4 v 8) (ShiftKind.ofCode (fieldOf v 6 5)) (bitsOf 4 v 0)

/-- Single data transfer, format A13: B (22), L (20), and P = 0 with W = 1 for the user-mode variants (R133, R240). -/
def decodeTransferImm (c : Cond) (v : Nat) : Instr :=
  if !bitOf v 24 && bitOf v 21 then
    if bitOf v 22 then
      if bitOf v 20 then .ldrbtImm c (bitOf v 23) (bitsOf 4 v 16) (bitsOf 4 v 12) (bitsOf 12 v 0)
      else .strbtImm c (bitOf v 23) (bitsOf 4 v 16) (bitsOf 4 v 12) (bitsOf 12 v 0)
    else if bitOf v 20 then .ldrtImm c (bitOf v 23) (bitsOf 4 v 16) (bitsOf 4 v 12) (bitsOf 12 v 0)
    else .strtImm c (bitOf v 23) (bitsOf 4 v 16) (bitsOf 4 v 12) (bitsOf 12 v 0)
  else if bitOf v 22 then
    if bitOf v 20 then .ldrbImm c (bitOf v 24) (bitOf v 23) (bitOf v 21) (bitsOf 4 v 16) (bitsOf 4 v 12) (bitsOf 12 v 0)
    else .strbImm c (bitOf v 24) (bitOf v 23) (bitOf v 21) (bitsOf 4 v 16) (bitsOf 4 v 12) (bitsOf 12 v 0)
  else if bitOf v 20 then .ldrImm c (bitOf v 24) (bitOf v 23) (bitOf v 21) (bitsOf 4 v 16) (bitsOf 4 v 12) (bitsOf 12 v 0)
  else .strImm c (bitOf v 24) (bitOf v 23) (bitOf v 21) (bitsOf 4 v 16) (bitsOf 4 v 12) (bitsOf 12 v 0)

/-- Single data transfer, format A14: B (22), L (20), and P = 0 with W = 1 for the user-mode variants (R133, R240). -/
def decodeTransferReg (c : Cond) (v : Nat) : Instr :=
  if !bitOf v 24 && bitOf v 21 then
    if bitOf v 22 then
      if bitOf v 20 then .ldrbtReg c (bitOf v 23) (bitsOf 4 v 16) (bitsOf 4 v 12) (bitsOf 5 v 7) (ShiftKind.ofCode (fieldOf v 6 5)) (bitsOf 4 v 0)
      else .strbtReg c (bitOf v 23) (bitsOf 4 v 16) (bitsOf 4 v 12) (bitsOf 5 v 7) (ShiftKind.ofCode (fieldOf v 6 5)) (bitsOf 4 v 0)
    else if bitOf v 20 then .ldrtReg c (bitOf v 23) (bitsOf 4 v 16) (bitsOf 4 v 12) (bitsOf 5 v 7) (ShiftKind.ofCode (fieldOf v 6 5)) (bitsOf 4 v 0)
    else .strtReg c (bitOf v 23) (bitsOf 4 v 16) (bitsOf 4 v 12) (bitsOf 5 v 7) (ShiftKind.ofCode (fieldOf v 6 5)) (bitsOf 4 v 0)
  else if bitOf v 22 then
    if bitOf v 20 then .ldrbReg c (bitOf v 24) (bitOf v 23) (bitOf v 21) (bitsOf 4 v 16) (bitsOf 4 v 12) (bitsOf 5 v 7) (ShiftKind.ofCode (fieldOf v 6 5)) (bitsOf 4 v 0)
    else .strbReg c (bitOf v 24) (bitOf v 23) (bitOf v 21) (bitsOf 4 v 16) (bitsOf 4 v 12) (bitsOf 5 v 7) (ShiftKind.ofCode (fieldOf v 6 5)) (bitsOf 4 v 0)
  else if bitOf v 20 then .ldrReg c (bitOf v 24) (bitOf v 23) (bitOf v 21) (bitsOf 4 v 16) (bitsOf 4 v 12) (bitsOf 5 v 7) (ShiftKind.ofCode (fieldOf v 6 5)) (bitsOf 4 v 0)
  else .strReg c (bitOf v 24) (bitOf v 23) (bitOf v 21) (bitsOf 4 v 16) (bitsOf 4 v 12) (bitsOf 5 v 7) (ShiftKind.ofCode (fieldOf v 6 5)) (bitsOf 4 v 0)

/-- Block data transfer, format A16: S (22), L (20), and R15 in the list for the PSR restore (R133, R266, R267). -/
def decodeBlock (c : Cond) (v : Nat) : Instr :=
  if bitOf v 22 then
    if bitOf v 20 then
      if bitOf v 15 then .ldmRestore c (bitOf v 24) (bitOf v 23) (bitOf v 21) (bitsOf 4 v 16) (bitsOf 15 v 0)
      else .ldmUser c (bitOf v 24) (bitOf v 23) (bitOf v 21) (bitsOf 4 v 16) (bitsOf 15 v 0)
    else .stmUser c (bitOf v 24) (bitOf v 23) (bitOf v 21) (bitsOf 4 v 16) (bitsOf 16 v 0)
  else if bitOf v 20 then .ldm c (bitOf v 24) (bitOf v 23) (bitOf v 21) (bitsOf 4 v 16) (bitsOf 16 v 0)
  else .stm c (bitOf v 24) (bitOf v 23) (bitOf v 21) (bitsOf 4 v 16) (bitsOf 16 v 0)

/-- Bits 27:25 = 111: software interrupt, coprocessor operation and register transfer (A19, A20, A21). -/
def decodeCoprocessor (c : Cond) (v : Nat) : Instr :=
  if bitOf v 24 then .swi c (bitsOf 24 v 0)
  else if bitOf v 4 then
    if bitOf v 20 then .mrc c (bitsOf 3 v 21) (bitsOf 4 v 16) (bitsOf 4 v 12) (bitsOf 4 v 8) (bitsOf 3 v 5) (bitsOf 4 v 0)
    else .mcr c (bitsOf 3 v 21) (bitsOf 4 v 16) (bitsOf 4 v 12) (bitsOf 4 v 8) (bitsOf 3 v 5) (bitsOf 4 v 0)
  else .cdp c (bitsOf 4 v 20) (bitsOf 4 v 16) (bitsOf 4 v 12) (bitsOf 4 v 8) (bitsOf 3 v 5) (bitsOf 4 v 0)

/-- Whether op = 10xx and S = 0 (bits 24:23 and 20): the PSR-transfer space of R145. -/
def psrSpace (v : Nat) : Bool := fieldOf v 24 23 == 2 && !bitOf v 20

/-- The ARM decoder: condition 1111 first (R141), then the categories (R144). Every word has a row. -/
def decodeArm (w : BitVec 32) : Instr :=
  let v := w.toNat
  match Cond.ofCode (fieldOf v 31 28) with
  | none => .cond1111 (bitsOf 28 v 0)
  | some c =>
    match fieldOf v 27 25 with
    | 0 =>
      if bitOf v 7 && bitOf v 4 then decodeExtra c v
      else if psrSpace v then decodePsrReg c v
      else if bitOf v 4 then decodeDpRegShift c v
      else decodeDpImmShift c v
    | 1 => if psrSpace v then decodePsrImm c v else decodeDpImm c v
    | 2 => decodeTransferImm c v
    | 3 => if bitOf v 4 then .undefined c (bitsOf 20 v 5) (bitsOf 4 v 0) else decodeTransferReg c v
    | 4 => decodeBlock c v
    | 5 => if bitOf v 24 then .bl c (bitsOf 24 v 0) else .b c (bitsOf 24 v 0)
    | 6 => if bitOf v 20 then .ldc c (bitOf v 24) (bitOf v 23) (bitOf v 22) (bitOf v 21) (bitsOf 4 v 16) (bitsOf 4 v 12) (bitsOf 4 v 8) (bitsOf 8 v 0) else .stc c (bitOf v 24) (bitOf v 23) (bitOf v 22) (bitOf v 21) (bitsOf 4 v 16) (bitsOf 4 v 12) (bitsOf 4 v 8) (bitsOf 8 v 0)
    | _ => decodeCoprocessor c v

/-! ## The Thumb decoder (R134, R146) -/

/-- T4: the operation of bits 9:6 (R134). -/
def decodeThumbAlu (v : Nat) : Instr :=
  match fieldOf v 9 6 with
  | 0 => .tAnd (bitsOf 3 v 3) (bitsOf 3 v 0)
  | 1 => .tEor (bitsOf 3 v 3) (bitsOf 3 v 0)
  | 2 => .tLslReg (bitsOf 3 v 3) (bitsOf 3 v 0)
  | 3 => .tLsrReg (bitsOf 3 v 3) (bitsOf 3 v 0)
  | 4 => .tAsrReg (bitsOf 3 v 3) (bitsOf 3 v 0)
  | 5 => .tAdc (bitsOf 3 v 3) (bitsOf 3 v 0)
  | 6 => .tSbc (bitsOf 3 v 3) (bitsOf 3 v 0)
  | 7 => .tRor (bitsOf 3 v 3) (bitsOf 3 v 0)
  | 8 => .tTst (bitsOf 3 v 3) (bitsOf 3 v 0)
  | 9 => .tNeg (bitsOf 3 v 3) (bitsOf 3 v 0)
  | 10 => .tCmpReg (bitsOf 3 v 3) (bitsOf 3 v 0)
  | 11 => .tCmn (bitsOf 3 v 3) (bitsOf 3 v 0)
  | 12 => .tOrr (bitsOf 3 v 3) (bitsOf 3 v 0)
  | 13 => .tMul (bitsOf 3 v 3) (bitsOf 3 v 0)
  | 14 => .tBic (bitsOf 3 v 3) (bitsOf 3 v 0)
  | _ => .tMvn (bitsOf 3 v 3) (bitsOf 3 v 0)

/-- T7 and T8: bits 11:9 (R134). -/
def decodeThumbRegOffset (v : Nat) : Instr :=
  match fieldOf v 11 9 with
  | 0 => .tStrReg (bitsOf 3 v 6) (bitsOf 3 v 3) (bitsOf 3 v 0)
  | 1 => .tStrhReg (bitsOf 3 v 6) (bitsOf 3 v 3) (bitsOf 3 v 0)
  | 2 => .tStrbReg (bitsOf 3 v 6) (bitsOf 3 v 3) (bitsOf 3 v 0)
  | 3 => .tLdsbReg (bitsOf 3 v 6) (bitsOf 3 v 3) (bitsOf 3 v 0)
  | 4 => .tLdrReg (bitsOf 3 v 6) (bitsOf 3 v 3) (bitsOf 3 v 0)
  | 5 => .tLdrhReg (bitsOf 3 v 6) (bitsOf 3 v 3) (bitsOf 3 v 0)
  | 6 => .tLdrbReg (bitsOf 3 v 6) (bitsOf 3 v 3) (bitsOf 3 v 0)
  | _ => .tLdshReg (bitsOf 3 v 6) (bitsOf 3 v 3) (bitsOf 3 v 0)

/-- Bits 15:13 = 000: T1, and T2 where bits 12:11 are 11 (R134). -/
def decodeThumbShiftAdd (v : Nat) : Instr :=
  match fieldOf v 12 11 with
  | 0 => .tLslImm (bitsOf 5 v 6) (bitsOf 3 v 3) (bitsOf 3 v 0)
  | 1 => .tLsrImm (bitsOf 5 v 6) (bitsOf 3 v 3) (bitsOf 3 v 0)
  | 2 => .tAsrImm (bitsOf 5 v 6) (bitsOf 3 v 3) (bitsOf 3 v 0)
  | _ =>
    match fieldOf v 10 9 with
    | 0 => .tAddReg (bitsOf 3 v 6) (bitsOf 3 v 3) (bitsOf 3 v 0)
    | 1 => .tSubReg (bitsOf 3 v 6) (bitsOf 3 v 3) (bitsOf 3 v 0)
    | 2 => .tAddImm3 (bitsOf 3 v 6) (bitsOf 3 v 3) (bitsOf 3 v 0)
    | _ => .tSubImm3 (bitsOf 3 v 6) (bitsOf 3 v 3) (bitsOf 3 v 0)

/-- T3: bits 12:11 (R134). -/
def decodeThumbImm8 (v : Nat) : Instr :=
  match fieldOf v 12 11 with
  | 0 => .tMovImm8 (bitsOf 3 v 8) (bitsOf 8 v 0)
  | 1 => .tCmpImm8 (bitsOf 3 v 8) (bitsOf 8 v 0)
  | 2 => .tAddImm8 (bitsOf 3 v 8) (bitsOf 8 v 0)
  | _ => .tSubImm8 (bitsOf 3 v 8) (bitsOf 8 v 0)

/-- T5: bits 9:8 (R134). -/
def decodeThumbHi (v : Nat) : Instr :=
  match fieldOf v 9 8 with
  | 0 => .tAddHi (bitOf v 7) (bitOf v 6) (bitsOf 3 v 3) (bitsOf 3 v 0)
  | 1 => .tCmpHi (bitOf v 7) (bitOf v 6) (bitsOf 3 v 3) (bitsOf 3 v 0)
  | 2 => .tMovHi (bitOf v 7) (bitOf v 6) (bitsOf 3 v 3) (bitsOf 3 v 0)
  | _ => .tBx (bitOf v 7) (bitOf v 6) (bitsOf 3 v 3)

/-- T9: B (12) and L (11) (R134). -/
def decodeThumbImmOffset (v : Nat) : Instr :=
  match fieldOf v 12 11 with
  | 0 => .tStrImm (bitsOf 5 v 6) (bitsOf 3 v 3) (bitsOf 3 v 0)
  | 1 => .tLdrImm (bitsOf 5 v 6) (bitsOf 3 v 3) (bitsOf 3 v 0)
  | 2 => .tStrbImm (bitsOf 5 v 6) (bitsOf 3 v 3) (bitsOf 3 v 0)
  | _ => .tLdrbImm (bitsOf 5 v 6) (bitsOf 3 v 3) (bitsOf 3 v 0)

/-- Bits 15:13 = 101: T12, T13, T14 and the 1011 holes (R134, R146). -/
def decodeThumbMisc (v : Nat) : Instr :=
  if bitOf v 12 then
    if fieldOf v 11 8 == 0 then .tAdjSp (bitOf v 7) (bitsOf 7 v 0)
    else if fieldOf v 10 9 == 2 then
      if bitOf v 11 then .tPop (bitOf v 8) (bitsOf 8 v 0) else .tPush (bitOf v 8) (bitsOf 8 v 0)
    else .tUndef1011 (bitsOf 12 v 0)
  else if bitOf v 11 then .tAddSp (bitsOf 3 v 8) (bitsOf 8 v 0)
  else .tAddPc (bitsOf 3 v 8) (bitsOf 8 v 0)

/-- Bits 15:13 = 110: T15, T16, T17 and 0xDExx (R134, R146). -/
def decodeThumbBlockBranch (v : Nat) : Instr :=
  if bitOf v 12 then
    match Cond.ofCode (fieldOf v 11 8) with
    | none => .tSwi (bitsOf 8 v 0)
    | some .al => .tUndef1110 (bitsOf 8 v 0)
    | some c => .tBCond c (bitsOf 8 v 0)
  else if bitOf v 11 then .tLdmia (bitsOf 3 v 8) (bitsOf 8 v 0)
  else .tStmia (bitsOf 3 v 8) (bitsOf 8 v 0)

/-- Bits 15:13 = 111: T18, the 11101 space and T19 (R134, R146). -/
def decodeThumbBranch (v : Nat) : Instr :=
  match fieldOf v 12 11 with
  | 0 => .tB (bitsOf 11 v 0)
  | 1 => .tUndef11101 (bitsOf 11 v 0)
  | 2 => .tBlPrefix (bitsOf 11 v 0)
  | _ => .tBlSuffix (bitsOf 11 v 0)

/-- The Thumb decoder. Every halfword has a row (R146). -/
def decodeThumb (h : BitVec 16) : Instr :=
  let v := h.toNat
  match fieldOf v 15 13 with
  | 0 => decodeThumbShiftAdd v
  | 1 => decodeThumbImm8 v
  | 2 =>
    if bitOf v 12 then decodeThumbRegOffset v
    else if bitOf v 11 then .tLdrPc (bitsOf 3 v 8) (bitsOf 8 v 0)
    else if bitOf v 10 then decodeThumbHi v
    else decodeThumbAlu v
  | 3 => decodeThumbImmOffset v
  | 4 =>
    if bitOf v 12 then
      if bitOf v 11 then .tLdrSp (bitsOf 3 v 8) (bitsOf 8 v 0) else .tStrSp (bitsOf 3 v 8) (bitsOf 8 v 0)
    else if bitOf v 11 then .tLdrhImm (bitsOf 5 v 6) (bitsOf 3 v 3) (bitsOf 3 v 0)
    else .tStrhImm (bitsOf 5 v 6) (bitsOf 3 v 3) (bitsOf 3 v 0)
  | 5 => decodeThumbMisc v
  | 6 => decodeThumbBlockBranch v
  | _ => decodeThumbBranch v

/-! ## Words, bytes and the host's table words -/

/-- An instruction's word: 32 bits in ARM state, 16 in Thumb state (R130). -/
inductive Code where
  | arm (w : BitVec 32)
  | thumb (h : BitVec 16)
  deriving DecidableEq, Repr

/-- The instruction of a word (R142). -/
def decodeCode : Code → Instr
  | .arm w => decodeArm w
  | .thumb h => decodeThumb h

/-- Why bytes decode to no instruction: there are fewer of them than CPSR.T asks for. Every word of full length has a
row, so there is no other reason. -/
inductive DecodeError where
  | tooShort
  deriving DecidableEq, Repr

/-- The instruction at the head of a list of bytes, little-endian (R76), at the width the encoding selector names
(R130), with the bytes after it. -/
def decodeBytes (thumb : Bool) (bytes : List Byte) : Except DecodeError (Instr × List Byte) :=
  match thumb, bytes with
  | true, b0 :: b1 :: rest => .ok (decodeThumb (b1 ++ b0), rest)
  | false, b0 :: b1 :: b2 :: b3 :: rest => .ok (decodeArm (b3 ++ b2 ++ b1 ++ b0), rest)
  | _, _ => .error .tooShort

/-- The bytes of a word as memory holds it: little-endian (R76). -/
def Code.bytes : Code → List Byte
  | .arm w => [bitsOf 8 w.toNat 0, bitsOf 8 w.toNat 8, bitsOf 8 w.toNat 16, bitsOf 8 w.toNat 24]
  | .thumb h => [bitsOf 8 h.toNat 0, bitsOf 8 h.toNat 8]

/-- The word whose bits spec/opcode_table.json numbers as `w`: a Thumb halfword where the table gives the row at most
16 bits, an ARM word otherwise. -/
def tableCode (nbits w : Nat) : Code :=
  if nbits ≤ 16 then .thumb (BitVec.ofNat 16 w) else .arm (BitVec.ofNat 32 w)

/-- The instruction the decoder reads from the word `w` of an opcode-table row of `nbits` bits. -/
def decodeTableWord (nbits w : Nat) : Option Instr :=
  match decodeBytes (decide (nbits ≤ 16)) (tableCode nbits w).bytes with
  | .ok (i, _) => some i
  | .error _ => none

/-! ## The encoder -/

/-- A word from its fixed bits and its fields, each a value and the bit it starts at (R10). -/
def packFields (base : Nat) : List (Nat × Nat) → Nat
  | [] => base
  | (v, lo) :: fs => v * 2 ^ lo + packFields base fs

/-- The ARM word with the fixed bits `base`, the condition `c` and the fields `fs` (R131). -/
def armWord (base : Nat) (c : Cond) (fs : List (Nat × Nat)) : Code :=
  .arm (BitVec.ofNat 32 (packFields base ((c.code, 28) :: fs)))

/-- The Thumb halfword with the fixed bits `base` and the fields `fs` (R134). -/
def thumbWord (base : Nat) (fs : List (Nat × Nat)) : Code :=
  .thumb (BitVec.ofNat 16 (packFields base fs))

/-- The word of an instruction, from the formats R131 and R134; SBO fields are ones and SBZ fields zeros. -/
def encode : Instr → Code
  | .cond1111 bits => .arm (BitVec.ofNat 32 (packFields 0xF0000000 [(bits.toNat, 0)]))
  | .bx c rm => armWord 0x012FFF10 c [(rm.toNat, 0)]
  | .swp c rn rd rm => armWord 0x01000090 c [(rn.toNat, 16), (rd.toNat, 12), (rm.toNat, 0)]
  | .swpb c rn rd rm => armWord 0x01400090 c [(rn.toNat, 16), (rd.toNat, 12), (rm.toNat, 0)]
  | .mul c sf rd rs rm => armWord 0x00000090 c [(sf.toNat, 20), (rd.toNat, 16), (rs.toNat, 8), (rm.toNat, 0)]
  | .mla c sf rd rn rs rm => armWord 0x00200090 c [(sf.toNat, 20), (rd.toNat, 16), (rn.toNat, 12), (rs.toNat, 8), (rm.toNat, 0)]
  | .umull c sf rdHi rdLo rs rm => armWord 0x00800090 c [(sf.toNat, 20), (rdHi.toNat, 16), (rdLo.toNat, 12), (rs.toNat, 8), (rm.toNat, 0)]
  | .umlal c sf rdHi rdLo rs rm => armWord 0x00A00090 c [(sf.toNat, 20), (rdHi.toNat, 16), (rdLo.toNat, 12), (rs.toNat, 8), (rm.toNat, 0)]
  | .smull c sf rdHi rdLo rs rm => armWord 0x00C00090 c [(sf.toNat, 20), (rdHi.toNat, 16), (rdLo.toNat, 12), (rs.toNat, 8), (rm.toNat, 0)]
  | .smlal c sf rdHi rdLo rs rm => armWord 0x00E00090 c [(sf.toNat, 20), (rdHi.toNat, 16), (rdLo.toNat, 12), (rs.toNat, 8), (rm.toNat, 0)]
  | .strhReg c p u w rn rd rm => armWord 0x000000B0 c [(p.toNat, 24), (u.toNat, 23), (w.toNat, 21), (rn.toNat, 16), (rd.toNat, 12), (rm.toNat, 0)]
  | .strhImm c p u w rn rd immH immL => armWord 0x004000B0 c [(p.toNat, 24), (u.toNat, 23), (w.toNat, 21), (rn.toNat, 16), (rd.toNat, 12), (immH.toNat, 8), (immL.toNat, 0)]
  | .ldrhReg c p u w rn rd rm => armWord 0x001000B0 c [(p.toNat, 24), (u.toNat, 23), (w.toNat, 21), (rn.toNat, 16), (rd.toNat, 12), (rm.toNat, 0)]
  | .ldrhImm c p u w rn rd immH immL => armWord 0x005000B0 c [(p.toNat, 24), (u.toNat, 23), (w.toNat, 21), (rn.toNat, 16), (rd.toNat, 12), (immH.toNat, 8), (immL.toNat, 0)]
  | .ldrsbReg c p u w rn rd rm => armWord 0x001000D0 c [(p.toNat, 24), (u.toNat, 23), (w.toNat, 21), (rn.toNat, 16), (rd.toNat, 12), (rm.toNat, 0)]
  | .ldrsbImm c p u w rn rd immH immL => armWord 0x005000D0 c [(p.toNat, 24), (u.toNat, 23), (w.toNat, 21), (rn.toNat, 16), (rd.toNat, 12), (immH.toNat, 8), (immL.toNat, 0)]
  | .ldrshReg c p u w rn rd rm => armWord 0x001000F0 c [(p.toNat, 24), (u.toNat, 23), (w.toNat, 21), (rn.toNat, 16), (rd.toNat, 12), (rm.toNat, 0)]
  | .ldrshImm c p u w rn rd immH immL => armWord 0x005000F0 c [(p.toNat, 24), (u.toNat, 23), (w.toNat, 21), (rn.toNat, 16), (rd.toNat, 12), (immH.toNat, 8), (immL.toNat, 0)]
  | .unallocHalfStore c hi mid sh lo => armWord 0x000000D0 c [(hi.toNat, 21), (mid.toNat, 8), (sh.toNat, 5), (lo.toNat, 0)]
  | .unallocMul c op mid lo => armWord 0x00000090 c [(op.toNat, 20), (mid.toNat, 8), (lo.toNat, 0)]
  | .mrs c r rd => armWord 0x010F0000 c [(r.toNat, 22), (rd.toNat, 12)]
  | .msrCpsrReg c mask rm => armWord 0x0120F000 c [(mask.toNat, 16), (rm.toNat, 0)]
  | .msrSpsrReg c mask rm => armWord 0x0160F000 c [(mask.toNat, 16), (rm.toNat, 0)]
  | .msrCpsrImm c mask rot imm => armWord 0x0320F000 c [(mask.toNat, 16), (rot.toNat, 8), (imm.toNat, 0)]
  | .msrSpsrImm c mask rot imm => armWord 0x0360F000 c [(mask.toNat, 16), (rot.toNat, 8), (imm.toNat, 0)]
  | .unallocPsr c im op mid nib lo => armWord 0x01000000 c [(im.toNat, 25), (op.toNat, 21), (mid.toNat, 8), (nib.toNat, 4), (lo.toNat, 0)]
  | .andImm c sf rn rd rot imm => armWord 0x02000000 c [(sf.toNat, 20), (rn.toNat, 16), (rd.toNat, 12), (rot.toNat, 8), (imm.toNat, 0)]
  | .andImmShift c sf rn rd n sh rm => armWord 0x00000000 c [(sf.toNat, 20), (rn.toNat, 16), (rd.toNat, 12), (n.toNat, 7), (sh.code, 5), (rm.toNat, 0)]
  | .andRegShift c sf rn rd rs sh rm => armWord 0x00000010 c [(sf.toNat, 20), (rn.toNat, 16), (rd.toNat, 12), (rs.toNat, 8), (sh.code, 5), (rm.toNat, 0)]
  | .eorImm c sf rn rd rot imm => armWord 0x02200000 c [(sf.toNat, 20), (rn.toNat, 16), (rd.toNat, 12), (rot.toNat, 8), (imm.toNat, 0)]
  | .eorImmShift c sf rn rd n sh rm => armWord 0x00200000 c [(sf.toNat, 20), (rn.toNat, 16), (rd.toNat, 12), (n.toNat, 7), (sh.code, 5), (rm.toNat, 0)]
  | .eorRegShift c sf rn rd rs sh rm => armWord 0x00200010 c [(sf.toNat, 20), (rn.toNat, 16), (rd.toNat, 12), (rs.toNat, 8), (sh.code, 5), (rm.toNat, 0)]
  | .subImm c sf rn rd rot imm => armWord 0x02400000 c [(sf.toNat, 20), (rn.toNat, 16), (rd.toNat, 12), (rot.toNat, 8), (imm.toNat, 0)]
  | .subImmShift c sf rn rd n sh rm => armWord 0x00400000 c [(sf.toNat, 20), (rn.toNat, 16), (rd.toNat, 12), (n.toNat, 7), (sh.code, 5), (rm.toNat, 0)]
  | .subRegShift c sf rn rd rs sh rm => armWord 0x00400010 c [(sf.toNat, 20), (rn.toNat, 16), (rd.toNat, 12), (rs.toNat, 8), (sh.code, 5), (rm.toNat, 0)]
  | .rsbImm c sf rn rd rot imm => armWord 0x02600000 c [(sf.toNat, 20), (rn.toNat, 16), (rd.toNat, 12), (rot.toNat, 8), (imm.toNat, 0)]
  | .rsbImmShift c sf rn rd n sh rm => armWord 0x00600000 c [(sf.toNat, 20), (rn.toNat, 16), (rd.toNat, 12), (n.toNat, 7), (sh.code, 5), (rm.toNat, 0)]
  | .rsbRegShift c sf rn rd rs sh rm => armWord 0x00600010 c [(sf.toNat, 20), (rn.toNat, 16), (rd.toNat, 12), (rs.toNat, 8), (sh.code, 5), (rm.toNat, 0)]
  | .addImm c sf rn rd rot imm => armWord 0x02800000 c [(sf.toNat, 20), (rn.toNat, 16), (rd.toNat, 12), (rot.toNat, 8), (imm.toNat, 0)]
  | .addImmShift c sf rn rd n sh rm => armWord 0x00800000 c [(sf.toNat, 20), (rn.toNat, 16), (rd.toNat, 12), (n.toNat, 7), (sh.code, 5), (rm.toNat, 0)]
  | .addRegShift c sf rn rd rs sh rm => armWord 0x00800010 c [(sf.toNat, 20), (rn.toNat, 16), (rd.toNat, 12), (rs.toNat, 8), (sh.code, 5), (rm.toNat, 0)]
  | .adcImm c sf rn rd rot imm => armWord 0x02A00000 c [(sf.toNat, 20), (rn.toNat, 16), (rd.toNat, 12), (rot.toNat, 8), (imm.toNat, 0)]
  | .adcImmShift c sf rn rd n sh rm => armWord 0x00A00000 c [(sf.toNat, 20), (rn.toNat, 16), (rd.toNat, 12), (n.toNat, 7), (sh.code, 5), (rm.toNat, 0)]
  | .adcRegShift c sf rn rd rs sh rm => armWord 0x00A00010 c [(sf.toNat, 20), (rn.toNat, 16), (rd.toNat, 12), (rs.toNat, 8), (sh.code, 5), (rm.toNat, 0)]
  | .sbcImm c sf rn rd rot imm => armWord 0x02C00000 c [(sf.toNat, 20), (rn.toNat, 16), (rd.toNat, 12), (rot.toNat, 8), (imm.toNat, 0)]
  | .sbcImmShift c sf rn rd n sh rm => armWord 0x00C00000 c [(sf.toNat, 20), (rn.toNat, 16), (rd.toNat, 12), (n.toNat, 7), (sh.code, 5), (rm.toNat, 0)]
  | .sbcRegShift c sf rn rd rs sh rm => armWord 0x00C00010 c [(sf.toNat, 20), (rn.toNat, 16), (rd.toNat, 12), (rs.toNat, 8), (sh.code, 5), (rm.toNat, 0)]
  | .rscImm c sf rn rd rot imm => armWord 0x02E00000 c [(sf.toNat, 20), (rn.toNat, 16), (rd.toNat, 12), (rot.toNat, 8), (imm.toNat, 0)]
  | .rscImmShift c sf rn rd n sh rm => armWord 0x00E00000 c [(sf.toNat, 20), (rn.toNat, 16), (rd.toNat, 12), (n.toNat, 7), (sh.code, 5), (rm.toNat, 0)]
  | .rscRegShift c sf rn rd rs sh rm => armWord 0x00E00010 c [(sf.toNat, 20), (rn.toNat, 16), (rd.toNat, 12), (rs.toNat, 8), (sh.code, 5), (rm.toNat, 0)]
  | .tstImm c rn rd rot imm => armWord 0x03100000 c [(rn.toNat, 16), (rd.toNat, 12), (rot.toNat, 8), (imm.toNat, 0)]
  | .tstImmShift c rn rd n sh rm => armWord 0x01100000 c [(rn.toNat, 16), (rd.toNat, 12), (n.toNat, 7), (sh.code, 5), (rm.toNat, 0)]
  | .tstRegShift c rn rd rs sh rm => armWord 0x01100010 c [(rn.toNat, 16), (rd.toNat, 12), (rs.toNat, 8), (sh.code, 5), (rm.toNat, 0)]
  | .teqImm c rn rd rot imm => armWord 0x03300000 c [(rn.toNat, 16), (rd.toNat, 12), (rot.toNat, 8), (imm.toNat, 0)]
  | .teqImmShift c rn rd n sh rm => armWord 0x01300000 c [(rn.toNat, 16), (rd.toNat, 12), (n.toNat, 7), (sh.code, 5), (rm.toNat, 0)]
  | .teqRegShift c rn rd rs sh rm => armWord 0x01300010 c [(rn.toNat, 16), (rd.toNat, 12), (rs.toNat, 8), (sh.code, 5), (rm.toNat, 0)]
  | .cmpImm c rn rd rot imm => armWord 0x03500000 c [(rn.toNat, 16), (rd.toNat, 12), (rot.toNat, 8), (imm.toNat, 0)]
  | .cmpImmShift c rn rd n sh rm => armWord 0x01500000 c [(rn.toNat, 16), (rd.toNat, 12), (n.toNat, 7), (sh.code, 5), (rm.toNat, 0)]
  | .cmpRegShift c rn rd rs sh rm => armWord 0x01500010 c [(rn.toNat, 16), (rd.toNat, 12), (rs.toNat, 8), (sh.code, 5), (rm.toNat, 0)]
  | .cmnImm c rn rd rot imm => armWord 0x03700000 c [(rn.toNat, 16), (rd.toNat, 12), (rot.toNat, 8), (imm.toNat, 0)]
  | .cmnImmShift c rn rd n sh rm => armWord 0x01700000 c [(rn.toNat, 16), (rd.toNat, 12), (n.toNat, 7), (sh.code, 5), (rm.toNat, 0)]
  | .cmnRegShift c rn rd rs sh rm => armWord 0x01700010 c [(rn.toNat, 16), (rd.toNat, 12), (rs.toNat, 8), (sh.code, 5), (rm.toNat, 0)]
  | .orrImm c sf rn rd rot imm => armWord 0x03800000 c [(sf.toNat, 20), (rn.toNat, 16), (rd.toNat, 12), (rot.toNat, 8), (imm.toNat, 0)]
  | .orrImmShift c sf rn rd n sh rm => armWord 0x01800000 c [(sf.toNat, 20), (rn.toNat, 16), (rd.toNat, 12), (n.toNat, 7), (sh.code, 5), (rm.toNat, 0)]
  | .orrRegShift c sf rn rd rs sh rm => armWord 0x01800010 c [(sf.toNat, 20), (rn.toNat, 16), (rd.toNat, 12), (rs.toNat, 8), (sh.code, 5), (rm.toNat, 0)]
  | .movImm c sf rd rot imm => armWord 0x03A00000 c [(sf.toNat, 20), (rd.toNat, 12), (rot.toNat, 8), (imm.toNat, 0)]
  | .movImmShift c sf rd n sh rm => armWord 0x01A00000 c [(sf.toNat, 20), (rd.toNat, 12), (n.toNat, 7), (sh.code, 5), (rm.toNat, 0)]
  | .movRegShift c sf rd rs sh rm => armWord 0x01A00010 c [(sf.toNat, 20), (rd.toNat, 12), (rs.toNat, 8), (sh.code, 5), (rm.toNat, 0)]
  | .bicImm c sf rn rd rot imm => armWord 0x03C00000 c [(sf.toNat, 20), (rn.toNat, 16), (rd.toNat, 12), (rot.toNat, 8), (imm.toNat, 0)]
  | .bicImmShift c sf rn rd n sh rm => armWord 0x01C00000 c [(sf.toNat, 20), (rn.toNat, 16), (rd.toNat, 12), (n.toNat, 7), (sh.code, 5), (rm.toNat, 0)]
  | .bicRegShift c sf rn rd rs sh rm => armWord 0x01C00010 c [(sf.toNat, 20), (rn.toNat, 16), (rd.toNat, 12), (rs.toNat, 8), (sh.code, 5), (rm.toNat, 0)]
  | .mvnImm c sf rd rot imm => armWord 0x03E00000 c [(sf.toNat, 20), (rd.toNat, 12), (rot.toNat, 8), (imm.toNat, 0)]
  | .mvnImmShift c sf rd n sh rm => armWord 0x01E00000 c [(sf.toNat, 20), (rd.toNat, 12), (n.toNat, 7), (sh.code, 5), (rm.toNat, 0)]
  | .mvnRegShift c sf rd rs sh rm => armWord 0x01E00010 c [(sf.toNat, 20), (rd.toNat, 12), (rs.toNat, 8), (sh.code, 5), (rm.toNat, 0)]
  | .undefined c hi lo => armWord 0x06000010 c [(hi.toNat, 5), (lo.toNat, 0)]
  | .strtImm c u rn rd off => armWord 0x04200000 c [(u.toNat, 23), (rn.toNat, 16), (rd.toNat, 12), (off.toNat, 0)]
  | .strtReg c u rn rd n sh rm => armWord 0x06200000 c [(u.toNat, 23), (rn.toNat, 16), (rd.toNat, 12), (n.toNat, 7), (sh.code, 5), (rm.toNat, 0)]
  | .ldrtImm c u rn rd off => armWord 0x04300000 c [(u.toNat, 23), (rn.toNat, 16), (rd.toNat, 12), (off.toNat, 0)]
  | .ldrtReg c u rn rd n sh rm => armWord 0x06300000 c [(u.toNat, 23), (rn.toNat, 16), (rd.toNat, 12), (n.toNat, 7), (sh.code, 5), (rm.toNat, 0)]
  | .strbtImm c u rn rd off => armWord 0x04600000 c [(u.toNat, 23), (rn.toNat, 16), (rd.toNat, 12), (off.toNat, 0)]
  | .strbtReg c u rn rd n sh rm => armWord 0x06600000 c [(u.toNat, 23), (rn.toNat, 16), (rd.toNat, 12), (n.toNat, 7), (sh.code, 5), (rm.toNat, 0)]
  | .ldrbtImm c u rn rd off => armWord 0x04700000 c [(u.toNat, 23), (rn.toNat, 16), (rd.toNat, 12), (off.toNat, 0)]
  | .ldrbtReg c u rn rd n sh rm => armWord 0x06700000 c [(u.toNat, 23), (rn.toNat, 16), (rd.toNat, 12), (n.toNat, 7), (sh.code, 5), (rm.toNat, 0)]
  | .strImm c p u w rn rd off => armWord 0x04000000 c [(p.toNat, 24), (u.toNat, 23), (w.toNat, 21), (rn.toNat, 16), (rd.toNat, 12), (off.toNat, 0)]
  | .strReg c p u w rn rd n sh rm => armWord 0x06000000 c [(p.toNat, 24), (u.toNat, 23), (w.toNat, 21), (rn.toNat, 16), (rd.toNat, 12), (n.toNat, 7), (sh.code, 5), (rm.toNat, 0)]
  | .ldrImm c p u w rn rd off => armWord 0x04100000 c [(p.toNat, 24), (u.toNat, 23), (w.toNat, 21), (rn.toNat, 16), (rd.toNat, 12), (off.toNat, 0)]
  | .ldrReg c p u w rn rd n sh rm => armWord 0x06100000 c [(p.toNat, 24), (u.toNat, 23), (w.toNat, 21), (rn.toNat, 16), (rd.toNat, 12), (n.toNat, 7), (sh.code, 5), (rm.toNat, 0)]
  | .strbImm c p u w rn rd off => armWord 0x04400000 c [(p.toNat, 24), (u.toNat, 23), (w.toNat, 21), (rn.toNat, 16), (rd.toNat, 12), (off.toNat, 0)]
  | .strbReg c p u w rn rd n sh rm => armWord 0x06400000 c [(p.toNat, 24), (u.toNat, 23), (w.toNat, 21), (rn.toNat, 16), (rd.toNat, 12), (n.toNat, 7), (sh.code, 5), (rm.toNat, 0)]
  | .ldrbImm c p u w rn rd off => armWord 0x04500000 c [(p.toNat, 24), (u.toNat, 23), (w.toNat, 21), (rn.toNat, 16), (rd.toNat, 12), (off.toNat, 0)]
  | .ldrbReg c p u w rn rd n sh rm => armWord 0x06500000 c [(p.toNat, 24), (u.toNat, 23), (w.toNat, 21), (rn.toNat, 16), (rd.toNat, 12), (n.toNat, 7), (sh.code, 5), (rm.toNat, 0)]
  | .stm c p u w rn list => armWord 0x08000000 c [(p.toNat, 24), (u.toNat, 23), (w.toNat, 21), (rn.toNat, 16), (list.toNat, 0)]
  | .ldm c p u w rn list => armWord 0x08100000 c [(p.toNat, 24), (u.toNat, 23), (w.toNat, 21), (rn.toNat, 16), (list.toNat, 0)]
  | .stmUser c p u w rn list => armWord 0x08400000 c [(p.toNat, 24), (u.toNat, 23), (w.toNat, 21), (rn.toNat, 16), (list.toNat, 0)]
  | .ldmUser c p u w rn list => armWord 0x08500000 c [(p.toNat, 24), (u.toNat, 23), (w.toNat, 21), (rn.toNat, 16), (list.toNat, 0)]
  | .ldmRestore c p u w rn list => armWord 0x08508000 c [(p.toNat, 24), (u.toNat, 23), (w.toNat, 21), (rn.toNat, 16), (list.toNat, 0)]
  | .b c off => armWord 0x0A000000 c [(off.toNat, 0)]
  | .bl c off => armWord 0x0B000000 c [(off.toNat, 0)]
  | .stc c p u n w rn crd cp off => armWord 0x0C000000 c [(p.toNat, 24), (u.toNat, 23), (n.toNat, 22), (w.toNat, 21), (rn.toNat, 16), (crd.toNat, 12), (cp.toNat, 8), (off.toNat, 0)]
  | .ldc c p u n w rn crd cp off => armWord 0x0C100000 c [(p.toNat, 24), (u.toNat, 23), (n.toNat, 22), (w.toNat, 21), (rn.toNat, 16), (crd.toNat, 12), (cp.toNat, 8), (off.toNat, 0)]
  | .cdp c op1 crn crd cp op2 crm => armWord 0x0E000000 c [(op1.toNat, 20), (crn.toNat, 16), (crd.toNat, 12), (cp.toNat, 8), (op2.toNat, 5), (crm.toNat, 0)]
  | .mcr c op1 crn rd cp op2 crm => armWord 0x0E000010 c [(op1.toNat, 21), (crn.toNat, 16), (rd.toNat, 12), (cp.toNat, 8), (op2.toNat, 5), (crm.toNat, 0)]
  | .mrc c op1 crn rd cp op2 crm => armWord 0x0E100010 c [(op1.toNat, 21), (crn.toNat, 16), (rd.toNat, 12), (cp.toNat, 8), (op2.toNat, 5), (crm.toNat, 0)]
  | .swi c comment => armWord 0x0F000000 c [(comment.toNat, 0)]
  | .tAddReg rn rs rd => thumbWord 0x1800 [(rn.toNat, 6), (rs.toNat, 3), (rd.toNat, 0)]
  | .tSubReg rn rs rd => thumbWord 0x1A00 [(rn.toNat, 6), (rs.toNat, 3), (rd.toNat, 0)]
  | .tAddImm3 imm rs rd => thumbWord 0x1C00 [(imm.toNat, 6), (rs.toNat, 3), (rd.toNat, 0)]
  | .tSubImm3 imm rs rd => thumbWord 0x1E00 [(imm.toNat, 6), (rs.toNat, 3), (rd.toNat, 0)]
  | .tLslImm off rs rd => thumbWord 0x0000 [(off.toNat, 6), (rs.toNat, 3), (rd.toNat, 0)]
  | .tLsrImm off rs rd => thumbWord 0x0800 [(off.toNat, 6), (rs.toNat, 3), (rd.toNat, 0)]
  | .tAsrImm off rs rd => thumbWord 0x1000 [(off.toNat, 6), (rs.toNat, 3), (rd.toNat, 0)]
  | .tMovImm8 rd imm => thumbWord 0x2000 [(rd.toNat, 8), (imm.toNat, 0)]
  | .tCmpImm8 rd imm => thumbWord 0x2800 [(rd.toNat, 8), (imm.toNat, 0)]
  | .tAddImm8 rd imm => thumbWord 0x3000 [(rd.toNat, 8), (imm.toNat, 0)]
  | .tSubImm8 rd imm => thumbWord 0x3800 [(rd.toNat, 8), (imm.toNat, 0)]
  | .tAnd rs rd => thumbWord 0x4000 [(rs.toNat, 3), (rd.toNat, 0)]
  | .tEor rs rd => thumbWord 0x4040 [(rs.toNat, 3), (rd.toNat, 0)]
  | .tLslReg rs rd => thumbWord 0x4080 [(rs.toNat, 3), (rd.toNat, 0)]
  | .tLsrReg rs rd => thumbWord 0x40C0 [(rs.toNat, 3), (rd.toNat, 0)]
  | .tAsrReg rs rd => thumbWord 0x4100 [(rs.toNat, 3), (rd.toNat, 0)]
  | .tAdc rs rd => thumbWord 0x4140 [(rs.toNat, 3), (rd.toNat, 0)]
  | .tSbc rs rd => thumbWord 0x4180 [(rs.toNat, 3), (rd.toNat, 0)]
  | .tRor rs rd => thumbWord 0x41C0 [(rs.toNat, 3), (rd.toNat, 0)]
  | .tTst rs rd => thumbWord 0x4200 [(rs.toNat, 3), (rd.toNat, 0)]
  | .tNeg rs rd => thumbWord 0x4240 [(rs.toNat, 3), (rd.toNat, 0)]
  | .tCmpReg rs rd => thumbWord 0x4280 [(rs.toNat, 3), (rd.toNat, 0)]
  | .tCmn rs rd => thumbWord 0x42C0 [(rs.toNat, 3), (rd.toNat, 0)]
  | .tOrr rs rd => thumbWord 0x4300 [(rs.toNat, 3), (rd.toNat, 0)]
  | .tMul rs rd => thumbWord 0x4340 [(rs.toNat, 3), (rd.toNat, 0)]
  | .tBic rs rd => thumbWord 0x4380 [(rs.toNat, 3), (rd.toNat, 0)]
  | .tMvn rs rd => thumbWord 0x43C0 [(rs.toNat, 3), (rd.toNat, 0)]
  | .tAddHi h1 h2 rs rd => thumbWord 0x4400 [(h1.toNat, 7), (h2.toNat, 6), (rs.toNat, 3), (rd.toNat, 0)]
  | .tCmpHi h1 h2 rs rd => thumbWord 0x4500 [(h1.toNat, 7), (h2.toNat, 6), (rs.toNat, 3), (rd.toNat, 0)]
  | .tMovHi h1 h2 rs rd => thumbWord 0x4600 [(h1.toNat, 7), (h2.toNat, 6), (rs.toNat, 3), (rd.toNat, 0)]
  | .tBx h1 h2 rs => thumbWord 0x4700 [(h1.toNat, 7), (h2.toNat, 6), (rs.toNat, 3)]
  | .tLdrPc rd imm => thumbWord 0x4800 [(rd.toNat, 8), (imm.toNat, 0)]
  | .tStrReg ro rb rd => thumbWord 0x5000 [(ro.toNat, 6), (rb.toNat, 3), (rd.toNat, 0)]
  | .tStrbReg ro rb rd => thumbWord 0x5400 [(ro.toNat, 6), (rb.toNat, 3), (rd.toNat, 0)]
  | .tLdrReg ro rb rd => thumbWord 0x5800 [(ro.toNat, 6), (rb.toNat, 3), (rd.toNat, 0)]
  | .tLdrbReg ro rb rd => thumbWord 0x5C00 [(ro.toNat, 6), (rb.toNat, 3), (rd.toNat, 0)]
  | .tStrhReg ro rb rd => thumbWord 0x5200 [(ro.toNat, 6), (rb.toNat, 3), (rd.toNat, 0)]
  | .tLdsbReg ro rb rd => thumbWord 0x5600 [(ro.toNat, 6), (rb.toNat, 3), (rd.toNat, 0)]
  | .tLdrhReg ro rb rd => thumbWord 0x5A00 [(ro.toNat, 6), (rb.toNat, 3), (rd.toNat, 0)]
  | .tLdshReg ro rb rd => thumbWord 0x5E00 [(ro.toNat, 6), (rb.toNat, 3), (rd.toNat, 0)]
  | .tStrImm off rb rd => thumbWord 0x6000 [(off.toNat, 6), (rb.toNat, 3), (rd.toNat, 0)]
  | .tLdrImm off rb rd => thumbWord 0x6800 [(off.toNat, 6), (rb.toNat, 3), (rd.toNat, 0)]
  | .tStrbImm off rb rd => thumbWord 0x7000 [(off.toNat, 6), (rb.toNat, 3), (rd.toNat, 0)]
  | .tLdrbImm off rb rd => thumbWord 0x7800 [(off.toNat, 6), (rb.toNat, 3), (rd.toNat, 0)]
  | .tStrhImm off rb rd => thumbWord 0x8000 [(off.toNat, 6), (rb.toNat, 3), (rd.toNat, 0)]
  | .tLdrhImm off rb rd => thumbWord 0x8800 [(off.toNat, 6), (rb.toNat, 3), (rd.toNat, 0)]
  | .tStrSp rd imm => thumbWord 0x9000 [(rd.toNat, 8), (imm.toNat, 0)]
  | .tLdrSp rd imm => thumbWord 0x9800 [(rd.toNat, 8), (imm.toNat, 0)]
  | .tAddPc rd imm => thumbWord 0xA000 [(rd.toNat, 8), (imm.toNat, 0)]
  | .tAddSp rd imm => thumbWord 0xA800 [(rd.toNat, 8), (imm.toNat, 0)]
  | .tAdjSp neg imm => thumbWord 0xB000 [(neg.toNat, 7), (imm.toNat, 0)]
  | .tPush r list => thumbWord 0xB400 [(r.toNat, 8), (list.toNat, 0)]
  | .tPop r list => thumbWord 0xBC00 [(r.toNat, 8), (list.toNat, 0)]
  | .tUndef1011 bits => thumbWord 0xB000 [(bits.toNat, 0)]
  | .tStmia rb list => thumbWord 0xC000 [(rb.toNat, 8), (list.toNat, 0)]
  | .tLdmia rb list => thumbWord 0xC800 [(rb.toNat, 8), (list.toNat, 0)]
  | .tUndef1110 bits => thumbWord 0xDE00 [(bits.toNat, 0)]
  | .tUndef11101 bits => thumbWord 0xE800 [(bits.toNat, 0)]
  | .tSwi value => thumbWord 0xDF00 [(value.toNat, 0)]
  | .tBCond c off => thumbWord 0xD000 [(c.code, 8), (off.toNat, 0)]
  | .tB off => thumbWord 0xE000 [(off.toNat, 0)]
  | .tBlPrefix off => thumbWord 0xF000 [(off.toNat, 0)]
  | .tBlSuffix off => thumbWord 0xF800 [(off.toNat, 0)]

/-! ## The reduced keys and the reference classifiers (R142 to R147) -/

/-- The ARM key `instr[27:20] : instr[7:4]` (R143). -/
def armKey (w : BitVec 32) : BitVec 12 :=
  BitVec.ofNat 12 (fieldOf w.toNat 27 20 * 16 + fieldOf w.toNat 7 4)

/-- The Thumb key `instr[15:8]` (R143). -/
def thumbKey (h : BitVec 16) : BitVec 8 := bitsOf 8 h.toNat 8

/-- The categories of R144. -/
inductive ArmCategory where
  | branchExchange | swap | multiply | multiplyLong | halfword | unallocatedMultiply | dataProcessing | undefined
  | singleTransfer | blockTransfer | branch | coprocessor | softwareInterrupt
  deriving DecidableEq, Repr

/-- The ARM reference classifier: mask and value pairs in priority order, the first match wins (R144). -/
def armClassify (w : BitVec 32) : ArmCategory :=
  if w &&& 0x0FF000F0#32 = 0x01200010#32 then .branchExchange
  else if w &&& 0x0FB000F0#32 = 0x01000090#32 then .swap
  else if w &&& 0x0FC000F0#32 = 0x00000090#32 then .multiply
  else if w &&& 0x0F8000F0#32 = 0x00800090#32 then .multiplyLong
  else if w &&& 0x0E0000F0#32 = 0x000000B0#32 ∨ w &&& 0x0E0000F0#32 = 0x000000D0#32
      ∨ w &&& 0x0E0000F0#32 = 0x000000F0#32 then .halfword
  else if w &&& 0x0E000090#32 = 0x00000090#32 then .unallocatedMultiply
  else if w &&& 0x0C000000#32 = 0x00000000#32 then .dataProcessing
  else if w &&& 0x0E000010#32 = 0x06000010#32 then .undefined
  else if w &&& 0x0C000000#32 = 0x04000000#32 then .singleTransfer
  else if w &&& 0x0E000000#32 = 0x08000000#32 then .blockTransfer
  else if w &&& 0x0E000000#32 = 0x0A000000#32 then .branch
  else if w &&& 0x0E000000#32 = 0x0C000000#32 ∨ w &&& 0x0F000000#32 = 0x0E000000#32 then .coprocessor
  else .softwareInterrupt

/-- The formats of R146, the three undefined rows apart. -/
inductive ThumbFormat where
  | t1 | t2 | t3 | t4 | t5 | t6 | t7 | t8 | t9 | t10 | t11 | t12 | t13 | t14 | hole1011 | t15 | hole1110 | t17 | t16
  | t18 | hole11101 | t19
  deriving DecidableEq, Repr

/-- The Thumb reference classifier: mask and value pairs in priority order, the first match wins (R146). -/
def thumbClassify (h : BitVec 16) : ThumbFormat :=
  if h &&& 0xF800#16 = 0x1800#16 then .t2
  else if h &&& 0xE000#16 = 0x0000#16 then .t1
  else if h &&& 0xE000#16 = 0x2000#16 then .t3
  else if h &&& 0xFC00#16 = 0x4000#16 then .t4
  else if h &&& 0xFC00#16 = 0x4400#16 then .t5
  else if h &&& 0xF800#16 = 0x4800#16 then .t6
  else if h &&& 0xF200#16 = 0x5000#16 then .t7
  else if h &&& 0xF200#16 = 0x5200#16 then .t8
  else if h &&& 0xE000#16 = 0x6000#16 then .t9
  else if h &&& 0xF000#16 = 0x8000#16 then .t10
  else if h &&& 0xF000#16 = 0x9000#16 then .t11
  else if h &&& 0xF000#16 = 0xA000#16 then .t12
  else if h &&& 0xFF00#16 = 0xB000#16 then .t13
  else if h &&& 0xF600#16 = 0xB400#16 then .t14
  else if h &&& 0xF000#16 = 0xB000#16 then .hole1011
  else if h &&& 0xF000#16 = 0xC000#16 then .t15
  else if h &&& 0xFF00#16 = 0xDE00#16 then .hole1110
  else if h &&& 0xFF00#16 = 0xDF00#16 then .t17
  else if h &&& 0xF000#16 = 0xD000#16 then .t16
  else if h &&& 0xF800#16 = 0xE000#16 then .t18
  else if h &&& 0xF800#16 = 0xE800#16 then .hole11101
  else .t19

/-- The category of an ARM instruction; none for condition 1111, which is checked before any category (R141), and for
the Thumb instructions. -/
def Instr.armCategory : Instr → Option ArmCategory
  | .cond1111 _ => none
  | .bx _ _ => some .branchExchange
  | .swp _ _ _ _ => some .swap
  | .swpb _ _ _ _ => some .swap
  | .mul _ _ _ _ _ => some .multiply
  | .mla _ _ _ _ _ _ => some .multiply
  | .umull _ _ _ _ _ _ => some .multiplyLong
  | .umlal _ _ _ _ _ _ => some .multiplyLong
  | .smull _ _ _ _ _ _ => some .multiplyLong
  | .smlal _ _ _ _ _ _ => some .multiplyLong
  | .strhReg _ _ _ _ _ _ _ => some .halfword
  | .strhImm _ _ _ _ _ _ _ _ => some .halfword
  | .ldrhReg _ _ _ _ _ _ _ => some .halfword
  | .ldrhImm _ _ _ _ _ _ _ _ => some .halfword
  | .ldrsbReg _ _ _ _ _ _ _ => some .halfword
  | .ldrsbImm _ _ _ _ _ _ _ _ => some .halfword
  | .ldrshReg _ _ _ _ _ _ _ => some .halfword
  | .ldrshImm _ _ _ _ _ _ _ _ => some .halfword
  | .unallocHalfStore _ _ _ _ _ => some .halfword
  | .unallocMul _ _ _ _ => some .unallocatedMultiply
  | .mrs _ _ _ => some .dataProcessing
  | .msrCpsrReg _ _ _ => some .dataProcessing
  | .msrSpsrReg _ _ _ => some .dataProcessing
  | .msrCpsrImm _ _ _ _ => some .dataProcessing
  | .msrSpsrImm _ _ _ _ => some .dataProcessing
  | .unallocPsr _ _ _ _ _ _ => some .dataProcessing
  | .andImm _ _ _ _ _ _ => some .dataProcessing
  | .andImmShift _ _ _ _ _ _ _ => some .dataProcessing
  | .andRegShift _ _ _ _ _ _ _ => some .dataProcessing
  | .eorImm _ _ _ _ _ _ => some .dataProcessing
  | .eorImmShift _ _ _ _ _ _ _ => some .dataProcessing
  | .eorRegShift _ _ _ _ _ _ _ => some .dataProcessing
  | .subImm _ _ _ _ _ _ => some .dataProcessing
  | .subImmShift _ _ _ _ _ _ _ => some .dataProcessing
  | .subRegShift _ _ _ _ _ _ _ => some .dataProcessing
  | .rsbImm _ _ _ _ _ _ => some .dataProcessing
  | .rsbImmShift _ _ _ _ _ _ _ => some .dataProcessing
  | .rsbRegShift _ _ _ _ _ _ _ => some .dataProcessing
  | .addImm _ _ _ _ _ _ => some .dataProcessing
  | .addImmShift _ _ _ _ _ _ _ => some .dataProcessing
  | .addRegShift _ _ _ _ _ _ _ => some .dataProcessing
  | .adcImm _ _ _ _ _ _ => some .dataProcessing
  | .adcImmShift _ _ _ _ _ _ _ => some .dataProcessing
  | .adcRegShift _ _ _ _ _ _ _ => some .dataProcessing
  | .sbcImm _ _ _ _ _ _ => some .dataProcessing
  | .sbcImmShift _ _ _ _ _ _ _ => some .dataProcessing
  | .sbcRegShift _ _ _ _ _ _ _ => some .dataProcessing
  | .rscImm _ _ _ _ _ _ => some .dataProcessing
  | .rscImmShift _ _ _ _ _ _ _ => some .dataProcessing
  | .rscRegShift _ _ _ _ _ _ _ => some .dataProcessing
  | .tstImm _ _ _ _ _ => some .dataProcessing
  | .tstImmShift _ _ _ _ _ _ => some .dataProcessing
  | .tstRegShift _ _ _ _ _ _ => some .dataProcessing
  | .teqImm _ _ _ _ _ => some .dataProcessing
  | .teqImmShift _ _ _ _ _ _ => some .dataProcessing
  | .teqRegShift _ _ _ _ _ _ => some .dataProcessing
  | .cmpImm _ _ _ _ _ => some .dataProcessing
  | .cmpImmShift _ _ _ _ _ _ => some .dataProcessing
  | .cmpRegShift _ _ _ _ _ _ => some .dataProcessing
  | .cmnImm _ _ _ _ _ => some .dataProcessing
  | .cmnImmShift _ _ _ _ _ _ => some .dataProcessing
  | .cmnRegShift _ _ _ _ _ _ => some .dataProcessing
  | .orrImm _ _ _ _ _ _ => some .dataProcessing
  | .orrImmShift _ _ _ _ _ _ _ => some .dataProcessing
  | .orrRegShift _ _ _ _ _ _ _ => some .dataProcessing
  | .movImm _ _ _ _ _ => some .dataProcessing
  | .movImmShift _ _ _ _ _ _ => some .dataProcessing
  | .movRegShift _ _ _ _ _ _ => some .dataProcessing
  | .bicImm _ _ _ _ _ _ => some .dataProcessing
  | .bicImmShift _ _ _ _ _ _ _ => some .dataProcessing
  | .bicRegShift _ _ _ _ _ _ _ => some .dataProcessing
  | .mvnImm _ _ _ _ _ => some .dataProcessing
  | .mvnImmShift _ _ _ _ _ _ => some .dataProcessing
  | .mvnRegShift _ _ _ _ _ _ => some .dataProcessing
  | .undefined _ _ _ => some .undefined
  | .strtImm _ _ _ _ _ => some .singleTransfer
  | .strtReg _ _ _ _ _ _ _ => some .singleTransfer
  | .ldrtImm _ _ _ _ _ => some .singleTransfer
  | .ldrtReg _ _ _ _ _ _ _ => some .singleTransfer
  | .strbtImm _ _ _ _ _ => some .singleTransfer
  | .strbtReg _ _ _ _ _ _ _ => some .singleTransfer
  | .ldrbtImm _ _ _ _ _ => some .singleTransfer
  | .ldrbtReg _ _ _ _ _ _ _ => some .singleTransfer
  | .strImm _ _ _ _ _ _ _ => some .singleTransfer
  | .strReg _ _ _ _ _ _ _ _ _ => some .singleTransfer
  | .ldrImm _ _ _ _ _ _ _ => some .singleTransfer
  | .ldrReg _ _ _ _ _ _ _ _ _ => some .singleTransfer
  | .strbImm _ _ _ _ _ _ _ => some .singleTransfer
  | .strbReg _ _ _ _ _ _ _ _ _ => some .singleTransfer
  | .ldrbImm _ _ _ _ _ _ _ => some .singleTransfer
  | .ldrbReg _ _ _ _ _ _ _ _ _ => some .singleTransfer
  | .stm _ _ _ _ _ _ => some .blockTransfer
  | .ldm _ _ _ _ _ _ => some .blockTransfer
  | .stmUser _ _ _ _ _ _ => some .blockTransfer
  | .ldmUser _ _ _ _ _ _ => some .blockTransfer
  | .ldmRestore _ _ _ _ _ _ => some .blockTransfer
  | .b _ _ => some .branch
  | .bl _ _ => some .branch
  | .stc _ _ _ _ _ _ _ _ _ => some .coprocessor
  | .ldc _ _ _ _ _ _ _ _ _ => some .coprocessor
  | .cdp _ _ _ _ _ _ _ => some .coprocessor
  | .mcr _ _ _ _ _ _ _ => some .coprocessor
  | .mrc _ _ _ _ _ _ _ => some .coprocessor
  | .swi _ _ => some .softwareInterrupt
  | .tAddReg _ _ _ => none
  | .tSubReg _ _ _ => none
  | .tAddImm3 _ _ _ => none
  | .tSubImm3 _ _ _ => none
  | .tLslImm _ _ _ => none
  | .tLsrImm _ _ _ => none
  | .tAsrImm _ _ _ => none
  | .tMovImm8 _ _ => none
  | .tCmpImm8 _ _ => none
  | .tAddImm8 _ _ => none
  | .tSubImm8 _ _ => none
  | .tAnd _ _ => none
  | .tEor _ _ => none
  | .tLslReg _ _ => none
  | .tLsrReg _ _ => none
  | .tAsrReg _ _ => none
  | .tAdc _ _ => none
  | .tSbc _ _ => none
  | .tRor _ _ => none
  | .tTst _ _ => none
  | .tNeg _ _ => none
  | .tCmpReg _ _ => none
  | .tCmn _ _ => none
  | .tOrr _ _ => none
  | .tMul _ _ => none
  | .tBic _ _ => none
  | .tMvn _ _ => none
  | .tAddHi _ _ _ _ => none
  | .tCmpHi _ _ _ _ => none
  | .tMovHi _ _ _ _ => none
  | .tBx _ _ _ => none
  | .tLdrPc _ _ => none
  | .tStrReg _ _ _ => none
  | .tStrbReg _ _ _ => none
  | .tLdrReg _ _ _ => none
  | .tLdrbReg _ _ _ => none
  | .tStrhReg _ _ _ => none
  | .tLdsbReg _ _ _ => none
  | .tLdrhReg _ _ _ => none
  | .tLdshReg _ _ _ => none
  | .tStrImm _ _ _ => none
  | .tLdrImm _ _ _ => none
  | .tStrbImm _ _ _ => none
  | .tLdrbImm _ _ _ => none
  | .tStrhImm _ _ _ => none
  | .tLdrhImm _ _ _ => none
  | .tStrSp _ _ => none
  | .tLdrSp _ _ => none
  | .tAddPc _ _ => none
  | .tAddSp _ _ => none
  | .tAdjSp _ _ => none
  | .tPush _ _ => none
  | .tPop _ _ => none
  | .tUndef1011 _ => none
  | .tStmia _ _ => none
  | .tLdmia _ _ => none
  | .tUndef1110 _ => none
  | .tUndef11101 _ => none
  | .tSwi _ => none
  | .tBCond _ _ => none
  | .tB _ => none
  | .tBlPrefix _ => none
  | .tBlSuffix _ => none

/-- The format of a Thumb instruction, none for the ARM ones. -/
def Instr.thumbFormat : Instr → Option ThumbFormat
  | .cond1111 _ => none
  | .bx _ _ => none
  | .swp _ _ _ _ => none
  | .swpb _ _ _ _ => none
  | .mul _ _ _ _ _ => none
  | .mla _ _ _ _ _ _ => none
  | .umull _ _ _ _ _ _ => none
  | .umlal _ _ _ _ _ _ => none
  | .smull _ _ _ _ _ _ => none
  | .smlal _ _ _ _ _ _ => none
  | .strhReg _ _ _ _ _ _ _ => none
  | .strhImm _ _ _ _ _ _ _ _ => none
  | .ldrhReg _ _ _ _ _ _ _ => none
  | .ldrhImm _ _ _ _ _ _ _ _ => none
  | .ldrsbReg _ _ _ _ _ _ _ => none
  | .ldrsbImm _ _ _ _ _ _ _ _ => none
  | .ldrshReg _ _ _ _ _ _ _ => none
  | .ldrshImm _ _ _ _ _ _ _ _ => none
  | .unallocHalfStore _ _ _ _ _ => none
  | .unallocMul _ _ _ _ => none
  | .mrs _ _ _ => none
  | .msrCpsrReg _ _ _ => none
  | .msrSpsrReg _ _ _ => none
  | .msrCpsrImm _ _ _ _ => none
  | .msrSpsrImm _ _ _ _ => none
  | .unallocPsr _ _ _ _ _ _ => none
  | .andImm _ _ _ _ _ _ => none
  | .andImmShift _ _ _ _ _ _ _ => none
  | .andRegShift _ _ _ _ _ _ _ => none
  | .eorImm _ _ _ _ _ _ => none
  | .eorImmShift _ _ _ _ _ _ _ => none
  | .eorRegShift _ _ _ _ _ _ _ => none
  | .subImm _ _ _ _ _ _ => none
  | .subImmShift _ _ _ _ _ _ _ => none
  | .subRegShift _ _ _ _ _ _ _ => none
  | .rsbImm _ _ _ _ _ _ => none
  | .rsbImmShift _ _ _ _ _ _ _ => none
  | .rsbRegShift _ _ _ _ _ _ _ => none
  | .addImm _ _ _ _ _ _ => none
  | .addImmShift _ _ _ _ _ _ _ => none
  | .addRegShift _ _ _ _ _ _ _ => none
  | .adcImm _ _ _ _ _ _ => none
  | .adcImmShift _ _ _ _ _ _ _ => none
  | .adcRegShift _ _ _ _ _ _ _ => none
  | .sbcImm _ _ _ _ _ _ => none
  | .sbcImmShift _ _ _ _ _ _ _ => none
  | .sbcRegShift _ _ _ _ _ _ _ => none
  | .rscImm _ _ _ _ _ _ => none
  | .rscImmShift _ _ _ _ _ _ _ => none
  | .rscRegShift _ _ _ _ _ _ _ => none
  | .tstImm _ _ _ _ _ => none
  | .tstImmShift _ _ _ _ _ _ => none
  | .tstRegShift _ _ _ _ _ _ => none
  | .teqImm _ _ _ _ _ => none
  | .teqImmShift _ _ _ _ _ _ => none
  | .teqRegShift _ _ _ _ _ _ => none
  | .cmpImm _ _ _ _ _ => none
  | .cmpImmShift _ _ _ _ _ _ => none
  | .cmpRegShift _ _ _ _ _ _ => none
  | .cmnImm _ _ _ _ _ => none
  | .cmnImmShift _ _ _ _ _ _ => none
  | .cmnRegShift _ _ _ _ _ _ => none
  | .orrImm _ _ _ _ _ _ => none
  | .orrImmShift _ _ _ _ _ _ _ => none
  | .orrRegShift _ _ _ _ _ _ _ => none
  | .movImm _ _ _ _ _ => none
  | .movImmShift _ _ _ _ _ _ => none
  | .movRegShift _ _ _ _ _ _ => none
  | .bicImm _ _ _ _ _ _ => none
  | .bicImmShift _ _ _ _ _ _ _ => none
  | .bicRegShift _ _ _ _ _ _ _ => none
  | .mvnImm _ _ _ _ _ => none
  | .mvnImmShift _ _ _ _ _ _ => none
  | .mvnRegShift _ _ _ _ _ _ => none
  | .undefined _ _ _ => none
  | .strtImm _ _ _ _ _ => none
  | .strtReg _ _ _ _ _ _ _ => none
  | .ldrtImm _ _ _ _ _ => none
  | .ldrtReg _ _ _ _ _ _ _ => none
  | .strbtImm _ _ _ _ _ => none
  | .strbtReg _ _ _ _ _ _ _ => none
  | .ldrbtImm _ _ _ _ _ => none
  | .ldrbtReg _ _ _ _ _ _ _ => none
  | .strImm _ _ _ _ _ _ _ => none
  | .strReg _ _ _ _ _ _ _ _ _ => none
  | .ldrImm _ _ _ _ _ _ _ => none
  | .ldrReg _ _ _ _ _ _ _ _ _ => none
  | .strbImm _ _ _ _ _ _ _ => none
  | .strbReg _ _ _ _ _ _ _ _ _ => none
  | .ldrbImm _ _ _ _ _ _ _ => none
  | .ldrbReg _ _ _ _ _ _ _ _ _ => none
  | .stm _ _ _ _ _ _ => none
  | .ldm _ _ _ _ _ _ => none
  | .stmUser _ _ _ _ _ _ => none
  | .ldmUser _ _ _ _ _ _ => none
  | .ldmRestore _ _ _ _ _ _ => none
  | .b _ _ => none
  | .bl _ _ => none
  | .stc _ _ _ _ _ _ _ _ _ => none
  | .ldc _ _ _ _ _ _ _ _ _ => none
  | .cdp _ _ _ _ _ _ _ => none
  | .mcr _ _ _ _ _ _ _ => none
  | .mrc _ _ _ _ _ _ _ => none
  | .swi _ _ => none
  | .tAddReg _ _ _ => some .t2
  | .tSubReg _ _ _ => some .t2
  | .tAddImm3 _ _ _ => some .t2
  | .tSubImm3 _ _ _ => some .t2
  | .tLslImm _ _ _ => some .t1
  | .tLsrImm _ _ _ => some .t1
  | .tAsrImm _ _ _ => some .t1
  | .tMovImm8 _ _ => some .t3
  | .tCmpImm8 _ _ => some .t3
  | .tAddImm8 _ _ => some .t3
  | .tSubImm8 _ _ => some .t3
  | .tAnd _ _ => some .t4
  | .tEor _ _ => some .t4
  | .tLslReg _ _ => some .t4
  | .tLsrReg _ _ => some .t4
  | .tAsrReg _ _ => some .t4
  | .tAdc _ _ => some .t4
  | .tSbc _ _ => some .t4
  | .tRor _ _ => some .t4
  | .tTst _ _ => some .t4
  | .tNeg _ _ => some .t4
  | .tCmpReg _ _ => some .t4
  | .tCmn _ _ => some .t4
  | .tOrr _ _ => some .t4
  | .tMul _ _ => some .t4
  | .tBic _ _ => some .t4
  | .tMvn _ _ => some .t4
  | .tAddHi _ _ _ _ => some .t5
  | .tCmpHi _ _ _ _ => some .t5
  | .tMovHi _ _ _ _ => some .t5
  | .tBx _ _ _ => some .t5
  | .tLdrPc _ _ => some .t6
  | .tStrReg _ _ _ => some .t7
  | .tStrbReg _ _ _ => some .t7
  | .tLdrReg _ _ _ => some .t7
  | .tLdrbReg _ _ _ => some .t7
  | .tStrhReg _ _ _ => some .t8
  | .tLdsbReg _ _ _ => some .t8
  | .tLdrhReg _ _ _ => some .t8
  | .tLdshReg _ _ _ => some .t8
  | .tStrImm _ _ _ => some .t9
  | .tLdrImm _ _ _ => some .t9
  | .tStrbImm _ _ _ => some .t9
  | .tLdrbImm _ _ _ => some .t9
  | .tStrhImm _ _ _ => some .t10
  | .tLdrhImm _ _ _ => some .t10
  | .tStrSp _ _ => some .t11
  | .tLdrSp _ _ => some .t11
  | .tAddPc _ _ => some .t12
  | .tAddSp _ _ => some .t12
  | .tAdjSp _ _ => some .t13
  | .tPush _ _ => some .t14
  | .tPop _ _ => some .t14
  | .tUndef1011 _ => some .hole1011
  | .tStmia _ _ => some .t15
  | .tLdmia _ _ => some .t15
  | .tUndef1110 _ => some .hole1110
  | .tUndef11101 _ => some .hole11101
  | .tSwi _ => some .t17
  | .tBCond _ _ => some .t16
  | .tB _ => some .t18
  | .tBlPrefix _ => some .t19
  | .tBlSuffix _ => some .t19

end Sys2Proof
end

