-- ==== Sys2Proof/Config.lean ====
section
/-! DEFINITION. What an implementation fixes (the parameters of R8 that are plain data) and the free values: the oracles of R9, the `DRAW`s of R230 and D42, and the functions that an implementation gives as parameters of R8, opaque constants with no body, so that nothing can be proved of their values. -/

namespace Sys2Proof

/-- The width of a bus access: 1, 2 or 4 bytes (R79). -/
inductive Width where
  | byte
  | half
  | word
  deriving DecidableEq, Repr

/-- `VIDEO_BYTE_WRITE` (R8, R88). -/
inductive VideoByteWrite where
  | plain
  | hw
  deriving DecidableEq, Repr

/-- `BOOT_MODE` (R8, R57, R432). -/
inductive BootMode where
  | cold
  | skipBios
  deriving DecidableEq, Repr

/-- The cost of one kind of access, as R98 and R99 write it: a number of cycles and how often each of the two wait counts
that WAITCNT gives the region (R101) is added. -/
structure AccessCost where
  base : Nat
  first : Nat
  second : Nat
  deriving DecidableEq, Repr

/-- One row of `WAIT_TABLE`: the cost of a non-sequential (`n`) and of a sequential (`s`) access of 8, 16 and 32 bits
(R98, R99). -/
structure WaitRow where
  n8 : AccessCost
  n16 : AccessCost
  n32 : AccessCost
  s8 : AccessCost
  s16 : AccessCost
  s32 : AccessCost
  deriving DecidableEq, Repr

/-- `WAIT_TABLE` (R8, R98 to R100): a row for each region and one for the undefined regions. -/
structure WaitTable where
  bios : WaitRow
  ewram : WaitRow
  iwram : WaitRow
  io : WaitRow
  palette : WaitRow
  vram : WaitRow
  oam : WaitRow
  rom0 : WaitRow
  rom1 : WaitRow
  rom2 : WaitRow
  save : WaitRow
  undefined : WaitRow
  deriving DecidableEq, Repr

/-- A dispatch target (R8, R72): a backing store, the port table, or the external device `DEVICE`. -/
inductive Target where
  | store
  | ports
  | device
  deriving DecidableEq, Repr

/-- An offset function (R8, R72, R73): the low bits of the address, `a mod SIZE_r`, or one that an implementation gives
(`Config.offset`). -/
inductive OffsetFn where
  | lowBits (n : Nat)
  | modSize
  | given (k : Nat)
  deriving DecidableEq, Repr

/-- One row of `REGION_TABLE` but for its backing size (R8, R72). -/
structure RegionRow where
  /-- The values of address bits 31:24 that select the region. -/
  tops : List Byte
  offset : OffsetFn
  /-- The width of the region's bus. No rule reads it: the costs are `WAIT_TABLE`'s. -/
  busWidth : Width
  target : Target
  /-- Whether a backing store may be written; the port table decides by byte, the device for itself (R72). -/
  writable : Bool
  deriving DecidableEq, Repr

/-- The rows of `REGION_TABLE` (R8, R72); an address that no row selects is undefined (R74). -/
structure RegionTable where
  bios : RegionRow
  ewram : RegionRow
  iwram : RegionRow
  io : RegionRow
  palette : RegionRow
  vram : RegionRow
  oam : RegionRow
  rom0 : RegionRow
  rom1 : RegionRow
  rom2 : RegionRow
  save : RegionRow
  deriving DecidableEq, Repr

/-- The backing sizes of `REGION_TABLE` but for the cartridge's, which is `ROM_SIZE`; a region of one top byte has at
most 2^24 bytes (R72). -/
structure RegionSizes where
  bios : Fin 0x01000001
  ewram : Fin 0x01000001
  iwram : Fin 0x01000001
  io : Fin 0x01000001
  palette : Fin 0x01000001
  vram : Fin 0x01000001
  oam : Fin 0x01000001
  save : Fin 0x01000001
  deriving DecidableEq, Repr

/-- A table of internal cycles in the form of R452: one field for each row; a multiply's row is added to the `m` of
R237. -/
structure InternalTable where
  /-- ARM data processing with an immediate or an immediate shift, MRS, MSR. -/
  dataProc : Nat
  /-- ARM data processing with a register-specified shift. -/
  regShift : Nat
  mul : Nat
  mla : Nat
  mull : Nat
  mlal : Nat
  load : Nat
  store : Nat
  loadBlock : Nat
  storeBlock : Nat
  swap : Nat
  /-- B, BL, BX, SWI, the undefined and the coprocessor space. -/
  branch : Nat
  /-- T1, T2, T3, T4 but its register shifts and MUL, T5, T12, T13. -/
  thumbAlu : Nat
  thumbShift : Nat
  thumbMul : Nat
  thumbLoad : Nat
  thumbStore : Nat
  thumbLoadBlock : Nat
  thumbStoreBlock : Nat
  /-- B<cond>, B, the halves of BL, SWI, the undefined holes. -/
  thumbBranch : Nat
  deriving DecidableEq, Repr

/-- `INTERNAL_CYCLES` (R8, R109, R452): a table in the form of the default, or a function of the instruction and its
outcome that an implementation gives (`Config.internalCycles`). -/
inductive InternalCycles where
  | rows (t : InternalTable)
  | given
  deriving DecidableEq, Repr

/-- The outcome of an execution, as `INTERNAL_CYCLES` is asked for it (R150, R237, R452). -/
structure StepOutcome where
  /-- Whether the condition passed; true where the instruction has none. -/
  passed : Bool
  /-- The flow report, none where the execution is sequential. -/
  flow : Option Word
  /-- The value of a multiply's multiplier register, 0 of any other instruction. -/
  multiplier : Word
  deriving DecidableEq, Repr

/-- The named parameters of R8 that are plain data. They stand in the state, no step changes them, and a statement
about every state is a statement about every choice of them. -/
structure Params where
  /-- `REGION_TABLE` (R8, R72). -/
  regions : RegionTable
  /-- The backing sizes of `REGION_TABLE` (R72). -/
  sizes : RegionSizes
  /-- `ROM_SIZE`, the size in bytes of the cartridge image, at most 0x02000000 (R8). -/
  romSize : Fin 0x02000001
  /-- `WAIT_TABLE` (R8, R98 to R100). -/
  wait : WaitTable
  /-- `INTERNAL_CYCLES` (R8, R452). -/
  internal : InternalCycles
  /-- `SCHED_CAPACITY` (R8, R411). -/
  schedCapacity : Nat
  /-- `PREFETCH_HIT_COST` (R8, R106). -/
  prefetchHitCost : Nat
  /-- `HALT_STEP_CYCLES` (R8, R406). -/
  haltStepCycles : Nat
  /-- `VIDEO_BYTE_WRITE` (R8, R88). -/
  videoByteWrite : VideoByteWrite
  /-- `BOOT_MODE` (R8). -/
  bootMode : BootMode
  deriving DecidableEq, Repr

/-- One thing a callback or `DEVICE` may do (R9, R81, R94, R419): access memory through the bus, change a stored port
byte, schedule or deschedule an event, drive the interrupt line, request halt. -/
inductive Action where
  | read (addr : Word) (w : Width)
  | write (addr : Word) (w : Width) (v : Word)
  | setPort (off : Nat) (v : Byte)
  | schedule (rel cat cb ctx : Nat) (recursive : Bool)
  | deschedule (cat : Nat)
  | setIrqLine (level : Bool)
  | requestHalt
  deriving DecidableEq, Repr

/-- What an access asks of `DEVICE`, to which `DEVICE` may answer with effects of its own (R9, R81, R89, R94). -/
inductive DeviceCall where
  /-- The write intercept `cb` of a register that a store touched (R94). -/
  | intercept (cb : Nat)
  /-- A read of the port register at offset `base` (R81). -/
  | portRead (base : Nat)
  /-- A read of the save media at the exact address (R81, R89). -/
  | saveRead (addr : Word)
  /-- The one byte a write delivers to the save media at the exact address (R89). -/
  | saveWrite (addr : Word) (v : Byte)
  deriving DecidableEq, Repr

/-- FREE VALUE (log 12). The offset functions that an implementation gives in its `REGION_TABLE`, numbered by `k` (R8,
R72, R73). -/
opaque Config.offset : (k : Nat) → (addr : Word) → Nat

/-- FREE VALUE (log 12). The `INTERNAL_CYCLES` that an implementation gives: any function of the instruction and its
outcome (R8, R109, R150). -/
opaque Config.internalCycles : Instr → StepOutcome → Nat

/-- FREE VALUE (log 4). The byte a store holds at a store address that nothing has written: a byte of `BIOS_IMAGE` or
`ROM_IMAGE` (R9, R431), a byte of memory at power-on (the `DRAW` of D42), or the stored byte of a port nobody
registered. -/
opaque Config.initialByte : Nat → Byte

/-- FREE VALUE (log 5). The `DRAW`s of R230: the C flag (and V of the long forms) after a multiply that sets flags. -/
opaque Config.drawFlag : Nat → Bool

/-- FREE VALUE (log 7). How `DEVICE` presents the stored byte `v` of the readable port byte at offset `off` (R93): a
fresh answer for every draw, since two reads need not agree (R81). -/
opaque Config.portRead : (draw off : Nat) → (v : Byte) → Byte

/-- FREE VALUE (log 8). The byte the save-media device answers at an address (R89, R81). -/
opaque Config.saveRead : (draw : Nat) → (addr : Word) → Byte

/-- FREE VALUE (log 9). What the callback `cb` does with its context `ctx` when it fires (`CALLBACKS`, R9). -/
opaque Config.callback : (draw cb ctx : Nat) → List Action

/-- FREE VALUE (log 9). What `DEVICE` does when an access calls it (R9, R81, R94). -/
opaque Config.device : (draw : Nat) → DeviceCall → List Action

/-- FREE VALUE (log 10). How deep the accesses of callbacks and of `DEVICE` call `DEVICE` again, a finite number where
they run to completion (R94, R416). -/
opaque Config.nesting : (draw : Nat) → Nat

/-- FREE VALUE (log 10). How many events an `Advance` fires beyond those due when it begins, a finite number where the
`Advance` ends (R416). -/
opaque Config.chain : (draw : Nat) → Nat

end Sys2Proof
end

