-- ==== Sys2Proof/Machine/Defaults.lean ====
section
/-! DEFINITION. The defaults of the parameters of R8. -/

namespace Sys2Proof

/-- A row of `WAIT_TABLE` whose costs depend on the width alone (R98). -/
def WaitRow.fixed (c8 c16 c32 : Nat) : WaitRow where
  n8 := { base := c8, first := 0, second := 0 }
  n16 := { base := c16, first := 0, second := 0 }
  n32 := { base := c32, first := 0, second := 0 }
  s8 := { base := c8, first := 0, second := 0 }
  s16 := { base := c16, first := 0, second := 0 }
  s32 := { base := c32, first := 0, second := 0 }

/-- The row of a cartridge area: `1 + N` or, sequential, `1 + S`; a word is two halfwords, the second sequential (R99). -/
def WaitRow.cartridge : WaitRow where
  n8 := { base := 1, first := 1, second := 0 }
  n16 := { base := 1, first := 1, second := 0 }
  n32 := { base := 2, first := 1, second := 1 }
  s8 := { base := 1, first := 0, second := 1 }
  s16 := { base := 1, first := 0, second := 1 }
  s32 := { base := 2, first := 0, second := 2 }

/-- The row of the save media: `1 + SRAM_wait`, whatever the width and the sequentiality (R99). -/
def WaitRow.saveMedia : WaitRow where
  n8 := { base := 1, first := 1, second := 0 }
  n16 := { base := 1, first := 1, second := 0 }
  n32 := { base := 1, first := 1, second := 0 }
  s8 := { base := 1, first := 1, second := 0 }
  s16 := { base := 1, first := 1, second := 0 }
  s32 := { base := 1, first := 1, second := 0 }

/-- The default `WAIT_TABLE` (R98, R99). -/
def WaitTable.default : WaitTable where
  bios := WaitRow.fixed 1 1 1
  ewram := WaitRow.fixed 3 3 6
  iwram := WaitRow.fixed 1 1 1
  io := WaitRow.fixed 1 1 1
  palette := WaitRow.fixed 1 1 2
  vram := WaitRow.fixed 1 1 2
  oam := WaitRow.fixed 1 1 1
  rom0 := WaitRow.cartridge
  rom1 := WaitRow.cartridge
  rom2 := WaitRow.cartridge
  save := WaitRow.saveMedia
  undefined := WaitRow.fixed 1 1 1

/-- The row of a region of one top byte whose offset is `addr[23:0]` and whose target is a backing store (R72). -/
def RegionRow.memory (top : Byte) (busWidth : Width) (writable : Bool) : RegionRow where
  tops := [top]
  offset := .lowBits 24
  busWidth := busWidth
  target := .store
  writable := writable

/-- The row of a cartridge area: two top bytes, `addr[24:0]`, not writable (R72). -/
def RegionRow.cartridge (top : Byte) : RegionRow where
  tops := [top, top + 1#8]
  offset := .lowBits 25
  busWidth := .half
  target := .store
  writable := false

/-- The default `REGION_TABLE` (R72). -/
def RegionTable.default : RegionTable where
  bios := RegionRow.memory 0x00#8 .word false
  ewram := RegionRow.memory 0x02#8 .half true
  iwram := RegionRow.memory 0x03#8 .word true
  io := { tops := [0x04#8], offset := .lowBits 24, busWidth := .word, target := .ports, writable := false }
  palette := RegionRow.memory 0x05#8 .half true
  vram := RegionRow.memory 0x06#8 .half true
  oam := RegionRow.memory 0x07#8 .word true
  rom0 := RegionRow.cartridge 0x08#8
  rom1 := RegionRow.cartridge 0x0A#8
  rom2 := RegionRow.cartridge 0x0C#8
  save := { tops := [0x0E#8], offset := .lowBits 24, busWidth := .byte, target := .device, writable := false }

/-- The default backing sizes (R72). -/
def RegionSizes.default : RegionSizes where
  bios := 0x4000
  ewram := 0x40000
  iwram := 0x8000
  io := 0x400
  palette := 0x400
  vram := 0x18000
  oam := 0x400
  save := 0x10000

/-- The table of the default `INTERNAL_CYCLES` (R452). -/
def InternalTable.default : InternalTable where
  dataProc := 0
  regShift := 1
  mul := 0
  mla := 1
  mull := 1
  mlal := 2
  load := 1
  store := 0
  loadBlock := 1
  storeBlock := 0
  swap := 1
  branch := 0
  thumbAlu := 0
  thumbShift := 1
  thumbMul := 0
  thumbLoad := 1
  thumbStore := 0
  thumbLoadBlock := 1
  thumbStoreBlock := 0
  thumbBranch := 0

/-- The defaults of R8. DESIGN CHOICE (log 11) where R8 says OPEN: the ROM size and the scheduler capacity. -/
def Params.default : Params where
  regions := RegionTable.default
  sizes := RegionSizes.default
  romSize := 0x02000000
  wait := WaitTable.default
  internal := .rows InternalTable.default
  schedCapacity := 64
  prefetchHitCost := 1
  haltStepCycles := 1
  videoByteWrite := .plain
  bootMode := .cold

end Sys2Proof
end

