-- ==== Sys2Proof/Machine/State.lean ====
section
/-! DEFINITION. The state of the block as plain data (spec 10_state.md), the reasons a step can stop, and the state after a cold reset. -/

namespace Sys2Proof.Machine

/-! ## Modes and status registers -/

/-- The seven modes (R22, R35; log 18). -/
inductive Mode where
  | usr | fiq | irq | svc | abt | und | sys
  deriving DecidableEq, Repr

/-- A saved status register (R38): the layout of R30, the reserved bits 26:8 having no storage (R37); its M field may
hold any value (R36). -/
structure Psr where
  n : Bool
  z : Bool
  c : Bool
  v : Bool
  /-- The "sticky-overflow" flag (R33). -/
  q : Bool
  /-- The IRQ mask (R32). -/
  i : Bool
  /-- The FIQ mask (R32). -/
  f : Bool
  /-- The encoding selector (R34). -/
  t : Bool
  /-- Bits 4:0. -/
  m : BitVec 5
  deriving DecidableEq, Repr

/-- The live status register (R30). Its mode is one of the seven, since no instruction may write another (R36). -/
structure Cpsr where
  n : Bool
  z : Bool
  c : Bool
  v : Bool
  q : Bool
  i : Bool
  f : Bool
  t : Bool
  mode : Mode
  deriving DecidableEq, Repr

/-- The five saved copies (R38). User and System mode have none (R39). -/
structure Spsrs where
  fiq : Psr
  svc : Psr
  abt : Psr
  irq : Psr
  und : Psr
  deriving DecidableEq, Repr

/-! ## Pipeline -/

/-- The pipeline buffer (R41). A halfword stands zero-extended. -/
structure Pipe where
  /-- The word fetched most recently. -/
  fetched : Word
  /-- The word fetched before it, the next to execute. -/
  decoded : Word
  /-- The next fetch address, and the value of R15 (R45). -/
  cursor : Word
  deriving DecidableEq, Repr

/-! ## Bus, ports and scheduler -/

/-- The kind of a bus access (R12). -/
inductive AccessKind where
  | code
  | data
  deriving DecidableEq, Repr

/-- What the sequential-access tracker `LAST` holds (R50). -/
structure LastAccess where
  kind : AccessKind
  addr : Word
  width : Width
  deriving DecidableEq, Repr

/-- Whose bus access it is: the core's, or a callback's or `DEVICE`'s (R419). -/
inductive Master where
  | core
  | collaborator
  deriving DecidableEq, Repr

/-- One bus access as the observation shows it (R67): the value is that of the access's width; where `DEVICE` answers, the
address is the exact one and a write's value the one byte delivered (R89; DEDUCED, log 26). -/
structure Access where
  master : Master
  write : Bool
  kind : AccessKind
  addr : Word
  width : Width
  value : Word
  sequential : Bool
  cost : Nat
  deriving DecidableEq, Repr

/-- One byte of the port table (R92). -/
structure PortByte where
  value : Byte
  readable : Bool
  writable : Bool
  deriving DecidableEq, Repr

/-- One register of the port table: consecutive bytes from offset `base`, and its write intercept (R92). -/
structure PortReg where
  base : Nat
  bytes : List PortByte
  intercept : Option Nat
  deriving DecidableEq, Repr

/-- A scheduled event (R410). -/
structure Event where
  /-- The absolute trigger timestamp. -/
  time : Nat
  cat : Nat
  cb : Nat
  ctx : Nat
  /-- The insertion sequence number. -/
  seq : Nat
  recursive : Bool
  deriving DecidableEq, Repr

/-- The memory bus, the event scheduler and the external lines: everything a bus access or a callback can change. No
register stands here, so no access and no callback changes one. -/
structure Bus where
  /-- The contents of the backing stores (R72, R87): what has been written, in strictly rising order of store address. -/
  mem : List Host.Cell
  /-- The port table but for WAITCNT (R92). -/
  ports : List PortReg
  /-- WAITCNT (R101). -/
  waitcnt : BitVec 16
  /-- The open-bus latch `OB` (R48). -/
  ob : Word
  /-- `PF.valid` (R49). -/
  pfValid : Bool
  /-- `PF.next` (R49; at reset DESIGN CHOICE, log 22). -/
  pfNext : Word
  /-- `LAST` (R50). -/
  last : Option LastAccess
  /-- `ACC`, the cycles of the current step (R51). -/
  acc : Nat
  /-- `TS`, the master timestamp (R52). -/
  ts : Nat
  /-- `Q`, the pending events in insertion order (R52). -/
  queue : List Event
  /-- The next sequence number (R52; at reset DESIGN CHOICE, log 23). -/
  nextSeq : Nat
  /-- The category of the running callback (R413, R416). -/
  running : Option Nat
  /-- `halted` (R53). -/
  halted : Bool
  /-- `IRQ_LINE`, an input (R54; at reset DESIGN CHOICE, log 20). -/
  irqLine : Bool
  /-- The bus accesses of the current step, the core's and its collaborators' (R67, R419); the MODEL's own field (log 26). -/
  trace : List Access
  /-- The next answer of `DEVICE` and `CALLBACKS`; the MODEL's own field (log 6). -/
  draws : Nat
  /-- The parameters (R8); the MODEL's own field, changed by no step (log 11). -/
  params : Params
  deriving DecidableEq, Repr

/-! ## The reasons a step stops -/

/-- What a stop leaves of the machine: every field of `State` but the fault itself (R13, R155). -/
structure Remains where
  gpr : Vector Word 30
  cpsr : Cpsr
  spsrs : Spsrs
  pipe : Pipe
  flow : Option Word
  bus : Bus
  draws : Nat
  deriving DecidableEq, Repr

/-- The source's fatal class `FAULT` (R13, R17, R381): the machine stops and no step is taken from there. Each stop is
SAFE: the model claims nothing about a run that goes past it. -/
inductive Fault where
  /-- Raised by an ARM word whose condition is 1111 (R141). Safe. -/
  | conditionNever
  /-- Raised by the unallocated multiply and extra space (R145). Safe. -/
  | unallocatedMultiply
  /-- Raised by the LDRD/STRD space (R253). Safe. -/
  | unallocatedHalfwordStore
  /-- Raised by op = 10xx with S = 0 that is neither MRS, MSR nor BX (R145). Safe. -/
  | unallocatedPsrTransfer
  /-- Raised by a form that names R15 where the spec forbids it (R184, R220, R221, R230, R240, R244 to R246, R260,
  R270). Safe. -/
  | r15Operand
  /-- Raised by TST, TEQ, CMP or CMN with Rd = 15 (R204). Safe. -/
  | compareRd15
  /-- Raised by multiplies and swaps whose registers clash (R231 to R236, R270, R324). Safe. -/
  | registerClash
  /-- Raised by a halfword or signed transfer with P = 0 and W = 1 (R246). Safe. -/
  | postIndexedWriteBack
  /-- Raised by the forms that need the current SPSR, in User or System mode (R39, R205, R220, R222, R267). Safe. -/
  | noSavedStatus
  /-- Raised by a write of a value that is no mode into CPSR.M (R36, R205, R221, R267). Safe. -/
  | notAMode
  /-- Raised by an MSR that would change CPSR.T (R221). Safe. -/
  | changesEncoding
  /-- Raised by a user-bank transfer with write-back, in User or System mode, or by an STM with an empty list (R266).
  Safe. -/
  | userBankTransfer
  /-- Raised by a Thumb hi-register form with H1 = H2 = 0 (R327 to R329). Safe. -/
  | lowRegisters
  /-- Raised by Thumb BX with H1 = 1, the ARMv5 BLX form (R330). Safe. -/
  | branchLinkExchange
  /-- Raised by PUSH and POP with an empty list (R364). Safe. -/
  | emptyStackList
  /-- Raised by `Schedule` on a full queue (R411). Safe. -/
  | schedulerCapacity
  /-- Raised by the host's Deserialize on a state that fails its check (R65). Safe. -/
  | inconsistentState
  /-- The fault `why` with what it leaves: raised by every step that faults, whose accesses and callbacks before the
  fault stand (R155, R267; log 13). Safe. -/
  | stopped (why : Fault) (left : Remains)
  deriving DecidableEq, Repr

/-- An instruction without a meaning in the model. -/
inductive Refusal where
  /-- Raised by an arm of exec whose instruction has no meaning yet. Safe. -/
  | notModelled (mnemonic : String)
  deriving DecidableEq, Repr

/-! ## The state -/

/-- The state of the CORE block. -/
structure State where
  /-- The thirty banked registers, R15 apart (R21), in the order of `physIndex`: R0 to R14 of User mode, R8 to R14 of
  FIQ, then R13 and R14 of Supervisor, Abort, IRQ and Undefined. -/
  gpr : Vector Word 30
  cpsr : Cpsr
  spsrs : Spsrs
  pipe : Pipe
  /-- The flow report of the instruction being executed (R11, R151): the target of `pc <- target` (log 14). -/
  flow : Option Word
  bus : Bus
  /-- The fault a faulted state is in (R55; log 13). -/
  faulted : Option Fault
  /-- The next `DRAW` of R230; the MODEL's own field (log 6). -/
  draws : Nat
  deriving DecidableEq, Repr

/-- What a meaning answers. -/
abbrev Result := Host.Outcome State Fault Refusal

/-! ## Reset -/

/-- The word the boot ROM holds at a store address (R76, R431). -/
def bootWord (k : Nat) : Word :=
  Config.initialByte (k + 3) ++ Config.initialByte (k + 2) ++ Config.initialByte (k + 1) ++ Config.initialByte k

/-- The saved status registers at reset. DESIGN CHOICE (log 3): the spec gives them no value (R57). -/
def Psr.zero : Psr where
  n := false
  z := false
  c := false
  v := false
  q := false
  i := false
  f := false
  t := false
  m := 0#5

/-- CPSR after a cold reset (R57, R430). DESIGN CHOICE (log 2): N, Z, C, V and Q, to which the spec gives no value. -/
def Cpsr.reset : Cpsr where
  n := false
  z := false
  c := false
  v := false
  q := false
  i := true
  f := true
  t := false
  mode := .svc

/-- The bus after the cold reset's bubble: two code fetches of the boot ROM, one cycle each (R57, R98, R430).
DESIGN CHOICE (log 32): `ACC` is 0 before the bubble, to which the spec gives no value. -/
def Bus.reset : Bus where
  mem := []
  ports := []
  waitcnt := 0x0000#16
  ob := bootWord 4
  pfValid := false
  pfNext := 0#32
  last := some { kind := .code, addr := 4#32, width := .word }
  acc := 2
  ts := 2
  queue := []
  nextSeq := 0
  running := none
  halted := false
  irqLine := false
  trace :=
    [{ master := .core, write := false, kind := .code, addr := 0#32, width := .word, value := bootWord 0,
       sequential := false, cost := 1 },
     { master := .core, write := false, kind := .code, addr := 4#32, width := .word, value := bootWord 4,
       sequential := true, cost := 1 }]
  draws := 0
  params := Params.default

/-- The machine right after a cold reset (R57, R430, R433): Supervisor mode, interrupts masked, ARM state, both slots
filled from address 0. DESIGN CHOICE (log 1): the general registers, to which the spec gives no value, hold 0. -/
def State.reset : State where
  gpr := Vector.replicate 30 0#32
  cpsr := Cpsr.reset
  spsrs := { fiq := Psr.zero, svc := Psr.zero, abt := Psr.zero, irq := Psr.zero, und := Psr.zero }
  pipe := { fetched := bootWord 4, decoded := bootWord 0, cursor := 8#32 }
  flow := none
  bus := Bus.reset
  faulted := none
  draws := 0

end Sys2Proof.Machine
end

