-- ==== Sys2Proof/Machine/Bus.lean ====
section
/-! DEFINITION. The memory bus, its timing model and the event scheduler (spec 20_memory.md and 60_exceptions.md section 7), as operations on `Bus`. -/

namespace Sys2Proof.Machine

/-- Runs `k` on what `r` answers; a fault or a refusal ends the computation. -/
def andThen {α β φ : Type} (r : Host.Outcome α φ Refusal) (k : α → Host.Outcome β φ Refusal) : Host.Outcome β φ Refusal :=
  match r with
  | .next a => k a
  | .fault f => .fault f
  | .refused e => .refused e

/-- What an operation of the bus answers. Its one fault is the full scheduler queue of R411, and it carries the bus that
the stop leaves (R155). -/
abbrev BusResult (α : Type) := Host.Outcome α Bus Refusal

/-! ## Stores (R77, R87) -/

/-- The canonical form of a store's contents: addresses strictly rising. An unlisted address holds nothing written. -/
def Memory.wf : List Host.Cell → Bool
  | [] => true
  | [_] => true
  | x :: y :: m => decide (x.1 < y.1) && Memory.wf (y :: m)

/-- The byte written at a store address, none where nothing has been written. -/
def Memory.get (m : List Host.Cell) (a : Nat) : Option Byte :=
  match m with
  | [] => none
  | x :: m => if x.1 = a then some x.2 else Memory.get m a

/-- Writes one byte, keeping the canonical form. -/
def Memory.set (m : List Host.Cell) (a : Nat) (v : Byte) : List Host.Cell :=
  match m with
  | [] => [(a, v)]
  | x :: m =>
    if a < x.1 then (a, v) :: x :: m
    else if x.1 = a then (a, v) :: m
    else x :: Memory.set m a v

/-- The byte a store holds: what was written there, else the free initial byte (R9, R431, D42; log 4). -/
def storeByte (m : List Host.Cell) (a : Nat) : Byte := (Memory.get m a).getD (Config.initialByte a)

/-- Byte `k` of a value, `v[8k+7:8k]` (R77). -/
def byteOf (v : Word) (k : Nat) : Byte := v.extractLsb' (8 * k) 8

/-- The number of bytes of an access (R79). -/
def widthBytes : Width → Nat
  | .byte => 1
  | .half => 2
  | .word => 4

/-- A backing-store read: the byte at the lowest address is the least significant (R76, R77). -/
def storeRead (m : List Host.Cell) (a : Nat) : Width → Word
  | .byte => (storeByte m a).setWidth 32
  | .half => (storeByte m (a + 1) ++ storeByte m a).setWidth 32
  | .word => storeByte m (a + 3) ++ storeByte m (a + 2) ++ storeByte m (a + 1) ++ storeByte m a

/-- A backing-store write: `store[off+k] <- v[8k+7:8k]` (R77). -/
def storeWrite (m : List Host.Cell) (a : Nat) (w : Width) (v : Word) : List Host.Cell :=
  match w with
  | .byte => Memory.set m a (byteOf v 0)
  | .half => Memory.set (Memory.set m a (byteOf v 0)) (a + 1) (byteOf v 1)
  | .word =>
    Memory.set (Memory.set (Memory.set (Memory.set m a (byteOf v 0)) (a + 1) (byteOf v 1)) (a + 2) (byteOf v 2))
      (a + 3) (byteOf v 3)

/-! ## Regions (R71 to R75) -/

/-- The regions of R72; the cartridge has one for each wait-state area. -/
inductive Region where
  | bios | ewram | iwram | io | palette | vram | oam | rom0 | rom1 | rom2 | save
  deriving DecidableEq, Repr

/-- The eleven rows of R72, in its order. -/
def allRegions : List Region := [.bios, .ewram, .iwram, .io, .palette, .vram, .oam, .rom0, .rom1, .rom2, .save]

/-- The row of `REGION_TABLE` for a region (R72). -/
def regionRow (p : Params) : Region → RegionRow
  | .bios => p.regions.bios
  | .ewram => p.regions.ewram
  | .iwram => p.regions.iwram
  | .io => p.regions.io
  | .palette => p.regions.palette
  | .vram => p.regions.vram
  | .oam => p.regions.oam
  | .rom0 => p.regions.rom0
  | .rom1 => p.regions.rom1
  | .rom2 => p.regions.rom2
  | .save => p.regions.save

/-- The region of an address: the first row that its bits 31:24 select; none for an undefined region (R71, R72, R74; log
12). -/
def regionOf (p : Params) (a : Word) : Option Region :=
  allRegions.find? fun r => (regionRow p r).tops.contains (a.extractLsb' 24 8)

/-- The backing size of a region (R72). -/
def regionSize (p : Params) : Region → Nat
  | .bios => p.sizes.bios.val
  | .ewram => p.sizes.ewram.val
  | .iwram => p.sizes.iwram.val
  | .io => p.sizes.io.val
  | .palette => p.sizes.palette.val
  | .vram => p.sizes.vram.val
  | .oam => p.sizes.oam.val
  | .rom0 => p.romSize.val
  | .rom1 => p.romSize.val
  | .rom2 => p.romSize.val
  | .save => p.sizes.save.val

/-- The dispatch target of a region (R71, R72). -/
def regionTarget (p : Params) (r : Region) : Target := (regionRow p r).target

/-- Whether a region is cartridge ROM (R72). -/
def isRom : Region → Bool
  | .rom0 => true
  | .rom1 => true
  | .rom2 => true
  | _ => false

/-- The offset function of a region (R72, R73; log 12; DEDUCED, log 25). -/
def regionOffset (p : Params) (r : Region) (a : Word) : Nat :=
  match (regionRow p r).offset with
  | .lowBits n => a.toNat % 2 ^ n
  | .modSize => a.toNat % regionSize p r
  | .given k => Config.offset k a

/-- Where a region's store stands in the list of written bytes. The three cartridge areas are one store (R72). -/
def storeBase : Region → Nat
  | .bios => 0x00000000
  | .ewram => 0x02000000
  | .iwram => 0x03000000
  | .io => 0x04000000
  | .palette => 0x05000000
  | .vram => 0x06000000
  | .oam => 0x07000000
  | .rom0 => 0x08000000
  | .rom1 => 0x08000000
  | .rom2 => 0x08000000
  | .save => 0x0E000000

/-- Whether a region has a store that may be written (R72, R86). -/
def regionWritable (p : Params) (r : Region) : Bool := regionTarget p r == .store && (regionRow p r).writable

/-- The address the bus uses: the low bits of a word or halfword access are masked (R82). -/
def alignTo (w : Width) (a : Word) : Word :=
  match w with
  | .byte => a
  | .half => a &&& 0xFFFFFFFE#32
  | .word => a &&& 0xFFFFFFFC#32

/-- Whether an access at the aligned address `x` of region `r` lies past the region's size (R73). -/
def pastSize (p : Params) (r : Region) (x : Word) (w : Width) : Bool :=
  decide (regionSize p r < regionOffset p r x + widthBytes w)

/-- Whether an access at `a` goes to `DEVICE` as save media does (R72, R89). -/
def deviceAnswers (p : Params) (a : Word) (w : Width) : Bool :=
  match regionOf p (alignTo w a) with
  | none => false
  | some r => regionTarget p r == .device && !pastSize p r (alignTo w a) w

/-! ## Values on the bus (R77, R89 to R91) -/

/-- The value of an access of width `w`: its low bytes (R12, R77). -/
def narrow (w : Width) (v : Word) : Word :=
  match w with
  | .byte => (v.setWidth 8).setWidth 32
  | .half => (v.setWidth 16).setWidth 32
  | .word => v

/-- The one byte that a write of `v` delivers to `DEVICE` at the exact address: `(v >> 8·(a mod n)) AND 0xFF` (R89). -/
def deviceByte (a : Word) (w : Width) (v : Word) : Byte := byteOf v (a.toNat % widthBytes w)

/-- `replicate_n(v)` (R90). -/
def replicate (w : Width) (v : Word) : Word :=
  match w with
  | .byte => byteOf v 0 ++ byteOf v 0 ++ byteOf v 0 ++ byteOf v 0
  | .half => v.extractLsb' 0 16 ++ v.extractLsb' 0 16
  | .word => v

/-- The open-bus value of an access at address `a` (R91). -/
def openBus (ob : Word) (w : Width) (a : Word) : Word :=
  match w with
  | .byte => (ob.extractLsb' (8 * (a.toNat % 4)) 8).setWidth 32
  | .half => (ob.extractLsb' (16 * (a.toNat / 2 % 2)) 16).setWidth 32
  | .word => ob

/-! ## The port table (R92 to R95) and WAITCNT (R101) -/

/-- Whether an offset belongs to the WAITCNT word, bytes 0x204 to 0x207: WAITCNT, which the bus owns, and the two bytes that
are neither readable nor writable (R101; DESIGN CHOICE, log 35). -/
def isWaitcntByte (o : Nat) : Bool := decide (0x204 ≤ o) && decide (o ≤ 0x207)

/-- The byte a register holds at port offset `o`. -/
def portRegByte (r : PortReg) (o : Nat) : Option PortByte :=
  if r.base ≤ o then r.bytes[o - r.base]? else none

/-- The port-table byte at offset `o`, none where no register has it. -/
def portByteAt (ports : List PortReg) (o : Nat) : Option PortByte := ports.findSome? fun r => portRegByte r o

/-- The byte a read finds at offset `o`, none where it is not readable (R93, R101; log 7). -/
def Bus.portReadable (b : Bus) (o : Nat) : Option Byte :=
  if isWaitcntByte o then
    match o with
    | 0x204 => some (b.waitcnt.extractLsb' 0 8)
    | 0x205 => some (b.waitcnt.extractLsb' 8 8)
    | _ => none
  else
    match portByteAt b.ports o with
    | some p => if p.readable then some (Config.portRead b.draws o p.value) else none
    | none => none

/-- One byte lane of a port read: the readable byte, else lane `o mod 4` of the open bus (R93). -/
def Bus.portLane (b : Bus) (o : Nat) : Byte := (b.portReadable o).getD (byteOf b.ob (o % 4))

/-- The value of a port read at offset `o` (R93). -/
def Bus.portValue (b : Bus) (o : Nat) : Width → Word
  | .byte => (b.portLane o).setWidth 32
  | .half => (b.portLane (o + 1) ++ b.portLane o).setWidth 32
  | .word => b.portLane (o + 3) ++ b.portLane (o + 2) ++ b.portLane (o + 1) ++ b.portLane o

/-- Whether some byte of a port access is readable, so that the access transfers a value (R90). -/
def Bus.portTransfers (b : Bus) (o : Nat) (w : Width) : Bool :=
  (List.range (widthBytes w)).any fun k => (b.portReadable (o + k)).isSome

/-- A port read at offset `o`: its value, and the bus after it (R90, R93). -/
def Bus.portRead (b : Bus) (o : Nat) (w : Width) : Word × Bus :=
  (b.portValue o w,
    { b with
      ob := if b.portTransfers o w then replicate w (b.portValue o w) else b.ob
      draws := b.draws + 1 })

/-- Writes the byte at port offset `o` of a register, if the register has it and `keep` allows it. -/
def portRegPut (o : Nat) (v : Byte) (force : Bool) (r : PortReg) : PortReg :=
  if r.base ≤ o then
    { r with bytes := r.bytes.modify (o - r.base) fun p => if force || p.writable then { p with value := v } else p }
  else r

/-- One byte of a port write: the stored byte changes if it is writable; WAITCNT keeps bits 13 and 15 zero (R94,
R101). -/
def Bus.portWriteByte (b : Bus) (o : Nat) (v : Byte) : Bus :=
  if isWaitcntByte o then
    match o with
    | 0x204 => { b with waitcnt := b.waitcnt.extractLsb' 8 8 ++ v }
    | 0x205 => { b with waitcnt := (v &&& 0x5F#8) ++ b.waitcnt.extractLsb' 0 8 }
    | _ => b
  else { b with ports := b.ports.map (portRegPut o v false) }

/-- Whether a register contains a byte of an access of `n` bytes at offset `o` (R94). DESIGN CHOICE (log 35): the reserved
bytes 0x206 and 0x207 are the bus's as WAITCNT is, and a register that covers them is not touched by an access to them. -/
def portRegTouched (o n : Nat) (r : PortReg) : Bool :=
  (List.range n).any fun k =>
    decide (r.base ≤ o + k) && decide (o + k < r.base + r.bytes.length) && !isWaitcntByte (o + k)

/-- Inserts a register in ascending order of its base. -/
def insertByBase (r : PortReg) : List PortReg → List PortReg
  | [] => [r]
  | x :: xs => if r.base ≤ x.base then r :: x :: xs else x :: insertByBase r xs

/-- The registers that contain a byte of an access, in ascending address order (R94). -/
def touchedRegs (ports : List PortReg) (o : Nat) (w : Width) : List PortReg :=
  (ports.filter (portRegTouched o (widthBytes w))).foldr insertByBase []

/-- The write intercepts of an access (R94). -/
def interceptsOf (ports : List PortReg) (o : Nat) (w : Width) : List DeviceCall :=
  (touchedRegs ports o w).filterMap fun r => r.intercept.map .intercept

/-- The bytes of a port write in ascending order (R94). -/
def Bus.portWrite (b : Bus) (o : Nat) (w : Width) (v : Word) : Bus :=
  (List.range (widthBytes w)).foldl (fun b k => b.portWriteByte (o + k) (byteOf v k)) b

/-! ## The value part of an access (R80, R87 to R94) -/

/-- The value of a save-media read: the byte at the exact address, in every lane (R89; log 8). -/
def saveValue (draw : Nat) (a : Word) (w : Width) : Word :=
  match w with
  | .byte => (Config.saveRead draw a).setWidth 32
  | .half => (Config.saveRead draw a ++ Config.saveRead draw a).setWidth 32
  | .word => Config.saveRead draw a ++ Config.saveRead draw a ++ Config.saveRead draw a ++ Config.saveRead draw a

/-- A read without its cost: dispatch, value, open-bus update (R71, R73, R74, R90, R91; DEDUCED, log 16). -/
def Bus.valueRead (b : Bus) (a : Word) (w : Width) : Word × Bus :=
  match regionOf b.params (alignTo w a) with
  | none => (openBus b.ob w (alignTo w a), b)
  | some r =>
    if pastSize b.params r (alignTo w a) w then (openBus b.ob w (alignTo w a), b)
    else
      match regionTarget b.params r with
      | .ports => b.portRead (regionOffset b.params r (alignTo w a)) w
      | .device => (saveValue b.draws a w, { b with ob := replicate w (saveValue b.draws a w), draws := b.draws + 1 })
      | .store =>
        (storeRead b.mem (storeBase r + regionOffset b.params r (alignTo w a)) w,
          { b with ob := replicate w (storeRead b.mem (storeBase r + regionOffset b.params r (alignTo w a)) w) })

/-- What a read asks of `DEVICE`: the registers of the port table it touches, or the save media (R81, R89; log 7). -/
def Bus.readCalls (b : Bus) (a : Word) (w : Width) : List DeviceCall :=
  match regionOf b.params (alignTo w a) with
  | none => []
  | some r =>
    if pastSize b.params r (alignTo w a) w then []
    else
      match regionTarget b.params r with
      | .store => []
      | .ports => (touchedRegs b.ports (regionOffset b.params r (alignTo w a)) w).map fun r => .portRead r.base
      | .device => [.saveRead a]

/-- A byte store to palette, video or object memory under `VIDEO_BYTE_WRITE = hw` (R88). -/
def videoByteStore (m : List Host.Cell) (r : Region) (off : Nat) (v : Word) : List Host.Cell :=
  if r = .palette ∨ (r = .vram ∧ off < 0x10000) then
    storeWrite m (storeBase r + off / 2 * 2) .half ((byteOf v 0 ++ byteOf v 0).setWidth 32)
  else m

/-- Whether a store is a byte store to palette, video or object memory (R88). -/
def isVideoByte (r : Region) (w : Width) : Bool :=
  w == .byte && (r == .palette || r == .vram || r == .oam)

/-- The store after a write to a backing-store region (R77, R86, R88). -/
def regionStore (p : Params) (m : List Host.Cell) (r : Region) (off : Nat) (w : Width) (v : Word) : List Host.Cell :=
  if regionWritable p r then
    if p.videoByteWrite == .hw && isVideoByte r w then videoByteStore m r off v
    else storeWrite m (storeBase r + off) w v
  else m

/-- A write without its cost: what it asks of `DEVICE`, and the bus after dispatch, store and open-bus update (R71, R73,
R74, R86, R89, R90, R94; DEDUCED, logs 16 and 17). -/
def Bus.valueWrite (b : Bus) (a : Word) (w : Width) (v : Word) : List DeviceCall × Bus :=
  match regionOf b.params (alignTo w a) with
  | none => ([], b)
  | some r =>
    if pastSize b.params r (alignTo w a) w then ([], { b with ob := replicate w v })
    else
      match regionTarget b.params r with
      | .ports =>
        (interceptsOf b.ports (regionOffset b.params r (alignTo w a)) w,
          { b with ob := replicate w v }.portWrite (regionOffset b.params r (alignTo w a)) w v)
      | .device => ([.saveWrite a (deviceByte a w v)], { b with ob := replicate w v })
      | .store =>
        ([], { b with
               ob := replicate w v
               mem := regionStore b.params b.mem r (regionOffset b.params r (alignTo w a)) w v })

/-! ## The observation (R67) -/

/-- The address at which an access shows: the exact one where `DEVICE` answers, else the aligned one (R67, R82, R89). -/
def shownAddr (p : Params) (a : Word) (w : Width) : Word := if deviceAnswers p a w then a else alignTo w a

/-- The value with which a write shows: the byte that `DEVICE` is given, else the value of its width (R67, R89). -/
def shownValue (p : Params) (a : Word) (w : Width) (v : Word) : Word :=
  if deviceAnswers p a w then (deviceByte a w v).setWidth 32 else narrow w v

/-- Adds an access to the observation of the step (R67). -/
def Bus.record (b : Bus) (x : Access) : Bus := { b with trace := b.trace ++ [x] }

/-- A collaborator's access: value-only, without a cost (R419; DEDUCED, log 26). -/
def collaboratorAccess (p : Params) (write : Bool) (a : Word) (w : Width) (v : Word) : Access where
  master := .collaborator
  write := write
  kind := .data
  addr := shownAddr p a w
  width := w
  value := v
  sequential := false
  cost := 0

/-- A collaborator's read: its value part, observed (R67, R419). -/
def Bus.otherRead (b : Bus) (a : Word) (w : Width) : Bus :=
  (b.valueRead a w).2.record (collaboratorAccess b.params false a w (b.valueRead a w).1)

/-- A collaborator's write: its value part, observed (R67, R419). -/
def Bus.otherWrite (b : Bus) (a : Word) (w : Width) (v : Word) : Bus :=
  (b.valueWrite a w v).2.record (collaboratorAccess b.params true a w (shownValue b.params a w v))

/-! ## The event scheduler (R410 to R421) -/

/-- `Pending(cat)`: queued, or its callback running (R413, R417). -/
def Bus.pending (b : Bus) (cat : Nat) : Bool := b.queue.any (fun e => e.cat == cat) || b.running == some cat

/-- `Schedule`; the answer says whether the event was accepted (R411, R412). -/
def Bus.schedule (b : Bus) (rel cat cb ctx : Nat) (recursive : Bool) : BusResult (Bool × Bus) :=
  if !recursive && b.pending cat then .next (false, b)
  else if b.params.schedCapacity ≤ b.queue.length then .fault b
  else
    .next (true, { b with
      queue := b.queue ++ [{ time := b.ts + rel, cat := cat, cb := cb, ctx := ctx, seq := b.nextSeq, recursive := recursive }]
      nextSeq := b.nextSeq + 1 })

/-- `Deschedule`: every queued event of the category is removed (R414). -/
def Bus.deschedule (b : Bus) (cat : Nat) : Bus := { b with queue := b.queue.filter fun e => e.cat != cat }

/-- How many queued events are due (R415). -/
def Bus.dueCount (b : Bus) : Nat := (b.queue.filter fun e => decide (e.time ≤ b.ts)).length

/-- Whether an event scheduled `rel` cycles ahead may join an `Advance` that fires at most `limit` more events; outside an
`Advance` there is no limit (R416; log 10). -/
def Bus.mayFire (b : Bus) (limit : Option Nat) (rel : Nat) : Bool :=
  match limit with
  | none => true
  | some n => rel != 0 || decide (b.dueCount < n)

/-- What `DEVICE` does for `calls`, each a fresh answer (R9, R81, R94). -/
def Bus.deviceActions (b : Bus) (calls : List DeviceCall) : List Action × Bus :=
  match calls with
  | [] => ([], b)
  | c :: calls =>
    let rest := { b with draws := b.draws + 1 }.deviceActions calls
    (Config.device b.draws c ++ rest.1, rest.2)

/-- One action of a callback or of `DEVICE`, and the actions of `DEVICE` that it calls for. Its bus accesses are
value-only: no cost, no `LAST`, no `PF`, no nested `Advance` (R419), and are observed (R67). -/
def Bus.perform (b : Bus) (limit : Option Nat) (a : Action) : BusResult (List Action × Bus) :=
  match a with
  | .read addr w => .next ((b.otherRead addr w).deviceActions (b.readCalls addr w))
  | .write addr w v => .next ((b.otherWrite addr w v).deviceActions (b.valueWrite addr w v).1)
  | .setPort o v => .next ([], if isWaitcntByte o then b else { b with ports := b.ports.map (portRegPut o v true) })
  | .schedule rel cat cb ctx recursive =>
    if b.mayFire limit rel then andThen (b.schedule rel cat cb ctx recursive) fun x => .next ([], x.2) else .next ([], b)
  | .deschedule cat => .next ([], b.deschedule cat)
  | .setIrqLine level => .next ([], { b with irqLine := level })
  | .requestHalt => .next ([], { b with halted := true })

/-- Runs actions one after another. -/
def runEach (run : Action → Bus → BusResult Bus) (acts : List Action) (b : Bus) : BusResult Bus :=
  match acts with
  | [] => .next b
  | a :: acts => andThen (run a b) (runEach run acts)

/-- Runs actions to completion, what `DEVICE` does for one before the rest, to the depth `nesting` (R94, R416; log 10). -/
def runActions (nesting : Nat) (limit : Option Nat) (acts : List Action) (b : Bus) : BusResult Bus :=
  match nesting with
  | 0 => runEach (fun a b => andThen (b.perform limit a) fun x => .next x.2) acts b
  | d + 1 => runEach (fun a b => andThen (b.perform limit a) fun x => runActions d limit x.1 x.2) acts b

/-- The calls of `DEVICE` that an access of the core makes, run to completion (R9, R81, R89, R94). -/
def Bus.call (b : Bus) (calls : List DeviceCall) : BusResult Bus :=
  match calls with
  | [] => .next b
  | _ => runActions (Config.nesting b.draws) none (b.deviceActions calls).1 (b.deviceActions calls).2

/-- The due event with the least timestamp and, among equals, the least sequence number (R415, R416). -/
def earliestDue (ts : Nat) : List Event → Option Event
  | [] => none
  | e :: q =>
    match earliestDue ts q with
    | none => if e.time ≤ ts then some e else none
    | some d => if e.time ≤ ts ∧ (e.time < d.time ∨ (e.time = d.time ∧ e.seq ≤ d.seq)) then some e else some d

/-- Takes an event out of the queue; its category is running (R416). -/
def Bus.pop (b : Bus) (e : Event) : Bus :=
  { b with queue := b.queue.erase e, running := some e.cat, draws := b.draws + 1 }

/-- Pops an event and runs its callback to completion, in an `Advance` that fires at most `n` more (R416). -/
def Bus.fire (b : Bus) (n : Nat) (e : Event) : BusResult Bus :=
  andThen (runActions (Config.nesting b.draws) (some n) (Config.callback b.draws e.cb e.ctx) (b.pop e)) fun b =>
    .next { b with running := none }

/-- The loop of `Advance`: fires the earliest due event until none is due, `n` of them at most (R416; log 10). -/
def fireDue (n : Nat) (b : Bus) : BusResult Bus :=
  match n with
  | 0 => .next b
  | n + 1 =>
    match earliestDue b.ts b.queue with
    | none => .next b
    | some e => andThen (b.fire n e) (fireDue n)

/-- `TS <- TS + c` (R416). -/
def Bus.later (b : Bus) (c : Nat) : Bus := { b with ts := b.ts + c }

/-- `Advance(c)` (R416). It fires every event that is due when it begins, and those that its callbacks add, of which there
are finitely many where it ends (log 10). -/
def Bus.advance (b : Bus) (c : Nat) : BusResult Bus :=
  match earliestDue (b.later c).ts (b.later c).queue with
  | none => .next (b.later c)
  | some _ => fireDue (Config.chain b.draws + (b.later c).dueCount) (b.later c)

/-! ## Costs (R96 to R107) -/

/-- The codes of a first-access or save-media wait count: 0, 1, 2, 3 mean 4, 3, 2, 8 cycles (R101). -/
def waitFirst : Nat → Nat
  | 0 => 4
  | 1 => 3
  | 2 => 2
  | _ => 8

/-- The first-access wait count that WAITCNT gives a region: `N_k` of a cartridge area, the SRAM wait of the save media
(R101). -/
def firstWait (wc : BitVec 16) : Region → Nat
  | .rom0 => waitFirst (wc.extractLsb' 2 2).toNat
  | .rom1 => waitFirst (wc.extractLsb' 5 2).toNat
  | .rom2 => waitFirst (wc.extractLsb' 8 2).toNat
  | .save => waitFirst (wc.extractLsb' 0 2).toNat
  | _ => 0

/-- The second-access wait count that WAITCNT gives a region: `S_k` of a cartridge area (R101). -/
def secondWait (wc : BitVec 16) : Region → Nat
  | .rom0 => if wc.getLsbD 4 then 1 else 2
  | .rom1 => if wc.getLsbD 7 then 1 else 4
  | .rom2 => if wc.getLsbD 10 then 1 else 8
  | _ => 0

/-- The prefetch-buffer enable, WAITCNT bit 14 (R101). -/
def prefetchEnabled (wc : BitVec 16) : Bool := wc.getLsbD 14

/-- The row of `WAIT_TABLE` for a region, none being an undefined region (R98, R99). -/
def waitRow (p : Params) : Option Region → WaitRow
  | none => p.wait.undefined
  | some .bios => p.wait.bios
  | some .ewram => p.wait.ewram
  | some .iwram => p.wait.iwram
  | some .io => p.wait.io
  | some .palette => p.wait.palette
  | some .vram => p.wait.vram
  | some .oam => p.wait.oam
  | some .rom0 => p.wait.rom0
  | some .rom1 => p.wait.rom1
  | some .rom2 => p.wait.rom2
  | some .save => p.wait.save

/-- The entry of a row for a width and a sequentiality (R98, R99). -/
def rowCost (c : WaitRow) (w : Width) (seq : Bool) : AccessCost :=
  match w, seq with
  | .byte, false => c.n8
  | .half, false => c.n16
  | .word, false => c.n32
  | .byte, true => c.s8
  | .half, true => c.s16
  | .word, true => c.s32

/-- The cycles of an entry under the wait counts of a region (R99). -/
def costCycles (c : AccessCost) (first second : Nat) : Nat := c.base + c.first * first + c.second * second

/-- The cost of an access to a region, none being an undefined region (R98 to R100, R102). -/
def regionCost (p : Params) (wc : BitVec 16) (r : Option Region) (w : Width) (seq : Bool) : Nat :=
  match r with
  | none => costCycles (rowCost (waitRow p none) w seq) 0 0
  | some r => costCycles (rowCost (waitRow p (some r)) w seq) (firstWait wc r) (secondWait wc r)

/-- The most cycles an entry asks for, every wait count being at most 8 (R101). -/
def costMax (c : AccessCost) : Nat := costCycles c 8 8

/-- The most cycles a row asks for. -/
def rowMax (c : WaitRow) : Nat :=
  max (max (costMax c.n8) (max (costMax c.n16) (costMax c.n32))) (max (costMax c.s8) (max (costMax c.s16) (costMax c.s32)))

/-- The most cycles one data access costs (R98, R99, R101). -/
def maxDataCost (p : Params) : Nat :=
  (none :: allRegions.map some).foldr (fun r n => max (rowMax (waitRow p r)) n) 0

/-- The address `n` bytes on, modulo 2^32. -/
def addrPlus (a : Word) (n : Nat) : Word := a + BitVec.ofNat 32 n

/-- Whether an access at the aligned address `x` is sequential. `continues` is false for the first fetch of a bubble and
for every data access that is not a non-first access of a block transfer; an access to an undefined region never is
sequential (R74, R103; DEDUCED, log 21). -/
def Bus.sequential (b : Bus) (k : AccessKind) (x : Word) (continues : Bool) : Bool :=
  match b.last with
  | none => false
  | some l =>
    continues && (regionOf b.params x).isSome && l.kind == k && x == addrPlus l.addr (widthBytes l.width)

/-- Whether an address lies in cartridge ROM. -/
def inRom (p : Params) (x : Word) : Bool :=
  match regionOf p x with
  | some r => isRom r
  | none => false

/-- `PF.valid` before an access is costed: a data access or a non-sequential fetch invalidates it (R106). -/
def Bus.prefetchBefore (b : Bus) (k : AccessKind) (seq : Bool) : Bool := b.pfValid && k == .code && seq

/-- Whether a fetch is served from the prefetch buffer (R106). -/
def Bus.prefetchHit (b : Bus) (k : AccessKind) (x : Word) (seq : Bool) : Bool :=
  b.prefetchBefore k seq && inRom b.params x && prefetchEnabled b.waitcnt && b.pfNext == x

/-- The cost of an access at the aligned address `x` (R99, R106). -/
def Bus.accessCost (b : Bus) (k : AccessKind) (x : Word) (w : Width) (continues : Bool) : Nat :=
  if b.prefetchHit k x (b.sequential k x continues) then b.params.prefetchHitCost * (widthBytes w / 2)
  else regionCost b.params b.waitcnt (regionOf b.params x) w (b.sequential k x continues)

/-- The trackers after an access of cost `c` at address `a`, which shows the value `v`: `LAST`, `PF`, `ACC` and the trace
(R51, R67, R103, R106, R108; DEDUCED, logs 26 and 31). -/
def Bus.charge (b : Bus) (write : Bool) (k : AccessKind) (a : Word) (w : Width) (v : Word) (seq : Bool) (c : Nat) : Bus :=
  let x := alignTo w a
  { b with
    last := some { kind := k, addr := x, width := w }
    pfValid := k == .code && inRom b.params x && (prefetchEnabled b.waitcnt || b.prefetchBefore k seq)
    pfNext := if k == .code && inRom b.params x && prefetchEnabled b.waitcnt then addrPlus x (widthBytes w) else b.pfNext
    acc := b.acc + c
    trace := b.trace ++
      [{ master := .core, write := write, kind := k, addr := shownAddr b.params a w, width := w, value := v, sequential := seq,
         cost := c }] }

/-! ## The accesses of the core (R12, R108) -/

/-- The cost of a core access at address `a`, before the bus aligns it. -/
def Bus.costAt (b : Bus) (k : AccessKind) (a : Word) (w : Width) (continues : Bool) : Nat :=
  b.accessCost k (alignTo w a) w continues

/-- A core read, completed and charged, then what `DEVICE` does for it; its `Advance` is not yet done (R80, R81, R108;
log 26). -/
def Bus.readDeferred (b : Bus) (k : AccessKind) (a : Word) (w : Width) (continues : Bool) : BusResult Bus :=
  ((b.valueRead a w).2.charge false k a w (b.valueRead a w).1 (b.sequential k (alignTo w a) continues)
    (b.costAt k a w continues)).call (b.readCalls a w)

/-- `MemRead`: the value, and the bus after the access and its `Advance` (R12, R108). -/
def Bus.read (b : Bus) (k : AccessKind) (a : Word) (w : Width) (continues : Bool) : BusResult (Word × Bus) :=
  andThen (b.readDeferred k a w continues) fun b' =>
    andThen (b'.advance (b.costAt k a w continues)) fun b'' => .next ((b.valueRead a w).1, b'')

/-- A core write, completed and charged, then what `DEVICE` does for it; its `Advance` is not yet done (R80, R94, R108;
log 26). -/
def Bus.writeDeferred (b : Bus) (a : Word) (w : Width) (v : Word) (continues : Bool) : BusResult Bus :=
  ((b.valueWrite a w v).2.charge true .data a w (shownValue b.params a w v) (b.sequential .data (alignTo w a) continues)
    (b.costAt .data a w continues)).call (b.valueWrite a w v).1

/-- `MemWrite` (R12, R108). -/
def Bus.write (b : Bus) (a : Word) (w : Width) (v : Word) (continues : Bool) : BusResult Bus :=
  andThen (b.writeDeferred a w v continues) fun b' => b'.advance (b.costAt .data a w continues)

/-- The read and the write of a swap at one address: the value read, and the bus after both. The read's `Advance` waits
for the write and is performed with the write's (R115; DEDUCED, log 15). What `DEVICE` does for the read itself is no
scheduled callback and runs before the write (R81; DEDUCED, log 15). -/
def Bus.swap (b : Bus) (a : Word) (w : Width) (v : Word) : BusResult (Word × Bus) :=
  andThen (b.readDeferred .data a w false) fun b1 =>
    andThen (b1.writeDeferred a w v false) fun b2 =>
      andThen (b2.advance (b.costAt .data a w false + b1.costAt .data a w false)) fun b3 => .next ((b.valueRead a w).1, b3)

/-- The stored byte at port offset `o` whatever its permission (R66; log 24). -/
def Bus.portStored (b : Bus) (o : Nat) : Byte :=
  match o with
  | 0x204 => b.waitcnt.extractLsb' 0 8
  | 0x205 => b.waitcnt.extractLsb' 8 8
  | _ =>
    match portByteAt b.ports o with
    | some p => p.value
    | none => Config.initialByte (storeBase .io + o)

/-- `Peek`: the value a read would return from the region's store, port bytes whatever their read permission. It
answers a value and no bus: it changes nothing (R66, R110). -/
def Bus.peek (b : Bus) (a : Word) (w : Width) : Word :=
  match regionOf b.params (alignTo w a) with
  | none => openBus b.ob w (alignTo w a)
  | some r =>
    if pastSize b.params r (alignTo w a) w then openBus b.ob w (alignTo w a)
    else
      match regionTarget b.params r with
      | .ports =>
        let o := regionOffset b.params r (alignTo w a)
        match w with
        | .byte => (b.portStored o).setWidth 32
        | .half => (b.portStored (o + 1) ++ b.portStored o).setWidth 32
        | .word => b.portStored (o + 3) ++ b.portStored (o + 2) ++ b.portStored (o + 1) ++ b.portStored o
      | .device => saveValue b.draws a w
      | .store => storeRead b.mem (storeBase r + regionOffset b.params r (alignTo w a)) w

end Sys2Proof.Machine
end

