-- ==== Sys2Proof/Machine/Ops.lean ====
section
/-! DEFINITION. The named operations over registers, status registers, memory and the pipeline; taking an exception and returning from one (spec 10_state.md, 30_encoding.md section 7, 60_exceptions.md). -/

namespace Sys2Proof.Machine

/-! ## Modes (R22, R25, R35) -/

/-- The M field of a mode (R35). -/
def Mode.bits : Mode → BitVec 5
  | .usr => 0b10000#5
  | .fiq => 0b10001#5
  | .irq => 0b10010#5
  | .svc => 0b10011#5
  | .abt => 0b10111#5
  | .und => 0b11011#5
  | .sys => 0b11111#5

/-- The mode an M field names; none where it is not a mode (R35, R36). -/
def Mode.ofBits (m : BitVec 5) : Option Mode :=
  match m.toNat with
  | 0b10000 => some .usr
  | 0b10001 => some .fiq
  | 0b10010 => some .irq
  | 0b10011 => some .svc
  | 0b10111 => some .abt
  | 0b11011 => some .und
  | 0b11111 => some .sys
  | _ => none

/-- The first private index of a mode (R25). -/
def Mode.firstPrivate : Mode → Nat
  | .usr => 16
  | .sys => 16
  | .fiq => 8
  | .svc => 13
  | .abt => 13
  | .irq => 13
  | .und => 13

/-- Where a mode's private registers start in `gpr`. -/
def Mode.bankStart : Mode → Nat
  | .usr => 0
  | .sys => 0
  | .fiq => 15
  | .svc => 22
  | .abt => 24
  | .irq => 26
  | .und => 28

/-! ## General registers (R21 to R29, R45) -/

/-- The physical register that index `r` (0 to 14) names in a mode (R22, R25). -/
def physIndex (m : Mode) (r : Reg) : Fin 30 :=
  Fin.ofNat 30 (if m.firstPrivate ≤ r.toNat then m.bankStart + (r.toNat - m.firstPrivate) else r.toNat)

/-- `xm[m, r]`: the register as mode `m` sees it; R15 reads the cursor (R24, R45). -/
def State.xm (s : State) (m : Mode) (r : Reg) : Word :=
  if r = 15#4 then s.pipe.cursor else s.gpr[physIndex m r]

/-- `x[r]` (R23). -/
def State.reg (s : State) (r : Reg) : Word := s.xm s.cpsr.mode r

/-- `pc <- target`: the flow report (R11, R151). -/
def State.branch (s : State) (target : Word) : State := { s with flow := some target }

/-- `xm[m, r] <- v`; writing R15 is a flow report (R11, R24). -/
def State.setXm (s : State) (m : Mode) (r : Reg) (v : Word) : State :=
  if r = 15#4 then s.branch v
  else { s with gpr := s.gpr.set (physIndex m r).val v (physIndex m r).isLt }

/-- `x[r] <- v` (R23). -/
def State.setReg (s : State) (r : Reg) (v : Word) : State := s.setXm s.cpsr.mode r v

/-! ## Widths, addresses and the values of R15 (R41, R45, R46) -/

/-- The bytes of an instruction at an encoding selector: 4 in ARM state, 2 in Thumb state (R41). -/
def fetchWidth (thumb : Bool) : Width := if thumb then .half else .word

/-- `w` (R41). -/
def State.width (s : State) : Width := fetchWidth s.cpsr.t

/-- `A = cursor - 2w`, the address of the executing instruction (R46). -/
def State.here (s : State) : Word := s.pipe.cursor - BitVec.ofNat 32 (2 * widthBytes s.width)

/-- The address of the instruction after the executing one: A + 4 in ARM state, A + 2 in Thumb state (R391). -/
def State.nextAddr (s : State) : Word := addrPlus s.here (widthBytes s.width)

/-- A register read where R15 is A + 12: the operands of a register-specified shift and the stores of R15 (R45, R184,
R243, R263). -/
def State.regLate (s : State) (r : Reg) : Word := if r = 15#4 then addrPlus s.here 12 else s.reg r

/-! ## Status registers (R30 to R40) -/

/-- One bit as a word of one bit. -/
def flagBit (b : Bool) : BitVec 1 := BitVec.ofBool b

/-- The word of a saved status register; bits 26:8 read as zero (R30, R37). -/
def Psr.toWord (p : Psr) : Word :=
  flagBit p.n ++ flagBit p.z ++ flagBit p.c ++ flagBit p.v ++ flagBit p.q ++ 0#19 ++ flagBit p.i ++ flagBit p.f
    ++ flagBit p.t ++ p.m

/-- The saved status register of a word; bits 26:8 are discarded (R30, R37). -/
def Psr.ofWord (w : Word) : Psr where
  n := w.getLsbD 31
  z := w.getLsbD 30
  c := w.getLsbD 29
  v := w.getLsbD 28
  q := w.getLsbD 27
  i := w.getLsbD 7
  f := w.getLsbD 6
  t := w.getLsbD 5
  m := w.extractLsb' 0 5

/-- The whole CPSR as a saved copy (R390). -/
def Cpsr.save (p : Cpsr) : Psr where
  n := p.n
  z := p.z
  c := p.c
  v := p.v
  q := p.q
  i := p.i
  f := p.f
  t := p.t
  m := p.mode.bits

/-- The word of CPSR (R30, R220). -/
def Cpsr.toWord (p : Cpsr) : Word := p.save.toWord

/-- The CPSR a saved copy restores, none where its M field is not a mode (R36, R205). -/
def Psr.restore (p : Psr) : Option Cpsr :=
  match Mode.ofBits p.m with
  | none => none
  | some mode =>
    some { n := p.n, z := p.z, c := p.c, v := p.v, q := p.q, i := p.i, f := p.f, t := p.t, mode := mode }

/-- `SPSR[m]`, none in User and System mode (R38, R39). -/
def State.spsrOf (s : State) (m : Mode) : Option Psr :=
  match m with
  | .usr => none
  | .sys => none
  | .fiq => some s.spsrs.fiq
  | .svc => some s.spsrs.svc
  | .abt => some s.spsrs.abt
  | .irq => some s.spsrs.irq
  | .und => some s.spsrs.und

/-- `SPSR[m] <- p`; User and System mode have none (R38, R39). -/
def State.setSpsr (s : State) (m : Mode) (p : Psr) : State :=
  match m with
  | .usr => s
  | .sys => s
  | .fiq => { s with spsrs := { s.spsrs with fiq := p } }
  | .svc => { s with spsrs := { s.spsrs with svc := p } }
  | .abt => { s with spsrs := { s.spsrs with abt := p } }
  | .irq => { s with spsrs := { s.spsrs with irq := p } }
  | .und => { s with spsrs := { s.spsrs with und := p } }

/-- `SwitchMode(m)`: no physical register changes (R26). -/
def State.switchMode (s : State) (m : Mode) : State := { s with cpsr := { s.cpsr with mode := m } }

/-- The encoding selector, changed by BX (R34, R283). -/
def State.setThumb (s : State) (t : Bool) : State := { s with cpsr := { s.cpsr with t := t } }

/-! ## Exceptions (R380, R390, R391) -/

/-- The exception kinds (R380). The block raises Undefined, software interrupt and IRQ; reset is the host's; the rest
are never raised (R404). -/
inductive Exception where
  | reset | undefined | softwareInterrupt | prefetchAbort | dataAbort | irq | fiq
  deriving DecidableEq, Repr

/-- The vector of an exception (R380). -/
def Exception.vector : Exception → Word
  | .reset => 0x00000000#32
  | .undefined => 0x00000004#32
  | .softwareInterrupt => 0x00000008#32
  | .prefetchAbort => 0x0000000C#32
  | .dataAbort => 0x00000010#32
  | .irq => 0x00000018#32
  | .fiq => 0x0000001C#32

/-- The mode an exception enters (R380). -/
def Exception.mode : Exception → Mode
  | .reset => .svc
  | .undefined => .und
  | .softwareInterrupt => .svc
  | .prefetchAbort => .abt
  | .dataAbort => .abt
  | .irq => .irq
  | .fiq => .fiq

/-- Whether entry sets F (R380, R390). -/
def Exception.masksFiq : Exception → Bool
  | .reset => true
  | .fiq => true
  | _ => false

/-- CPSR after an entry: the exception's mode, ARM state, IRQ masked, the flags unchanged (R390). -/
def Cpsr.enter (p : Cpsr) (e : Exception) : Cpsr :=
  { p with mode := e.mode, t := false, i := true, f := e.masksFiq || p.f }

/-- `EnterException(E)` with the link value `lr`: CPSR goes to the new mode's SPSR, `lr` to its R14, and the flow report
is the vector (R390). -/
def State.enterException (s : State) (e : Exception) (lr : Word) : State :=
  ((({ s with cpsr := s.cpsr.enter e }).setSpsr e.mode s.cpsr.save).setReg 14#4 lr).branch e.vector

/-- `raise SWI`, `raise Undefined`: the link is the address of the next instruction (R13, R391). -/
def State.raise (s : State) (e : Exception) : State := s.enterException e s.nextAddr

/-- The restore of CPSR from the current mode's SPSR, whole; a fault in a mode without one and where the saved mode is
not a mode (R39, R36, R205, R267). -/
def State.restoreCpsr (s : State) : Result :=
  match s.spsrOf s.cpsr.mode with
  | none => .fault .noSavedStatus
  | some p =>
    match p.restore with
    | none => .fault .notAMode
    | some c => .next { s with cpsr := c }

/-- The return from an exception to `target` (R205, R267, R394). -/
def State.exceptionReturn (s : State) (target : Word) : Result :=
  andThen s.restoreCpsr fun s => .next (s.branch target)

/-! ## What a stop leaves (R13, R155) -/

/-- What a stop in this state leaves: every field, the registers and the pipeline slots as the updates before the stop
leave them (R155; DEDUCED, log 13). -/
def State.remains (s : State) : Remains where
  gpr := s.gpr
  cpsr := s.cpsr
  spsrs := s.spsrs
  pipe := s.pipe
  flow := s.flow
  bus := s.bus
  draws := s.draws

/-- A fault with what it leaves: that of `s`, unless the fault says so itself (R36, R155). -/
def State.stopAt (s : State) (f : Fault) : Fault :=
  match f with
  | .stopped why left => .stopped why left
  | f => .stopped f s.remains

/-- An answer whose fault, if it is one, leaves what `s` holds unless it says so itself (R155). -/
def State.leaving (s : State) (r : Result) : Result :=
  match r with
  | .next t => .next t
  | .fault f => .fault (s.stopAt f)
  | .refused e => .refused e

/-! ## Memory (R12) -/

/-- The state with another bus. -/
def State.withBus (s : State) (b : Bus) : State := { s with bus := b }

/-- Goes on with what an operation of the bus answers; its fault leaves the state with the bus it carries (R155, R411). -/
def State.onBus {α β : Type} (s : State) (r : BusResult α) (k : α → Host.Outcome β Fault Refusal) :
    Host.Outcome β Fault Refusal :=
  match r with
  | .next x => k x
  | .fault b => .fault (.stopped .schedulerCapacity (s.withBus b).remains)
  | .refused e => .refused e

/-- `MemRead(addr, n, data)`; `block` marks a non-first access of a block transfer (R12, R103). -/
def State.memRead (s : State) (a : Word) (w : Width) (block : Bool) : Host.Outcome (Word × State) Fault Refusal :=
  s.onBus (s.bus.read .data a w block) fun x => .next (x.1, s.withBus x.2)

/-- `MemWrite(addr, n, v, data)` (R12). -/
def State.memWrite (s : State) (a : Word) (w : Width) (v : Word) (block : Bool) : Result :=
  s.onBus (s.bus.write a w v block) fun b => .next (s.withBus b)

/-- `LoadWord(addr)`: the aligned word rotated so that the byte at `addr` is the lowest (R242). -/
def State.loadWord (s : State) (a : Word) : Host.Outcome (Word × State) Fault Refusal :=
  andThen (s.memRead a .word false) fun x => .next (x.1.rotateRight (8 * (a.toNat % 4)), x.2)

/-- An unsigned byte load (R244). -/
def State.loadByte (s : State) (a : Word) : Host.Outcome (Word × State) Fault Refusal := s.memRead a .byte false

/-- A signed byte load (R249). -/
def State.loadSignedByte (s : State) (a : Word) : Host.Outcome (Word × State) Fault Refusal :=
  andThen (s.memRead a .byte false) fun x => .next ((x.1.setWidth 8).signExtend 32, x.2)

/-- An unsigned halfword load; at an odd address the halfword rotated right by 8 (R247, R252). -/
def State.loadHalf (s : State) (a : Word) : Host.Outcome (Word × State) Fault Refusal :=
  andThen (s.memRead a .half false) fun x => .next (if a.getLsbD 0 then x.1.rotateRight 8 else x.1, x.2)

/-- A signed halfword load; at an odd address the signed byte (R250, R252). -/
def State.loadSignedHalf (s : State) (a : Word) : Host.Outcome (Word × State) Fault Refusal :=
  if a.getLsbD 0 then s.loadSignedByte a
  else andThen (s.memRead a .half false) fun x => .next ((x.1.setWidth 16).signExtend 32, x.2)

/-- The words of a block load, one for each register, at ascending addresses (R260). -/
def loadList (s : State) (regs : List Reg) (a : Word) (block : Bool) : Host.Outcome (List Word × State) Fault Refusal :=
  match regs with
  | [] => .next ([], s)
  | _ :: regs =>
    andThen (s.memRead a .word block) fun x =>
      andThen (loadList x.2 regs (a + 4#32) true) fun y => .next (x.1 :: y.1, y.2)

/-- The stores of a block store, at ascending addresses (R260). -/
def storeList (s : State) (vals : List Word) (a : Word) (block : Bool) : Result :=
  match vals with
  | [] => .next s
  | v :: vals => andThen (s.memWrite a .word v block) fun s => storeList s vals (a + 4#32) true

/-- Writes loaded words to registers as mode `m` sees them; R15 takes its word under `mask` as a flow report (R262). -/
def loadRegs (m : Mode) (mask : Word) (s : State) (regs : List Reg) (vals : List Word) : State :=
  match regs, vals with
  | r :: regs, v :: vals => loadRegs m mask (s.setXm m r (if r = 15#4 then v &&& mask else v)) regs vals
  | _, _ => s

/-- Loads at ascending addresses, each word written to its register, as mode `m` sees it, before the next is read; R15
takes its word under `mask` as a flow report (R361). -/
def loadEach (m : Mode) (mask : Word) (s : State) (regs : List Reg) (a : Word) (block : Bool) : Result :=
  match regs with
  | [] => .next s
  | r :: regs =>
    andThen (s.memRead a .word block) fun x =>
      loadEach m mask (x.2.setXm m r (if r = 15#4 then x.1 &&& mask else x.1)) regs (a + 4#32) true

/-- The swap of a value with memory at one address, locked (R115). -/
def State.swap (s : State) (a : Word) (w : Width) (v : Word) : Host.Outcome (Word × State) Fault Refusal :=
  s.onBus (s.bus.swap a w v) fun x => .next (x.1, s.withBus x.2)

/-- The value of the byte that a data read at `a` finds, without the read's effects; for claims about memory (R66). -/
def State.peekByte (s : State) (a : Word) : Byte := byteOf (s.bus.peek a .byte) 0

/-! ## Pipeline (R41 to R44) -/

/-- The first update of `Fetch`: the fetched word moves to the decoded slot (R42). -/
def State.shiftPipe (s : State) : State := { s with pipe := { s.pipe with decoded := s.pipe.fetched } }

/-- `Fetch()`, its three updates in the order of R42, so that a fault of its access leaves the slots shifted, the fetched
word and the cursor as before (DEDUCED, log 13); `continues` is false for the first fetch of a bubble (R103). -/
def State.fetch (s : State) (continues : Bool) : Result :=
  s.shiftPipe.onBus (s.bus.read .code s.pipe.cursor s.width continues) fun x =>
    .next { s with
      bus := x.2
      pipe := { decoded := s.pipe.fetched, fetched := x.1, cursor := addrPlus s.pipe.cursor (widthBytes s.width) } }

/-- `Bubble(target)` (R43). -/
def State.bubble (s : State) (target : Word) : Result :=
  andThen (({ s with pipe := { s.pipe with cursor := alignTo s.width target } } : State).fetch false) fun s => s.fetch true

/-- Puts the word of an instruction into the slot the next step pops, at the width it is fetched at, and clears what
would keep that step from executing it: the fault, the halted state and the interrupt line (R44, R150). -/
def State.stage (s : State) (thumb : Bool) (w : Word) : State :=
  { s with
    cpsr := { s.cpsr with t := thumb }
    pipe := { s.pipe with decoded := w, cursor := alignTo (fetchWidth thumb) s.pipe.cursor }
    flow := none
    faulted := none
    bus := { s.bus with halted := false, irqLine := false } }

end Sys2Proof.Machine
end

