-- ==== Sys2Proof/Machine/Flags.lean ====
section
/-! DEFINITION. The condition test and every flag computation (spec R140, R185, R186, R230). -/

namespace Sys2Proof.Machine

/-- `ConditionPassed(cond)` over N, Z, C, V (R140). -/
def Cond.passes (c : Cond) (p : Cpsr) : Bool :=
  match c with
  | .eq => p.z
  | .ne => !p.z
  | .cs => p.c
  | .cc => !p.c
  | .mi => p.n
  | .pl => !p.n
  | .vs => p.v
  | .vc => !p.v
  | .hi => p.c && !p.z
  | .ls => !p.c || p.z
  | .ge => p.n == p.v
  | .lt => p.n != p.v
  | .gt => !p.z && p.n == p.v
  | .le => p.z || p.n != p.v
  | .al => true

/-- An instruction whose condition fails has no effect (R139). -/
def guarded (c : Cond) (s : State) (k : State → Result) : Result := if Cond.passes c s.cpsr then k s else .next s

/-- The N and Z flags of a result (R186). -/
def Cpsr.setNZ (p : Cpsr) (r : Word) : Cpsr := { p with n := r.msb, z := r == 0#32 }

/-- The result of an operation with the CPSR it gives when it sets the flags. -/
structure Alu where
  result : Word
  flags : Cpsr
  deriving DecidableEq, Repr

/-- A logical operation: N, Z, C from the shifter, V unchanged (R186). -/
def logical (p : Cpsr) (r : Word) (carry : Bool) : Alu := { result := r, flags := { p.setNZ r with c := carry } }

/-- The exact sum of `AddWithCarry` (R185). -/
def sumWithCarry (a b : Word) (cin : Bool) : Nat := a.toNat + b.toNat + cin.toNat

/-- `AddWithCarry(a, b, cin)` and its four flags (R185, R186). -/
def addWithCarry (p : Cpsr) (a b : Word) (cin : Bool) : Alu :=
  let r := BitVec.ofNat 32 (sumWithCarry a b cin)
  { result := r
    flags := { p.setNZ r with
      c := decide (2 ^ 32 ≤ sumWithCarry a b cin)
      v := a.msb == b.msb && r.msb != a.msb } }

/-- The flags of a 32-bit multiply: N and Z of the result, C a `DRAW`, V unchanged (R230; log 5). -/
def State.setMulFlags (s : State) (r : Word) : State :=
  { s with cpsr := { s.cpsr.setNZ r with c := Config.drawFlag s.draws }, draws := s.draws + 1 }

/-- The flags of a long multiply: N and Z of the 64-bit result, C and V `DRAW`s (R230; log 5). -/
def State.setMulLongFlags (s : State) (r : BitVec 64) : State :=
  { s with
    cpsr := { s.cpsr with
      n := r.msb
      z := r == 0#64
      c := Config.drawFlag s.draws
      v := Config.drawFlag (s.draws + 1) }
    draws := s.draws + 2 }

end Sys2Proof.Machine
end

