-- ==== Sys2Proof/Machine/Operands.lean ====
section
/-! DEFINITION. Every operand form: the shifter (spec R180 to R184), the addressing modes of single transfers (R240, R246), and the addresses of block transfers (R260, R261). -/

namespace Sys2Proof.Machine

/-! ## The shifter -/

/-- A second operand with its shifter carry (R180). -/
structure Shifted where
  value : Word
  carry : Bool
  deriving DecidableEq, Repr

/-- The arithmetic shift by 32 or more: every bit the sign (R182, R183). -/
def signFill (m : Word) : Word := if m.msb then 0xFFFFFFFF#32 else 0#32

/-- The immediate operand of A1 and A6: `ROR(zext_32(imm8), 2 * rotate)` (R135, R181). -/
def rotatedImm (rot : BitVec 4) (imm : BitVec 8) : Word := (imm.setWidth 32 : Word).rotateRight (2 * rot.toNat)

/-- The immediate operand with its carry (R181). -/
def immOperand (rot : BitVec 4) (imm : BitVec 8) (c : Bool) : Shifted :=
  { value := rotatedImm rot imm, carry := if rot = 0#4 then c else (rotatedImm rot imm).msb }

/-- A shift by an immediate amount 0 to 31; the 0 codes of LSR, ASR and ROR mean 32, 32 and RRX (R182). -/
def immShift (k : ShiftKind) (m : Word) (n : BitVec 5) (c : Bool) : Shifted :=
  match k with
  | .lsl => if n = 0#5 then ⟨m, c⟩ else ⟨m <<< n.toNat, m.getLsbD (32 - n.toNat)⟩
  | .lsr => if n = 0#5 then ⟨0#32, m.msb⟩ else ⟨m >>> n.toNat, m.getLsbD (n.toNat - 1)⟩
  | .asr => if n = 0#5 then ⟨signFill m, m.msb⟩ else ⟨m.sshiftRight n.toNat, m.getLsbD (n.toNat - 1)⟩
  | .ror =>
    if n = 0#5 then ⟨BitVec.ofBool c ++ m.extractLsb' 1 31, m.getLsbD 0⟩
    else ⟨m.rotateRight n.toNat, m.getLsbD (n.toNat - 1)⟩

/-- A shift by a register amount 0 to 255 (R183). -/
def regShift (k : ShiftKind) (m : Word) (n : BitVec 8) (c : Bool) : Shifted :=
  if n = 0#8 then ⟨m, c⟩
  else
    match k with
    | .lsl =>
      if n.toNat < 32 then ⟨m <<< n.toNat, m.getLsbD (32 - n.toNat)⟩
      else ⟨0#32, n.toNat == 32 && m.getLsbD 0⟩
    | .lsr =>
      if n.toNat < 32 then ⟨m >>> n.toNat, m.getLsbD (n.toNat - 1)⟩
      else ⟨0#32, n.toNat == 32 && m.msb⟩
    | .asr =>
      if n.toNat < 32 then ⟨m.sshiftRight n.toNat, m.getLsbD (n.toNat - 1)⟩
      else ⟨signFill m, m.msb⟩
    | .ror =>
      if n.toNat % 32 = 0 then ⟨m, m.msb⟩
      else ⟨m.rotateRight (n.toNat % 32), m.getLsbD (n.toNat % 32 - 1)⟩

/-- The shift amount of A3 and of the Thumb register shifts: `x[Rs][7:0]` (R183). -/
def shiftAmount (v : Word) : BitVec 8 := v.extractLsb' 0 8

/-! ## Single-transfer addresses (R240, R246) -/

/-- The address of a single transfer, the base's new value, and whether it is written back. -/
structure Transfer where
  addr : Word
  base : Word
  writeBack : Bool
  deriving DecidableEq, Repr

/-- `offv`, `addr` and `wb` from the base and the offset (R240). -/
def transferAddr (p u w : Bool) (base off : Word) : Transfer :=
  let offv := if u then base + off else base - off
  { addr := if p then offv else base, base := offv, writeBack := !p || w }

/-- The register offset of A14: `x[Rm]` shifted by an immediate, its carry discarded (R240). -/
def State.shiftedOffset (s : State) (n : BitVec 5) (sh : ShiftKind) (rm : Reg) : Word :=
  (immShift sh (s.reg rm) n s.cpsr.c).value

/-- The write-back of a single transfer (R240). -/
def State.writeBack (s : State) (t : Transfer) (rn : Reg) : State := if t.writeBack then s.setReg rn t.base else s

/-! ## Block-transfer addresses (R260, R261) -/

/-- The registers of a list, in ascending order (R260). -/
def regsOf (list : BitVec 16) : List Reg :=
  (List.range 16).filterMap fun k => if list.getLsbD k then some (BitVec.ofNat 4 k) else none

/-- The registers of a Thumb list, R0 to R7 (R360). -/
def lowRegsOf (list : BitVec 8) : List Reg := regsOf (list.setWidth 16)

/-- The bytes a block transfer moves its base by: four for each register, 0x40 for an empty list (R260, R261). -/
def blockSize (regs : List Reg) : Word := if regs.isEmpty then 0x40#32 else BitVec.ofNat 32 (4 * regs.length)

/-- The registers transferred: R15 for an empty list (R261). -/
def blockRegs (regs : List Reg) : List Reg := if regs.isEmpty then [15#4] else regs

/-- The start address of a block transfer (R260). -/
def blockStart (p u : Bool) (b size : Word) : Word :=
  if u then (if p then b + 4#32 else b) else if p then b - size else b - size + 4#32

/-- The new base of a block transfer (R260). -/
def blockBase (u : Bool) (b size : Word) : Word := if u then b + size else b - size

end Sys2Proof.Machine
end

