-- ==== Sys2Proof/Machine/ArmBlock.lean ====
section
/-! DEFINITION. ARM block transfers (spec R260 to R268). -/

namespace Sys2Proof.Machine

/-- The first address of a block transfer (R260, R261). -/
def State.blockAddr (s : State) (p u : Bool) (rn : Reg) (regs : List Reg) : Word :=
  blockStart p u (s.reg rn) (blockSize regs)

/-- The new base of a block transfer (R260, R261). -/
def State.newBase (s : State) (u : Bool) (rn : Reg) (regs : List Reg) : Word := blockBase u (s.reg rn) (blockSize regs)

/-- The value an STM stores for register `r` as mode `m` sees it: R15 stores A + 12; with write-back the base stores its
old value where it is the lowest register of the list and the new base otherwise (R263, R264; DEDUCED, log 30). -/
def State.storedValue (s : State) (m : Mode) (u w : Bool) (rn : Reg) (regs : List Reg) (r : Reg) : Word :=
  if r = 15#4 then addrPlus s.here 12
  else if r = rn ∧ w = true ∧ regs.head? ≠ some rn then s.newBase u rn regs
  else s.xm m r

/-- Rn = 15 is a fault in every block transfer (R260). -/
def checkBlockBase (rn : Reg) (k : Result) : Result := if rn = 15#4 then .fault .r15Operand else k

/-- The write-back of a load: dropped where the base is in the list (R262, R265). -/
def State.blockWriteBack (s : State) (w : Bool) (rn : Reg) (regs : List Reg) (nb : Word) : State :=
  if w = true ∧ rn ∉ regs then s.setReg rn nb else s

/-- The user bank cannot be transferred with write-back, nor in User or System mode (R266). -/
def checkUserBank (s : State) (w : Bool) (k : Result) : Result :=
  if w = true ∨ s.cpsr.mode = .usr ∨ s.cpsr.mode = .sys then .fault .userBankTransfer else k

/-- STM (R261, R263, R264). -/
def execStm (c : Cond) (p u w : Bool) (rn : Reg) (list : BitVec 16) (s : State) : Result :=
  guarded c s fun s =>
    checkBlockBase rn
      (andThen
        (storeList s ((blockRegs (regsOf list)).map (s.storedValue s.cpsr.mode u w rn (regsOf list)))
          (s.blockAddr p u rn (regsOf list)) false)
        fun s1 => .next (if w then s1.setReg rn (s.newBase u rn (regsOf list)) else s1))

/-- LDM (R261, R262, R265). -/
def execLdm (c : Cond) (p u w : Bool) (rn : Reg) (list : BitVec 16) (s : State) : Result :=
  guarded c s fun s =>
    checkBlockBase rn
      (andThen (loadList s (blockRegs (regsOf list)) (s.blockAddr p u rn (regsOf list)) false) fun x =>
        .next (loadRegs s.cpsr.mode 0xFFFFFFFC#32
          (x.2.blockWriteBack w rn (regsOf list) (s.newBase u rn (regsOf list))) (blockRegs (regsOf list)) x.1))

/-- STM of the user bank; an empty list is a fault (R266). -/
def execStmUser (c : Cond) (p u w : Bool) (rn : Reg) (list : BitVec 16) (s : State) : Result :=
  guarded c s fun s =>
    checkBlockBase rn
      (checkUserBank s w
        (if list = 0#16 then .fault .userBankTransfer
        else
          storeList s ((regsOf list).map (s.storedValue .usr u w rn (regsOf list))) (s.blockAddr p u rn (regsOf list))
            false))

/-- LDM of the user bank, R15 not in the list; an empty list loads R15 (R261, R266; DEDUCED, logs 29 and 30). -/
def execLdmUser (c : Cond) (p u w : Bool) (rn : Reg) (list : BitVec 15) (s : State) : Result :=
  guarded c s fun s =>
    checkBlockBase rn
      (checkUserBank s w
        (andThen
          (loadList s (blockRegs (regsOf (list.setWidth 16))) (s.blockAddr p u rn (regsOf (list.setWidth 16))) false)
          fun x => .next (loadRegs .usr 0xFFFFFFFC#32 x.2 (blockRegs (regsOf (list.setWidth 16))) x.1)))

/-- LDM with PSR restore: the registers, the write-back, then CPSR from the SPSR and the flow report to the word loaded
for R15; a fault of that restore leaves the loads' accesses and no loaded register (R36, R267; DEDUCED, log 13). -/
def execLdmRestore (c : Cond) (p u w : Bool) (rn : Reg) (list : BitVec 15) (s : State) : Result :=
  guarded c s fun s =>
    let low := regsOf (list.setWidth 16)
    checkBlockBase rn
      (andThen (loadList s (low ++ [15#4]) (s.blockAddr p u rn (low ++ [15#4])) false) fun x =>
        (s.withBus x.2.bus).leaving
          ((loadRegs s.cpsr.mode 0xFFFFFFFC#32 (x.2.blockWriteBack w rn low (s.newBase u rn (low ++ [15#4]))) low
            x.1).exceptionReturn (x.1.getLastD 0#32)))

end Sys2Proof.Machine
end

