-- ==== Sys2Proof/Machine/ArmBranch.lean ====
section
/-! DEFINITION. ARM branches, branch-exchange, software interrupt, the undefined and the coprocessor space, and condition 1111 (spec 43_arm_branch_system.md, R141). -/

namespace Sys2Proof.Machine

/-- The target of B and BL: `(A + 8) + sext_32(offset24 : 0b00)` (R280). -/
def State.branchTarget (s : State) (off : BitVec 24) : Word := s.reg 15#4 + (off ++ 0#2).signExtend 32

/-- Branch-exchange to `t`: its low bit selects the encoding, and the target is aligned to it (R283, R284, R330). -/
def State.branchExchange (s : State) (t : Word) : State :=
  if t.getLsbD 0 then (s.setThumb true).branch (t &&& 0xFFFFFFFE#32)
  else (s.setThumb false).branch (t &&& 0xFFFFFFFC#32)

/-- An ARM word with condition 1111 (R141). -/
def execCond1111 (_s : State) : Result := .fault .conditionNever

/-- B (R280). -/
def execB (c : Cond) (off : BitVec 24) (s : State) : Result := guarded c s fun s => .next (s.branch (s.branchTarget off))

/-- BL: the link is A + 4 (R281). -/
def execBl (c : Cond) (off : BitVec 24) (s : State) : Result :=
  guarded c s fun s => .next ((s.setReg 14#4 (addrPlus s.here 4)).branch (s.branchTarget off))

/-- BX (R283). -/
def execBx (c : Cond) (rm : Reg) (s : State) : Result := guarded c s fun s => .next (s.branchExchange (s.reg rm))

/-- SWI: the comment field is ignored (R285). -/
def execSwi (c : Cond) (s : State) : Result := guarded c s fun s => .next (s.raise .softwareInterrupt)

/-- The undefined space: the Undefined exception (R286). -/
def execUndefined (c : Cond) (s : State) : Result := guarded c s fun s => .next (s.raise .undefined)

/-- STC: no coprocessor answers, so the Undefined exception (R287). -/
def execStc (c : Cond) (s : State) : Result := guarded c s fun s => .next (s.raise .undefined)

/-- LDC: the Undefined exception (R287). -/
def execLdc (c : Cond) (s : State) : Result := guarded c s fun s => .next (s.raise .undefined)

/-- CDP: the Undefined exception (R287). -/
def execCdp (c : Cond) (s : State) : Result := guarded c s fun s => .next (s.raise .undefined)

/-- MCR: the Undefined exception (R287). -/
def execMcr (c : Cond) (s : State) : Result := guarded c s fun s => .next (s.raise .undefined)

/-- MRC: the Undefined exception (R287). -/
def execMrc (c : Cond) (s : State) : Result := guarded c s fun s => .next (s.raise .undefined)

end Sys2Proof.Machine
end

