-- ==== Sys2Proof/Machine/ArmDataProc.lean ====
section
/-! DEFINITION. ARM data processing (spec 40_arm_dataproc.md, R180 to R206): sixteen operations in three operand forms. -/

namespace Sys2Proof.Machine

/-! ## The sixteen operations; `p` is CPSR, `n` the first operand, `o` the second with its shifter carry -/

/-- AND (R188). -/
def aluAnd (p : Cpsr) (n : Word) (o : Shifted) : Alu := logical p (n &&& o.value) o.carry

/-- EOR (R189). -/
def aluEor (p : Cpsr) (n : Word) (o : Shifted) : Alu := logical p (n ^^^ o.value) o.carry

/-- SUB (R190). -/
def aluSub (p : Cpsr) (n : Word) (o : Shifted) : Alu := addWithCarry p n (~~~o.value) true

/-- RSB (R191). -/
def aluRsb (p : Cpsr) (n : Word) (o : Shifted) : Alu := addWithCarry p o.value (~~~n) true

/-- ADD (R192). -/
def aluAdd (p : Cpsr) (n : Word) (o : Shifted) : Alu := addWithCarry p n o.value false

/-- ADC (R193). -/
def aluAdc (p : Cpsr) (n : Word) (o : Shifted) : Alu := addWithCarry p n o.value p.c

/-- SBC (R194). -/
def aluSbc (p : Cpsr) (n : Word) (o : Shifted) : Alu := addWithCarry p n (~~~o.value) p.c

/-- RSC (R195). -/
def aluRsc (p : Cpsr) (n : Word) (o : Shifted) : Alu := addWithCarry p o.value (~~~n) p.c

/-- TST (R196). -/
def aluTst (p : Cpsr) (n : Word) (o : Shifted) : Alu := logical p (n &&& o.value) o.carry

/-- TEQ (R197). -/
def aluTeq (p : Cpsr) (n : Word) (o : Shifted) : Alu := logical p (n ^^^ o.value) o.carry

/-- CMP (R198). -/
def aluCmp (p : Cpsr) (n : Word) (o : Shifted) : Alu := addWithCarry p n (~~~o.value) true

/-- CMN (R199). -/
def aluCmn (p : Cpsr) (n : Word) (o : Shifted) : Alu := addWithCarry p n o.value false

/-- ORR (R200). -/
def aluOrr (p : Cpsr) (n : Word) (o : Shifted) : Alu := logical p (n ||| o.value) o.carry

/-- MOV (R201) (the Rn field is ignored). -/
def aluMov (p : Cpsr) (_n : Word) (o : Shifted) : Alu := logical p o.value o.carry

/-- BIC (R202). -/
def aluBic (p : Cpsr) (n : Word) (o : Shifted) : Alu := logical p (n &&& ~~~o.value) o.carry

/-- MVN (R203) (the Rn field is ignored). -/
def aluMvn (p : Cpsr) (_n : Word) (o : Shifted) : Alu := logical p (~~~o.value) o.carry

/-! ## The result write and the operand forms -/

/-- The flags of an operation, written when S = 1 (R186). -/
def State.setFlags (s : State) (sf : Bool) (p : Cpsr) : State := if sf then { s with cpsr := p } else s

/-- `WriteDP`: the destination and the flags; R15 with S = 0 is a flow report, with S = 1 the implicit exception return
(R187, R205, R206). -/
def writeDp (s : State) (rd : Reg) (sf : Bool) (a : Alu) : Result :=
  if rd = 15#4 then
    if sf then s.exceptionReturn a.result else .next (s.branch a.result)
  else .next ((s.setReg rd a.result).setFlags sf a.flags)

/-- The end of a compare: flags only; Rd = 15 is a fault (R196 to R199, R204). -/
def writeCompare (s : State) (rd : Reg) (a : Alu) : Result :=
  if rd = 15#4 then .fault .compareRd15 else .next (s.setFlags true a.flags)

/-- Operation `op` on a rotated immediate (A1, R181). -/
def State.aluImm (s : State) (op : Cpsr → Word → Shifted → Alu) (rn : Reg) (rot : BitVec 4) (imm : BitVec 8) : Alu :=
  op s.cpsr (s.reg rn) (immOperand rot imm s.cpsr.c)

/-- Operation `op` on a register shifted by an immediate (A2, R182). -/
def State.aluImmShift (s : State) (op : Cpsr → Word → Shifted → Alu) (rn : Reg) (n : BitVec 5) (sh : ShiftKind)
    (rm : Reg) : Alu :=
  op s.cpsr (s.reg rn) (immShift sh (s.reg rm) n s.cpsr.c)

/-- Operation `op` on a register shifted by a register, R15 reading A + 12 (A3, R183, R184). -/
def State.aluRegShift (s : State) (op : Cpsr → Word → Shifted → Alu) (rn rs : Reg) (sh : ShiftKind) (rm : Reg) : Alu :=
  op s.cpsr (s.regLate rn) (regShift sh (s.regLate rm) (shiftAmount (s.reg rs)) s.cpsr.c)

/-- Rs = 15 is a fault in A3 (R184). -/
def checkRs (rs : Reg) (k : Result) : Result := if rs = 15#4 then .fault .r15Operand else k

/-! ## The meanings -/

/-- AND, rotated immediate (R188). -/
def execAndImm (c : Cond) (sf : Bool) (rn rd : Reg) (rot : BitVec 4) (imm : BitVec 8) (s : State) : Result :=
  guarded c s fun s => writeDp s rd sf (s.aluImm aluAnd rn rot imm)

/-- AND, register shifted by an immediate (R188). -/
def execAndImmShift (c : Cond) (sf : Bool) (rn rd : Reg) (n : BitVec 5) (sh : ShiftKind) (rm : Reg) (s : State) : Result :=
  guarded c s fun s => writeDp s rd sf (s.aluImmShift aluAnd rn n sh rm)

/-- AND, register shifted by a register (R188, R184). -/
def execAndRegShift (c : Cond) (sf : Bool) (rn rd rs : Reg) (sh : ShiftKind) (rm : Reg) (s : State) : Result :=
  guarded c s fun s => checkRs rs (writeDp s rd sf (s.aluRegShift aluAnd rn rs sh rm))

/-- EOR, rotated immediate (R189). -/
def execEorImm (c : Cond) (sf : Bool) (rn rd : Reg) (rot : BitVec 4) (imm : BitVec 8) (s : State) : Result :=
  guarded c s fun s => writeDp s rd sf (s.aluImm aluEor rn rot imm)

/-- EOR, register shifted by an immediate (R189). -/
def execEorImmShift (c : Cond) (sf : Bool) (rn rd : Reg) (n : BitVec 5) (sh : ShiftKind) (rm : Reg) (s : State) : Result :=
  guarded c s fun s => writeDp s rd sf (s.aluImmShift aluEor rn n sh rm)

/-- EOR, register shifted by a register (R189, R184). -/
def execEorRegShift (c : Cond) (sf : Bool) (rn rd rs : Reg) (sh : ShiftKind) (rm : Reg) (s : State) : Result :=
  guarded c s fun s => checkRs rs (writeDp s rd sf (s.aluRegShift aluEor rn rs sh rm))

/-- SUB, rotated immediate (R190). -/
def execSubImm (c : Cond) (sf : Bool) (rn rd : Reg) (rot : BitVec 4) (imm : BitVec 8) (s : State) : Result :=
  guarded c s fun s => writeDp s rd sf (s.aluImm aluSub rn rot imm)

/-- SUB, register shifted by an immediate (R190). -/
def execSubImmShift (c : Cond) (sf : Bool) (rn rd : Reg) (n : BitVec 5) (sh : ShiftKind) (rm : Reg) (s : State) : Result :=
  guarded c s fun s => writeDp s rd sf (s.aluImmShift aluSub rn n sh rm)

/-- SUB, register shifted by a register (R190, R184). -/
def execSubRegShift (c : Cond) (sf : Bool) (rn rd rs : Reg) (sh : ShiftKind) (rm : Reg) (s : State) : Result :=
  guarded c s fun s => checkRs rs (writeDp s rd sf (s.aluRegShift aluSub rn rs sh rm))

/-- RSB, rotated immediate (R191). -/
def execRsbImm (c : Cond) (sf : Bool) (rn rd : Reg) (rot : BitVec 4) (imm : BitVec 8) (s : State) : Result :=
  guarded c s fun s => writeDp s rd sf (s.aluImm aluRsb rn rot imm)

/-- RSB, register shifted by an immediate (R191). -/
def execRsbImmShift (c : Cond) (sf : Bool) (rn rd : Reg) (n : BitVec 5) (sh : ShiftKind) (rm : Reg) (s : State) : Result :=
  guarded c s fun s => writeDp s rd sf (s.aluImmShift aluRsb rn n sh rm)

/-- RSB, register shifted by a register (R191, R184). -/
def execRsbRegShift (c : Cond) (sf : Bool) (rn rd rs : Reg) (sh : ShiftKind) (rm : Reg) (s : State) : Result :=
  guarded c s fun s => checkRs rs (writeDp s rd sf (s.aluRegShift aluRsb rn rs sh rm))

/-- ADD, rotated immediate (R192). -/
def execAddImm (c : Cond) (sf : Bool) (rn rd : Reg) (rot : BitVec 4) (imm : BitVec 8) (s : State) : Result :=
  guarded c s fun s => writeDp s rd sf (s.aluImm aluAdd rn rot imm)

/-- ADD, register shifted by an immediate (R192). -/
def execAddImmShift (c : Cond) (sf : Bool) (rn rd : Reg) (n : BitVec 5) (sh : ShiftKind) (rm : Reg) (s : State) : Result :=
  guarded c s fun s => writeDp s rd sf (s.aluImmShift aluAdd rn n sh rm)

/-- ADD, register shifted by a register (R192, R184). -/
def execAddRegShift (c : Cond) (sf : Bool) (rn rd rs : Reg) (sh : ShiftKind) (rm : Reg) (s : State) : Result :=
  guarded c s fun s => checkRs rs (writeDp s rd sf (s.aluRegShift aluAdd rn rs sh rm))

/-- ADC, rotated immediate (R193). -/
def execAdcImm (c : Cond) (sf : Bool) (rn rd : Reg) (rot : BitVec 4) (imm : BitVec 8) (s : State) : Result :=
  guarded c s fun s => writeDp s rd sf (s.aluImm aluAdc rn rot imm)

/-- ADC, register shifted by an immediate (R193). -/
def execAdcImmShift (c : Cond) (sf : Bool) (rn rd : Reg) (n : BitVec 5) (sh : ShiftKind) (rm : Reg) (s : State) : Result :=
  guarded c s fun s => writeDp s rd sf (s.aluImmShift aluAdc rn n sh rm)

/-- ADC, register shifted by a register (R193, R184). -/
def execAdcRegShift (c : Cond) (sf : Bool) (rn rd rs : Reg) (sh : ShiftKind) (rm : Reg) (s : State) : Result :=
  guarded c s fun s => checkRs rs (writeDp s rd sf (s.aluRegShift aluAdc rn rs sh rm))

/-- SBC, rotated immediate (R194). -/
def execSbcImm (c : Cond) (sf : Bool) (rn rd : Reg) (rot : BitVec 4) (imm : BitVec 8) (s : State) : Result :=
  guarded c s fun s => writeDp s rd sf (s.aluImm aluSbc rn rot imm)

/-- SBC, register shifted by an immediate (R194). -/
def execSbcImmShift (c : Cond) (sf : Bool) (rn rd : Reg) (n : BitVec 5) (sh : ShiftKind) (rm : Reg) (s : State) : Result :=
  guarded c s fun s => writeDp s rd sf (s.aluImmShift aluSbc rn n sh rm)

/-- SBC, register shifted by a register (R194, R184). -/
def execSbcRegShift (c : Cond) (sf : Bool) (rn rd rs : Reg) (sh : ShiftKind) (rm : Reg) (s : State) : Result :=
  guarded c s fun s => checkRs rs (writeDp s rd sf (s.aluRegShift aluSbc rn rs sh rm))

/-- RSC, rotated immediate (R195). -/
def execRscImm (c : Cond) (sf : Bool) (rn rd : Reg) (rot : BitVec 4) (imm : BitVec 8) (s : State) : Result :=
  guarded c s fun s => writeDp s rd sf (s.aluImm aluRsc rn rot imm)

/-- RSC, register shifted by an immediate (R195). -/
def execRscImmShift (c : Cond) (sf : Bool) (rn rd : Reg) (n : BitVec 5) (sh : ShiftKind) (rm : Reg) (s : State) : Result :=
  guarded c s fun s => writeDp s rd sf (s.aluImmShift aluRsc rn n sh rm)

/-- RSC, register shifted by a register (R195, R184). -/
def execRscRegShift (c : Cond) (sf : Bool) (rn rd rs : Reg) (sh : ShiftKind) (rm : Reg) (s : State) : Result :=
  guarded c s fun s => checkRs rs (writeDp s rd sf (s.aluRegShift aluRsc rn rs sh rm))

/-- TST, rotated immediate (R196, R204). -/
def execTstImm (c : Cond) (rn rd : Reg) (rot : BitVec 4) (imm : BitVec 8) (s : State) : Result :=
  guarded c s fun s => writeCompare s rd (s.aluImm aluTst rn rot imm)

/-- TST, register shifted by an immediate (R196, R204). -/
def execTstImmShift (c : Cond) (rn rd : Reg) (n : BitVec 5) (sh : ShiftKind) (rm : Reg) (s : State) : Result :=
  guarded c s fun s => writeCompare s rd (s.aluImmShift aluTst rn n sh rm)

/-- TST, register shifted by a register (R196, R184, R204). -/
def execTstRegShift (c : Cond) (rn rd rs : Reg) (sh : ShiftKind) (rm : Reg) (s : State) : Result :=
  guarded c s fun s => checkRs rs (writeCompare s rd (s.aluRegShift aluTst rn rs sh rm))

/-- TEQ, rotated immediate (R197, R204). -/
def execTeqImm (c : Cond) (rn rd : Reg) (rot : BitVec 4) (imm : BitVec 8) (s : State) : Result :=
  guarded c s fun s => writeCompare s rd (s.aluImm aluTeq rn rot imm)

/-- TEQ, register shifted by an immediate (R197, R204). -/
def execTeqImmShift (c : Cond) (rn rd : Reg) (n : BitVec 5) (sh : ShiftKind) (rm : Reg) (s : State) : Result :=
  guarded c s fun s => writeCompare s rd (s.aluImmShift aluTeq rn n sh rm)

/-- TEQ, register shifted by a register (R197, R184, R204). -/
def execTeqRegShift (c : Cond) (rn rd rs : Reg) (sh : ShiftKind) (rm : Reg) (s : State) : Result :=
  guarded c s fun s => checkRs rs (writeCompare s rd (s.aluRegShift aluTeq rn rs sh rm))

/-- CMP, rotated immediate (R198, R204). -/
def execCmpImm (c : Cond) (rn rd : Reg) (rot : BitVec 4) (imm : BitVec 8) (s : State) : Result :=
  guarded c s fun s => writeCompare s rd (s.aluImm aluCmp rn rot imm)

/-- CMP, register shifted by an immediate (R198, R204). -/
def execCmpImmShift (c : Cond) (rn rd : Reg) (n : BitVec 5) (sh : ShiftKind) (rm : Reg) (s : State) : Result :=
  guarded c s fun s => writeCompare s rd (s.aluImmShift aluCmp rn n sh rm)

/-- CMP, register shifted by a register (R198, R184, R204). -/
def execCmpRegShift (c : Cond) (rn rd rs : Reg) (sh : ShiftKind) (rm : Reg) (s : State) : Result :=
  guarded c s fun s => checkRs rs (writeCompare s rd (s.aluRegShift aluCmp rn rs sh rm))

/-- CMN, rotated immediate (R199, R204). -/
def execCmnImm (c : Cond) (rn rd : Reg) (rot : BitVec 4) (imm : BitVec 8) (s : State) : Result :=
  guarded c s fun s => writeCompare s rd (s.aluImm aluCmn rn rot imm)

/-- CMN, register shifted by an immediate (R199, R204). -/
def execCmnImmShift (c : Cond) (rn rd : Reg) (n : BitVec 5) (sh : ShiftKind) (rm : Reg) (s : State) : Result :=
  guarded c s fun s => writeCompare s rd (s.aluImmShift aluCmn rn n sh rm)

/-- CMN, register shifted by a register (R199, R184, R204). -/
def execCmnRegShift (c : Cond) (rn rd rs : Reg) (sh : ShiftKind) (rm : Reg) (s : State) : Result :=
  guarded c s fun s => checkRs rs (writeCompare s rd (s.aluRegShift aluCmn rn rs sh rm))

/-- ORR, rotated immediate (R200). -/
def execOrrImm (c : Cond) (sf : Bool) (rn rd : Reg) (rot : BitVec 4) (imm : BitVec 8) (s : State) : Result :=
  guarded c s fun s => writeDp s rd sf (s.aluImm aluOrr rn rot imm)

/-- ORR, register shifted by an immediate (R200). -/
def execOrrImmShift (c : Cond) (sf : Bool) (rn rd : Reg) (n : BitVec 5) (sh : ShiftKind) (rm : Reg) (s : State) : Result :=
  guarded c s fun s => writeDp s rd sf (s.aluImmShift aluOrr rn n sh rm)

/-- ORR, register shifted by a register (R200, R184). -/
def execOrrRegShift (c : Cond) (sf : Bool) (rn rd rs : Reg) (sh : ShiftKind) (rm : Reg) (s : State) : Result :=
  guarded c s fun s => checkRs rs (writeDp s rd sf (s.aluRegShift aluOrr rn rs sh rm))

/-- MOV, rotated immediate (R201). -/
def execMovImm (c : Cond) (sf : Bool) (rd : Reg) (rot : BitVec 4) (imm : BitVec 8) (s : State) : Result :=
  guarded c s fun s => writeDp s rd sf (s.aluImm aluMov 0#4 rot imm)

/-- MOV, register shifted by an immediate (R201). -/
def execMovImmShift (c : Cond) (sf : Bool) (rd : Reg) (n : BitVec 5) (sh : ShiftKind) (rm : Reg) (s : State) : Result :=
  guarded c s fun s => writeDp s rd sf (s.aluImmShift aluMov 0#4 n sh rm)

/-- MOV, register shifted by a register (R201, R184). -/
def execMovRegShift (c : Cond) (sf : Bool) (rd rs : Reg) (sh : ShiftKind) (rm : Reg) (s : State) : Result :=
  guarded c s fun s => checkRs rs (writeDp s rd sf (s.aluRegShift aluMov 0#4 rs sh rm))

/-- BIC, rotated immediate (R202). -/
def execBicImm (c : Cond) (sf : Bool) (rn rd : Reg) (rot : BitVec 4) (imm : BitVec 8) (s : State) : Result :=
  guarded c s fun s => writeDp s rd sf (s.aluImm aluBic rn rot imm)

/-- BIC, register shifted by an immediate (R202). -/
def execBicImmShift (c : Cond) (sf : Bool) (rn rd : Reg) (n : BitVec 5) (sh : ShiftKind) (rm : Reg) (s : State) : Result :=
  guarded c s fun s => writeDp s rd sf (s.aluImmShift aluBic rn n sh rm)

/-- BIC, register shifted by a register (R202, R184). -/
def execBicRegShift (c : Cond) (sf : Bool) (rn rd rs : Reg) (sh : ShiftKind) (rm : Reg) (s : State) : Result :=
  guarded c s fun s => checkRs rs (writeDp s rd sf (s.aluRegShift aluBic rn rs sh rm))

/-- MVN, rotated immediate (R203). -/
def execMvnImm (c : Cond) (sf : Bool) (rd : Reg) (rot : BitVec 4) (imm : BitVec 8) (s : State) : Result :=
  guarded c s fun s => writeDp s rd sf (s.aluImm aluMvn 0#4 rot imm)

/-- MVN, register shifted by an immediate (R203). -/
def execMvnImmShift (c : Cond) (sf : Bool) (rd : Reg) (n : BitVec 5) (sh : ShiftKind) (rm : Reg) (s : State) : Result :=
  guarded c s fun s => writeDp s rd sf (s.aluImmShift aluMvn 0#4 n sh rm)

/-- MVN, register shifted by a register (R203, R184). -/
def execMvnRegShift (c : Cond) (sf : Bool) (rd rs : Reg) (sh : ShiftKind) (rm : Reg) (s : State) : Result :=
  guarded c s fun s => checkRs rs (writeDp s rd sf (s.aluRegShift aluMvn 0#4 rs sh rm))

end Sys2Proof.Machine
end

