-- ==== Sys2Proof/Machine/ArmLoadStore.lean ====
section
/-! DEFINITION. ARM single transfers and swap (spec 42_arm_loadstore.md, R240 to R254, R270 to R272), and the unallocated halfword-store space (R253). -/

namespace Sys2Proof.Machine

/-! ## What a transfer does with its address -/

/-- The end of a load: the write-back, dropped where Rn = Rd, then the loaded value (R241, R251). -/
def finishLoad (s : State) (t : Transfer) (rn rd : Reg) (v : Word) : State :=
  (if rn = rd then s else s.writeBack t rn).setReg rd v

/-- LDR: a load of R15 is a flow report to the word, its low two bits cleared (R241). -/
def opLdr (s : State) (t : Transfer) (rn rd : Reg) : Result :=
  andThen (s.loadWord t.addr) fun x =>
    .next (finishLoad x.2 t rn rd (if rd = 15#4 then x.1 &&& 0xFFFFFFFC#32 else x.1))

/-- STR: R15 stores A + 12 (R243). -/
def opStr (s : State) (t : Transfer) (rn rd : Reg) : Result :=
  andThen (s.memWrite t.addr .word (s.regLate rd) false) fun s => .next (s.writeBack t rn)

/-- A load narrower than a word: Rd = 15 is a fault (R244, R246). -/
def opLoadNarrow (load : State → Word → Host.Outcome (Word × State) Fault Refusal) (s : State) (t : Transfer)
    (rn rd : Reg) : Result :=
  if rd = 15#4 then .fault .r15Operand
  else andThen (load s t.addr) fun x => .next (finishLoad x.2 t rn rd x.1)

/-- A store narrower than a word: Rd = 15 is a fault (R245, R246, R248). -/
def opStoreNarrow (w : Width) (s : State) (t : Transfer) (rn rd : Reg) : Result :=
  if rd = 15#4 then .fault .r15Operand
  else andThen (s.memWrite t.addr w (s.reg rd) false) fun s => .next (s.writeBack t rn)

/-- LDRB (R244). -/
def opLdrb : State → Transfer → Reg → Reg → Result := opLoadNarrow State.loadByte

/-- STRB (R245). -/
def opStrb : State → Transfer → Reg → Reg → Result := opStoreNarrow .byte

/-- LDRH (R247). -/
def opLdrh : State → Transfer → Reg → Reg → Result := opLoadNarrow State.loadHalf

/-- STRH (R248). -/
def opStrh : State → Transfer → Reg → Reg → Result := opStoreNarrow .half

/-- LDRSB (R249). -/
def opLdrsb : State → Transfer → Reg → Reg → Result := opLoadNarrow State.loadSignedByte

/-- LDRSH (R250). -/
def opLdrsh : State → Transfer → Reg → Reg → Result := opLoadNarrow State.loadSignedHalf

/-! ## The addressing forms -/

/-- Write-back with Rn = 15 is a fault (R240, R246). -/
def checkBase (t : Transfer) (rn : Reg) (k : Result) : Result :=
  if t.writeBack = true ∧ rn = 15#4 then .fault .r15Operand else k

/-- A13: a 12-bit immediate offset (R240). -/
def singleImm (op : State → Transfer → Reg → Reg → Result) (c : Cond) (p u w : Bool) (rn rd : Reg) (off : BitVec 12)
    (s : State) : Result :=
  guarded c s fun s =>
    let t := transferAddr p u w (s.reg rn) (off.setWidth 32)
    checkBase t rn (op s t rn rd)

/-- A14: a shifted register offset; Rm = 15 is a fault (R240). -/
def singleReg (op : State → Transfer → Reg → Reg → Result) (c : Cond) (p u w : Bool) (rn rd : Reg) (n : BitVec 5)
    (sh : ShiftKind) (rm : Reg) (s : State) : Result :=
  guarded c s fun s =>
    if rm = 15#4 then .fault .r15Operand
    else
      let t := transferAddr p u w (s.reg rn) (s.shiftedOffset n sh rm)
      checkBase t rn (op s t rn rd)

/-- P = 0 with W = 1 is a fault in A11 and A12 (R246). -/
def checkPostIndexed (p w : Bool) (k : Result) : Result :=
  if p = false ∧ w = true then .fault .postIndexedWriteBack else k

/-- A12: an 8-bit immediate offset (R246). -/
def halfImm (op : State → Transfer → Reg → Reg → Result) (c : Cond) (p u w : Bool) (rn rd : Reg) (immH immL : BitVec 4)
    (s : State) : Result :=
  guarded c s fun s =>
    let t := transferAddr p u w (s.reg rn) ((immH ++ immL).setWidth 32)
    checkPostIndexed p w (checkBase t rn (op s t rn rd))

/-- A11: a register offset; Rm = 15 is a fault (R246). -/
def halfReg (op : State → Transfer → Reg → Reg → Result) (c : Cond) (p u w : Bool) (rn rd rm : Reg) (s : State) :
    Result :=
  guarded c s fun s =>
    if rm = 15#4 then .fault .r15Operand
    else
      let t := transferAddr p u w (s.reg rn) (s.reg rm)
      checkPostIndexed p w (checkBase t rn (op s t rn rd))

/-! ## The meanings -/

/-- STR, immediate offset (R240, R243). -/
def execStrImm (c : Cond) (p u w : Bool) (rn rd : Reg) (off : BitVec 12) (s : State) : Result :=
  singleImm opStr c p u w rn rd off s

/-- STR, register offset (R240, R243). -/
def execStrReg (c : Cond) (p u w : Bool) (rn rd : Reg) (n : BitVec 5) (sh : ShiftKind) (rm : Reg) (s : State) : Result :=
  singleReg opStr c p u w rn rd n sh rm s

/-- STRT, immediate offset: as STR post-indexed, since no region checks privilege (R85, R254). -/
def execStrtImm (c : Cond) (u : Bool) (rn rd : Reg) (off : BitVec 12) (s : State) : Result :=
  singleImm opStr c false u true rn rd off s

/-- STRT, register offset: as STR post-indexed (R254). -/
def execStrtReg (c : Cond) (u : Bool) (rn rd : Reg) (n : BitVec 5) (sh : ShiftKind) (rm : Reg) (s : State) : Result :=
  singleReg opStr c false u true rn rd n sh rm s

/-- LDR, immediate offset (R240, R241). -/
def execLdrImm (c : Cond) (p u w : Bool) (rn rd : Reg) (off : BitVec 12) (s : State) : Result :=
  singleImm opLdr c p u w rn rd off s

/-- LDR, register offset (R240, R241). -/
def execLdrReg (c : Cond) (p u w : Bool) (rn rd : Reg) (n : BitVec 5) (sh : ShiftKind) (rm : Reg) (s : State) : Result :=
  singleReg opLdr c p u w rn rd n sh rm s

/-- LDRT, immediate offset: as LDR post-indexed, since no region checks privilege (R85, R254). -/
def execLdrtImm (c : Cond) (u : Bool) (rn rd : Reg) (off : BitVec 12) (s : State) : Result :=
  singleImm opLdr c false u true rn rd off s

/-- LDRT, register offset: as LDR post-indexed (R254). -/
def execLdrtReg (c : Cond) (u : Bool) (rn rd : Reg) (n : BitVec 5) (sh : ShiftKind) (rm : Reg) (s : State) : Result :=
  singleReg opLdr c false u true rn rd n sh rm s

/-- STRB, immediate offset (R240, R245). -/
def execStrbImm (c : Cond) (p u w : Bool) (rn rd : Reg) (off : BitVec 12) (s : State) : Result :=
  singleImm opStrb c p u w rn rd off s

/-- STRB, register offset (R240, R245). -/
def execStrbReg (c : Cond) (p u w : Bool) (rn rd : Reg) (n : BitVec 5) (sh : ShiftKind) (rm : Reg) (s : State) : Result :=
  singleReg opStrb c p u w rn rd n sh rm s

/-- STRBT, immediate offset: as STRB post-indexed, since no region checks privilege (R85, R254). -/
def execStrbtImm (c : Cond) (u : Bool) (rn rd : Reg) (off : BitVec 12) (s : State) : Result :=
  singleImm opStrb c false u true rn rd off s

/-- STRBT, register offset: as STRB post-indexed (R254). -/
def execStrbtReg (c : Cond) (u : Bool) (rn rd : Reg) (n : BitVec 5) (sh : ShiftKind) (rm : Reg) (s : State) : Result :=
  singleReg opStrb c false u true rn rd n sh rm s

/-- LDRB, immediate offset (R240, R244). -/
def execLdrbImm (c : Cond) (p u w : Bool) (rn rd : Reg) (off : BitVec 12) (s : State) : Result :=
  singleImm opLdrb c p u w rn rd off s

/-- LDRB, register offset (R240, R244). -/
def execLdrbReg (c : Cond) (p u w : Bool) (rn rd : Reg) (n : BitVec 5) (sh : ShiftKind) (rm : Reg) (s : State) : Result :=
  singleReg opLdrb c p u w rn rd n sh rm s

/-- LDRBT, immediate offset: as LDRB post-indexed, since no region checks privilege (R85, R254). -/
def execLdrbtImm (c : Cond) (u : Bool) (rn rd : Reg) (off : BitVec 12) (s : State) : Result :=
  singleImm opLdrb c false u true rn rd off s

/-- LDRBT, register offset: as LDRB post-indexed (R254). -/
def execLdrbtReg (c : Cond) (u : Bool) (rn rd : Reg) (n : BitVec 5) (sh : ShiftKind) (rm : Reg) (s : State) : Result :=
  singleReg opLdrb c false u true rn rd n sh rm s

/-- STRH, register offset (R246, R248). -/
def execStrhReg (c : Cond) (p u w : Bool) (rn rd rm : Reg) (s : State) : Result := halfReg opStrh c p u w rn rd rm s

/-- STRH, immediate offset (R246, R248). -/
def execStrhImm (c : Cond) (p u w : Bool) (rn rd : Reg) (immH immL : BitVec 4) (s : State) : Result :=
  halfImm opStrh c p u w rn rd immH immL s

/-- LDRH, register offset (R246, R247). -/
def execLdrhReg (c : Cond) (p u w : Bool) (rn rd rm : Reg) (s : State) : Result := halfReg opLdrh c p u w rn rd rm s

/-- LDRH, immediate offset (R246, R247). -/
def execLdrhImm (c : Cond) (p u w : Bool) (rn rd : Reg) (immH immL : BitVec 4) (s : State) : Result :=
  halfImm opLdrh c p u w rn rd immH immL s

/-- LDRSB, register offset (R246, R249). -/
def execLdrsbReg (c : Cond) (p u w : Bool) (rn rd rm : Reg) (s : State) : Result := halfReg opLdrsb c p u w rn rd rm s

/-- LDRSB, immediate offset (R246, R249). -/
def execLdrsbImm (c : Cond) (p u w : Bool) (rn rd : Reg) (immH immL : BitVec 4) (s : State) : Result :=
  halfImm opLdrsb c p u w rn rd immH immL s

/-- LDRSH, register offset (R246, R250). -/
def execLdrshReg (c : Cond) (p u w : Bool) (rn rd rm : Reg) (s : State) : Result := halfReg opLdrsh c p u w rn rd rm s

/-- LDRSH, immediate offset (R246, R250). -/
def execLdrshImm (c : Cond) (p u w : Bool) (rn rd : Reg) (immH immL : BitVec 4) (s : State) : Result :=
  halfImm opLdrsh c p u w rn rd immH immL s

/-- The LDRD/STRD space: a fault once the condition passes (R253). -/
def execUnallocHalfStore (c : Cond) (s : State) : Result := guarded c s fun _ => .fault .unallocatedHalfwordStore

/-- The register restrictions of the swaps (R270). -/
def swapGuard (rn rd rm : Reg) (k : Result) : Result :=
  if rd = 15#4 ∨ rn = 15#4 ∨ rm = 15#4 then .fault .r15Operand
  else if rn = rm ∨ rn = rd then .fault .registerClash
  else k

/-- SWP: the word read is rotated as by LDR, the word written is not (R270). -/
def execSwp (c : Cond) (rn rd rm : Reg) (s : State) : Result :=
  guarded c s fun s =>
    swapGuard rn rd rm
      (andThen (s.swap (s.reg rn) .word (s.reg rm)) fun x =>
        .next (x.2.setReg rd (x.1.rotateRight (8 * ((s.reg rn).toNat % 4)))))

/-- SWPB (R271). -/
def execSwpb (c : Cond) (rn rd rm : Reg) (s : State) : Result :=
  guarded c s fun s =>
    swapGuard rn rd rm (andThen (s.swap (s.reg rn) .byte (s.reg rm)) fun x => .next (x.2.setReg rd x.1))

end Sys2Proof.Machine
end

