-- ==== Sys2Proof/Machine/ArmMultiply.lean ====
section
/-! DEFINITION. ARM multiplies, and the unallocated multiply and extra space (spec 41_arm_multiply.md, R145). -/

namespace Sys2Proof.Machine

/-- The end of MUL and MLA: the destination, then N, Z and the drawn C with S = 1 (R230). -/
def writeMul (s : State) (sf : Bool) (rd : Reg) (r : Word) : State :=
  if sf then (s.setReg rd r).setMulFlags r else s.setReg rd r

/-- The end of a long multiply: RdLo, RdHi, then N, Z and the drawn C and V with S = 1 (R230). -/
def writeMulLong (s : State) (sf : Bool) (rdHi rdLo : Reg) (r : BitVec 64) : State :=
  let s1 := (s.setReg rdLo (r.extractLsb' 0 32)).setReg rdHi (r.extractLsb' 32 32)
  if sf then s1.setMulLongFlags r else s1

/-- The register restrictions of the long multiplies (R233). -/
def mulLongGuard (rdHi rdLo rs rm : Reg) (k : Result) : Result :=
  if rdHi = 15#4 ∨ rdLo = 15#4 ∨ rm = 15#4 ∨ rs = 15#4 then .fault .r15Operand
  else if rdHi = rdLo ∨ rdHi = rm ∨ rdLo = rm then .fault .registerClash
  else k

/-- The 64-bit accumulator `x[RdHi] : x[RdLo]` (R234). -/
def State.accumulator (s : State) (rdHi rdLo : Reg) : BitVec 64 := s.reg rdHi ++ s.reg rdLo

/-- The unsigned product plus an accumulator, modulo 2^64 (R233, R234). -/
def unsignedProduct (a b : Word) (acc : BitVec 64) : BitVec 64 := BitVec.ofNat 64 (a.toNat * b.toNat + acc.toNat)

/-- The signed product plus an accumulator, modulo 2^64 (R235, R236). -/
def signedProduct (a b : Word) (acc : BitVec 64) : BitVec 64 := BitVec.ofInt 64 (a.toInt * b.toInt + acc.toInt)

/-- MUL (R231). -/
def execMul (c : Cond) (sf : Bool) (rd rs rm : Reg) (s : State) : Result :=
  guarded c s fun s =>
    if rd = 15#4 ∨ rm = 15#4 ∨ rs = 15#4 then .fault .r15Operand
    else if rd = rm then .fault .registerClash
    else .next (writeMul s sf rd (s.reg rm * s.reg rs))

/-- MLA (R232). -/
def execMla (c : Cond) (sf : Bool) (rd rn rs rm : Reg) (s : State) : Result :=
  guarded c s fun s =>
    if rd = 15#4 ∨ rn = 15#4 ∨ rm = 15#4 ∨ rs = 15#4 then .fault .r15Operand
    else if rd = rm then .fault .registerClash
    else .next (writeMul s sf rd (s.reg rm * s.reg rs + s.reg rn))

/-- UMULL (R233). -/
def execUmull (c : Cond) (sf : Bool) (rdHi rdLo rs rm : Reg) (s : State) : Result :=
  guarded c s fun s =>
    mulLongGuard rdHi rdLo rs rm (.next (writeMulLong s sf rdHi rdLo (unsignedProduct (s.reg rm) (s.reg rs) 0#64)))

/-- UMLAL (R234). -/
def execUmlal (c : Cond) (sf : Bool) (rdHi rdLo rs rm : Reg) (s : State) : Result :=
  guarded c s fun s =>
    mulLongGuard rdHi rdLo rs rm
      (.next (writeMulLong s sf rdHi rdLo (unsignedProduct (s.reg rm) (s.reg rs) (s.accumulator rdHi rdLo))))

/-- SMULL (R235). -/
def execSmull (c : Cond) (sf : Bool) (rdHi rdLo rs rm : Reg) (s : State) : Result :=
  guarded c s fun s =>
    mulLongGuard rdHi rdLo rs rm (.next (writeMulLong s sf rdHi rdLo (signedProduct (s.reg rm) (s.reg rs) 0#64)))

/-- SMLAL (R236). -/
def execSmlal (c : Cond) (sf : Bool) (rdHi rdLo rs rm : Reg) (s : State) : Result :=
  guarded c s fun s =>
    mulLongGuard rdHi rdLo rs rm
      (.next (writeMulLong s sf rdHi rdLo (signedProduct (s.reg rm) (s.reg rs) (s.accumulator rdHi rdLo))))

/-- The unallocated multiply and extra space: a fault once the condition passes (R145). -/
def execUnallocMul (c : Cond) (s : State) : Result := guarded c s fun _ => .fault .unallocatedMultiply

end Sys2Proof.Machine
end

