-- ==== Sys2Proof/Machine/ArmPsr.lean ====
section
/-! DEFINITION. MRS and MSR, and the unallocated PSR-transfer space (spec R145, R220 to R223). -/

namespace Sys2Proof.Machine

/-- The flags byte of an MSR: N, Z, C, V, Q from bits 31:27 where the field mask selects it (R221). -/
def Cpsr.writeFlagsByte (p : Cpsr) (mask : BitVec 4) (v : Word) : Cpsr :=
  if mask.getLsbD 3 then
    { p with n := v.getLsbD 31, z := v.getLsbD 30, c := v.getLsbD 29, v := v.getLsbD 28, q := v.getLsbD 27 }
  else p

/-- MSR to CPSR: the flags byte, and in a privileged mode the control byte. A value that is not a mode and a change of T
are faults, checked before any write. The x and s bytes are discarded (R221). -/
def State.writeCpsr (s : State) (mask : BitVec 4) (v : Word) : Result :=
  if mask.getLsbD 0 && s.cpsr.mode != .usr then
    match Mode.ofBits (v.extractLsb' 0 5) with
    | none => .fault .notAMode
    | some m =>
      if v.getLsbD 5 = s.cpsr.t then
        .next { s with cpsr := { s.cpsr.writeFlagsByte mask v with i := v.getLsbD 7, f := v.getLsbD 6, mode := m } }
      else .fault .changesEncoding
  else .next { s with cpsr := s.cpsr.writeFlagsByte mask v }

/-- The bytes of a saved copy that an MSR writes: the flags byte and the control byte, unchecked (R222). -/
def Psr.writeFields (p : Psr) (mask : BitVec 4) (v : Word) : Psr :=
  let w := Psr.ofWord v
  let p1 := if mask.getLsbD 3 then { p with n := w.n, z := w.z, c := w.c, v := w.v, q := w.q } else p
  if mask.getLsbD 0 then { p1 with i := w.i, f := w.f, t := w.t, m := w.m } else p1

/-- MSR to the current SPSR; a fault in User and System mode (R39, R222). -/
def State.writeSpsr (s : State) (mask : BitVec 4) (v : Word) : Result :=
  match s.spsrOf s.cpsr.mode with
  | none => .fault .noSavedStatus
  | some p => .next (s.setSpsr s.cpsr.mode (p.writeFields mask v))

/-- MRS (R220). -/
def execMrs (c : Cond) (r : Bool) (rd : Reg) (s : State) : Result :=
  guarded c s fun s =>
    if rd = 15#4 then .fault .r15Operand
    else if r then
      match s.spsrOf s.cpsr.mode with
      | none => .fault .noSavedStatus
      | some p => .next (s.setReg rd p.toWord)
    else .next (s.setReg rd s.cpsr.toWord)

/-- MSR CPSR, register (R221). -/
def execMsrCpsrReg (c : Cond) (mask : BitVec 4) (rm : Reg) (s : State) : Result :=
  guarded c s fun s => if rm = 15#4 then .fault .r15Operand else s.writeCpsr mask (s.reg rm)

/-- MSR SPSR, register (R222). -/
def execMsrSpsrReg (c : Cond) (mask : BitVec 4) (rm : Reg) (s : State) : Result :=
  guarded c s fun s => if rm = 15#4 then .fault .r15Operand else s.writeSpsr mask (s.reg rm)

/-- MSR CPSR, immediate (R221). -/
def execMsrCpsrImm (c : Cond) (mask rot : BitVec 4) (imm : BitVec 8) (s : State) : Result :=
  guarded c s fun s => s.writeCpsr mask (rotatedImm rot imm)

/-- MSR SPSR, immediate (R222). -/
def execMsrSpsrImm (c : Cond) (mask rot : BitVec 4) (imm : BitVec 8) (s : State) : Result :=
  guarded c s fun s => s.writeSpsr mask (rotatedImm rot imm)

/-- The unallocated PSR-transfer space: a fault once the condition passes (R145). -/
def execUnallocPsr (c : Cond) (s : State) : Result := guarded c s fun _ => .fault .unallocatedPsrTransfer

end Sys2Proof.Machine
end

