-- ==== Sys2Proof/Machine/ThumbAlu.lean ====
section
/-! DEFINITION. Thumb data processing, hi-register operations, branch-exchange and address arithmetic (spec 44_thumb_alu.md, R300 to R333). -/

namespace Sys2Proof.Machine

/-! ## Shared forms -/

/-- A result with its flags, written to a low register (R300 to R326). -/
def thumbResult (s : State) (rd : LowReg) (a : Alu) : Result := .next ((s.setReg rd.reg a.result).setFlags true a.flags)

/-- A compare or test: flags only (R308, R319, R321, R322). -/
def thumbFlags (s : State) (a : Alu) : Result := .next (s.setFlags true a.flags)

/-- A result and carry of the shifter: N, Z and C, V unchanged (R300 to R302, R313 to R315, R318). -/
def thumbShifted (s : State) (rd : LowReg) (x : Shifted) : Result := thumbResult s rd (logical s.cpsr x.value x.carry)

/-- A logical result: N and Z, C and V unchanged (R307, R311). -/
def keepCarry (p : Cpsr) (r : Word) : Alu := logical p r p.c

/-- The amount of a T4 shift, `x[Rs][7:0]` (R313). -/
def State.thumbAmount (s : State) (rs : LowReg) : BitVec 8 := shiftAmount (s.reg rs.reg)

/-- `AddWithCarry(a, NOT b, 1)`: the difference, C the NOT of the borrow (R304). -/
def difference (p : Cpsr) (a b : Word) : Alu := addWithCarry p a (~~~b) true

/-- The register `H : R` of T5 (R327). -/
def hiReg (h : Bool) (r : LowReg) : Reg := BitVec.ofBool h ++ r

/-- H1 = H2 = 0 is a fault in the T5 forms but BX (R327 to R329). -/
def checkHi (h1 h2 : Bool) (k : Result) : Result := if h1 = false ∧ h2 = false then .fault .lowRegisters else k

/-- The result of a T5 ADD or MOV: R15 is a flow report that stays in Thumb state (R327, R329). -/
def writeHi (s : State) (d : Reg) (r : Word) : State := if d = 15#4 then s.branch (r &&& 0xFFFFFFFE#32) else s.setReg d r

/-- The word-aligned base of the PC-relative forms, `x[15] AND NOT 3` (R331, R340). -/
def State.pcBase (s : State) : Word := s.reg 15#4 &&& 0xFFFFFFFC#32

/-- An 8-bit word count as a byte offset, `zext_32(imm8 : 0b00)` (R331). -/
def wordOffset (imm : BitVec 8) : Word := (imm ++ 0#2).setWidth 32

/-! ## T1: move shifted register -/

/-- LSL by an immediate (R300). -/
def execTLslImm (off : BitVec 5) (rs rd : LowReg) (s : State) : Result :=
  thumbShifted s rd (immShift .lsl (s.reg rs.reg) off s.cpsr.c)

/-- LSR by an immediate (R301). -/
def execTLsrImm (off : BitVec 5) (rs rd : LowReg) (s : State) : Result :=
  thumbShifted s rd (immShift .lsr (s.reg rs.reg) off s.cpsr.c)

/-- ASR by an immediate (R302). -/
def execTAsrImm (off : BitVec 5) (rs rd : LowReg) (s : State) : Result :=
  thumbShifted s rd (immShift .asr (s.reg rs.reg) off s.cpsr.c)

/-! ## T2: add and subtract -/

/-- ADD, register (R303). -/
def execTAddReg (rn rs rd : LowReg) (s : State) : Result :=
  thumbResult s rd (addWithCarry s.cpsr (s.reg rs.reg) (s.reg rn.reg) false)

/-- SUB, register (R304). -/
def execTSubReg (rn rs rd : LowReg) (s : State) : Result :=
  thumbResult s rd (difference s.cpsr (s.reg rs.reg) (s.reg rn.reg))

/-- ADD, 3-bit immediate (R305). -/
def execTAddImm3 (imm : BitVec 3) (rs rd : LowReg) (s : State) : Result :=
  thumbResult s rd (addWithCarry s.cpsr (s.reg rs.reg) (imm.setWidth 32) false)

/-- SUB, 3-bit immediate (R306). -/
def execTSubImm3 (imm : BitVec 3) (rs rd : LowReg) (s : State) : Result :=
  thumbResult s rd (difference s.cpsr (s.reg rs.reg) (imm.setWidth 32))

/-! ## T3: 8-bit immediates -/

/-- MOV (R307). -/
def execTMovImm8 (rd : LowReg) (imm : BitVec 8) (s : State) : Result :=
  thumbResult s rd (keepCarry s.cpsr (imm.setWidth 32))

/-- CMP (R308). -/
def execTCmpImm8 (rd : LowReg) (imm : BitVec 8) (s : State) : Result :=
  thumbFlags s (difference s.cpsr (s.reg rd.reg) (imm.setWidth 32))

/-- ADD (R309). -/
def execTAddImm8 (rd : LowReg) (imm : BitVec 8) (s : State) : Result :=
  thumbResult s rd (addWithCarry s.cpsr (s.reg rd.reg) (imm.setWidth 32) false)

/-- SUB (R310). -/
def execTSubImm8 (rd : LowReg) (imm : BitVec 8) (s : State) : Result :=
  thumbResult s rd (difference s.cpsr (s.reg rd.reg) (imm.setWidth 32))

/-! ## T4: register operations -/

/-- AND (R311). -/
def execTAnd (rs rd : LowReg) (s : State) : Result := thumbResult s rd (keepCarry s.cpsr (s.reg rd.reg &&& s.reg rs.reg))

/-- EOR (R312). -/
def execTEor (rs rd : LowReg) (s : State) : Result := thumbResult s rd (keepCarry s.cpsr (s.reg rd.reg ^^^ s.reg rs.reg))

/-- LSL by a register (R313). -/
def execTLslReg (rs rd : LowReg) (s : State) : Result :=
  thumbShifted s rd (regShift .lsl (s.reg rd.reg) (s.thumbAmount rs) s.cpsr.c)

/-- LSR by a register (R314). -/
def execTLsrReg (rs rd : LowReg) (s : State) : Result :=
  thumbShifted s rd (regShift .lsr (s.reg rd.reg) (s.thumbAmount rs) s.cpsr.c)

/-- ASR by a register (R315). -/
def execTAsrReg (rs rd : LowReg) (s : State) : Result :=
  thumbShifted s rd (regShift .asr (s.reg rd.reg) (s.thumbAmount rs) s.cpsr.c)

/-- ADC (R316). -/
def execTAdc (rs rd : LowReg) (s : State) : Result :=
  thumbResult s rd (addWithCarry s.cpsr (s.reg rd.reg) (s.reg rs.reg) s.cpsr.c)

/-- SBC (R317). -/
def execTSbc (rs rd : LowReg) (s : State) : Result :=
  thumbResult s rd (addWithCarry s.cpsr (s.reg rd.reg) (~~~s.reg rs.reg) s.cpsr.c)

/-- ROR by a register (R318). -/
def execTRor (rs rd : LowReg) (s : State) : Result :=
  thumbShifted s rd (regShift .ror (s.reg rd.reg) (s.thumbAmount rs) s.cpsr.c)

/-- TST (R319). -/
def execTTst (rs rd : LowReg) (s : State) : Result := thumbFlags s (keepCarry s.cpsr (s.reg rd.reg &&& s.reg rs.reg))

/-- NEG (R320). -/
def execTNeg (rs rd : LowReg) (s : State) : Result := thumbResult s rd (difference s.cpsr 0#32 (s.reg rs.reg))

/-- CMP (R321). -/
def execTCmpReg (rs rd : LowReg) (s : State) : Result :=
  thumbFlags s (difference s.cpsr (s.reg rd.reg) (s.reg rs.reg))

/-- CMN (R322). -/
def execTCmn (rs rd : LowReg) (s : State) : Result :=
  thumbFlags s (addWithCarry s.cpsr (s.reg rd.reg) (s.reg rs.reg) false)

/-- ORR (R323). -/
def execTOrr (rs rd : LowReg) (s : State) : Result := thumbResult s rd (keepCarry s.cpsr (s.reg rd.reg ||| s.reg rs.reg))

/-- MUL: Rd = Rs is a fault; C is a draw (R230, R324; log 5). -/
def execTMul (rs rd : LowReg) (s : State) : Result :=
  if rd = rs then .fault .registerClash
  else .next ((s.setReg rd.reg (s.reg rs.reg * s.reg rd.reg)).setMulFlags (s.reg rs.reg * s.reg rd.reg))

/-- BIC (R325). -/
def execTBic (rs rd : LowReg) (s : State) : Result :=
  thumbResult s rd (keepCarry s.cpsr (s.reg rd.reg &&& ~~~s.reg rs.reg))

/-- MVN (R326). -/
def execTMvn (rs rd : LowReg) (s : State) : Result := thumbResult s rd (keepCarry s.cpsr (~~~s.reg rs.reg))

/-! ## T5: hi registers and branch-exchange -/

/-- ADD, hi registers: no flags (R327). -/
def execTAddHi (h1 h2 : Bool) (rs rd : LowReg) (s : State) : Result :=
  checkHi h1 h2 (.next (writeHi s (hiReg h1 rd) (s.reg (hiReg h1 rd) + s.reg (hiReg h2 rs))))

/-- CMP, hi registers (R328). -/
def execTCmpHi (h1 h2 : Bool) (rs rd : LowReg) (s : State) : Result :=
  checkHi h1 h2 (thumbFlags s (difference s.cpsr (s.reg (hiReg h1 rd)) (s.reg (hiReg h2 rs))))

/-- MOV, hi registers: no flags (R329). -/
def execTMovHi (h1 h2 : Bool) (rs rd : LowReg) (s : State) : Result :=
  checkHi h1 h2 (.next (writeHi s (hiReg h1 rd) (s.reg (hiReg h2 rs))))

/-- BX: H1 = 1 is a fault (R330). -/
def execTBx (h1 h2 : Bool) (rs : LowReg) (s : State) : Result :=
  if h1 then .fault .branchLinkExchange else .next (s.branchExchange (s.reg (hiReg h2 rs)))

/-! ## T12 and T13: address arithmetic -/

/-- ADD Rd, PC, immediate (R331). -/
def execTAddPc (rd : LowReg) (imm : BitVec 8) (s : State) : Result := .next (s.setReg rd.reg (s.pcBase + wordOffset imm))

/-- ADD Rd, SP, immediate (R332). -/
def execTAddSp (rd : LowReg) (imm : BitVec 8) (s : State) : Result :=
  .next (s.setReg rd.reg (s.reg 13#4 + wordOffset imm))

/-- ADD or SUB SP, immediate (R333). -/
def execTAdjSp (neg : Bool) (imm : BitVec 7) (s : State) : Result :=
  let off : Word := (imm ++ 0#2).setWidth 32
  .next (s.setReg 13#4 (if neg then s.reg 13#4 - off else s.reg 13#4 + off))

end Sys2Proof.Machine
end

