-- ==== Sys2Proof/Machine/ThumbBranch.lean ====
section
/-! DEFINITION. Thumb branches, software interrupt and the undefined holes (spec 45_thumb_mem_branch.md, R370 to R374, and R286). -/

namespace Sys2Proof.Machine

/-- The offset of a BL prefix, `sext_32(offset11) << 12` (R372). -/
def longOffset (off : BitVec 11) : Word := off.signExtend 32 <<< 12

/-- The target of T16, `(A + 4) + sext_32(soffset8 : 0b0)` (R370). -/
def State.shortTarget (s : State) (off : BitVec 8) : Word := s.reg 15#4 + (off ++ 0#1).signExtend 32

/-- The target of T18, `(A + 4) + sext_32(offset11 : 0b0)` (R374). -/
def State.nearTarget (s : State) (off : BitVec 11) : Word := s.reg 15#4 + (off ++ 0#1).signExtend 32

/-- B<cond> (R370). -/
def execTBCond (c : Cond) (off : BitVec 8) (s : State) : Result :=
  guarded c s fun s => .next (s.branch (s.shortTarget off))

/-- SWI: the value is ignored (R371). -/
def execTSwi (s : State) : Result := .next (s.raise .softwareInterrupt)

/-- BL prefix (R372). -/
def execTBlPrefix (off : BitVec 11) (s : State) : Result := .next (s.setReg 14#4 (s.reg 15#4 + longOffset off))

/-- BL suffix: the link is (A + 2) OR 1 (R373). -/
def execTBlSuffix (off : BitVec 11) (s : State) : Result :=
  .next ((s.setReg 14#4 (addrPlus s.here 2 ||| 1#32)).branch
    ((s.reg 14#4 + (off ++ 0#1).setWidth 32) &&& 0xFFFFFFFE#32))

/-- B (R374). -/
def execTB (off : BitVec 11) (s : State) : Result := .next (s.branch (s.nearTarget off))

/-- The 1011 holes: the Undefined exception (R146, R286). -/
def execTUndef1011 (s : State) : Result := .next (s.raise .undefined)

/-- 0xDExx: the Undefined exception (R146, R286). -/
def execTUndef1110 (s : State) : Result := .next (s.raise .undefined)

/-- 0xE800 to 0xEFFF: the Undefined exception (R146, R286). -/
def execTUndef11101 (s : State) : Result := .next (s.raise .undefined)

end Sys2Proof.Machine
end

