-- ==== Sys2Proof/Machine/ThumbMem.lean ====
section
/-! DEFINITION. Thumb loads, stores and block transfers (spec 45_thumb_mem_branch.md, R340 to R365). -/

namespace Sys2Proof.Machine

/-! ## Shared forms -/

/-- A load from `a` into a low register (R340 to R356). -/
def thumbLoad (load : State → Word → Host.Outcome (Word × State) Fault Refusal) (s : State) (rd : LowReg) (a : Word) :
    Result :=
  andThen (load s a) fun x => .next (x.2.setReg rd.reg x.1)

/-- A store of a low register at `a` (R341 to R355). -/
def thumbStore (w : Width) (s : State) (rd : LowReg) (a : Word) : Result := s.memWrite a w (s.reg rd.reg) false

/-- The address `x[Rb] + x[Ro]` of T7 and T8 (R341). -/
def State.regOffsetAddr (s : State) (ro rb : LowReg) : Word := s.reg rb.reg + s.reg ro.reg

/-- The address `x[Rb] + zext_32(offset5 : 0b00)` of a T9 word transfer (R349). -/
def State.wordOffsetAddr (s : State) (off : BitVec 5) (rb : LowReg) : Word := s.reg rb.reg + (off ++ 0#2).setWidth 32

/-- The address `x[Rb] + zext_32(offset5)` of a T9 byte transfer (R351). -/
def State.byteOffsetAddr (s : State) (off : BitVec 5) (rb : LowReg) : Word := s.reg rb.reg + off.setWidth 32

/-- The address `x[Rb] + zext_32(offset5 : 0b0)` of T10 (R353). -/
def State.halfOffsetAddr (s : State) (off : BitVec 5) (rb : LowReg) : Word := s.reg rb.reg + (off ++ 0#1).setWidth 32

/-- The address `x[13] + zext_32(imm8 : 0b00)` of T11 (R355). -/
def State.spOffsetAddr (s : State) (imm : BitVec 8) : Word := s.reg 13#4 + wordOffset imm

/-! ## T6 to T11 -/

/-- The load of T6: a word at a word-aligned address (R340). -/
def State.loadAligned (s : State) (a : Word) : Host.Outcome (Word × State) Fault Refusal := s.memRead a .word false

/-- LDR, PC-relative (R340). -/
def execTLdrPc (rd : LowReg) (imm : BitVec 8) (s : State) : Result :=
  thumbLoad State.loadAligned s rd (s.pcBase + wordOffset imm)

/-- STR, register offset (R341). -/
def execTStrReg (ro rb rd : LowReg) (s : State) : Result := thumbStore .word s rd (s.regOffsetAddr ro rb)

/-- STRB, register offset (R342). -/
def execTStrbReg (ro rb rd : LowReg) (s : State) : Result := thumbStore .byte s rd (s.regOffsetAddr ro rb)

/-- LDR, register offset (R343). -/
def execTLdrReg (ro rb rd : LowReg) (s : State) : Result := thumbLoad State.loadWord s rd (s.regOffsetAddr ro rb)

/-- LDRB, register offset (R344). -/
def execTLdrbReg (ro rb rd : LowReg) (s : State) : Result := thumbLoad State.loadByte s rd (s.regOffsetAddr ro rb)

/-- STRH, register offset (R345). -/
def execTStrhReg (ro rb rd : LowReg) (s : State) : Result := thumbStore .half s rd (s.regOffsetAddr ro rb)

/-- LDSB, register offset (R346). -/
def execTLdsbReg (ro rb rd : LowReg) (s : State) : Result := thumbLoad State.loadSignedByte s rd (s.regOffsetAddr ro rb)

/-- LDRH, register offset (R347). -/
def execTLdrhReg (ro rb rd : LowReg) (s : State) : Result := thumbLoad State.loadHalf s rd (s.regOffsetAddr ro rb)

/-- LDSH, register offset (R348). -/
def execTLdshReg (ro rb rd : LowReg) (s : State) : Result := thumbLoad State.loadSignedHalf s rd (s.regOffsetAddr ro rb)

/-- STR, immediate offset (R349). -/
def execTStrImm (off : BitVec 5) (rb rd : LowReg) (s : State) : Result := thumbStore .word s rd (s.wordOffsetAddr off rb)

/-- LDR, immediate offset (R350). -/
def execTLdrImm (off : BitVec 5) (rb rd : LowReg) (s : State) : Result :=
  thumbLoad State.loadWord s rd (s.wordOffsetAddr off rb)

/-- STRB, immediate offset (R351). -/
def execTStrbImm (off : BitVec 5) (rb rd : LowReg) (s : State) : Result := thumbStore .byte s rd (s.byteOffsetAddr off rb)

/-- LDRB, immediate offset (R352). -/
def execTLdrbImm (off : BitVec 5) (rb rd : LowReg) (s : State) : Result :=
  thumbLoad State.loadByte s rd (s.byteOffsetAddr off rb)

/-- STRH, immediate offset (R353). -/
def execTStrhImm (off : BitVec 5) (rb rd : LowReg) (s : State) : Result := thumbStore .half s rd (s.halfOffsetAddr off rb)

/-- LDRH, immediate offset (R354). -/
def execTLdrhImm (off : BitVec 5) (rb rd : LowReg) (s : State) : Result :=
  thumbLoad State.loadHalf s rd (s.halfOffsetAddr off rb)

/-- STR, SP-relative (R355). -/
def execTStrSp (rd : LowReg) (imm : BitVec 8) (s : State) : Result := thumbStore .word s rd (s.spOffsetAddr imm)

/-- LDR, SP-relative (R356). -/
def execTLdrSp (rd : LowReg) (imm : BitVec 8) (s : State) : Result := thumbLoad State.loadWord s rd (s.spOffsetAddr imm)

/-! ## T14: PUSH and POP -/

/-- The registers of a PUSH or POP: the low registers, then `extra` if the R bit is set (R360, R361). -/
def stackRegs (r : Bool) (extra : Reg) (list : BitVec 8) : List Reg := lowRegsOf list ++ if r then [extra] else []

/-- The bytes of a stack transfer, four for each register (R360). -/
def stackBytes (regs : List Reg) : Word := BitVec.ofNat 32 (4 * regs.length)

/-- PUSH and POP of no register are faults (R364). -/
def checkStackList (regs : List Reg) (k : Result) : Result := if regs.isEmpty then .fault .emptyStackList else k

/-- PUSH (R360). -/
def execTPush (r : Bool) (list : BitVec 8) (s : State) : Result :=
  let regs := stackRegs r 14#4 list
  checkStackList regs
    (andThen (storeList s (regs.map s.reg) (s.reg 13#4 - stackBytes regs) false) fun s1 =>
      .next (s1.setReg 13#4 (s.reg 13#4 - stackBytes regs)))

/-- POP: each register is written as soon as its word is read, SP after all of them; a load of R15 is a flow report that
stays in Thumb state (R361). -/
def execTPop (r : Bool) (list : BitVec 8) (s : State) : Result :=
  let regs := stackRegs r 15#4 list
  checkStackList regs
    (andThen (loadEach s.cpsr.mode 0xFFFFFFFE#32 s regs (s.reg 13#4) false) fun s1 =>
      .next (s1.setReg 13#4 (s.reg 13#4 + stackBytes regs)))

/-! ## T15: STMIA and LDMIA -/

/-- The value STMIA stores for a register: R15 (the empty list) stores A + 6; the base stores its old value where it is
the lowest register of the list and the new base otherwise (R362, R365). -/
def State.thumbStoredValue (s : State) (rb : LowReg) (regs : List Reg) (r : Reg) : Word :=
  if r = 15#4 then addrPlus s.here 6
  else if r = rb.reg ∧ regs.head? ≠ some rb.reg then s.newBase true rb.reg regs
  else s.reg r

/-- STMIA (R362, R365). -/
def execTStmia (rb : LowReg) (list : BitVec 8) (s : State) : Result :=
  let regs := lowRegsOf list
  andThen (storeList s ((blockRegs regs).map (s.thumbStoredValue rb regs)) (s.reg rb.reg) false) fun s1 =>
    .next (s1.setReg rb.reg (s.newBase true rb.reg regs))

/-- LDMIA: the base is not written back where it is in the list (R363, R365). -/
def execTLdmia (rb : LowReg) (list : BitVec 8) (s : State) : Result :=
  let regs := lowRegsOf list
  andThen (loadList s (blockRegs regs) (s.reg rb.reg) false) fun x =>
    .next (loadRegs s.cpsr.mode 0xFFFFFFFE#32 (x.2.blockWriteBack true rb.reg regs (s.newBase true rb.reg regs))
      (blockRegs regs) x.1)

end Sys2Proof.Machine
end

