-- ==== Sys2Proof/Machine/Dispatch.lean ====
section
/-! DEFINITION. `Execute` (spec R150, R154): one meaning for each instruction. -/

namespace Sys2Proof.Machine

/-- `Execute`: the instruction's effect on the state, its flow report in `flow` (R151, R154). -/
def exec (i : Instr) (s : State) : Host.Outcome State Fault Refusal :=
  match i with
  | .cond1111 _ => Sys2Proof.Machine.execCond1111 s
  | .bx c rm => Sys2Proof.Machine.execBx c rm s
  | .swp c rn rd rm => Sys2Proof.Machine.execSwp c rn rd rm s
  | .swpb c rn rd rm => Sys2Proof.Machine.execSwpb c rn rd rm s
  | .mul c sf rd rs rm => Sys2Proof.Machine.execMul c sf rd rs rm s
  | .mla c sf rd rn rs rm => Sys2Proof.Machine.execMla c sf rd rn rs rm s
  | .umull c sf rdHi rdLo rs rm => Sys2Proof.Machine.execUmull c sf rdHi rdLo rs rm s
  | .umlal c sf rdHi rdLo rs rm => Sys2Proof.Machine.execUmlal c sf rdHi rdLo rs rm s
  | .smull c sf rdHi rdLo rs rm => Sys2Proof.Machine.execSmull c sf rdHi rdLo rs rm s
  | .smlal c sf rdHi rdLo rs rm => Sys2Proof.Machine.execSmlal c sf rdHi rdLo rs rm s
  | .strhReg c p u w rn rd rm => Sys2Proof.Machine.execStrhReg c p u w rn rd rm s
  | .strhImm c p u w rn rd immH immL => Sys2Proof.Machine.execStrhImm c p u w rn rd immH immL s
  | .ldrhReg c p u w rn rd rm => Sys2Proof.Machine.execLdrhReg c p u w rn rd rm s
  | .ldrhImm c p u w rn rd immH immL => Sys2Proof.Machine.execLdrhImm c p u w rn rd immH immL s
  | .ldrsbReg c p u w rn rd rm => Sys2Proof.Machine.execLdrsbReg c p u w rn rd rm s
  | .ldrsbImm c p u w rn rd immH immL => Sys2Proof.Machine.execLdrsbImm c p u w rn rd immH immL s
  | .ldrshReg c p u w rn rd rm => Sys2Proof.Machine.execLdrshReg c p u w rn rd rm s
  | .ldrshImm c p u w rn rd immH immL => Sys2Proof.Machine.execLdrshImm c p u w rn rd immH immL s
  | .unallocHalfStore c _ _ _ _ => Sys2Proof.Machine.execUnallocHalfStore c s
  | .unallocMul c _ _ _ => Sys2Proof.Machine.execUnallocMul c s
  | .mrs c r rd => Sys2Proof.Machine.execMrs c r rd s
  | .msrCpsrReg c mask rm => Sys2Proof.Machine.execMsrCpsrReg c mask rm s
  | .msrSpsrReg c mask rm => Sys2Proof.Machine.execMsrSpsrReg c mask rm s
  | .msrCpsrImm c mask rot imm => Sys2Proof.Machine.execMsrCpsrImm c mask rot imm s
  | .msrSpsrImm c mask rot imm => Sys2Proof.Machine.execMsrSpsrImm c mask rot imm s
  | .unallocPsr c _ _ _ _ _ => Sys2Proof.Machine.execUnallocPsr c s
  | .andImm c sf rn rd rot imm => Sys2Proof.Machine.execAndImm c sf rn rd rot imm s
  | .andImmShift c sf rn rd n sh rm => Sys2Proof.Machine.execAndImmShift c sf rn rd n sh rm s
  | .andRegShift c sf rn rd rs sh rm => Sys2Proof.Machine.execAndRegShift c sf rn rd rs sh rm s
  | .eorImm c sf rn rd rot imm => Sys2Proof.Machine.execEorImm c sf rn rd rot imm s
  | .eorImmShift c sf rn rd n sh rm => Sys2Proof.Machine.execEorImmShift c sf rn rd n sh rm s
  | .eorRegShift c sf rn rd rs sh rm => Sys2Proof.Machine.execEorRegShift c sf rn rd rs sh rm s
  | .subImm c sf rn rd rot imm => Sys2Proof.Machine.execSubImm c sf rn rd rot imm s
  | .subImmShift c sf rn rd n sh rm => Sys2Proof.Machine.execSubImmShift c sf rn rd n sh rm s
  | .subRegShift c sf rn rd rs sh rm => Sys2Proof.Machine.execSubRegShift c sf rn rd rs sh rm s
  | .rsbImm c sf rn rd rot imm => Sys2Proof.Machine.execRsbImm c sf rn rd rot imm s
  | .rsbImmShift c sf rn rd n sh rm => Sys2Proof.Machine.execRsbImmShift c sf rn rd n sh rm s
  | .rsbRegShift c sf rn rd rs sh rm => Sys2Proof.Machine.execRsbRegShift c sf rn rd rs sh rm s
  | .addImm c sf rn rd rot imm => Sys2Proof.Machine.execAddImm c sf rn rd rot imm s
  | .addImmShift c sf rn rd n sh rm => Sys2Proof.Machine.execAddImmShift c sf rn rd n sh rm s
  | .addRegShift c sf rn rd rs sh rm => Sys2Proof.Machine.execAddRegShift c sf rn rd rs sh rm s
  | .adcImm c sf rn rd rot imm => Sys2Proof.Machine.execAdcImm c sf rn rd rot imm s
  | .adcImmShift c sf rn rd n sh rm => Sys2Proof.Machine.execAdcImmShift c sf rn rd n sh rm s
  | .adcRegShift c sf rn rd rs sh rm => Sys2Proof.Machine.execAdcRegShift c sf rn rd rs sh rm s
  | .sbcImm c sf rn rd rot imm => Sys2Proof.Machine.execSbcImm c sf rn rd rot imm s
  | .sbcImmShift c sf rn rd n sh rm => Sys2Proof.Machine.execSbcImmShift c sf rn rd n sh rm s
  | .sbcRegShift c sf rn rd rs sh rm => Sys2Proof.Machine.execSbcRegShift c sf rn rd rs sh rm s
  | .rscImm c sf rn rd rot imm => Sys2Proof.Machine.execRscImm c sf rn rd rot imm s
  | .rscImmShift c sf rn rd n sh rm => Sys2Proof.Machine.execRscImmShift c sf rn rd n sh rm s
  | .rscRegShift c sf rn rd rs sh rm => Sys2Proof.Machine.execRscRegShift c sf rn rd rs sh rm s
  | .tstImm c rn rd rot imm => Sys2Proof.Machine.execTstImm c rn rd rot imm s
  | .tstImmShift c rn rd n sh rm => Sys2Proof.Machine.execTstImmShift c rn rd n sh rm s
  | .tstRegShift c rn rd rs sh rm => Sys2Proof.Machine.execTstRegShift c rn rd rs sh rm s
  | .teqImm c rn rd rot imm => Sys2Proof.Machine.execTeqImm c rn rd rot imm s
  | .teqImmShift c rn rd n sh rm => Sys2Proof.Machine.execTeqImmShift c rn rd n sh rm s
  | .teqRegShift c rn rd rs sh rm => Sys2Proof.Machine.execTeqRegShift c rn rd rs sh rm s
  | .cmpImm c rn rd rot imm => Sys2Proof.Machine.execCmpImm c rn rd rot imm s
  | .cmpImmShift c rn rd n sh rm => Sys2Proof.Machine.execCmpImmShift c rn rd n sh rm s
  | .cmpRegShift c rn rd rs sh rm => Sys2Proof.Machine.execCmpRegShift c rn rd rs sh rm s
  | .cmnImm c rn rd rot imm => Sys2Proof.Machine.execCmnImm c rn rd rot imm s
  | .cmnImmShift c rn rd n sh rm => Sys2Proof.Machine.execCmnImmShift c rn rd n sh rm s
  | .cmnRegShift c rn rd rs sh rm => Sys2Proof.Machine.execCmnRegShift c rn rd rs sh rm s
  | .orrImm c sf rn rd rot imm => Sys2Proof.Machine.execOrrImm c sf rn rd rot imm s
  | .orrImmShift c sf rn rd n sh rm => Sys2Proof.Machine.execOrrImmShift c sf rn rd n sh rm s
  | .orrRegShift c sf rn rd rs sh rm => Sys2Proof.Machine.execOrrRegShift c sf rn rd rs sh rm s
  | .movImm c sf rd rot imm => Sys2Proof.Machine.execMovImm c sf rd rot imm s
  | .movImmShift c sf rd n sh rm => Sys2Proof.Machine.execMovImmShift c sf rd n sh rm s
  | .movRegShift c sf rd rs sh rm => Sys2Proof.Machine.execMovRegShift c sf rd rs sh rm s
  | .bicImm c sf rn rd rot imm => Sys2Proof.Machine.execBicImm c sf rn rd rot imm s
  | .bicImmShift c sf rn rd n sh rm => Sys2Proof.Machine.execBicImmShift c sf rn rd n sh rm s
  | .bicRegShift c sf rn rd rs sh rm => Sys2Proof.Machine.execBicRegShift c sf rn rd rs sh rm s
  | .mvnImm c sf rd rot imm => Sys2Proof.Machine.execMvnImm c sf rd rot imm s
  | .mvnImmShift c sf rd n sh rm => Sys2Proof.Machine.execMvnImmShift c sf rd n sh rm s
  | .mvnRegShift c sf rd rs sh rm => Sys2Proof.Machine.execMvnRegShift c sf rd rs sh rm s
  | .undefined c _ _ => Sys2Proof.Machine.execUndefined c s
  | .strtImm c u rn rd off => Sys2Proof.Machine.execStrtImm c u rn rd off s
  | .strtReg c u rn rd n sh rm => Sys2Proof.Machine.execStrtReg c u rn rd n sh rm s
  | .ldrtImm c u rn rd off => Sys2Proof.Machine.execLdrtImm c u rn rd off s
  | .ldrtReg c u rn rd n sh rm => Sys2Proof.Machine.execLdrtReg c u rn rd n sh rm s
  | .strbtImm c u rn rd off => Sys2Proof.Machine.execStrbtImm c u rn rd off s
  | .strbtReg c u rn rd n sh rm => Sys2Proof.Machine.execStrbtReg c u rn rd n sh rm s
  | .ldrbtImm c u rn rd off => Sys2Proof.Machine.execLdrbtImm c u rn rd off s
  | .ldrbtReg c u rn rd n sh rm => Sys2Proof.Machine.execLdrbtReg c u rn rd n sh rm s
  | .strImm c p u w rn rd off => Sys2Proof.Machine.execStrImm c p u w rn rd off s
  | .strReg c p u w rn rd n sh rm => Sys2Proof.Machine.execStrReg c p u w rn rd n sh rm s
  | .ldrImm c p u w rn rd off => Sys2Proof.Machine.execLdrImm c p u w rn rd off s
  | .ldrReg c p u w rn rd n sh rm => Sys2Proof.Machine.execLdrReg c p u w rn rd n sh rm s
  | .strbImm c p u w rn rd off => Sys2Proof.Machine.execStrbImm c p u w rn rd off s
  | .strbReg c p u w rn rd n sh rm => Sys2Proof.Machine.execStrbReg c p u w rn rd n sh rm s
  | .ldrbImm c p u w rn rd off => Sys2Proof.Machine.execLdrbImm c p u w rn rd off s
  | .ldrbReg c p u w rn rd n sh rm => Sys2Proof.Machine.execLdrbReg c p u w rn rd n sh rm s
  | .stm c p u w rn list => Sys2Proof.Machine.execStm c p u w rn list s
  | .ldm c p u w rn list => Sys2Proof.Machine.execLdm c p u w rn list s
  | .stmUser c p u w rn list => Sys2Proof.Machine.execStmUser c p u w rn list s
  | .ldmUser c p u w rn list => Sys2Proof.Machine.execLdmUser c p u w rn list s
  | .ldmRestore c p u w rn list => Sys2Proof.Machine.execLdmRestore c p u w rn list s
  | .b c off => Sys2Proof.Machine.execB c off s
  | .bl c off => Sys2Proof.Machine.execBl c off s
  | .stc c _ _ _ _ _ _ _ _ => Sys2Proof.Machine.execStc c s
  | .ldc c _ _ _ _ _ _ _ _ => Sys2Proof.Machine.execLdc c s
  | .cdp c _ _ _ _ _ _ => Sys2Proof.Machine.execCdp c s
  | .mcr c _ _ _ _ _ _ => Sys2Proof.Machine.execMcr c s
  | .mrc c _ _ _ _ _ _ => Sys2Proof.Machine.execMrc c s
  | .swi c _ => Sys2Proof.Machine.execSwi c s
  | .tAddReg rn rs rd => Sys2Proof.Machine.execTAddReg rn rs rd s
  | .tSubReg rn rs rd => Sys2Proof.Machine.execTSubReg rn rs rd s
  | .tAddImm3 imm rs rd => Sys2Proof.Machine.execTAddImm3 imm rs rd s
  | .tSubImm3 imm rs rd => Sys2Proof.Machine.execTSubImm3 imm rs rd s
  | .tLslImm off rs rd => Sys2Proof.Machine.execTLslImm off rs rd s
  | .tLsrImm off rs rd => Sys2Proof.Machine.execTLsrImm off rs rd s
  | .tAsrImm off rs rd => Sys2Proof.Machine.execTAsrImm off rs rd s
  | .tMovImm8 rd imm => Sys2Proof.Machine.execTMovImm8 rd imm s
  | .tCmpImm8 rd imm => Sys2Proof.Machine.execTCmpImm8 rd imm s
  | .tAddImm8 rd imm => Sys2Proof.Machine.execTAddImm8 rd imm s
  | .tSubImm8 rd imm => Sys2Proof.Machine.execTSubImm8 rd imm s
  | .tAnd rs rd => Sys2Proof.Machine.execTAnd rs rd s
  | .tEor rs rd => Sys2Proof.Machine.execTEor rs rd s
  | .tLslReg rs rd => Sys2Proof.Machine.execTLslReg rs rd s
  | .tLsrReg rs rd => Sys2Proof.Machine.execTLsrReg rs rd s
  | .tAsrReg rs rd => Sys2Proof.Machine.execTAsrReg rs rd s
  | .tAdc rs rd => Sys2Proof.Machine.execTAdc rs rd s
  | .tSbc rs rd => Sys2Proof.Machine.execTSbc rs rd s
  | .tRor rs rd => Sys2Proof.Machine.execTRor rs rd s
  | .tTst rs rd => Sys2Proof.Machine.execTTst rs rd s
  | .tNeg rs rd => Sys2Proof.Machine.execTNeg rs rd s
  | .tCmpReg rs rd => Sys2Proof.Machine.execTCmpReg rs rd s
  | .tCmn rs rd => Sys2Proof.Machine.execTCmn rs rd s
  | .tOrr rs rd => Sys2Proof.Machine.execTOrr rs rd s
  | .tMul rs rd => Sys2Proof.Machine.execTMul rs rd s
  | .tBic rs rd => Sys2Proof.Machine.execTBic rs rd s
  | .tMvn rs rd => Sys2Proof.Machine.execTMvn rs rd s
  | .tAddHi h1 h2 rs rd => Sys2Proof.Machine.execTAddHi h1 h2 rs rd s
  | .tCmpHi h1 h2 rs rd => Sys2Proof.Machine.execTCmpHi h1 h2 rs rd s
  | .tMovHi h1 h2 rs rd => Sys2Proof.Machine.execTMovHi h1 h2 rs rd s
  | .tBx h1 h2 rs => Sys2Proof.Machine.execTBx h1 h2 rs s
  | .tLdrPc rd imm => Sys2Proof.Machine.execTLdrPc rd imm s
  | .tStrReg ro rb rd => Sys2Proof.Machine.execTStrReg ro rb rd s
  | .tStrbReg ro rb rd => Sys2Proof.Machine.execTStrbReg ro rb rd s
  | .tLdrReg ro rb rd => Sys2Proof.Machine.execTLdrReg ro rb rd s
  | .tLdrbReg ro rb rd => Sys2Proof.Machine.execTLdrbReg ro rb rd s
  | .tStrhReg ro rb rd => Sys2Proof.Machine.execTStrhReg ro rb rd s
  | .tLdsbReg ro rb rd => Sys2Proof.Machine.execTLdsbReg ro rb rd s
  | .tLdrhReg ro rb rd => Sys2Proof.Machine.execTLdrhReg ro rb rd s
  | .tLdshReg ro rb rd => Sys2Proof.Machine.execTLdshReg ro rb rd s
  | .tStrImm off rb rd => Sys2Proof.Machine.execTStrImm off rb rd s
  | .tLdrImm off rb rd => Sys2Proof.Machine.execTLdrImm off rb rd s
  | .tStrbImm off rb rd => Sys2Proof.Machine.execTStrbImm off rb rd s
  | .tLdrbImm off rb rd => Sys2Proof.Machine.execTLdrbImm off rb rd s
  | .tStrhImm off rb rd => Sys2Proof.Machine.execTStrhImm off rb rd s
  | .tLdrhImm off rb rd => Sys2Proof.Machine.execTLdrhImm off rb rd s
  | .tStrSp rd imm => Sys2Proof.Machine.execTStrSp rd imm s
  | .tLdrSp rd imm => Sys2Proof.Machine.execTLdrSp rd imm s
  | .tAddPc rd imm => Sys2Proof.Machine.execTAddPc rd imm s
  | .tAddSp rd imm => Sys2Proof.Machine.execTAddSp rd imm s
  | .tAdjSp neg imm => Sys2Proof.Machine.execTAdjSp neg imm s
  | .tPush r list => Sys2Proof.Machine.execTPush r list s
  | .tPop r list => Sys2Proof.Machine.execTPop r list s
  | .tUndef1011 _ => Sys2Proof.Machine.execTUndef1011 s
  | .tStmia rb list => Sys2Proof.Machine.execTStmia rb list s
  | .tLdmia rb list => Sys2Proof.Machine.execTLdmia rb list s
  | .tUndef1110 _ => Sys2Proof.Machine.execTUndef1110 s
  | .tUndef11101 _ => Sys2Proof.Machine.execTUndef11101 s
  | .tSwi _ => Sys2Proof.Machine.execTSwi s
  | .tBCond c off => Sys2Proof.Machine.execTBCond c off s
  | .tB off => Sys2Proof.Machine.execTB off s
  | .tBlPrefix off => Sys2Proof.Machine.execTBlPrefix off s
  | .tBlSuffix off => Sys2Proof.Machine.execTBlSuffix off s

end Sys2Proof.Machine
end

