-- ==== Sys2Proof/Machine/Timing.lean ====
section
/-! DEFINITION. The condition of an instruction and its internal cycles (spec R138, R237, R452). -/

namespace Sys2Proof.Machine

/-- Whether the bits of `v` from bit `k` up are all zero or, where `ones` is set, all one (R237). -/
def topUniform (ones : Bool) (v : Word) (k : Nat) : Bool := v >>> k == 0#32 || ones && v.sshiftRight k == 0xFFFFFFFF#32

/-- `m`, from the value of the multiplier register; `signed` where the all-one patterns count, which they do not for
UMULL and UMLAL (R237). -/
def mulCycles (signed : Bool) (v : Word) : Nat :=
  if topUniform signed v 8 then 1 else if topUniform signed v 16 then 2 else if topUniform signed v 24 then 3 else 4

/-! ## The condition of an instruction -/

/-- The condition field of an instruction; none where it has none (R138, R370). -/
def condOf : Instr → Option Cond
  | .cond1111 _ => none
  | .bx c _ => some c
  | .swp c _ _ _ => some c
  | .swpb c _ _ _ => some c
  | .mul c _ _ _ _ => some c
  | .mla c _ _ _ _ _ => some c
  | .umull c _ _ _ _ _ => some c
  | .umlal c _ _ _ _ _ => some c
  | .smull c _ _ _ _ _ => some c
  | .smlal c _ _ _ _ _ => some c
  | .strhReg c _ _ _ _ _ _ => some c
  | .strhImm c _ _ _ _ _ _ _ => some c
  | .ldrhReg c _ _ _ _ _ _ => some c
  | .ldrhImm c _ _ _ _ _ _ _ => some c
  | .ldrsbReg c _ _ _ _ _ _ => some c
  | .ldrsbImm c _ _ _ _ _ _ _ => some c
  | .ldrshReg c _ _ _ _ _ _ => some c
  | .ldrshImm c _ _ _ _ _ _ _ => some c
  | .unallocHalfStore c _ _ _ _ => some c
  | .unallocMul c _ _ _ => some c
  | .mrs c _ _ => some c
  | .msrCpsrReg c _ _ => some c
  | .msrSpsrReg c _ _ => some c
  | .msrCpsrImm c _ _ _ => some c
  | .msrSpsrImm c _ _ _ => some c
  | .unallocPsr c _ _ _ _ _ => some c
  | .andImm c _ _ _ _ _ => some c
  | .andImmShift c _ _ _ _ _ _ => some c
  | .andRegShift c _ _ _ _ _ _ => some c
  | .eorImm c _ _ _ _ _ => some c
  | .eorImmShift c _ _ _ _ _ _ => some c
  | .eorRegShift c _ _ _ _ _ _ => some c
  | .subImm c _ _ _ _ _ => some c
  | .subImmShift c _ _ _ _ _ _ => some c
  | .subRegShift c _ _ _ _ _ _ => some c
  | .rsbImm c _ _ _ _ _ => some c
  | .rsbImmShift c _ _ _ _ _ _ => some c
  | .rsbRegShift c _ _ _ _ _ _ => some c
  | .addImm c _ _ _ _ _ => some c
  | .addImmShift c _ _ _ _ _ _ => some c
  | .addRegShift c _ _ _ _ _ _ => some c
  | .adcImm c _ _ _ _ _ => some c
  | .adcImmShift c _ _ _ _ _ _ => some c
  | .adcRegShift c _ _ _ _ _ _ => some c
  | .sbcImm c _ _ _ _ _ => some c
  | .sbcImmShift c _ _ _ _ _ _ => some c
  | .sbcRegShift c _ _ _ _ _ _ => some c
  | .rscImm c _ _ _ _ _ => some c
  | .rscImmShift c _ _ _ _ _ _ => some c
  | .rscRegShift c _ _ _ _ _ _ => some c
  | .tstImm c _ _ _ _ => some c
  | .tstImmShift c _ _ _ _ _ => some c
  | .tstRegShift c _ _ _ _ _ => some c
  | .teqImm c _ _ _ _ => some c
  | .teqImmShift c _ _ _ _ _ => some c
  | .teqRegShift c _ _ _ _ _ => some c
  | .cmpImm c _ _ _ _ => some c
  | .cmpImmShift c _ _ _ _ _ => some c
  | .cmpRegShift c _ _ _ _ _ => some c
  | .cmnImm c _ _ _ _ => some c
  | .cmnImmShift c _ _ _ _ _ => some c
  | .cmnRegShift c _ _ _ _ _ => some c
  | .orrImm c _ _ _ _ _ => some c
  | .orrImmShift c _ _ _ _ _ _ => some c
  | .orrRegShift c _ _ _ _ _ _ => some c
  | .movImm c _ _ _ _ => some c
  | .movImmShift c _ _ _ _ _ => some c
  | .movRegShift c _ _ _ _ _ => some c
  | .bicImm c _ _ _ _ _ => some c
  | .bicImmShift c _ _ _ _ _ _ => some c
  | .bicRegShift c _ _ _ _ _ _ => some c
  | .mvnImm c _ _ _ _ => some c
  | .mvnImmShift c _ _ _ _ _ => some c
  | .mvnRegShift c _ _ _ _ _ => some c
  | .undefined c _ _ => some c
  | .strtImm c _ _ _ _ => some c
  | .strtReg c _ _ _ _ _ _ => some c
  | .ldrtImm c _ _ _ _ => some c
  | .ldrtReg c _ _ _ _ _ _ => some c
  | .strbtImm c _ _ _ _ => some c
  | .strbtReg c _ _ _ _ _ _ => some c
  | .ldrbtImm c _ _ _ _ => some c
  | .ldrbtReg c _ _ _ _ _ _ => some c
  | .strImm c _ _ _ _ _ _ => some c
  | .strReg c _ _ _ _ _ _ _ _ => some c
  | .ldrImm c _ _ _ _ _ _ => some c
  | .ldrReg c _ _ _ _ _ _ _ _ => some c
  | .strbImm c _ _ _ _ _ _ => some c
  | .strbReg c _ _ _ _ _ _ _ _ => some c
  | .ldrbImm c _ _ _ _ _ _ => some c
  | .ldrbReg c _ _ _ _ _ _ _ _ => some c
  | .stm c _ _ _ _ _ => some c
  | .ldm c _ _ _ _ _ => some c
  | .stmUser c _ _ _ _ _ => some c
  | .ldmUser c _ _ _ _ _ => some c
  | .ldmRestore c _ _ _ _ _ => some c
  | .b c _ => some c
  | .bl c _ => some c
  | .stc c _ _ _ _ _ _ _ _ => some c
  | .ldc c _ _ _ _ _ _ _ _ => some c
  | .cdp c _ _ _ _ _ _ => some c
  | .mcr c _ _ _ _ _ _ => some c
  | .mrc c _ _ _ _ _ _ => some c
  | .swi c _ => some c
  | .tAddReg _ _ _ => none
  | .tSubReg _ _ _ => none
  | .tAddImm3 _ _ _ => none
  | .tSubImm3 _ _ _ => none
  | .tLslImm _ _ _ => none
  | .tLsrImm _ _ _ => none
  | .tAsrImm _ _ _ => none
  | .tMovImm8 _ _ => none
  | .tCmpImm8 _ _ => none
  | .tAddImm8 _ _ => none
  | .tSubImm8 _ _ => none
  | .tAnd _ _ => none
  | .tEor _ _ => none
  | .tLslReg _ _ => none
  | .tLsrReg _ _ => none
  | .tAsrReg _ _ => none
  | .tAdc _ _ => none
  | .tSbc _ _ => none
  | .tRor _ _ => none
  | .tTst _ _ => none
  | .tNeg _ _ => none
  | .tCmpReg _ _ => none
  | .tCmn _ _ => none
  | .tOrr _ _ => none
  | .tMul _ _ => none
  | .tBic _ _ => none
  | .tMvn _ _ => none
  | .tAddHi _ _ _ _ => none
  | .tCmpHi _ _ _ _ => none
  | .tMovHi _ _ _ _ => none
  | .tBx _ _ _ => none
  | .tLdrPc _ _ => none
  | .tStrReg _ _ _ => none
  | .tStrbReg _ _ _ => none
  | .tLdrReg _ _ _ => none
  | .tLdrbReg _ _ _ => none
  | .tStrhReg _ _ _ => none
  | .tLdsbReg _ _ _ => none
  | .tLdrhReg _ _ _ => none
  | .tLdshReg _ _ _ => none
  | .tStrImm _ _ _ => none
  | .tLdrImm _ _ _ => none
  | .tStrbImm _ _ _ => none
  | .tLdrbImm _ _ _ => none
  | .tStrhImm _ _ _ => none
  | .tLdrhImm _ _ _ => none
  | .tStrSp _ _ => none
  | .tLdrSp _ _ => none
  | .tAddPc _ _ => none
  | .tAddSp _ _ => none
  | .tAdjSp _ _ => none
  | .tPush _ _ => none
  | .tPop _ _ => none
  | .tUndef1011 _ => none
  | .tStmia _ _ => none
  | .tLdmia _ _ => none
  | .tUndef1110 _ => none
  | .tUndef11101 _ => none
  | .tSwi _ => none
  | .tBCond c _ => some c
  | .tB _ => none
  | .tBlPrefix _ => none
  | .tBlSuffix _ => none

/-! ## `INTERNAL_CYCLES` -/

/-- Whether an instruction's condition passes; true where it has none (R138, R139). -/
def passes (i : Instr) (s : State) : Bool :=
  match condOf i with
  | some c => Cond.passes c s.cpsr
  | none => true

/-- The value of the multiplier register of a multiply: Rs, and Rd of Thumb MUL (R237, R324); 0 of any other
instruction. -/
def multiplierOf (s : State) : Instr → Word
  | .mul _ _ _ rs _ => s.reg rs
  | .mla _ _ _ _ rs _ => s.reg rs
  | .umull _ _ _ _ rs _ => s.reg rs
  | .umlal _ _ _ _ rs _ => s.reg rs
  | .smull _ _ _ _ rs _ => s.reg rs
  | .smlal _ _ _ _ rs _ => s.reg rs
  | .tMul _ rd => s.reg rd.reg
  | _ => 0#32

/-- The row of R452 that an instruction whose condition passed belongs to, `v` the multiplier's value. The unallocated
spaces fault and have none. -/
def rowCycles (k : InternalTable) (v : Word) (i : Instr) : Nat :=
  match i with
  | .cond1111 _ => 0
  | .bx _ _ => k.branch
  | .swp _ _ _ _ => k.swap
  | .swpb _ _ _ _ => k.swap
  | .mul _ _ _ _ _ => mulCycles true v + k.mul
  | .mla _ _ _ _ _ _ => mulCycles true v + k.mla
  | .umull _ _ _ _ _ _ => mulCycles false v + k.mull
  | .umlal _ _ _ _ _ _ => mulCycles false v + k.mlal
  | .smull _ _ _ _ _ _ => mulCycles true v + k.mull
  | .smlal _ _ _ _ _ _ => mulCycles true v + k.mlal
  | .strhReg _ _ _ _ _ _ _ => k.store
  | .strhImm _ _ _ _ _ _ _ _ => k.store
  | .ldrhReg _ _ _ _ _ _ _ => k.load
  | .ldrhImm _ _ _ _ _ _ _ _ => k.load
  | .ldrsbReg _ _ _ _ _ _ _ => k.load
  | .ldrsbImm _ _ _ _ _ _ _ _ => k.load
  | .ldrshReg _ _ _ _ _ _ _ => k.load
  | .ldrshImm _ _ _ _ _ _ _ _ => k.load
  | .unallocHalfStore _ _ _ _ _ => 0
  | .unallocMul _ _ _ _ => 0
  | .mrs _ _ _ => k.dataProc
  | .msrCpsrReg _ _ _ => k.dataProc
  | .msrSpsrReg _ _ _ => k.dataProc
  | .msrCpsrImm _ _ _ _ => k.dataProc
  | .msrSpsrImm _ _ _ _ => k.dataProc
  | .unallocPsr _ _ _ _ _ _ => 0
  | .andImm _ _ _ _ _ _ => k.dataProc
  | .andImmShift _ _ _ _ _ _ _ => k.dataProc
  | .andRegShift _ _ _ _ _ _ _ => k.regShift
  | .eorImm _ _ _ _ _ _ => k.dataProc
  | .eorImmShift _ _ _ _ _ _ _ => k.dataProc
  | .eorRegShift _ _ _ _ _ _ _ => k.regShift
  | .subImm _ _ _ _ _ _ => k.dataProc
  | .subImmShift _ _ _ _ _ _ _ => k.dataProc
  | .subRegShift _ _ _ _ _ _ _ => k.regShift
  | .rsbImm _ _ _ _ _ _ => k.dataProc
  | .rsbImmShift _ _ _ _ _ _ _ => k.dataProc
  | .rsbRegShift _ _ _ _ _ _ _ => k.regShift
  | .addImm _ _ _ _ _ _ => k.dataProc
  | .addImmShift _ _ _ _ _ _ _ => k.dataProc
  | .addRegShift _ _ _ _ _ _ _ => k.regShift
  | .adcImm _ _ _ _ _ _ => k.dataProc
  | .adcImmShift _ _ _ _ _ _ _ => k.dataProc
  | .adcRegShift _ _ _ _ _ _ _ => k.regShift
  | .sbcImm _ _ _ _ _ _ => k.dataProc
  | .sbcImmShift _ _ _ _ _ _ _ => k.dataProc
  | .sbcRegShift _ _ _ _ _ _ _ => k.regShift
  | .rscImm _ _ _ _ _ _ => k.dataProc
  | .rscImmShift _ _ _ _ _ _ _ => k.dataProc
  | .rscRegShift _ _ _ _ _ _ _ => k.regShift
  | .tstImm _ _ _ _ _ => k.dataProc
  | .tstImmShift _ _ _ _ _ _ => k.dataProc
  | .tstRegShift _ _ _ _ _ _ => k.regShift
  | .teqImm _ _ _ _ _ => k.dataProc
  | .teqImmShift _ _ _ _ _ _ => k.dataProc
  | .teqRegShift _ _ _ _ _ _ => k.regShift
  | .cmpImm _ _ _ _ _ => k.dataProc
  | .cmpImmShift _ _ _ _ _ _ => k.dataProc
  | .cmpRegShift _ _ _ _ _ _ => k.regShift
  | .cmnImm _ _ _ _ _ => k.dataProc
  | .cmnImmShift _ _ _ _ _ _ => k.dataProc
  | .cmnRegShift _ _ _ _ _ _ => k.regShift
  | .orrImm _ _ _ _ _ _ => k.dataProc
  | .orrImmShift _ _ _ _ _ _ _ => k.dataProc
  | .orrRegShift _ _ _ _ _ _ _ => k.regShift
  | .movImm _ _ _ _ _ => k.dataProc
  | .movImmShift _ _ _ _ _ _ => k.dataProc
  | .movRegShift _ _ _ _ _ _ => k.regShift
  | .bicImm _ _ _ _ _ _ => k.dataProc
  | .bicImmShift _ _ _ _ _ _ _ => k.dataProc
  | .bicRegShift _ _ _ _ _ _ _ => k.regShift
  | .mvnImm _ _ _ _ _ => k.dataProc
  | .mvnImmShift _ _ _ _ _ _ => k.dataProc
  | .mvnRegShift _ _ _ _ _ _ => k.regShift
  | .undefined _ _ _ => k.branch
  | .strtImm _ _ _ _ _ => k.store
  | .strtReg _ _ _ _ _ _ _ => k.store
  | .ldrtImm _ _ _ _ _ => k.load
  | .ldrtReg _ _ _ _ _ _ _ => k.load
  | .strbtImm _ _ _ _ _ => k.store
  | .strbtReg _ _ _ _ _ _ _ => k.store
  | .ldrbtImm _ _ _ _ _ => k.load
  | .ldrbtReg _ _ _ _ _ _ _ => k.load
  | .strImm _ _ _ _ _ _ _ => k.store
  | .strReg _ _ _ _ _ _ _ _ _ => k.store
  | .ldrImm _ _ _ _ _ _ _ => k.load
  | .ldrReg _ _ _ _ _ _ _ _ _ => k.load
  | .strbImm _ _ _ _ _ _ _ => k.store
  | .strbReg _ _ _ _ _ _ _ _ _ => k.store
  | .ldrbImm _ _ _ _ _ _ _ => k.load
  | .ldrbReg _ _ _ _ _ _ _ _ _ => k.load
  | .stm _ _ _ _ _ _ => k.storeBlock
  | .ldm _ _ _ _ _ _ => k.loadBlock
  | .stmUser _ _ _ _ _ _ => k.storeBlock
  | .ldmUser _ _ _ _ _ _ => k.loadBlock
  | .ldmRestore _ _ _ _ _ _ => k.loadBlock
  | .b _ _ => k.branch
  | .bl _ _ => k.branch
  | .stc _ _ _ _ _ _ _ _ _ => k.branch
  | .ldc _ _ _ _ _ _ _ _ _ => k.branch
  | .cdp _ _ _ _ _ _ _ => k.branch
  | .mcr _ _ _ _ _ _ _ => k.branch
  | .mrc _ _ _ _ _ _ _ => k.branch
  | .swi _ _ => k.branch
  | .tAddReg _ _ _ => k.thumbAlu
  | .tSubReg _ _ _ => k.thumbAlu
  | .tAddImm3 _ _ _ => k.thumbAlu
  | .tSubImm3 _ _ _ => k.thumbAlu
  | .tLslImm _ _ _ => k.thumbAlu
  | .tLsrImm _ _ _ => k.thumbAlu
  | .tAsrImm _ _ _ => k.thumbAlu
  | .tMovImm8 _ _ => k.thumbAlu
  | .tCmpImm8 _ _ => k.thumbAlu
  | .tAddImm8 _ _ => k.thumbAlu
  | .tSubImm8 _ _ => k.thumbAlu
  | .tAnd _ _ => k.thumbAlu
  | .tEor _ _ => k.thumbAlu
  | .tLslReg _ _ => k.thumbShift
  | .tLsrReg _ _ => k.thumbShift
  | .tAsrReg _ _ => k.thumbShift
  | .tAdc _ _ => k.thumbAlu
  | .tSbc _ _ => k.thumbAlu
  | .tRor _ _ => k.thumbShift
  | .tTst _ _ => k.thumbAlu
  | .tNeg _ _ => k.thumbAlu
  | .tCmpReg _ _ => k.thumbAlu
  | .tCmn _ _ => k.thumbAlu
  | .tOrr _ _ => k.thumbAlu
  | .tMul _ _ => mulCycles true v + k.thumbMul
  | .tBic _ _ => k.thumbAlu
  | .tMvn _ _ => k.thumbAlu
  | .tAddHi _ _ _ _ => k.thumbAlu
  | .tCmpHi _ _ _ _ => k.thumbAlu
  | .tMovHi _ _ _ _ => k.thumbAlu
  | .tBx _ _ _ => k.thumbAlu
  | .tLdrPc _ _ => k.thumbLoad
  | .tStrReg _ _ _ => k.thumbStore
  | .tStrbReg _ _ _ => k.thumbStore
  | .tLdrReg _ _ _ => k.thumbLoad
  | .tLdrbReg _ _ _ => k.thumbLoad
  | .tStrhReg _ _ _ => k.thumbStore
  | .tLdsbReg _ _ _ => k.thumbLoad
  | .tLdrhReg _ _ _ => k.thumbLoad
  | .tLdshReg _ _ _ => k.thumbLoad
  | .tStrImm _ _ _ => k.thumbStore
  | .tLdrImm _ _ _ => k.thumbLoad
  | .tStrbImm _ _ _ => k.thumbStore
  | .tLdrbImm _ _ _ => k.thumbLoad
  | .tStrhImm _ _ _ => k.thumbStore
  | .tLdrhImm _ _ _ => k.thumbLoad
  | .tStrSp _ _ => k.thumbStore
  | .tLdrSp _ _ => k.thumbLoad
  | .tAddPc _ _ => k.thumbAlu
  | .tAddSp _ _ => k.thumbAlu
  | .tAdjSp _ _ => k.thumbAlu
  | .tPush _ _ => k.thumbStoreBlock
  | .tPop _ _ => k.thumbLoadBlock
  | .tUndef1011 _ => k.thumbBranch
  | .tStmia _ _ => k.thumbStoreBlock
  | .tLdmia _ _ => k.thumbLoadBlock
  | .tUndef1110 _ => k.thumbBranch
  | .tUndef11101 _ => k.thumbBranch
  | .tSwi _ => k.thumbBranch
  | .tBCond _ _ => k.thumbBranch
  | .tB _ => k.thumbBranch
  | .tBlPrefix _ => k.thumbBranch
  | .tBlSuffix _ => k.thumbBranch

/-- The outcome of an instruction that took the state `s` to `t` (R150). -/
def outcomeOf (i : Instr) (s t : State) : StepOutcome where
  passed := passes i s
  flow := t.flow
  multiplier := multiplierOf s i

/-- `INTERNAL_CYCLES(instr, outcome)` of an instruction that took the state `s` to `t`; in a table in the form of R452 a
failed condition gives 0 (R8, R109, R150, R452; log 12). -/
def internalCycles (i : Instr) (s t : State) : Nat :=
  match s.bus.params.internal with
  | .rows k => if passes i s then rowCycles k (multiplierOf s i) i else 0
  | .given => Config.internalCycles i (outcomeOf i s t)

end Sys2Proof.Machine
end

