-- ==== Sys2Proof/Machine/Engine.lean ====
section
/-! DEFINITION. The parts of one step (spec R44, R109, R150 to R156, R403, R406). -/

namespace Sys2Proof.Machine

/-- The start of a step: `ACC` and the observation of the step before are cleared, no flow is reported (R51, R150). -/
def State.begin (s : State) : State := { s with flow := none, bus := { s.bus with acc := 0, trace := [] } }

/-- A step of a halted state with the line clear: only cycles pass (R406). -/
def State.idle (s : State) : Result :=
  s.onBus ({ s.bus with acc := s.bus.params.haltStepCycles }.advance s.bus.params.haltStepCycles) fun b =>
    .next (s.withBus b)

/-- Whether the interrupt line is asserted and unmasked (R403). -/
def State.interrupted (s : State) : Bool := s.bus.irqLine && !s.cpsr.i

/-- The entry of an IRQ: the link is N + 4, N the address of the staged instruction (R390, R391). -/
def State.enterIrq (s : State) : State := { s.enterException .irq (addrPlus s.here 4) with flow := none }

/-- The interrupt check: with the line asserted and unmasked, the entry and its bubble (R150, R153, R403). -/
def State.checkInterrupt (s : State) : Result := if s.interrupted then s.enterIrq.bubble Exception.irq.vector else .next s

/-- The instruction of the staged word: `Pop`, then the table of CPSR.T (R44, R142, R156). -/
def State.staged (s : State) : Instr :=
  decodeCode (if s.cpsr.t then .thumb (s.pipe.decoded.setWidth 16) else .arm s.pipe.decoded)

/-- The end of a step's execution: two fetches at the reported target, else one fetch (R152). -/
def State.refill (s : State) : Result :=
  match s.flow with
  | some target => ({ s with flow := none } : State).bubble target
  | none => s.fetch true

/-- Internal cycles: added to `ACC` and advanced where there are any (R109). -/
def State.spend (s : State) (n : Nat) : Result :=
  if n = 0 then .next s
  else s.onBus ({ s.bus with acc := s.bus.acc + n }.advance n) fun b => .next (s.withBus b)

/-- The staged instruction: executed, refilled, its internal cycles spent (R150); a fault leaves what was done before it
(R155). -/
def State.executeStaged (s : State) : Result :=
  andThen (s.leaving (exec s.staged s)) fun s1 => andThen s1.refill fun s2 => s2.spend (internalCycles s.staged s s1)

/-- A step after the halt check (R150). -/
def State.proceed (s : State) : Result := andThen s.checkInterrupt State.executeStaged

/-- The halt check: the line ends the halted state whatever CPSR.I (R406). -/
def State.wake (s : State) : State := { s with bus := { s.bus with halted := false } }

/-- One iteration of the step loop. From a faulted state no step is taken (R55, R150). -/
def State.stepOnce (s : State) : Result :=
  match s.faulted with
  | some f => .fault f
  | none =>
    if s.bus.halted && !s.bus.irqLine then s.begin.idle
    else s.begin.wake.proceed

/-- The word of a table row of `nbits` bits, staged for the next step: a Thumb halfword where `nbits` is at most 16
(log 19). -/
def State.stageTableWord (s : State) (nbits w : Nat) : State :=
  if nbits ≤ 16 then s.stage true ((BitVec.ofNat 16 w).setWidth 32) else s.stage false (BitVec.ofNat 32 w)

end Sys2Proof.Machine
end

