-- ==== Sys2Proof/Machine/Step.lean ====
section
/-! DEFINITION. `step`, one iteration of the step loop (spec R150), and the staging of one instruction. -/

namespace Sys2Proof.Machine

/-- `Step()` (R150). -/
def step (s : State) : Host.Outcome State Fault Refusal := s.stepOnce

/-- The state with one instruction in the slot `step` pops next (R44; log 19). -/
def State.withFetchWord (s : State) (nbits w : Nat) : State := s.stageTableWord nbits w

end Sys2Proof.Machine
end

