-- ==== Sys2Proof/Machine/HostInterface.lean ====
section
/-! DEFINITION. What the host and the collaborators do to the machine from outside a step (spec R58 to R66, R421, R430, R432). -/

namespace Sys2Proof.Machine

/-! ## Reset (R61, R430) -/

/-- The bus before the reset bubble. Memory, the port table, the interrupt line and the parameters are not the reset's
to change (R430, R431; logs 7, 20). DESIGN CHOICE: `ACC` starts at 0 (log 32), and `OB` keeps its value where the bubble
transfers nothing (log 33). -/
def Bus.cleared (b : Bus) : Bus where
  mem := b.mem
  ports := b.ports
  waitcnt := 0x0000#16
  ob := b.ob
  pfValid := false
  pfNext := 0#32
  last := none
  acc := 0
  ts := 0
  queue := []
  nextSeq := 0
  running := none
  halted := false
  irqLine := b.irqLine
  trace := []
  draws := b.draws
  params := b.params

/-- The saved status registers at zero (R432; log 3). -/
def Spsrs.zero : Spsrs where
  fiq := Psr.zero
  svc := Psr.zero
  abt := Psr.zero
  irq := Psr.zero
  und := Psr.zero

/-- The state before the cold reset's bubble (R57, R430; logs 1 to 3). -/
def State.coldStart (s : State) : State where
  gpr := Vector.replicate 30 0#32
  cpsr := Cpsr.reset
  spsrs := Spsrs.zero
  pipe := { fetched := 0#32, decoded := 0#32, cursor := 0#32 }
  flow := none
  bus := s.bus.cleared
  faulted := none
  draws := s.draws

/-- CPSR after a skip_bios reset: 0x0000001F (R432). -/
def Cpsr.skipBios : Cpsr where
  n := false
  z := false
  c := false
  v := false
  q := false
  i := false
  f := false
  t := false
  mode := .sys

/-- The state before the skip_bios reset's bubble (R432). -/
def State.skipBiosStart (s : State) : State :=
  (({ s.coldStart with cpsr := Cpsr.skipBios }.setXm .usr 13#4 0x03007F00#32).setXm .irq 13#4 0x03007FA0#32).setXm .svc
    13#4 0x03007FE0#32

/-- `Reset()`: a faulted state is not changed (R55, R430). -/
def State.hostReset (s : State) : Result :=
  match s.faulted with
  | some _ => .next s
  | none =>
    match s.bus.params.bootMode with
    | .cold => s.coldStart.bubble 0x00000000#32
    | .skipBios => s.skipBiosStart.bubble 0x08000000#32

/-! ## Step(n) (R60) -/

/-- `Step(n)`: the cycle totals of the iterations, and how the run ends; it stops early only at a fault. -/
def runSteps : Nat → State → List Nat × Result
  | 0, s => ([], .next s)
  | n + 1, s =>
    match step s with
    | .next t => (t.bus.acc :: (runSteps n t).1, (runSteps n t).2)
    | .fault f => ([], .fault f)
    | .refused r => ([], .refused r)

/-- The faulted state of a stop: what it left, and its reason (R13, R155). -/
def Remains.faultedState (x : Remains) (why : Fault) : State where
  gpr := x.gpr
  cpsr := x.cpsr
  spsrs := x.spsrs
  pipe := x.pipe
  flow := x.flow
  bus := x.bus
  faulted := some why
  draws := x.draws

/-- The state after a fault of `s`: what the fault left, the reason recorded, and never cleared (R13, R55, R155; log
13). -/
def State.afterFault (s : State) (f : Fault) : State :=
  match f with
  | .stopped why left => left.faultedState why
  | f => { s with faulted := some f }

/-! ## Lines, ports, scheduler -/

/-- A region table with another row for one region. -/
def regionTableSet (t : RegionTable) (r : Region) (row : RegionRow) : RegionTable :=
  match r with
  | .bios => { t with bios := row }
  | .ewram => { t with ewram := row }
  | .iwram => { t with iwram := row }
  | .io => { t with io := row }
  | .palette => { t with palette := row }
  | .vram => { t with vram := row }
  | .oam => { t with oam := row }
  | .rom0 => { t with rom0 := row }
  | .rom1 => { t with rom1 := row }
  | .rom2 => { t with rom2 := row }
  | .save => { t with save := row }

/-- The interrupt source drives the line (R62, R400). -/
def State.setIrqLine (s : State) (level : Bool) : State := { s with bus := { s.bus with irqLine := level } }

/-- A collaborator requests the halted state (R63, R407). -/
def State.requestHalt (s : State) : State := { s with bus := { s.bus with halted := true } }

/-- A collaborator registers a register of the port table (R58, R92). -/
def State.registerPort (s : State) (r : PortReg) : State := { s with bus := { s.bus with ports := s.bus.ports ++ [r] } }

/-- The largest backing size of a region: that of its top byte, and of the cartridge image (R8, R72; log 12). -/
def regionLimit : Region → Nat
  | .bios => 0x01000000
  | .ewram => 0x01000000
  | .iwram => 0x01000000
  | .io => 0x01000000
  | .palette => 0x01000000
  | .vram => 0x01000000
  | .oam => 0x01000000
  | .rom0 => 0x02000000
  | .rom1 => 0x02000000
  | .rom2 => 0x02000000
  | .save => 0x01000000

/-- The parameters with another backing size of one region; that of a cartridge area is `ROM_SIZE` (R72). -/
def regionSizeSet (p : Params) (r : Region) (size : Fin (regionLimit r + 1)) : Params :=
  match r, size with
  | .bios, n => { p with sizes := { p.sizes with bios := n } }
  | .ewram, n => { p with sizes := { p.sizes with ewram := n } }
  | .iwram, n => { p with sizes := { p.sizes with iwram := n } }
  | .io, n => { p with sizes := { p.sizes with io := n } }
  | .palette, n => { p with sizes := { p.sizes with palette := n } }
  | .vram, n => { p with sizes := { p.sizes with vram := n } }
  | .oam, n => { p with sizes := { p.sizes with oam := n } }
  | .rom0, n => { p with romSize := n }
  | .rom1, n => { p with romSize := n }
  | .rom2, n => { p with romSize := n }
  | .save, n => { p with sizes := { p.sizes with save := n } }

/-- The parameters of R8 are given to the machine before the run (R8; log 11). -/
def State.configure (s : State) (p : Params) : State := { s with bus := { s.bus with params := p } }

/-- A region is registered, once, before the run: its row of `REGION_TABLE` with its fixed size and dispatch target (R58,
R72, R75). -/
def State.registerRegion (s : State) (r : Region) (row : RegionRow) (size : Fin (regionLimit r + 1)) : State :=
  s.configure (regionSizeSet { s.bus.params with regions := regionTableSet s.bus.params.regions r row } r size)

/-- `Schedule` from outside a step; the answer says whether the event was accepted (R412, R421). -/
def State.hostSchedule (s : State) (rel cat cb ctx : Nat) (recursive : Bool) :
    Host.Outcome (Bool × State) Fault Refusal :=
  s.onBus (s.bus.schedule rel cat cb ctx recursive) fun x => .next (x.1, s.withBus x.2)

/-- `Deschedule` from outside a step (R414, R421). -/
def State.hostDeschedule (s : State) (cat : Nat) : State := s.withBus (s.bus.deschedule cat)

/-- The written bytes after `cells` are put in place over `m`, in order. -/
def Memory.load (m : List Host.Cell) (cells : List Host.Cell) : List Host.Cell :=
  cells.foldl (fun m x => Memory.set m x.1 x.2) m

/-- The bytes of an image or of memory put in place before a run (R8, R87; log 19). -/
def State.loadBytes (s : State) (cells : List Host.Cell) : State :=
  { s with bus := { s.bus with mem := Memory.load s.bus.mem cells } }

/-! ## Peek and save states (R64 to R66) -/

/-- `Peek` (R66). -/
def State.peek (s : State) (a : Word) (w : Width) : Word := s.bus.peek a w

/-- Whether a store address belongs to `BIOS_IMAGE` or `ROM_IMAGE`, which are oracles (R9, R87). -/
def isImageCell (k : Nat) : Bool := decide (k < 0x01000000) || decide (0x08000000 ≤ k) && decide (k < 0x0A000000)

/-- What Serialize captures: every piece of state, CPSR as its word, and no oracle: not the images, nor the port table but
for WAITCNT, nor the draw counters; nor the parameters (R8, R9, R64, R431; logs 27 and 34). -/
structure Snapshot where
  gpr : Vector Word 30
  cpsr : Word
  spsrs : Spsrs
  pipe : Pipe
  flow : Option Word
  /-- The written bytes of the backing stores but for the images. -/
  mem : List Host.Cell
  waitcnt : BitVec 16
  ob : Word
  pfValid : Bool
  pfNext : Word
  last : Option LastAccess
  acc : Nat
  ts : Nat
  queue : List Event
  nextSeq : Nat
  running : Option Nat
  halted : Bool
  irqLine : Bool
  trace : List Access
  faulted : Option Fault
  deriving DecidableEq, Repr

/-- Serialize; it changes nothing (R64). -/
def State.serialize (s : State) : Snapshot where
  gpr := s.gpr
  cpsr := s.cpsr.toWord
  spsrs := s.spsrs
  pipe := s.pipe
  flow := s.flow
  mem := s.bus.mem.filter fun x => !isImageCell x.1
  waitcnt := s.bus.waitcnt
  ob := s.bus.ob
  pfValid := s.bus.pfValid
  pfNext := s.bus.pfNext
  last := s.bus.last
  acc := s.bus.acc
  ts := s.bus.ts
  queue := s.bus.queue
  nextSeq := s.bus.nextSeq
  running := s.bus.running
  halted := s.bus.halted
  irqLine := s.bus.irqLine
  trace := s.bus.trace
  faulted := s.faulted

/-- The written bytes after a Deserialize: the images of the present machine, all else of the snapshot (R9, R64, R65). -/
def restoredMem (now cells : List Host.Cell) : List Host.Cell :=
  Memory.load (now.filter fun x => isImageCell x.1) (cells.filter fun x => !isImageCell x.1)

/-- The bus after a Deserialize: what the snapshot holds, and the oracles and the parameters of the present machine (R9,
R64, R65; DESIGN CHOICE, log 34). -/
def Bus.restored (now : Bus) (x : Snapshot) : Bus where
  mem := restoredMem now.mem x.mem
  ports := now.ports
  waitcnt := x.waitcnt
  ob := x.ob
  pfValid := x.pfValid
  pfNext := x.pfNext
  last := x.last
  acc := x.acc
  ts := x.ts
  queue := x.queue
  nextSeq := x.nextSeq
  running := x.running
  halted := x.halted
  irqLine := x.irqLine
  trace := x.trace
  draws := now.draws
  params := now.params

/-- Deserialize on the machine `now`: a CPSR.M that is not a mode and a cursor not aligned to the width are faults (R65).
DESIGN CHOICE (log 34): the parameters of `now` stay, its oracles go on where they stand, and a faulted machine stays
faulted (R55). -/
def State.deserialize (now : State) (x : Snapshot) : Result :=
  match (Psr.ofWord x.cpsr).restore with
  | none => .fault .inconsistentState
  | some p =>
    if alignTo (fetchWidth p.t) x.pipe.cursor = x.pipe.cursor then
      .next {
        gpr := x.gpr
        cpsr := p
        spsrs := x.spsrs
        pipe := x.pipe
        flow := x.flow
        bus := now.bus.restored x
        faulted := now.faulted.or x.faulted
        draws := now.draws }
    else .fault .inconsistentState

end Sys2Proof.Machine
end

