-- ==== Sys2Proof/Safety.lean ====
section
/-! DEFINITION. What counts as a safe run, and the terms claims are stated in: the invariant of the block, quiet stretches of the scheduler, the stored bytes. -/

namespace Sys2Proof.Machine

/-! ## The invariant -/

/-- What holds of the bus at every step boundary: the store and the queue keep their form, WAITCNT's reserved bits read
zero (R101), no callback is running (R416), the capacity is kept (R410). -/
structure Bus.Inv (b : Bus) : Prop where
  memory : Memory.wf b.mem = true
  reserved13 : b.waitcnt.getLsbD 13 = false
  reserved15 : b.waitcnt.getLsbD 15 = false
  idle : b.running = none
  order : b.queue.Pairwise fun e f => e.seq < f.seq
  fresh : ∀ e ∈ b.queue, e.seq < b.nextSeq
  capacity : b.queue.length ≤ b.params.schedCapacity

/-- What holds of the machine at every step boundary where it is not faulted: the cursor is aligned to the width (R47,
R84), no flow report is left over (R151), and staged halfwords stand zero-extended (R41). -/
structure State.Inv (s : State) : Prop where
  bus : s.bus.Inv
  running : s.faulted = none
  sequential : s.flow = none
  aligned : alignTo s.width s.pipe.cursor = s.pipe.cursor
  halfwords : s.cpsr.t = true → s.pipe.decoded.toNat < 2 ^ 16 ∧ s.pipe.fetched.toNat < 2 ^ 16

/-! ## Quiet stretches -/

/-- No pending event comes due within `n` cycles, so that an `Advance` by at most `n` calls no callback (R415, R416). -/
def Bus.Quiet (b : Bus) (n : Nat) : Prop := ∀ e ∈ b.queue, b.ts + n < e.time

/-- No pending event comes due within `n` data accesses, whatever they cost, so that they call no callback. -/
def Bus.QuietFor (b : Bus) (n : Nat) : Prop := b.Quiet (maxDataCost b.params * n)

/-- `DEVICE` does nothing for these calls, whatever its answers were before (R9, R81, R94). -/
def SilentCalls (calls : List DeviceCall) : Prop := ∀ c ∈ calls, ∀ draw, Config.device draw c = []

/-- `DEVICE` does nothing for a store of width `w` at `a`: no intercept that it calls has an effect (R89, R94). -/
def Bus.Silent (b : Bus) (a : Word) (w : Width) : Prop := ∀ v, SilentCalls (b.valueWrite a w v).1

/-- `DEVICE` does nothing for a read of width `w` at `a` (R81). -/
def Bus.Calm (b : Bus) (a : Word) (w : Width) : Prop := SilentCalls (b.readCalls a w)

/-- The bus after a data read for which `DEVICE` does nothing and no callback is due: what the read's value part leaves,
and the trackers (R51, R103, R106, R108). -/
def Bus.readResult (b : Bus) (a : Word) (w : Width) (block : Bool) : Bus :=
  { (b.valueRead a w).2 with
    draws := (b.valueRead a w).2.draws + (b.readCalls a w).length
    last := some { kind := .data, addr := alignTo w a, width := w }
    pfValid := false
    acc := b.acc + b.costAt .data a w block
    ts := b.ts + b.costAt .data a w block
    trace := b.trace ++
      [{ master := .core, write := false, kind := .data, addr := shownAddr b.params a w, width := w, value := (b.valueRead a w).1,
         sequential := b.sequential .data (alignTo w a) block, cost := b.costAt .data a w block }] }

/-- The bus after a store for which `DEVICE` does nothing and no callback is due: what its value part leaves, and the
trackers. -/
def Bus.writeResult (b : Bus) (a : Word) (w : Width) (v : Word) (block : Bool) : Bus :=
  { (b.valueWrite a w v).2 with
    draws := b.draws + (b.valueWrite a w v).1.length
    last := some { kind := .data, addr := alignTo w a, width := w }
    pfValid := false
    acc := b.acc + b.costAt .data a w block
    ts := b.ts + b.costAt .data a w block
    trace := b.trace ++
      [{ master := .core, write := true, kind := .data, addr := shownAddr b.params a w, width := w, value := shownValue b.params a w v,
         sequential := b.sequential .data (alignTo w a) block, cost := b.costAt .data a w block }] }

/-- The words of `n` loads at ascending addresses and the bus after them; every load but the first of the transfer is a
block access (R103, R260). -/
def Bus.readBlock (b : Bus) (n : Nat) (a : Word) (block : Bool) : List Word × Bus :=
  match n with
  | 0 => ([], b)
  | n + 1 =>
    ((b.valueRead a .word).1 :: ((b.readResult a .word block).readBlock n (a + 4#32) true).1,
      ((b.readResult a .word block).readBlock n (a + 4#32) true).2)

/-- The bus after the stores of `vals` at ascending addresses. -/
def Bus.writeBlock (b : Bus) (vals : List Word) (a : Word) (block : Bool) : Bus :=
  match vals with
  | [] => b
  | v :: vals => (b.writeResult a .word v block).writeBlock vals (a + 4#32) true

/-- `DEVICE` does nothing for `n` word stores at ascending addresses from `a`. -/
def Bus.SilentBlock (b : Bus) (a : Word) (n : Nat) : Prop := ∀ k < n, b.Silent (a + BitVec.ofNat 32 (4 * k)) .word

/-- `DEVICE` does nothing for `n` word reads at ascending addresses from `a`. -/
def Bus.CalmBlock (b : Bus) (a : Word) (n : Nat) : Prop := ∀ k < n, b.Calm (a + BitVec.ofNat 32 (4 * k)) .word

/-! ## Stored bytes -/

/-- The store addresses that a store of width `w` at `a` writes: none outside the writable regions and past a size
(R73, R74, R86); for a video byte under `hw` the enclosing halfword, or nothing (R88). -/
def Bus.storedCells (b : Bus) (a : Word) (w : Width) : List Nat :=
  match regionOf b.params (alignTo w a) with
  | none => []
  | some r =>
    let off := regionOffset b.params r (alignTo w a)
    if pastSize b.params r (alignTo w a) w = true ∨ regionWritable b.params r = false then []
    else if b.params.videoByteWrite = .hw ∧ isVideoByte r w = true then
      if r = .palette ∨ (r = .vram ∧ off < 0x10000) then [storeBase r + off / 2 * 2, storeBase r + off / 2 * 2 + 1] else []
    else (List.range (widthBytes w)).map (storeBase r + off + ·)

/-- The byte a store address holds (R77, R87). -/
def State.cell (s : State) (k : Nat) : Byte := storeByte s.bus.mem k

/-- The word of the store addresses `k` to `k + 3`, little-endian (R76, R77). -/
def State.cellWord (s : State) (k : Nat) : Word := storeRead s.bus.mem k .word

end Sys2Proof.Machine
end

