-- ==== Sys2Proof/Certificates/Slice0/Obligations.lean ====
section
/-! DEFINITION. The statements for the provers, and the terms they are written in. -/

namespace Sys2Proof.Claims

open Sys2Proof.Machine

/-! ## Data processing, in the terms of spec R180 to R206 -/

/-- The sixteen operations (R131). -/
inductive DpOp where
  | and | eor | sub | rsb | add | adc | sbc | rsc | tst | teq | cmp | cmn | orr | mov | bic | mvn
  deriving DecidableEq, Repr

/-- The three forms of the second operand (A1, A2, A3). -/
inductive Operand2 where
  | imm (rot : BitVec 4) (i : BitVec 8)
  | immShift (n : BitVec 5) (sh : ShiftKind) (rm : Reg)
  | regShift (rs : Reg) (sh : ShiftKind) (rm : Reg)
  deriving DecidableEq, Repr

/-- The instruction of an operation and a second operand; the compares have no S, MOV and MVN no Rn. -/
def dpInstr (op : DpOp) (o : Operand2) (c : Cond) (sf : Bool) (rn rd : Reg) : Instr :=
  match op, o with
  | .and, .imm rot i => .andImm c sf rn rd rot i
  | .and, .immShift n sh rm => .andImmShift c sf rn rd n sh rm
  | .and, .regShift rs sh rm => .andRegShift c sf rn rd rs sh rm
  | .eor, .imm rot i => .eorImm c sf rn rd rot i
  | .eor, .immShift n sh rm => .eorImmShift c sf rn rd n sh rm
  | .eor, .regShift rs sh rm => .eorRegShift c sf rn rd rs sh rm
  | .sub, .imm rot i => .subImm c sf rn rd rot i
  | .sub, .immShift n sh rm => .subImmShift c sf rn rd n sh rm
  | .sub, .regShift rs sh rm => .subRegShift c sf rn rd rs sh rm
  | .rsb, .imm rot i => .rsbImm c sf rn rd rot i
  | .rsb, .immShift n sh rm => .rsbImmShift c sf rn rd n sh rm
  | .rsb, .regShift rs sh rm => .rsbRegShift c sf rn rd rs sh rm
  | .add, .imm rot i => .addImm c sf rn rd rot i
  | .add, .immShift n sh rm => .addImmShift c sf rn rd n sh rm
  | .add, .regShift rs sh rm => .addRegShift c sf rn rd rs sh rm
  | .adc, .imm rot i => .adcImm c sf rn rd rot i
  | .adc, .immShift n sh rm => .adcImmShift c sf rn rd n sh rm
  | .adc, .regShift rs sh rm => .adcRegShift c sf rn rd rs sh rm
  | .sbc, .imm rot i => .sbcImm c sf rn rd rot i
  | .sbc, .immShift n sh rm => .sbcImmShift c sf rn rd n sh rm
  | .sbc, .regShift rs sh rm => .sbcRegShift c sf rn rd rs sh rm
  | .rsc, .imm rot i => .rscImm c sf rn rd rot i
  | .rsc, .immShift n sh rm => .rscImmShift c sf rn rd n sh rm
  | .rsc, .regShift rs sh rm => .rscRegShift c sf rn rd rs sh rm
  | .tst, .imm rot i => .tstImm c rn rd rot i
  | .tst, .immShift n sh rm => .tstImmShift c rn rd n sh rm
  | .tst, .regShift rs sh rm => .tstRegShift c rn rd rs sh rm
  | .teq, .imm rot i => .teqImm c rn rd rot i
  | .teq, .immShift n sh rm => .teqImmShift c rn rd n sh rm
  | .teq, .regShift rs sh rm => .teqRegShift c rn rd rs sh rm
  | .cmp, .imm rot i => .cmpImm c rn rd rot i
  | .cmp, .immShift n sh rm => .cmpImmShift c rn rd n sh rm
  | .cmp, .regShift rs sh rm => .cmpRegShift c rn rd rs sh rm
  | .cmn, .imm rot i => .cmnImm c rn rd rot i
  | .cmn, .immShift n sh rm => .cmnImmShift c rn rd n sh rm
  | .cmn, .regShift rs sh rm => .cmnRegShift c rn rd rs sh rm
  | .orr, .imm rot i => .orrImm c sf rn rd rot i
  | .orr, .immShift n sh rm => .orrImmShift c sf rn rd n sh rm
  | .orr, .regShift rs sh rm => .orrRegShift c sf rn rd rs sh rm
  | .mov, .imm rot i => .movImm c sf rd rot i
  | .mov, .immShift n sh rm => .movImmShift c sf rd n sh rm
  | .mov, .regShift rs sh rm => .movRegShift c sf rd rs sh rm
  | .bic, .imm rot i => .bicImm c sf rn rd rot i
  | .bic, .immShift n sh rm => .bicImmShift c sf rn rd n sh rm
  | .bic, .regShift rs sh rm => .bicRegShift c sf rn rd rs sh rm
  | .mvn, .imm rot i => .mvnImm c sf rd rot i
  | .mvn, .immShift n sh rm => .mvnImmShift c sf rd n sh rm
  | .mvn, .regShift rs sh rm => .mvnRegShift c sf rd rs sh rm

/-- A register read in a form whose shift amount comes from a register: R15 is A + 12 (R184). -/
def lateRead (s : State) (r : Reg) : Word := if r = 15#4 then s.here + 12#32 else s.reg r

/-- The first operand (R184). -/
def Operand2.first (o : Operand2) (s : State) (rn : Reg) : Word :=
  match o with
  | .regShift _ _ _ => lateRead s rn
  | _ => s.reg rn

/-- The second operand and its shifter carry (R181 to R184). -/
def Operand2.eval (o : Operand2) (s : State) : Shifted :=
  match o with
  | .imm rot i => immOperand rot i s.cpsr.c
  | .immShift n sh rm => Machine.immShift sh (s.reg rm) n s.cpsr.c
  | .regShift rs sh rm => Machine.regShift sh (lateRead s rm) ((s.reg rs).setWidth 8) s.cpsr.c

/-- Rs = 15 is not allowed (R184). -/
def Operand2.legal : Operand2 → Prop
  | .regShift rs _ _ => rs ≠ 15#4
  | _ => True

/-- The result of an operation on `n` and `o` with the carry flag `c`, as arithmetic on words (R188 to R203). -/
def dpResult (op : DpOp) (n o : Word) (c : Bool) : Word :=
  match op with
  | .and | .tst => n &&& o
  | .eor | .teq => n ^^^ o
  | .orr => n ||| o
  | .mov => o
  | .bic => n &&& ~~~o
  | .mvn => ~~~o
  | .add | .cmn => n + o
  | .adc => n + o + (if c then 1#32 else 0#32)
  | .sub | .cmp => n - o
  | .sbc => n - o - (if c then 0#32 else 1#32)
  | .rsb => o - n
  | .rsc => o - n - (if c then 0#32 else 1#32)

/-- The carry of an operation: the shifter's for the logical ones, the carry out of an addition, the NOT borrow of a
subtraction (R185, R186). -/
def dpCarry (op : DpOp) (n o : Word) (c sc : Bool) : Bool :=
  match op with
  | .add | .cmn => decide (2 ^ 32 ≤ n.toNat + o.toNat)
  | .adc => decide (2 ^ 32 ≤ n.toNat + o.toNat + c.toNat)
  | .sub | .cmp => decide (o.toNat ≤ n.toNat)
  | .sbc => decide (o.toNat + (!c).toNat ≤ n.toNat)
  | .rsb => decide (n.toNat ≤ o.toNat)
  | .rsc => decide (n.toNat + (!c).toNat ≤ o.toNat)
  | _ => sc

/-- The overflow of an operation: unchanged for the logical ones; for the rest, the signs of the two addends agree and
the sign of the result differs from them (R185, R186). -/
def dpOverflow (op : DpOp) (n o : Word) (c v : Bool) : Bool :=
  let r := dpResult op n o c
  match op with
  | .add | .cmn | .adc => n.msb == o.msb && r.msb != n.msb
  | .sub | .cmp | .sbc => n.msb == !o.msb && r.msb != n.msb
  | .rsb | .rsc => o.msb == !n.msb && r.msb != o.msb
  | _ => v

/-- CPSR after a flag-setting operation: N, Z, C and V, the rest unchanged (R186). -/
def dpFlags (op : DpOp) (p : Cpsr) (n : Word) (o : Shifted) : Cpsr :=
  { p with
    n := (dpResult op n o.value p.c).msb
    z := dpResult op n o.value p.c == 0#32
    c := dpCarry op n o.value p.c o.carry
    v := dpOverflow op n o.value p.c p.v }

/-- The operations without a destination (R196 to R199). -/
def DpOp.compares (op : DpOp) : Bool := op == .tst || op == .teq || op == .cmp || op == .cmn

/-- The state after an operation that writes Rd, not R15: Rd, and with S = 1 the flags; nothing else changes (R187). -/
def dpDone (op : DpOp) (o : Operand2) (sf : Bool) (rn rd : Reg) (s : State) : State :=
  { s.setReg rd (dpResult op (o.first s rn) (o.eval s).value s.cpsr.c) with
    cpsr := if sf then dpFlags op s.cpsr (o.first s rn) (o.eval s) else s.cpsr }

/-- What the operations with a destination do when they write R0 to R14. -/
def DpWrites (op : DpOp) : Prop :=
  ∀ (o : Operand2) (c : Cond) (sf : Bool) (rn rd : Reg) (s : State), Cond.passes c s.cpsr = true → o.legal → rd ≠ 15#4 →
    exec (dpInstr op o c sf rn rd) s = .next (dpDone op o sf rn rd s)

/-! ## Status registers -/

/-- CPSR with N, Z, C, V, Q from bits 31:27 where the field mask selects the flags byte (R221). -/
def msrFlags (p : Cpsr) (mask : BitVec 4) (v : Word) : Cpsr :=
  if mask.getLsbD 3 then
    { p with n := v.getLsbD 31, z := v.getLsbD 30, c := v.getLsbD 29, v := v.getLsbD 28, q := v.getLsbD 27 }
  else p

/-- What an MSR of the value `v` to CPSR does: in User mode, and without the control byte, the flags byte alone; in a
privileged mode with the control byte, I, F and a mode as well, where the value is a mode and keeps T (R221). -/
def MsrWritesCpsrAs (i : Instr) (c : Cond) (mask : BitVec 4) (v : State → Word) : Prop :=
  ∀ s : State, Cond.passes c s.cpsr = true →
    ((mask.getLsbD 0 = false ∨ s.cpsr.mode = .usr) → exec i s = .next { s with cpsr := msrFlags s.cpsr mask (v s) }) ∧
    ∀ m : Mode, mask.getLsbD 0 = true → s.cpsr.mode ≠ .usr → (v s).extractLsb' 0 5 = m.bits → (v s).getLsbD 5 = s.cpsr.t →
      exec i s =
        .next { s with
          cpsr := { msrFlags s.cpsr mask (v s) with i := (v s).getLsbD 7, f := (v s).getLsbD 6, mode := m } }

/-- A saved status register after an MSR: the flags byte and the control byte where the mask selects them (R222). -/
def msrSaved (p : Psr) (mask : BitVec 4) (v : Word) : Psr where
  n := if mask.getLsbD 3 then v.getLsbD 31 else p.n
  z := if mask.getLsbD 3 then v.getLsbD 30 else p.z
  c := if mask.getLsbD 3 then v.getLsbD 29 else p.c
  v := if mask.getLsbD 3 then v.getLsbD 28 else p.v
  q := if mask.getLsbD 3 then v.getLsbD 27 else p.q
  i := if mask.getLsbD 0 then v.getLsbD 7 else p.i
  f := if mask.getLsbD 0 then v.getLsbD 6 else p.f
  t := if mask.getLsbD 0 then v.getLsbD 5 else p.t
  m := if mask.getLsbD 0 then v.extractLsb' 0 5 else p.m

/-! ## Multiplies -/

/-- The state after MUL or MLA of result `r`: Rd, and with S = 1 N and Z of the result and a drawn C (R230). -/
def mulDone (s : State) (sf : Bool) (rd : Reg) (r : Word) : State :=
  if sf then
    { s.setReg rd r with
      cpsr := { s.cpsr with n := r.msb, z := r == 0#32, c := Config.drawFlag s.draws }
      draws := s.draws + 1 }
  else s.setReg rd r

/-- The state after a long multiply of result `r`: RdLo, RdHi, and with S = 1 N and Z of the result and drawn C and V
(R230). -/
def mulLongDone (s : State) (sf : Bool) (rdHi rdLo : Reg) (r : BitVec 64) : State :=
  let s1 := (s.setReg rdLo (r.setWidth 32)).setReg rdHi ((r >>> 32).setWidth 32)
  if sf then
    { s1 with
      cpsr := { s.cpsr with
        n := r.msb
        z := r == 0#64
        c := Config.drawFlag s.draws
        v := Config.drawFlag (s.draws + 1) }
      draws := s.draws + 2 }
  else s1

/-- What a long multiply does: its result, and its forbidden register choices (R233). -/
def MulLongAs (mk : Cond → Bool → Reg → Reg → Reg → Reg → Instr) (r : Word → Word → BitVec 64 → BitVec 64) : Prop :=
  ∀ (c : Cond) (sf : Bool) (rdHi rdLo rs rm : Reg) (s : State), Cond.passes c s.cpsr = true →
    (rdHi ≠ 15#4 → rdLo ≠ 15#4 → rm ≠ 15#4 → rs ≠ 15#4 → rdHi ≠ rdLo → rdHi ≠ rm → rdLo ≠ rm →
      exec (mk c sf rdHi rdLo rs rm) s =
        .next (mulLongDone s sf rdHi rdLo (r (s.reg rm) (s.reg rs) (s.reg rdHi ++ s.reg rdLo)))) ∧
    (rdHi = 15#4 ∨ rdLo = 15#4 ∨ rm = 15#4 ∨ rs = 15#4 → exec (mk c sf rdHi rdLo rs rm) s = .fault .r15Operand) ∧
    (rdHi ≠ 15#4 → rdLo ≠ 15#4 → rm ≠ 15#4 → rs ≠ 15#4 → rdHi = rdLo ∨ rdHi = rm ∨ rdLo = rm →
      exec (mk c sf rdHi rdLo rs rm) s = .fault .registerClash)

/-! ## Single transfers, in the terms of R240 to R254 -/

/-- The base plus or minus the offset (R240). -/
def movedBase (u : Bool) (base off : Word) : Word := if u then base + off else base - off

/-- The address of a single transfer (R240). -/
def transferAt (p u : Bool) (base off : Word) : Word := if p then movedBase u base off else base

/-- The state after a load of `v` from address `addr`: the base where it is written back and is not Rd, then Rd, on the
bus that one data read of width `wd` leaves (R240, R251). -/
def loadDone (s : State) (p u w : Bool) (rn rd : Reg) (off addr : Word) (wd : Width) (v : Word) : State :=
  let s1 := s.withBus (s.bus.readResult addr wd false)
  (if (p = false ∨ w = true) ∧ rn ≠ rd then s1.setReg rn (movedBase u (s.reg rn) off) else s1).setReg rd v

/-- What a load does where `DEVICE` does nothing for it and no callback is due, its value made by `shape` from the address and the value the bus reads. -/
def LoadsAs (i : Instr) (c : Cond) (p u w : Bool) (rn rd : Reg) (off : State → Word) (wd : Word → Width)
    (shape : Word → Word → Word) : Prop :=
  ∀ s : State, Cond.passes c s.cpsr = true → s.bus.QuietFor 1 → (p = false ∨ w = true → rn ≠ 15#4) →
    let addr := transferAt p u (s.reg rn) (off s)
    s.bus.Calm addr (wd addr) →
    exec i s = .next (loadDone s p u w rn rd (off s) addr (wd addr) (shape addr (s.bus.valueRead addr (wd addr)).1))

/-- What a store of `val` does where `DEVICE` does nothing for it and no callback is due: one data write, then the write-back (R240, R243). -/
def StoresAs (i : Instr) (c : Cond) (p u w : Bool) (rn : Reg) (off : State → Word) (wd : Width) (val : State → Word) : Prop :=
  ∀ s : State, Cond.passes c s.cpsr = true → s.bus.QuietFor 1 → (p = false ∨ w = true → rn ≠ 15#4) →
    let addr := transferAt p u (s.reg rn) (off s)
    s.bus.Silent addr wd →
    let s1 := s.withBus (s.bus.writeResult addr wd (val s) false)
    exec i s = .next (if p = false ∨ w = true then s1.setReg rn (movedBase u (s.reg rn) (off s)) else s1)

/-- A word load's value: the aligned word rotated right by 8 for each byte of misalignment (R242). -/
def rotated (a v : Word) : Word := v.rotateRight (8 * (a.toNat % 4))

/-- LDR's value for register `rd`: a word loaded to R15 loses its low two bits (R241). -/
def rotatedFor (rd : Reg) (a v : Word) : Word := if rd = 15#4 then rotated a v &&& 0xFFFFFFFC#32 else rotated a v

/-- LDRH's value: at an odd address the halfword rotated right by 8 (R247, R252). -/
def halfValue (a v : Word) : Word := if a.getLsbD 0 then v.rotateRight 8 else v

/-- LDRSB's value (R249). -/
def signedByte (_a v : Word) : Word := (v.setWidth 8).signExtend 32

/-- The width LDRSH reads: a byte at an odd address (R252). -/
def signedHalfWidth (a : Word) : Width := if a.getLsbD 0 then .byte else .half

/-- LDRSH's value (R250, R252). -/
def signedHalf (a v : Word) : Word := if a.getLsbD 0 then (v.setWidth 8).signExtend 32 else (v.setWidth 16).signExtend 32

/-- The offset of A14: Rm shifted by an immediate (R240). -/
def shiftedOffset (n : BitVec 5) (sh : ShiftKind) (rm : Reg) (s : State) : Word := (immShift sh (s.reg rm) n s.cpsr.c).value

/-- A store's value: R15 is stored as A + 12 (R243). -/
def storedWord (rd : Reg) (s : State) : Word := if rd = 15#4 then s.here + 12#32 else s.reg rd

/-- The word transfers with an immediate offset; the translated ones have P = 0. -/
def wordImms (c : Cond) (p u w : Bool) (rn rd : Reg) (off : BitVec 12) : List Instr :=
  [.ldrImm c p u w rn rd off, .strImm c p u w rn rd off] ++
    if p then [] else [.ldrtImm c u rn rd off, .strtImm c u rn rd off]

/-- The byte transfers with an immediate offset. -/
def byteImms (c : Cond) (p u w : Bool) (rn rd : Reg) (off : BitVec 12) : List Instr :=
  [.ldrbImm c p u w rn rd off, .strbImm c p u w rn rd off] ++
    if p then [] else [.ldrbtImm c u rn rd off, .strbtImm c u rn rd off]

/-- The word transfers with a register offset. -/
def wordRegs (c : Cond) (p u w : Bool) (rn rd : Reg) (n : BitVec 5) (sh : ShiftKind) (rm : Reg) : List Instr :=
  [.ldrReg c p u w rn rd n sh rm, .strReg c p u w rn rd n sh rm] ++
    if p then [] else [.ldrtReg c u rn rd n sh rm, .strtReg c u rn rd n sh rm]

/-- The byte transfers with a register offset. -/
def byteRegs (c : Cond) (p u w : Bool) (rn rd : Reg) (n : BitVec 5) (sh : ShiftKind) (rm : Reg) : List Instr :=
  [.ldrbReg c p u w rn rd n sh rm, .strbReg c p u w rn rd n sh rm] ++
    if p then [] else [.ldrbtReg c u rn rd n sh rm, .strbtReg c u rn rd n sh rm]

/-- The halfword and signed transfers with an immediate offset. -/
def halfImms (c : Cond) (p u w : Bool) (rn rd : Reg) (immH immL : BitVec 4) : List Instr :=
  [.ldrhImm c p u w rn rd immH immL, .ldrsbImm c p u w rn rd immH immL, .ldrshImm c p u w rn rd immH immL,
    .strhImm c p u w rn rd immH immL]

/-- The halfword and signed transfers with a register offset. -/
def halfRegs (c : Cond) (p u w : Bool) (rn rd rm : Reg) : List Instr :=
  [.ldrhReg c p u w rn rd rm, .ldrsbReg c p u w rn rd rm, .ldrshReg c p u w rn rd rm, .strhReg c p u w rn rd rm]

/-! ## Block transfers, in the terms of R260 to R267 -/

/-- The bytes the base moves by: four a register, 0x40 for an empty list (R260, R261). -/
def listSize (regs : List Reg) : Word := if regs = [] then 0x40#32 else BitVec.ofNat 32 (4 * regs.length)

/-- The first address: IA, IB, DA, DB (R260). -/
def listStart (p u : Bool) (base : Word) (regs : List Reg) : Word :=
  match u, p with
  | true, false => base
  | true, true => base + 4#32
  | false, false => base - listSize regs + 4#32
  | false, true => base - listSize regs

/-- The new base (R260). -/
def listBase (u : Bool) (base : Word) (regs : List Reg) : Word :=
  if u then base + listSize regs else base - listSize regs

/-- The registers moved: R15 for an empty list (R261). -/
def moved (regs : List Reg) : List Reg := if regs = [] then [15#4] else regs

/-- The registers of a list written with the words loaded for them, as mode `m` sees them; R15 takes its word under
`mask` as a flow report (R262). -/
def loadedRegs (m : Mode) (mask : Word) (s : State) (regs : List Reg) (words : List Word) : State :=
  (regs.zip words).foldl (fun t x => t.setXm m x.1 (if x.1 = 15#4 then x.2 &&& mask else x.2)) s

/-- The write-back of a block load: dropped where the base is in the list (R262, R265). -/
def basedLoad (s : State) (w : Bool) (rn : Reg) (regs : List Reg) (nb : Word) : State :=
  if w = true ∧ rn ∉ regs then s.setReg rn nb else s

/-- The instructions that access memory: A9, A11 to A14, A16, T6 to T11, T14, T15. -/
def transfers (i : Instr) : Bool :=
  i.armCategory ∈ [some .swap, some .halfword, some .singleTransfer, some .blockTransfer] ||
    i.thumbFormat ∈ [some .t6, some .t7, some .t8, some .t9, some .t10, some .t11, some .t14, some .t15]

/-- The instructions that draw a flag: A7, A8 and Thumb MUL. -/
def multiplies (i : Instr) : Bool :=
  match i with
  | .tMul _ _ => true
  | _ => i.armCategory == some .multiply || i.armCategory == some .multiplyLong

/-! ## Exceptions -/

/-- The state after an exception entry: the old CPSR in the new mode's SPSR, the link in its R14, the new mode, ARM
state, IRQ masked, the flags, Q and F as they were, the flow report to the vector (R390). -/
def entered (s : State) (m : Mode) (vector lr : Word) : State :=
  ((({ s with cpsr := { s.cpsr with mode := m, t := false, i := true } } : State).setSpsr m s.cpsr.save).setXm m 14#4
    lr).branch vector

/-- The address of the next instruction: A + 4 in ARM state, A + 2 in Thumb state (R391). -/
def linkValue (s : State) : Word := s.here + (if s.cpsr.t then 2#32 else 4#32)

/-! ## Thumb -/

/-- The state after a Thumb operation with result `r` and flags: Rd, N, Z, C, V, nothing else (R300 to R326). -/
def thumbDone (s : State) (rd : LowReg) (r : Word) (c v : Bool) : State :=
  { s.setReg rd.reg r with cpsr := { s.cpsr with n := r.msb, z := r == 0#32, c := c, v := v } }

/-- The state after a Thumb compare of result `r`: the flags alone (R308). -/
def thumbCompared (s : State) (r : Word) (c v : Bool) : State :=
  { s with cpsr := { s.cpsr with n := r.msb, z := r == 0#32, c := c, v := v } }

/-- The overflow of an addition of `a`, `b` and a carry in, with result `r` (R185). -/
def overflowed (a b r : Word) : Bool := a.msb == b.msb && r.msb != a.msb

/-- The register `H : R` (R327). -/
def highReg (h : Bool) (r : LowReg) : Reg := BitVec.ofNat 4 (8 * h.toNat + r.toNat)

/-- What a Thumb load does where `DEVICE` does nothing for it and no callback is due. -/
def ThumbLoadsAs (i : Instr) (rd : LowReg) (addr : State → Word) (wd : Word → Width) (shape : Word → Word → Word) : Prop :=
  ∀ s : State, s.bus.QuietFor 1 → s.bus.Calm (addr s) (wd (addr s)) →
    exec i s =
      .next ((s.withBus (s.bus.readResult (addr s) (wd (addr s)) false)).setReg rd.reg
        (shape (addr s) (s.bus.valueRead (addr s) (wd (addr s))).1))

/-- What a Thumb store does where `DEVICE` does nothing for it and no callback is due. -/
def ThumbStoresAs (i : Instr) (rd : LowReg) (addr : State → Word) (wd : Width) : Prop :=
  ∀ s : State, s.bus.QuietFor 1 → s.bus.Silent (addr s) wd →
    exec i s = .next (s.withBus (s.bus.writeResult (addr s) wd (s.reg rd.reg) false))

/-- The value as it is read: no shaping. -/
def asRead (_a v : Word) : Word := v

/-- The registers of a PUSH or POP (R360, R361). -/
def stackList (r : Bool) (extra : Reg) (list : BitVec 8) : List Reg := if r then lowRegsOf list ++ [extra] else lowRegsOf list

end Sys2Proof.Claims

open Sys2Proof Sys2Proof.Machine Sys2Proof.Claims

/-! ## Encoding and decoding -/

/-- Words written out from the spec's encodings decode to the instructions they stand for (95_test_vectors.md, and the
examples of the rules). -/
def Obligations.KnownWordsDecode : Prop :=
  decodeArm 0xE20100FF#32 = .andImm .al false 1#4 0#4 0#4 0xFF#8 ∧
  decodeArm 0xE0210002#32 = .eorImmShift .al false 1#4 0#4 0#5 .lsl 2#4 ∧
  decodeArm 0xE1B0F00E#32 = .movImmShift .al true 15#4 0#5 .lsl 14#4 ∧
  decodeArm 0xE25EF004#32 = .subImm .al true 14#4 15#4 0#4 4#8 ∧
  decodeArm 0xE0C10392#32 = .smull .al false 1#4 0#4 3#4 2#4 ∧
  decodeArm 0xE1420091#32 = .swpb .al 2#4 0#4 1#4 ∧
  decodeArm 0xEA000002#32 = .b .al 2#24 ∧
  decodeArm 0xF0000000#32 = .cond1111 0#28 ∧
  decodeThumb 0x1888#16 = .tAddReg 2#3 1#3 0#3 ∧
  decodeThumb 0x4480#16 = .tAddHi true false 0#3 0#3 ∧
  decodeThumb 0x4700#16 = .tBx false false 0#3 ∧
  decodeThumb 0x4901#16 = .tLdrPc 1#3 1#8 ∧
  decodeThumb 0xB510#16 = .tPush true 0x10#8 ∧
  decodeThumb 0xDF05#16 = .tSwi 5#8 ∧
  decodeThumb 0xF001#16 = .tBlPrefix 1#11

/-- Every word and every halfword decodes to a well-formed instruction. -/
def Obligations.EveryWordDecodesWellFormed : Prop := ∀ code : Code, (decodeCode code).wf = true

/-- The decoder reads back every well-formed instruction from its own encoding, every operand at every value. -/
def Obligations.DecodeInvertsEncode : Prop := ∀ i : Instr, i.wf = true → decodeCode (encode i) = i

/-- An ARM word whose condition is not 1111 decodes to an instruction of the category that the reference classifier
gives the word (R144). -/
def Obligations.ArmDecoderFollowsClassifier : Prop :=
  ∀ w : BitVec 32, w.extractLsb' 28 4 ≠ 15#4 → (decodeArm w).armCategory = some (armClassify w)

/-- Every Thumb halfword decodes to an instruction of the format that the reference classifier gives it (R146). -/
def Obligations.ThumbDecoderFollowsClassifier : Prop :=
  ∀ h : BitVec 16, (decodeThumb h).thumbFormat = some (thumbClassify h)

/-- A table over the reduced keys of R143 gives, for every instruction word, what the reference classifier gives
(R147). -/
def Obligations.ReducedKeyDecidesCategory : Prop :=
  (∃ table : BitVec 12 → ArmCategory, ∀ w : BitVec 32, table (armKey w) = armClassify w) ∧
    ∃ table : BitVec 8 → ThumbFormat, ∀ h : BitVec 16, table (thumbKey h) = thumbClassify h

/-! ## Conditions -/

/-- The condition table: the code of every condition and when it passes (R140). -/
def Obligations.ConditionTable : Prop :=
  ∀ p : Cpsr,
    (Cond.ofCode 0 = some .eq ∧ (Cond.passes .eq p = true ↔ p.z = true)) ∧
    (Cond.ofCode 1 = some .ne ∧ (Cond.passes .ne p = true ↔ p.z = false)) ∧
    (Cond.ofCode 2 = some .cs ∧ (Cond.passes .cs p = true ↔ p.c = true)) ∧
    (Cond.ofCode 3 = some .cc ∧ (Cond.passes .cc p = true ↔ p.c = false)) ∧
    (Cond.ofCode 4 = some .mi ∧ (Cond.passes .mi p = true ↔ p.n = true)) ∧
    (Cond.ofCode 5 = some .pl ∧ (Cond.passes .pl p = true ↔ p.n = false)) ∧
    (Cond.ofCode 6 = some .vs ∧ (Cond.passes .vs p = true ↔ p.v = true)) ∧
    (Cond.ofCode 7 = some .vc ∧ (Cond.passes .vc p = true ↔ p.v = false)) ∧
    (Cond.ofCode 8 = some .hi ∧ (Cond.passes .hi p = true ↔ p.c = true ∧ p.z = false)) ∧
    (Cond.ofCode 9 = some .ls ∧ (Cond.passes .ls p = true ↔ p.c = false ∨ p.z = true)) ∧
    (Cond.ofCode 10 = some .ge ∧ (Cond.passes .ge p = true ↔ p.n = p.v)) ∧
    (Cond.ofCode 11 = some .lt ∧ (Cond.passes .lt p = true ↔ p.n ≠ p.v)) ∧
    (Cond.ofCode 12 = some .gt ∧ (Cond.passes .gt p = true ↔ p.z = false ∧ p.n = p.v)) ∧
    (Cond.ofCode 13 = some .le ∧ (Cond.passes .le p = true ↔ p.z = true ∨ p.n ≠ p.v)) ∧
    (Cond.ofCode 14 = some .al ∧ Cond.passes .al p = true) ∧
    Cond.ofCode 15 = none

/-- An instruction whose condition fails changes nothing and reports no flow; every instruction with a condition field
(R139). -/
def Obligations.FailedConditionHasNoEffect : Prop :=
  ∀ (i : Instr) (c : Cond) (s : State), condOf i = some c → Cond.passes c s.cpsr = false → exec i s = .next s

/-- An ARM word with bits 31:28 all ones is a fault, whatever its other bits and the state (R141). -/
def Obligations.ConditionNeverFaults : Prop :=
  ∀ (w : BitVec 32) (s : State), w.extractLsb' 28 4 = 15#4 → exec (decodeArm w) s = .fault .conditionNever

/-! ## Registers -/

/-- Two modes see the same physical register at an index iff it is private to neither, or they are one mode, or both are
User or System; two indices of one mode never name one register (R25). -/
def Obligations.BankSharing : Prop :=
  (Mode.usr.firstPrivate = 16 ∧ Mode.sys.firstPrivate = 16 ∧ Mode.fiq.firstPrivate = 8 ∧ Mode.svc.firstPrivate = 13 ∧
    Mode.abt.firstPrivate = 13 ∧ Mode.irq.firstPrivate = 13 ∧ Mode.und.firstPrivate = 13) ∧
  ∀ (m1 m2 : Mode) (r1 r2 : Reg), r1 ≠ 15#4 → r2 ≠ 15#4 →
    (physIndex m1 r1 = physIndex m2 r2 ↔
      r1 = r2 ∧ ((r1.toNat < m1.firstPrivate ∧ r1.toNat < m2.firstPrivate) ∨ m1 = m2 ∨
        ((m1 = .usr ∨ m1 = .sys) ∧ (m2 = .usr ∨ m2 = .sys))))

/-- A write of R13 in FIQ mode is not seen from User or System mode, nor the other way; R8 to R12 are one register to
every mode but FIQ, and FIQ's own are its own (R27). -/
def Obligations.BankIsolation : Prop :=
  ∀ (s : State) (v : Word) (r : Reg) (m m' : Mode), 8 ≤ r.toNat → r.toNat ≤ 12 → m ≠ .fiq → m' ≠ .fiq →
    (s.setXm .fiq 13#4 v).xm m 13#4 = s.xm m 13#4 ∧
    (s.setXm m 13#4 v).xm .fiq 13#4 = s.xm .fiq 13#4 ∧
    (s.setXm m r v).xm m' r = v ∧
    (s.setXm .fiq r v).xm m r = s.xm m r ∧
    (s.setXm m r v).xm .fiq r = s.xm .fiq r

/-- R15 reads as the cursor: A + 8 in ARM state, A + 4 in Thumb state, in every mode; the late reads are A + 12 (R28,
R45, R46). -/
def Obligations.ProgramCounterReads : Prop :=
  ∀ (s : State) (m : Mode),
    s.xm m 15#4 = s.here + (if s.cpsr.t then 4#32 else 8#32) ∧ s.reg 15#4 = s.pipe.cursor ∧
      s.regLate 15#4 = s.here + 12#32

/-! ## Status registers -/

/-- The word of a status register: the flags in bits 31:27, zeros in 26:8, I, F, T and the mode; reading back a written
word gives it without bits 26:8; the mode codes (R30, R35, R37). -/
def Obligations.StatusWordLayout : Prop :=
  (∀ p : Psr, Psr.ofWord p.toWord = p ∧ p.toWord.getLsbD 31 = p.n ∧ p.toWord.getLsbD 30 = p.z ∧ p.toWord.getLsbD 29 = p.c ∧
    p.toWord.getLsbD 28 = p.v ∧ p.toWord.getLsbD 27 = p.q ∧ p.toWord.extractLsb' 8 19 = 0#19 ∧ p.toWord.getLsbD 7 = p.i ∧
    p.toWord.getLsbD 6 = p.f ∧ p.toWord.getLsbD 5 = p.t ∧ p.toWord.extractLsb' 0 5 = p.m) ∧
  (∀ w : Word, (Psr.ofWord w).toWord = w &&& 0xF80000FF#32) ∧
  (Mode.usr.bits = 0b10000#5 ∧ Mode.fiq.bits = 0b10001#5 ∧ Mode.irq.bits = 0b10010#5 ∧ Mode.svc.bits = 0b10011#5 ∧
    Mode.abt.bits = 0b10111#5 ∧ Mode.und.bits = 0b11011#5 ∧ Mode.sys.bits = 0b11111#5) ∧
  (∀ (m : BitVec 5) (md : Mode), Mode.ofBits m = some md ↔ m = md.bits) ∧
  ∀ p : Cpsr, p.save.restore = some p

/-- MRS reads CPSR, or the current SPSR, into a register and changes nothing else (R220). -/
def Obligations.MrsReadsStatus : Prop :=
  ∀ (c : Cond) (rd : Reg) (s : State), Cond.passes c s.cpsr = true → rd ≠ 15#4 →
    exec (.mrs c false rd) s = .next (s.setReg rd s.cpsr.save.toWord) ∧
      ∀ p : Psr, s.spsrOf s.cpsr.mode = some p → exec (.mrs c true rd) s = .next (s.setReg rd p.toWord)

/-- MSR to CPSR, register and immediate: what it writes in User mode and in a privileged mode (R221). -/
def Obligations.MsrWritesCpsr : Prop :=
  (∀ (c : Cond) (mask : BitVec 4) (rm : Reg), rm ≠ 15#4 →
    MsrWritesCpsrAs (.msrCpsrReg c mask rm) c mask fun s => s.reg rm) ∧
  ∀ (c : Cond) (mask rot : BitVec 4) (imm : BitVec 8),
    MsrWritesCpsrAs (.msrCpsrImm c mask rot imm) c mask fun _ => (imm.setWidth 32).rotateRight (2 * rot.toNat)

/-- MSR to the current SPSR, register and immediate, in a mode that has one (R222). -/
def Obligations.MsrWritesSpsr : Prop :=
  ∀ (c : Cond) (mask rot : BitVec 4) (imm : BitVec 8) (rm : Reg) (s : State) (p : Psr), Cond.passes c s.cpsr = true →
    s.spsrOf s.cpsr.mode = some p →
    (rm ≠ 15#4 → exec (.msrSpsrReg c mask rm) s = .next (s.setSpsr s.cpsr.mode (msrSaved p mask (s.reg rm)))) ∧
      exec (.msrSpsrImm c mask rot imm) s =
        .next (s.setSpsr s.cpsr.mode (msrSaved p mask ((imm.setWidth 32).rotateRight (2 * rot.toNat))))

/-- The faults of the status transfers: R15 operands, no SPSR in User and System mode, and, in both operand forms, a
control byte that is no mode or that changes T (R36, R39, R220 to R222). -/
def Obligations.StatusTransferFaults : Prop :=
  ∀ (c : Cond) (mask rot : BitVec 4) (imm : BitVec 8) (rd rm : Reg) (r : Bool) (s : State), Cond.passes c s.cpsr = true →
    let v := (imm.setWidth 32).rotateRight (2 * rot.toNat)
    exec (.mrs c r 15#4) s = .fault .r15Operand ∧
    exec (.msrCpsrReg c mask 15#4) s = .fault .r15Operand ∧
    exec (.msrSpsrReg c mask 15#4) s = .fault .r15Operand ∧
    ((s.cpsr.mode = .usr ∨ s.cpsr.mode = .sys) → rd ≠ 15#4 → rm ≠ 15#4 →
      exec (.mrs c true rd) s = .fault .noSavedStatus ∧ exec (.msrSpsrReg c mask rm) s = .fault .noSavedStatus ∧
        exec (.msrSpsrImm c mask rot imm) s = .fault .noSavedStatus) ∧
    (mask.getLsbD 0 = true → s.cpsr.mode ≠ .usr →
      (rm ≠ 15#4 →
        (Mode.ofBits ((s.reg rm).extractLsb' 0 5) = none → exec (.msrCpsrReg c mask rm) s = .fault .notAMode) ∧
          (Mode.ofBits ((s.reg rm).extractLsb' 0 5) ≠ none → (s.reg rm).getLsbD 5 ≠ s.cpsr.t →
            exec (.msrCpsrReg c mask rm) s = .fault .changesEncoding)) ∧
        (Mode.ofBits (v.extractLsb' 0 5) = none → exec (.msrCpsrImm c mask rot imm) s = .fault .notAMode) ∧
        (Mode.ofBits (v.extractLsb' 0 5) ≠ none → v.getLsbD 5 ≠ s.cpsr.t →
          exec (.msrCpsrImm c mask rot imm) s = .fault .changesEncoding))

/-! ## Data processing -/

/-- The shifter: rotated immediates, and every kind of shift by every amount, value and carry (R181 to R183). -/
def Obligations.ShifterOperands : Prop :=
  (∀ (rot : BitVec 4) (imm : BitVec 8) (c : Bool),
    (∀ k < 32, (immOperand rot imm c).value.getLsbD k = (imm.setWidth 32).getLsbD ((k + 2 * rot.toNat) % 32)) ∧
      (immOperand rot imm c).carry = if rot = 0#4 then c else (immOperand rot imm c).value.msb) ∧
  (∀ (m : Word) (a : BitVec 8) (c : Bool),
    ((regShift .lsl m a c).value.toNat = m.toNat * 2 ^ a.toNat % 2 ^ 32 ∧
      (regShift .lsl m a c).carry = if a = 0#8 then c else decide (a.toNat ≤ 32) && m.getLsbD (32 - a.toNat)) ∧
    ((regShift .lsr m a c).value.toNat = m.toNat / 2 ^ a.toNat ∧
      (regShift .lsr m a c).carry = if a = 0#8 then c else m.getLsbD (a.toNat - 1)) ∧
    ((regShift .asr m a c).value.toInt = m.toInt / 2 ^ a.toNat ∧
      (regShift .asr m a c).carry = if a = 0#8 then c else if a.toNat < 32 then m.getLsbD (a.toNat - 1) else m.msb) ∧
    (∀ k < 32, (regShift .ror m a c).value.getLsbD k = m.getLsbD ((k + a.toNat) % 32)) ∧
      (regShift .ror m a c).carry = if a = 0#8 then c else m.getLsbD ((a.toNat + 31) % 32)) ∧
  ∀ (k : ShiftKind) (m : Word) (n : BitVec 5) (c : Bool),
    (n ≠ 0#5 → immShift k m n c = regShift k m (n.setWidth 8) c) ∧
      immShift .lsl m 0#5 c = ⟨m, c⟩ ∧ immShift .lsr m 0#5 c = regShift .lsr m 32#8 c ∧
      immShift .asr m 0#5 c = regShift .asr m 32#8 c ∧
      (immShift .ror m 0#5 c).value.toNat = c.toNat * 2 ^ 31 + m.toNat / 2 ∧ (immShift .ror m 0#5 c).carry = m.getLsbD 0

/-- AddWithCarry: the sum modulo 2^32, the carry out, the overflow by signs and as a signed sum out of range, and the NOT
borrow of a subtraction (R185). -/
def Obligations.AddWithCarryFlags : Prop :=
  ∀ (p : Cpsr) (a b : Word) (cin : Bool),
    (addWithCarry p a b cin).result.toNat = (a.toNat + b.toNat + cin.toNat) % 2 ^ 32 ∧
    ((addWithCarry p a b cin).flags.c = true ↔ 2 ^ 32 ≤ a.toNat + b.toNat + cin.toNat) ∧
    ((addWithCarry p a b cin).flags.v = true ↔ a.msb = b.msb ∧ (addWithCarry p a b cin).result.msb ≠ a.msb) ∧
    ((addWithCarry p a b cin).flags.v = true ↔
      (addWithCarry p a b cin).result.toInt ≠ a.toInt + b.toInt + (if cin then 1 else 0)) ∧
    ((addWithCarry p a (~~~b) cin).flags.c = true ↔ b.toNat + (if cin then 0 else 1) ≤ a.toNat) ∧
    (addWithCarry p a (~~~b) cin).result = a - b - (if cin then 0#32 else 1#32)

/-- AND, EOR, SUB, RSB, ADD, ADC, SBC, RSC, ORR, MOV, BIC and MVN, in the three operand forms, Rd not R15: the result,
and with S = 1 N and Z of it, C from the shifter (logical) or the carry or NOT borrow (arithmetic), V unchanged (logical)
or the overflow (arithmetic); nothing else changes (R186 to R195, R200 to R203). -/
def Obligations.ArmDataProcResults : Prop := ∀ op : DpOp, op.compares = false → DpWrites op

/-- TST, TEQ, CMP and CMN, in the three operand forms: the flags of their operation and no register (R196 to R199). -/
def Obligations.ArmCompareResults : Prop :=
  ∀ (op : DpOp) (o : Operand2) (c : Cond) (sf : Bool) (rn rd : Reg) (s : State), op.compares = true → Cond.passes c s.cpsr = true →
    o.legal → rd ≠ 15#4 →
    exec (dpInstr op o c sf rn rd) s = .next { s with cpsr := dpFlags op s.cpsr (o.first s rn) (o.eval s) }

/-- Data processing with Rd = 15: without S a flow report to the result; with S the exception return, which restores CPSR
whole from the current SPSR, and is a fault in User and System mode and where the saved mode is no mode. The forbidden
forms: Rs = 15, and a compare with Rd = 15 (R184, R187, R204 to R206, R394). -/
def Obligations.ArmDataProcToPc : Prop :=
  ∀ (op : DpOp) (o : Operand2) (c : Cond) (sf : Bool) (rn rd : Reg) (s : State), Cond.passes c s.cpsr = true →
    let r := dpResult op (o.first s rn) (o.eval s).value s.cpsr.c
    (o.legal → op.compares = false →
      exec (dpInstr op o c false rn 15#4) s = .next (s.branch r) ∧
      (∀ (p : Psr) (q : Cpsr), s.spsrOf s.cpsr.mode = some p → p.restore = some q →
        exec (dpInstr op o c true rn 15#4) s = .next (({ s with cpsr := q } : State).branch r)) ∧
      (∀ p : Psr, s.spsrOf s.cpsr.mode = some p → p.restore = none →
        exec (dpInstr op o c true rn 15#4) s = .fault .notAMode) ∧
      ((s.cpsr.mode = .usr ∨ s.cpsr.mode = .sys) → exec (dpInstr op o c true rn 15#4) s = .fault .noSavedStatus)) ∧
    (o.legal → op.compares = true → exec (dpInstr op o c sf rn 15#4) s = .fault .compareRd15) ∧
    ∀ (sh : ShiftKind) (rm : Reg), exec (dpInstr op (.regShift 15#4 sh rm) c sf rn rd) s = .fault .r15Operand

/-! ## Multiplies -/

/-- MUL, MLA and Thumb MUL: the product modulo 2^32, with S = 1 N and Z of it and a drawn C; their forbidden registers
(R230 to R232, R324; C is the free value of log 5). -/
def Obligations.MultiplyResults : Prop :=
  (∀ (c : Cond) (sf : Bool) (rd rn rs rm : Reg) (s : State), Cond.passes c s.cpsr = true →
    (rd ≠ 15#4 → rm ≠ 15#4 → rs ≠ 15#4 → rd ≠ rm →
      exec (.mul c sf rd rs rm) s = .next (mulDone s sf rd (BitVec.ofNat 32 ((s.reg rm).toNat * (s.reg rs).toNat))) ∧
        (rn ≠ 15#4 →
          exec (.mla c sf rd rn rs rm) s =
            .next (mulDone s sf rd (BitVec.ofNat 32 ((s.reg rm).toNat * (s.reg rs).toNat + (s.reg rn).toNat))))) ∧
    (rd = 15#4 ∨ rm = 15#4 ∨ rs = 15#4 → exec (.mul c sf rd rs rm) s = .fault .r15Operand) ∧
    (rd = 15#4 ∨ rn = 15#4 ∨ rm = 15#4 ∨ rs = 15#4 → exec (.mla c sf rd rn rs rm) s = .fault .r15Operand) ∧
    (rd ≠ 15#4 → rs ≠ 15#4 → rd = rm →
      exec (.mul c sf rd rs rm) s = .fault .registerClash ∧
        (rn ≠ 15#4 → exec (.mla c sf rd rn rs rm) s = .fault .registerClash))) ∧
  ∀ (rs rd : LowReg) (s : State),
    (rd ≠ rs →
      exec (.tMul rs rd) s =
        .next (mulDone s true rd.reg (BitVec.ofNat 32 ((s.reg rs.reg).toNat * (s.reg rd.reg).toNat)))) ∧
      exec (.tMul rd rd) s = .fault .registerClash

/-- UMULL, UMLAL, SMULL and SMLAL: the 64-bit product of the zero- or sign-extended operands, with the accumulator RdHi :
RdLo added; with S = 1 N and Z of it and drawn C and V; their forbidden registers (R230, R233 to R236; log 5). -/
def Obligations.MultiplyLongResults : Prop :=
  MulLongAs .umull (fun a b _ => a.setWidth 64 * b.setWidth 64) ∧
  MulLongAs .umlal (fun a b acc => a.setWidth 64 * b.setWidth 64 + acc) ∧
  MulLongAs .smull (fun a b _ => a.signExtend 64 * b.signExtend 64) ∧
  MulLongAs .smlal (fun a b acc => a.signExtend 64 * b.signExtend 64 + acc)

/-! ## Single transfers and swap -/

/-- LDR and LDRT, both offsets: the word at the address, rotated by its misalignment, into Rd, or for R15 a flow report;
the write-back of the base, which a load of the base overrides (R240 to R242, R251, R254). -/
def Obligations.WordLoads : Prop :=
  ∀ (c : Cond) (p u w : Bool) (rn rd : Reg),
    (∀ off : BitVec 12,
      LoadsAs (.ldrImm c p u w rn rd off) c p u w rn rd (fun _ => off.setWidth 32) (fun _ => .word) (rotatedFor rd) ∧
      LoadsAs (.ldrtImm c u rn rd off) c false u false rn rd (fun _ => off.setWidth 32) (fun _ => .word) (rotatedFor rd)) ∧
    ∀ (n : BitVec 5) (sh : ShiftKind) (rm : Reg), rm ≠ 15#4 →
      LoadsAs (.ldrReg c p u w rn rd n sh rm) c p u w rn rd (shiftedOffset n sh rm) (fun _ => .word) (rotatedFor rd) ∧
      LoadsAs (.ldrtReg c u rn rd n sh rm) c false u false rn rd (shiftedOffset n sh rm) (fun _ => .word) (rotatedFor rd)

/-- LDRB, LDRBT, LDRH, LDRSB and LDRSH, both offsets: the byte or halfword, zero- or sign-extended, at odd addresses as
R252 says, into Rd; the write-back of the base (R240, R244, R246, R247, R249 to R252, R254). -/
def Obligations.NarrowLoads : Prop :=
  ∀ (c : Cond) (p u w : Bool) (rn rd : Reg), rd ≠ 15#4 →
    (∀ off : BitVec 12,
      LoadsAs (.ldrbImm c p u w rn rd off) c p u w rn rd (fun _ => off.setWidth 32) (fun _ => .byte) asRead ∧
      LoadsAs (.ldrbtImm c u rn rd off) c false u false rn rd (fun _ => off.setWidth 32) (fun _ => .byte) asRead) ∧
    (∀ (n : BitVec 5) (sh : ShiftKind) (rm : Reg), rm ≠ 15#4 →
      LoadsAs (.ldrbReg c p u w rn rd n sh rm) c p u w rn rd (shiftedOffset n sh rm) (fun _ => .byte) asRead ∧
      LoadsAs (.ldrbtReg c u rn rd n sh rm) c false u false rn rd (shiftedOffset n sh rm) (fun _ => .byte) asRead) ∧
    (p = true ∨ w = false →
      (∀ immH immL : BitVec 4,
        LoadsAs (.ldrhImm c p u w rn rd immH immL) c p u w rn rd (fun _ => (immH ++ immL).setWidth 32) (fun _ => .half)
          halfValue ∧
        LoadsAs (.ldrsbImm c p u w rn rd immH immL) c p u w rn rd (fun _ => (immH ++ immL).setWidth 32) (fun _ => .byte)
          signedByte ∧
        LoadsAs (.ldrshImm c p u w rn rd immH immL) c p u w rn rd (fun _ => (immH ++ immL).setWidth 32) signedHalfWidth
          signedHalf) ∧
      ∀ rm : Reg, rm ≠ 15#4 →
        LoadsAs (.ldrhReg c p u w rn rd rm) c p u w rn rd (fun s => s.reg rm) (fun _ => .half) halfValue ∧
        LoadsAs (.ldrsbReg c p u w rn rd rm) c p u w rn rd (fun s => s.reg rm) (fun _ => .byte) signedByte ∧
        LoadsAs (.ldrshReg c p u w rn rd rm) c p u w rn rd (fun s => s.reg rm) signedHalfWidth signedHalf)

/-- STR, STRT, STRB, STRBT and STRH, both offsets: one write of the register, R15 of STR stored as A + 12, then the
write-back of the base; no register and no flag but the base changes (R240, R243, R245, R246, R248, R254). -/
def Obligations.SingleStores : Prop :=
  ∀ (c : Cond) (p u w : Bool) (rn rd : Reg),
    (∀ off : BitVec 12,
      StoresAs (.strImm c p u w rn rd off) c p u w rn (fun _ => off.setWidth 32) .word (storedWord rd) ∧
      StoresAs (.strtImm c u rn rd off) c false u false rn (fun _ => off.setWidth 32) .word (storedWord rd) ∧
      (rd ≠ 15#4 →
        StoresAs (.strbImm c p u w rn rd off) c p u w rn (fun _ => off.setWidth 32) .byte (fun s => s.reg rd) ∧
        StoresAs (.strbtImm c u rn rd off) c false u false rn (fun _ => off.setWidth 32) .byte (fun s => s.reg rd))) ∧
    (∀ (n : BitVec 5) (sh : ShiftKind) (rm : Reg), rm ≠ 15#4 →
      StoresAs (.strReg c p u w rn rd n sh rm) c p u w rn (shiftedOffset n sh rm) .word (storedWord rd) ∧
      StoresAs (.strtReg c u rn rd n sh rm) c false u false rn (shiftedOffset n sh rm) .word (storedWord rd) ∧
      (rd ≠ 15#4 →
        StoresAs (.strbReg c p u w rn rd n sh rm) c p u w rn (shiftedOffset n sh rm) .byte (fun s => s.reg rd) ∧
        StoresAs (.strbtReg c u rn rd n sh rm) c false u false rn (shiftedOffset n sh rm) .byte (fun s => s.reg rd))) ∧
    (p = true ∨ w = false → rd ≠ 15#4 →
      (∀ immH immL : BitVec 4,
        StoresAs (.strhImm c p u w rn rd immH immL) c p u w rn (fun _ => (immH ++ immL).setWidth 32) .half
          (fun s => s.reg rd)) ∧
      ∀ rm : Reg, rm ≠ 15#4 →
        StoresAs (.strhReg c p u w rn rd rm) c p u w rn (fun s => s.reg rm) .half (fun s => s.reg rd))

/-- SWP and SWPB where `DEVICE` does nothing: the read, then the write of Rm, then, whatever events are due, one `Advance`
of both costs, so that none fires between the read and the write; then Rd. That it is ONE `Advance` by the sum is the
model's reading of R115's "together" (log 15, DEDUCED). Where no event is due, the bus is as the read and the write leave
it, on any reading (R115, R270, R271). -/
def Obligations.SwapExchanges : Prop :=
  ∀ (c : Cond) (rn rd rm : Reg) (s : State), Cond.passes c s.cpsr = true → rn ≠ 15#4 → rd ≠ 15#4 → rm ≠ 15#4 → rn ≠ rm →
    rn ≠ rd →
    let a := s.reg rn
    let b := fun w : Width => (s.bus.readResult a w false).writeResult a w (s.reg rm) false
    let cost := fun w : Width => s.bus.costAt .data a w false + (s.bus.readResult a w false).costAt .data a w false
    let value := fun w : Width => (s.bus.valueRead a w).1
    (s.bus.Calm a .word → s.bus.Silent a .word →
      exec (.swp c rn rd rm) s =
        s.onBus (({ b .word with ts := s.bus.ts } : Bus).advance (cost .word)) (fun b' =>
          .next ((s.withBus b').setReg rd (rotated a (value .word)))) ∧
      (s.bus.QuietFor 2 →
        exec (.swp c rn rd rm) s = .next ((s.withBus (b .word)).setReg rd (rotated a (value .word))))) ∧
    (s.bus.Calm a .byte → s.bus.Silent a .byte →
      exec (.swpb c rn rd rm) s =
        s.onBus (({ b .byte with ts := s.bus.ts } : Bus).advance (cost .byte)) (fun b' =>
          .next ((s.withBus b').setReg rd (value .byte))) ∧
      (s.bus.QuietFor 2 → exec (.swpb c rn rd rm) s = .next ((s.withBus (b .byte)).setReg rd (value .byte))))

/-- The forbidden forms of the single transfers, the block transfers and the swaps: R15 as Rm, as a written-back base, as
Rd of a transfer narrower than a word; P = 0 with W = 1 in a halfword or signed transfer; R15 as the base of a block
transfer, and the user bank with write-back, in User or System mode or with nothing to store; the clashes of a swap
(R240, R244 to R246, R254, R260, R266, R270). -/
def Obligations.TransferFaults : Prop :=
  ∀ (c : Cond) (p u w : Bool) (rn rd rm : Reg) (s : State), Cond.passes c s.cpsr = true →
    (∀ (n : BitVec 5) (sh : ShiftKind), ∀ i ∈ wordRegs c p u w rn rd n sh 15#4 ++ byteRegs c p u w rn rd n sh 15#4,
      exec i s = .fault .r15Operand) ∧
    (∀ (n : BitVec 5) (sh : ShiftKind) (off : BitVec 12), p = false ∨ w = true →
      ∀ i ∈ wordImms c p u w 15#4 rd off ++ byteImms c p u w 15#4 rd off ++ wordRegs c p u w 15#4 rd n sh rm ++
        byteRegs c p u w 15#4 rd n sh rm, exec i s = .fault .r15Operand) ∧
    (∀ (n : BitVec 5) (sh : ShiftKind) (off : BitVec 12), ∀ i ∈ byteImms c p u w rn 15#4 off ++ byteRegs c p u w rn 15#4 n sh rm,
      exec i s = .fault .r15Operand) ∧
    (p = true ∨ w = false → ∀ immH immL : BitVec 4,
      ∀ i ∈ halfImms c p u w rn 15#4 immH immL ++ halfRegs c p u w rn 15#4 rm ++ halfRegs c p u w rn rd 15#4,
        exec i s = .fault .r15Operand) ∧
    (p = w → ∀ immH immL : BitVec 4, ∀ i ∈ halfImms c p u w 15#4 rd immH immL ++ halfRegs c p u w 15#4 rd rm,
      exec i s = .fault .r15Operand) ∧
    (rm ≠ 15#4 → ∀ immH immL : BitVec 4, ∀ i ∈ halfImms c false u true rn rd immH immL ++ halfRegs c false u true rn rd rm,
      exec i s = .fault .postIndexedWriteBack) ∧
    (∀ (list : BitVec 16) (low : BitVec 15),
      ∀ i ∈ [.ldm c p u w 15#4 list, .stm c p u w 15#4 list, .stmUser c p u w 15#4 list, .ldmUser c p u w 15#4 low,
        .ldmRestore c p u w 15#4 low], exec i s = .fault .r15Operand) ∧
    (rn ≠ 15#4 → w = true ∨ s.cpsr.mode = .usr ∨ s.cpsr.mode = .sys → ∀ (list : BitVec 16) (low : BitVec 15),
      exec (.stmUser c p u w rn list) s = .fault .userBankTransfer ∧
        exec (.ldmUser c p u w rn low) s = .fault .userBankTransfer) ∧
    (rn ≠ 15#4 → exec (.stmUser c p u w rn 0#16) s = .fault .userBankTransfer) ∧
    (rn = 15#4 ∨ rd = 15#4 ∨ rm = 15#4 →
      exec (.swp c rn rd rm) s = .fault .r15Operand ∧ exec (.swpb c rn rd rm) s = .fault .r15Operand) ∧
    (rn ≠ 15#4 → rd ≠ 15#4 → rm ≠ 15#4 → rn = rm ∨ rn = rd →
      exec (.swp c rn rd rm) s = .fault .registerClash ∧ exec (.swpb c rn rd rm) s = .fault .registerClash)

/-! ## Memory -/

/-- What an access and a block of accesses change where `DEVICE` does nothing and no callback is due: a read no memory and
no port; a store the bytes of `storedCells`, which hold the value's bytes in little-endian order, and no other byte; the
stores of a block the bytes of each; the port table and WAITCNT only where the target is the port table. There a store
changes the writable bytes it covers, of WAITCNT all but bits 13 and 15, which stay zero, and no byte at 0x206 and 0x207
(R77, R81, R86, R94, R101, R260). -/
def Obligations.StoreChangesOnlyItsBytes : Prop :=
  ∀ (b : Bus) (a : Word) (w : Width) (v : Word) (block : Bool),
    let t := b.writeResult a w v block
    ((b.readResult a w block).mem = b.mem ∧ (b.readResult a w block).ports = b.ports ∧
      (b.readResult a w block).waitcnt = b.waitcnt) ∧
    (∀ k, k ∉ b.storedCells a w → storeByte t.mem k = storeByte b.mem k) ∧
    (∀ n, (b.readBlock n a block).2.mem = b.mem ∧ (b.readBlock n a block).2.ports = b.ports ∧
      (b.readBlock n a block).2.waitcnt = b.waitcnt) ∧
    (∀ (vals : List Word) (k : Nat), (∀ j < vals.length, k ∉ b.storedCells (a + BitVec.ofNat 32 (4 * j)) .word) →
      storeByte (b.writeBlock vals a block).mem k = storeByte b.mem k) ∧
    ((∀ r : Region, regionOf b.params (alignTo w a) = some r →
        regionTarget b.params r ≠ .ports ∨ pastSize b.params r (alignTo w a) w = true) →
      t.ports = b.ports ∧ t.waitcnt = b.waitcnt) ∧
    ∀ r : Region, regionOf b.params (alignTo w a) = some r → pastSize b.params r (alignTo w a) w = false →
      let o := regionOffset b.params r (alignTo w a)
      (regionWritable b.params r = true → (b.params.videoByteWrite = .plain ∨ isVideoByte r w = false) →
        ∀ j < widthBytes w, storeByte t.mem (storeBase r + o + j) = byteOf v j) ∧
      (regionTarget b.params r = .ports →
        (∀ q : Nat, portByteAt t.ports q =
          (portByteAt b.ports q).map fun p =>
            if p.writable = true ∧ o ≤ q ∧ q < o + widthBytes w ∧ (q < 0x204 ∨ 0x207 < q) then
              { p with value := byteOf v (q - o) }
            else p) ∧
        t.waitcnt.extractLsb' 0 8 =
          (if o ≤ 0x204 ∧ 0x204 < o + widthBytes w then byteOf v (0x204 - o) else b.waitcnt.extractLsb' 0 8) ∧
        t.waitcnt.extractLsb' 8 8 =
          (if o ≤ 0x205 ∧ 0x205 < o + widthBytes w then byteOf v (0x205 - o) &&& 0x5F#8 else b.waitcnt.extractLsb' 8 8))

/-- A read of the bytes just written gives the value, at every width and any alignment, in every writable memory region
(R77, R82, R111). -/
def Obligations.ReadAfterWrite : Prop :=
  ∀ (b : Bus) (a : Word) (w : Width) (v : Word) (block : Bool) (r : Region), regionOf b.params (alignTo w a) = some r →
    regionWritable b.params r = true → pastSize b.params r (alignTo w a) w = false →
    (b.params.videoByteWrite = .plain ∨ isVideoByte r w = false) →
    ((b.writeResult a w v block).valueRead a w).1 =
      match w with
      | .byte => (v.setWidth 8).setWidth 32
      | .half => (v.setWidth 16).setWidth 32
      | .word => v

/-- Undefined regions and past-size reads: the lane of the open-bus latch that the address selects, the latch and all
memory unchanged (R73, R91). A read of the port table: each byte lane is WAITCNT's byte, or the stored byte as `DEVICE`
presents it where it is readable, or else the latch's lane, and the latch takes the value where a byte was readable (R90,
R93, R101; the presented byte is the free value of log 7). A write to an undefined region changes nothing, the latch
included: that is the model's reading of R74 and R90 (log 16). -/
def Obligations.OpenBusValues : Prop :=
  ∀ (b : Bus) (a : Word) (w : Width) (v : Word),
    let x := b.valueRead a w
    (regionOf b.params (alignTo w a) = none ∨
        (∃ r, regionOf b.params (alignTo w a) = some r ∧ pastSize b.params r (alignTo w a) w = true) →
      x.2 = b ∧
        x.1 =
          match w with
          | .byte => (b.ob >>> (8 * (a.toNat % 4))) &&& 0xFF#32
          | .half => (b.ob >>> (16 * (a.toNat / 2 % 2))) &&& 0xFFFF#32
          | .word => b.ob) ∧
    (∀ r, regionOf b.params (alignTo w a) = some r → pastSize b.params r (alignTo w a) w = false →
      regionTarget b.params r = .ports →
      let o := regionOffset b.params r (alignTo w a)
      let readable := fun q : Nat =>
        q = 0x204 ∨ q = 0x205 ∨ ((q < 0x204 ∨ 0x207 < q) ∧ ∃ p, portByteAt b.ports q = some p ∧ p.readable = true)
      x.1.toNat < 2 ^ (8 * widthBytes w) ∧
      (∀ k < widthBytes w,
        (o + k = 0x204 → byteOf x.1 k = b.waitcnt.extractLsb' 0 8) ∧
        (o + k = 0x205 → byteOf x.1 k = b.waitcnt.extractLsb' 8 8) ∧
        (o + k < 0x204 ∨ 0x207 < o + k → ∀ p, portByteAt b.ports (o + k) = some p → p.readable = true →
          byteOf x.1 k = Config.portRead b.draws (o + k) p.value) ∧
        (¬readable (o + k) → byteOf x.1 k = byteOf b.ob ((o + k) % 4))) ∧
      ((∃ k < widthBytes w, readable (o + k)) → x.2.ob = replicate w x.1) ∧
      ((∀ k < widthBytes w, ¬readable (o + k)) → x.2.ob = b.ob)) ∧
    (regionOf b.params (alignTo w a) = none → (b.valueWrite a w v).2 = b)

/-- The cost of a data access: the entry of the region's row of the wait table for its width and sequentiality, with the
wait counts that WAITCNT gives the region; and under the default table the costs of R98, and of R99 for the cartridge
areas, a word being two accesses, and the save media (R98 to R102). -/
def Obligations.DataAccessCosts : Prop :=
  ∀ (b : Bus) (a : Word) (w : Width) (block : Bool),
    let sq := b.sequential .data (alignTo w a) block
    let first := fun lo : Nat => [4, 3, 2, 8].getD ((b.waitcnt.toNat / 2 ^ lo) % 4) 0
    let s0 := if b.waitcnt.getLsbD 4 then 1 else 2
    let s1 := if b.waitcnt.getLsbD 7 then 1 else 4
    let s2 := if b.waitcnt.getLsbD 10 then 1 else 8
    let region := regionOf b.params (alignTo w a)
    let t := b.params.wait
    (∀ (row : WaitRow) (n s : Nat),
      (region, row, n, s) ∈
        [(none, t.undefined, 0, 0), (some .bios, t.bios, 0, 0), (some .ewram, t.ewram, 0, 0), (some .iwram, t.iwram, 0, 0),
          (some .io, t.io, 0, 0), (some .palette, t.palette, 0, 0), (some .vram, t.vram, 0, 0), (some .oam, t.oam, 0, 0),
          (some .rom0, t.rom0, first 2, s0), (some .rom1, t.rom1, first 5, s1), (some .rom2, t.rom2, first 8, s2),
          (some .save, t.save, first 0, 0)] →
      let e :=
        match w, sq with
        | .byte, false => row.n8
        | .half, false => row.n16
        | .word, false => row.n32
        | .byte, true => row.s8
        | .half, true => row.s16
        | .word, true => row.s32
      b.costAt .data a w block = e.base + e.first * n + e.second * s) ∧
    (t = WaitTable.default →
      (∀ n s : Nat, (region, n, s) ∈ [(some .rom0, first 2, s0), (some .rom1, first 5, s1), (some .rom2, first 8, s2)] →
        b.costAt .data a w block =
          if w = .word then (if sq then 2 * (1 + s) else (1 + n) + (1 + s)) else if sq then 1 + s else 1 + n) ∧
      (region = some .save → b.costAt .data a w block = 1 + first 0) ∧
      ∀ c8 c16 c32 : Nat,
        (region, c8, c16, c32) ∈
          [(none, 1, 1, 1), (some .bios, 1, 1, 1), (some .ewram, 3, 3, 6), (some .iwram, 1, 1, 1), (some .io, 1, 1, 1),
            (some .palette, 1, 1, 2), (some .vram, 1, 1, 2), (some .oam, 1, 1, 1)] →
        b.costAt .data a w block = match w with | .byte => c8 | .half => c16 | .word => c32)

/-! ## Block transfers -/

/-- STM and STM of the user bank: the registers of the list in ascending order at ascending addresses, R15 as A + 12, the
base by the tie-break of R264, the user bank's registers for S = 1; the write-back (R260, R261, R263, R264, R266; the
user-bank forms read their base in the current mode, log 30). -/
def Obligations.BlockStores : Prop :=
  (∀ list : BitVec 16, (∀ r : Reg, r ∈ regsOf list ↔ list.getLsbD r.toNat = true) ∧
    (regsOf list).Pairwise fun r r' => r.toNat < r'.toNat) ∧
  ∀ (c : Cond) (p u w : Bool) (rn : Reg) (list : BitVec 16) (s : State), Cond.passes c s.cpsr = true → rn ≠ 15#4 →
    let regs := regsOf list
    let start := listStart p u (s.reg rn) regs
    let nb := listBase u (s.reg rn) regs
    s.bus.QuietFor (moved regs).length → s.bus.SilentBlock start (moved regs).length →
    (let value := fun r : Reg =>
      if r = 15#4 then s.here + 12#32 else if r = rn ∧ w = true ∧ regs.head? ≠ some rn then nb else s.reg r
     let s1 := s.withBus (s.bus.writeBlock ((moved regs).map value) start false)
     exec (.stm c p u w rn list) s = .next (if w then s1.setReg rn nb else s1)) ∧
    (w = false → s.cpsr.mode ≠ .usr → s.cpsr.mode ≠ .sys → regs ≠ [] →
      let value := fun r : Reg => if r = 15#4 then s.here + 12#32 else s.xm .usr r
      exec (.stmUser c p u w rn list) s = .next (s.withBus (s.bus.writeBlock (regs.map value) start false)))

/-- LDM and LDM of the user bank: the words at ascending addresses into the registers of the list, R15 as a flow report;
the write-back, which a load of the base overrides (R260 to R262, R265, R266; the empty user-bank list is log 29,
the base of the user-bank form log 30). -/
def Obligations.BlockLoads : Prop :=
  ∀ (c : Cond) (p u w : Bool) (rn : Reg) (s : State), Cond.passes c s.cpsr = true → rn ≠ 15#4 →
    (∀ list : BitVec 16,
      let regs := regsOf list
      let start := listStart p u (s.reg rn) regs
      let words := s.bus.readBlock (moved regs).length start false
      s.bus.QuietFor (moved regs).length → s.bus.CalmBlock start (moved regs).length →
      exec (.ldm c p u w rn list) s =
        .next (loadedRegs s.cpsr.mode 0xFFFFFFFC#32
          (basedLoad (s.withBus words.2) w rn regs (listBase u (s.reg rn) regs)) (moved regs) words.1)) ∧
    ∀ list : BitVec 15,
      let regs := regsOf (list.setWidth 16)
      let start := listStart p u (s.reg rn) regs
      let words := s.bus.readBlock (moved regs).length start false
      s.bus.QuietFor (moved regs).length → s.bus.CalmBlock start (moved regs).length → w = false → s.cpsr.mode ≠ .usr → s.cpsr.mode ≠ .sys →
      exec (.ldmUser c p u w rn list) s =
        .next (loadedRegs .usr 0xFFFFFFFC#32 (s.withBus words.2) (moved regs) words.1)

/-- LDM with PSR restore: the registers and the write-back in the old mode, then CPSR whole from the SPSR and the flow
report to the word loaded for R15; a fault where the saved mode is no mode and in User and System mode, which leaves the
bus as the loads leave it (R205, R267, R394) and no register changed (the model's reading of R36, log 13). -/
def Obligations.BlockLoadRestoresStatus : Prop :=
  ∀ (c : Cond) (p u w : Bool) (rn : Reg) (list : BitVec 15) (s : State), Cond.passes c s.cpsr = true → rn ≠ 15#4 →
    let low := regsOf (list.setWidth 16)
    let regs := low ++ [15#4]
    let start := listStart p u (s.reg rn) regs
    let words := s.bus.readBlock regs.length start false
    let left := (s.withBus words.2).remains
    s.bus.QuietFor regs.length → s.bus.CalmBlock start regs.length →
    (∀ (saved : Psr) (q : Cpsr), s.spsrOf s.cpsr.mode = some saved → saved.restore = some q →
      exec (.ldmRestore c p u w rn list) s =
        .next (({ loadedRegs s.cpsr.mode 0xFFFFFFFC#32
          (basedLoad (s.withBus words.2) w rn low (listBase u (s.reg rn) regs)) low words.1 with cpsr := q } : State).branch
            (words.1.getLastD 0#32))) ∧
    (∀ saved : Psr, s.spsrOf s.cpsr.mode = some saved → saved.restore = none →
      exec (.ldmRestore c p u w rn list) s = .fault (.stopped .notAMode left)) ∧
    ((s.cpsr.mode = .usr ∨ s.cpsr.mode = .sys) →
      exec (.ldmRestore c p u w rn list) s = .fault (.stopped .noSavedStatus left))

/-! ## Branches, exceptions, unallocated spaces -/

/-- B, BL and BX: the flow report, BL's link A + 4, BX's encoding from the target's low bit (R280, R281, R283, R284). -/
def Obligations.ArmBranches : Prop :=
  ∀ (c : Cond) (off : BitVec 24) (rm : Reg) (s : State), Cond.passes c s.cpsr = true →
    let target := s.pipe.cursor + (off.signExtend 32 <<< 2)
    exec (.b c off) s = .next (s.branch target) ∧
    exec (.bl c off) s = .next ((s.setReg 14#4 (s.here + 4#32)).branch target) ∧
    exec (.bx c rm) s =
      .next (if (s.reg rm).getLsbD 0 then
          ({ s with cpsr := { s.cpsr with t := true } } : State).branch (s.reg rm &&& 0xFFFFFFFE#32)
        else ({ s with cpsr := { s.cpsr with t := false } } : State).branch (s.reg rm &&& 0xFFFFFFFC#32))

/-- SWI, the undefined space, the coprocessor space and their Thumb forms take their exception, in any mode and either
state (R285 to R287, R371, R390 to R392). -/
def Obligations.ExceptionsAreTaken : Prop :=
  ∀ s : State,
    (∀ c : Cond, Cond.passes c s.cpsr = true →
      (∀ k, exec (.swi c k) s = .next (entered s .svc 0x8#32 (linkValue s))) ∧
      (∀ hi lo, exec (.undefined c hi lo) s = .next (entered s .und 0x4#32 (linkValue s))) ∧
      (∀ p u n w rn crd cp off, exec (.stc c p u n w rn crd cp off) s = .next (entered s .und 0x4#32 (linkValue s)) ∧
        exec (.ldc c p u n w rn crd cp off) s = .next (entered s .und 0x4#32 (linkValue s))) ∧
      (∀ op1 crn crd cp op2 crm, exec (.cdp c op1 crn crd cp op2 crm) s = .next (entered s .und 0x4#32 (linkValue s))) ∧
      ∀ op1 crn rd cp op2 crm, exec (.mcr c op1 crn rd cp op2 crm) s = .next (entered s .und 0x4#32 (linkValue s)) ∧
        exec (.mrc c op1 crn rd cp op2 crm) s = .next (entered s .und 0x4#32 (linkValue s))) ∧
    (∀ k, exec (.tSwi k) s = .next (entered s .svc 0x8#32 (linkValue s))) ∧
    (∀ k, exec (.tUndef1011 k) s = .next (entered s .und 0x4#32 (linkValue s))) ∧
    (∀ k, exec (.tUndef1110 k) s = .next (entered s .und 0x4#32 (linkValue s))) ∧
    ∀ k, exec (.tUndef11101 k) s = .next (entered s .und 0x4#32 (linkValue s))

/-- The unallocated spaces are faults once the condition passes, and have no effect where it fails (R139, R145, R253). -/
def Obligations.UnallocatedSpacesFault : Prop :=
  ∀ (c : Cond) (s : State),
    (∀ op mid lo,
      (Cond.passes c s.cpsr = true → exec (.unallocMul c op mid lo) s = .fault .unallocatedMultiply) ∧
      (Cond.passes c s.cpsr = false → exec (.unallocMul c op mid lo) s = .next s)) ∧
    (∀ hi mid sh lo,
      (Cond.passes c s.cpsr = true → exec (.unallocHalfStore c hi mid sh lo) s = .fault .unallocatedHalfwordStore) ∧
      (Cond.passes c s.cpsr = false → exec (.unallocHalfStore c hi mid sh lo) s = .next s)) ∧
    ∀ im op mid nib lo,
      (Cond.passes c s.cpsr = true → exec (.unallocPsr c im op mid nib lo) s = .fault .unallocatedPsrTransfer) ∧
      (Cond.passes c s.cpsr = false → exec (.unallocPsr c im op mid nib lo) s = .next s)

/-! ## Thumb -/

/-- Thumb shifts, by an immediate and by a register: the shifter's result in Rd, N and Z of it, C from the shifter, V
unchanged (R300 to R302, R313 to R315, R318). -/
def Obligations.ThumbShifts : Prop :=
  ∀ (off : BitVec 5) (rs rd : LowReg) (s : State),
    let done := fun x : Shifted => thumbDone s rd x.value x.carry s.cpsr.v
    let amount : BitVec 8 := (s.reg rs.reg).setWidth 8
    exec (.tLslImm off rs rd) s = .next (done (immShift .lsl (s.reg rs.reg) off s.cpsr.c)) ∧
    exec (.tLsrImm off rs rd) s = .next (done (immShift .lsr (s.reg rs.reg) off s.cpsr.c)) ∧
    exec (.tAsrImm off rs rd) s = .next (done (immShift .asr (s.reg rs.reg) off s.cpsr.c)) ∧
    exec (.tLslReg rs rd) s = .next (done (regShift .lsl (s.reg rd.reg) amount s.cpsr.c)) ∧
    exec (.tLsrReg rs rd) s = .next (done (regShift .lsr (s.reg rd.reg) amount s.cpsr.c)) ∧
    exec (.tAsrReg rs rd) s = .next (done (regShift .asr (s.reg rd.reg) amount s.cpsr.c)) ∧
    exec (.tRor rs rd) s = .next (done (regShift .ror (s.reg rd.reg) amount s.cpsr.c))

/-- Thumb additions, subtractions and compares: the sum or difference, N, Z, the carry or NOT borrow, the overflow (R303
to R306, R308 to R310, R316, R317, R320 to R322). -/
def Obligations.ThumbArithmetic : Prop :=
  ∀ (rn rs rd : LowReg) (imm3 : BitVec 3) (imm8 : BitVec 8) (s : State),
    let plus := fun a b : Word => thumbDone s rd (a + b) (decide (2 ^ 32 ≤ a.toNat + b.toNat)) (overflowed a b (a + b))
    let minus := fun a b : Word => thumbDone s rd (a - b) (decide (b.toNat ≤ a.toNat)) (overflowed a (~~~b) (a - b))
    let compare := fun a b : Word => thumbCompared s (a - b) (decide (b.toNat ≤ a.toNat)) (overflowed a (~~~b) (a - b))
    let x := s.reg rd.reg
    let y := s.reg rs.reg
    let cin : Word := if s.cpsr.c then 1#32 else 0#32
    exec (.tAddReg rn rs rd) s = .next (plus y (s.reg rn.reg)) ∧
    exec (.tSubReg rn rs rd) s = .next (minus y (s.reg rn.reg)) ∧
    exec (.tAddImm3 imm3 rs rd) s = .next (plus y (imm3.setWidth 32)) ∧
    exec (.tSubImm3 imm3 rs rd) s = .next (minus y (imm3.setWidth 32)) ∧
    exec (.tCmpImm8 rd imm8) s = .next (compare x (imm8.setWidth 32)) ∧
    exec (.tAddImm8 rd imm8) s = .next (plus x (imm8.setWidth 32)) ∧
    exec (.tSubImm8 rd imm8) s = .next (minus x (imm8.setWidth 32)) ∧
    exec (.tAdc rs rd) s =
      .next (thumbDone s rd (x + y + cin) (decide (2 ^ 32 ≤ x.toNat + y.toNat + s.cpsr.c.toNat))
        (overflowed x y (x + y + cin))) ∧
    exec (.tSbc rs rd) s =
      .next (thumbDone s rd (x + ~~~y + cin) (decide (y.toNat + (!s.cpsr.c).toNat ≤ x.toNat))
        (overflowed x (~~~y) (x + ~~~y + cin))) ∧
    exec (.tNeg rs rd) s = .next (minus 0#32 y) ∧
    exec (.tCmpReg rs rd) s = .next (compare x y) ∧
    exec (.tCmn rs rd) s =
      .next (thumbCompared s (x + y) (decide (2 ^ 32 ≤ x.toNat + y.toNat)) (overflowed x y (x + y)))

/-- Thumb MOV immediate and the logical operations: the result, N and Z; C and V unchanged (R307, R311, R312, R319, R323,
R325, R326). -/
def Obligations.ThumbLogical : Prop :=
  ∀ (rs rd : LowReg) (imm : BitVec 8) (s : State),
    let done := fun r : Word => thumbDone s rd r s.cpsr.c s.cpsr.v
    let x := s.reg rd.reg
    let y := s.reg rs.reg
    exec (.tMovImm8 rd imm) s = .next (done (imm.setWidth 32)) ∧
    exec (.tAnd rs rd) s = .next (done (x &&& y)) ∧
    exec (.tEor rs rd) s = .next (done (x ^^^ y)) ∧
    exec (.tTst rs rd) s = .next (thumbCompared s (x &&& y) s.cpsr.c s.cpsr.v) ∧
    exec (.tOrr rs rd) s = .next (done (x ||| y)) ∧
    exec (.tBic rs rd) s = .next (done (x &&& ~~~y)) ∧
    exec (.tMvn rs rd) s = .next (done (~~~y))

/-- The Thumb hi-register forms: ADD and MOV without flags, R15 a flow report that stays in Thumb state; CMP; BX; and the
forms that are faults (R327 to R330). -/
def Obligations.ThumbHiRegisters : Prop :=
  ∀ (h1 h2 : Bool) (rs rd : LowReg) (s : State),
    let d := highReg h1 rd
    let x := s.reg d
    let y := s.reg (highReg h2 rs)
    let wrote := fun r : Word => if d = 15#4 then s.branch (r &&& 0xFFFFFFFE#32) else s.setReg d r
    (h1 = true ∨ h2 = true →
      exec (.tAddHi h1 h2 rs rd) s = .next (wrote (x + y)) ∧
      exec (.tMovHi h1 h2 rs rd) s = .next (wrote y) ∧
      exec (.tCmpHi h1 h2 rs rd) s =
        .next (thumbCompared s (x - y) (decide (y.toNat ≤ x.toNat)) (overflowed x (~~~y) (x - y)))) ∧
    exec (.tAddHi false false rs rd) s = .fault .lowRegisters ∧
    exec (.tMovHi false false rs rd) s = .fault .lowRegisters ∧
    exec (.tCmpHi false false rs rd) s = .fault .lowRegisters ∧
    exec (.tBx true h2 rs) s = .fault .branchLinkExchange ∧
    exec (.tBx false h2 rs) s =
      .next (if y.getLsbD 0 then ({ s with cpsr := { s.cpsr with t := true } } : State).branch (y &&& 0xFFFFFFFE#32)
        else ({ s with cpsr := { s.cpsr with t := false } } : State).branch (y &&& 0xFFFFFFFC#32))

/-- Thumb address arithmetic: no flag changes (R331 to R333). -/
def Obligations.ThumbAddressArithmetic : Prop :=
  ∀ (rd : LowReg) (imm8 : BitVec 8) (imm7 : BitVec 7) (s : State),
    exec (.tAddPc rd imm8) s =
      .next (s.setReg rd.reg ((s.pipe.cursor &&& 0xFFFFFFFC#32) + BitVec.ofNat 32 (4 * imm8.toNat))) ∧
    exec (.tAddSp rd imm8) s = .next (s.setReg rd.reg (s.reg 13#4 + BitVec.ofNat 32 (4 * imm8.toNat))) ∧
    exec (.tAdjSp false imm7) s = .next (s.setReg 13#4 (s.reg 13#4 + BitVec.ofNat 32 (4 * imm7.toNat))) ∧
    exec (.tAdjSp true imm7) s = .next (s.setReg 13#4 (s.reg 13#4 - BitVec.ofNat 32 (4 * imm7.toNat)))

/-- The Thumb branches: B<cond>, B, and the two halves of BL, which are instructions of their own (R370, R372 to
R374). -/
def Obligations.ThumbBranches : Prop :=
  ∀ (c : Cond) (off8 : BitVec 8) (off11 : BitVec 11) (s : State),
    (Cond.passes c s.cpsr = true →
      exec (.tBCond c off8) s = .next (s.branch (s.pipe.cursor + (off8.signExtend 32 <<< 1)))) ∧
    (Cond.passes c s.cpsr = false → exec (.tBCond c off8) s = .next s) ∧
    exec (.tB off11) s = .next (s.branch (s.pipe.cursor + (off11.signExtend 32 <<< 1))) ∧
    exec (.tBlPrefix off11) s = .next (s.setReg 14#4 (s.pipe.cursor + (off11.signExtend 32 <<< 12))) ∧
    exec (.tBlSuffix off11) s =
      .next ((s.setReg 14#4 ((s.here + 2#32) ||| 1#32)).branch
        ((s.reg 14#4 + BitVec.ofNat 32 (2 * off11.toNat)) &&& 0xFFFFFFFE#32))

/-- The Thumb loads: PC-relative, register offset, immediate offset, SP-relative (R340, R343, R344, R346 to R348, R350,
R352, R354, R356). -/
def Obligations.ThumbLoads : Prop :=
  ∀ (ro rb rd : LowReg) (off : BitVec 5) (imm : BitVec 8),
    let sum := fun s : State => s.reg rb.reg + s.reg ro.reg
    ThumbLoadsAs (.tLdrPc rd imm) rd (fun s => (s.pipe.cursor &&& 0xFFFFFFFC#32) + BitVec.ofNat 32 (4 * imm.toNat))
      (fun _ => .word) asRead ∧
    ThumbLoadsAs (.tLdrReg ro rb rd) rd sum (fun _ => .word) rotated ∧
    ThumbLoadsAs (.tLdrbReg ro rb rd) rd sum (fun _ => .byte) asRead ∧
    ThumbLoadsAs (.tLdsbReg ro rb rd) rd sum (fun _ => .byte) signedByte ∧
    ThumbLoadsAs (.tLdrhReg ro rb rd) rd sum (fun _ => .half) halfValue ∧
    ThumbLoadsAs (.tLdshReg ro rb rd) rd sum signedHalfWidth signedHalf ∧
    ThumbLoadsAs (.tLdrImm off rb rd) rd (fun s => s.reg rb.reg + BitVec.ofNat 32 (4 * off.toNat)) (fun _ => .word) rotated ∧
    ThumbLoadsAs (.tLdrbImm off rb rd) rd (fun s => s.reg rb.reg + BitVec.ofNat 32 off.toNat) (fun _ => .byte) asRead ∧
    ThumbLoadsAs (.tLdrhImm off rb rd) rd (fun s => s.reg rb.reg + BitVec.ofNat 32 (2 * off.toNat)) (fun _ => .half)
      halfValue ∧
    ThumbLoadsAs (.tLdrSp rd imm) rd (fun s => s.reg 13#4 + BitVec.ofNat 32 (4 * imm.toNat)) (fun _ => .word) rotated

/-- The Thumb stores: register offset, immediate offset, SP-relative; no register and no flag changes (R341, R342, R345,
R349, R351, R353, R355). -/
def Obligations.ThumbStores : Prop :=
  ∀ (ro rb rd : LowReg) (off : BitVec 5) (imm : BitVec 8),
    let sum := fun s : State => s.reg rb.reg + s.reg ro.reg
    ThumbStoresAs (.tStrReg ro rb rd) rd sum .word ∧
    ThumbStoresAs (.tStrbReg ro rb rd) rd sum .byte ∧
    ThumbStoresAs (.tStrhReg ro rb rd) rd sum .half ∧
    ThumbStoresAs (.tStrImm off rb rd) rd (fun s => s.reg rb.reg + BitVec.ofNat 32 (4 * off.toNat)) .word ∧
    ThumbStoresAs (.tStrbImm off rb rd) rd (fun s => s.reg rb.reg + BitVec.ofNat 32 off.toNat) .byte ∧
    ThumbStoresAs (.tStrhImm off rb rd) rd (fun s => s.reg rb.reg + BitVec.ofNat 32 (2 * off.toNat)) .half ∧
    ThumbStoresAs (.tStrSp rd imm) rd (fun s => s.reg 13#4 + BitVec.ofNat 32 (4 * imm.toNat)) .word

/-- PUSH and POP: the registers at ascending addresses below or above SP, the new SP, POP of R15 a flow report in Thumb
state; the empty list a fault (R360, R361, R364). -/
def Obligations.ThumbStackTransfers : Prop :=
  ∀ (r : Bool) (list : BitVec 8) (s : State),
    let pushed := stackList r 14#4 list
    let popped := stackList r 15#4 list
    let bytes : Word := BitVec.ofNat 32 (4 * pushed.length)
    let words := s.bus.readBlock popped.length (s.reg 13#4) false
    (pushed ≠ [] → s.bus.QuietFor pushed.length → s.bus.SilentBlock (s.reg 13#4 - bytes) pushed.length →
      exec (.tPush r list) s =
        .next ((s.withBus (s.bus.writeBlock (pushed.map s.reg) (s.reg 13#4 - bytes) false)).setReg 13#4
          (s.reg 13#4 - bytes))) ∧
    (popped ≠ [] → s.bus.QuietFor popped.length → s.bus.CalmBlock (s.reg 13#4) popped.length →
      exec (.tPop r list) s =
        .next (loadedRegs s.cpsr.mode 0xFFFFFFFE#32 ((s.withBus words.2).setReg 13#4 (s.reg 13#4 + bytes)) popped
          words.1)) ∧
    exec (.tPush false 0#8) s = .fault .emptyStackList ∧ exec (.tPop false 0#8) s = .fault .emptyStackList

/-- STMIA and LDMIA: the low registers at ascending addresses from the base, the new base, the base in the list, and the
empty list, which moves R15 and the base by 0x40 (R362, R363, R365). -/
def Obligations.ThumbBlockTransfers : Prop :=
  ∀ (rb : LowReg) (list : BitVec 8) (s : State),
    let regs := lowRegsOf list
    let base := s.reg rb.reg
    let nb := base + listSize regs
    let words := s.bus.readBlock (moved regs).length base false
    s.bus.QuietFor (moved regs).length →
    (s.bus.SilentBlock base (moved regs).length →
      let value := fun r : Reg =>
        if r = 15#4 then s.here + 6#32 else if r = rb.reg ∧ regs.head? ≠ some rb.reg then nb else s.reg r
      exec (.tStmia rb list) s =
        .next ((s.withBus (s.bus.writeBlock ((moved regs).map value) base false)).setReg rb.reg nb)) ∧
    (s.bus.CalmBlock base (moved regs).length →
      exec (.tLdmia rb list) s =
        .next (loadedRegs s.cpsr.mode 0xFFFFFFFE#32 (basedLoad (s.withBus words.2) true rb.reg regs nb) (moved regs)
          words.1))

/-! ## The step, interrupts, halt, the scheduler -/

/-- Where the bytes of the staged word decode to an instruction, a step that is not halted and takes no interrupt is that
instruction's meaning, then two fetches at a reported target or one fetch, then its internal cycles (R44, R109, R150); a
fault of the meaning that names nothing it leaves leaves the state that the step began with (R155). -/
def Obligations.StepRunsDecodedInstruction : Prop :=
  ∀ (s : State) (i : Instr) (rest : List Byte), s.faulted = none → s.bus.halted = false →
    (s.bus.irqLine = false ∨ s.cpsr.i = true) →
    decodeBytes s.cpsr.t (if s.cpsr.t then Code.thumb (s.pipe.decoded.setWidth 16) else .arm s.pipe.decoded).bytes =
      .ok (i, rest) →
    i.wf = true ∧
    step s =
      andThen (s.begin.leaving (exec i s.begin)) fun t => andThen t.refill fun u => u.spend (internalCycles i s.begin t)

/-- The refill of the pipeline: exactly two code fetches from the aligned target at the width of CPSR.T after a flow
report, the first of them never sequential, exactly one fetch at the cursor otherwise, and what the two slots and the
cursor then hold; a fault leaves what was fetched before it, and the slots shifted, which R42 does before the access (R42,
R43, R103, R152, R155; the model's reading of a faulted pipeline, log 13). -/
def Obligations.RefillFetches : Prop :=
  ∀ s : State,
    let w : Width := if s.cpsr.t then .half else .word
    let n : Word := if s.cpsr.t then 2#32 else 4#32
    let shifted := fun s : State => { s with pipe := { s.pipe with decoded := s.pipe.fetched } }
    (s.flow = none → s.refill = (shifted s).onBus (s.bus.read .code s.pipe.cursor w true) fun x =>
      .next { s with bus := x.2, pipe := { fetched := x.1, decoded := s.pipe.fetched, cursor := s.pipe.cursor + n } }) ∧
    (∀ (b : Bus) (x : Word), b.sequential .code x false = false) ∧
    ∀ target : Word, s.flow = some target →
      let s1 : State := { s with flow := none, pipe := { s.pipe with cursor := alignTo w target } }
      s.refill =
        (shifted s1).onBus (s.bus.read .code (alignTo w target) w false) fun x =>
          let s2 : State :=
            { s1 with bus := x.2, pipe := { fetched := x.1, decoded := s.pipe.fetched, cursor := alignTo w target + n } }
          (shifted s2).onBus (x.2.read .code (alignTo w target + n) w true) fun y =>
            .next { s2 with
              bus := y.2
              pipe := { fetched := y.1, decoded := x.1, cursor := alignTo w target + n + n } }

/-- With the interrupt line asserted and unmasked, a step enters the IRQ exception with link N + 4, refills from
0x00000018 in ARM state, and runs the handler's first instruction; masked, it enters nothing (R390, R391, R403). -/
def Obligations.InterruptIsTaken : Prop :=
  ∀ s : State, s.faulted = none → s.bus.irqLine = true →
    let s0 := s.begin.wake
    (s.cpsr.i = false →
      step s =
        andThen (({ entered s0 .irq 0x18#32 (s.here + 4#32) with flow := none } : State).bubble 0x18#32)
          State.executeStaged) ∧
    (s.cpsr.i = true → step s = s0.executeStaged)

/-- A halted step with the line clear only advances time, by HALT_STEP_CYCLES; with the line asserted it is the step of
the state no longer halted; from a faulted state no step is taken (R55, R406). -/
def Obligations.HaltedStep : Prop :=
  ∀ s : State,
    (∀ f : Fault, s.faulted = some f → step s = .fault f) ∧
    (s.faulted = none → s.bus.halted = true → s.bus.irqLine = false → s.bus.Quiet s.bus.params.haltStepCycles →
      step s =
        .next { s with
          flow := none
          bus := { s.bus with
            acc := s.bus.params.haltStepCycles
            ts := s.bus.ts + s.bus.params.haltStepCycles
            trace := [] } }) ∧
    (s.faulted = none → s.bus.halted = true → s.bus.irqLine = true →
      step s = step { s with bus := { s.bus with halted := false } })

/-- `Advance`: the event it takes is due, and no due event has a lesser timestamp, nor an equal one and a lesser sequence
number; that event leaves the queue and its callback runs to completion, at the timestamp already raised and with its
category running, before the next event is taken; after it the timestamp is the raised one and nothing is due; where none
is due it only raises the timestamp (R415 to R417). The numbers that bound the loop and the nesting are the free values of
log 10. -/
def Obligations.EarliestDueEventFires : Prop :=
  (∀ (ts : Nat) (q : List Event) (e : Event), earliestDue ts q = some e →
    e ∈ q ∧ e.time ≤ ts ∧ ∀ d ∈ q, d.time ≤ ts → e.time < d.time ∨ (e.time = d.time ∧ e.seq ≤ d.seq)) ∧
  (∀ (ts : Nat) (q : List Event), earliestDue ts q = none ↔ ∀ e ∈ q, ts < e.time) ∧
  (∀ (b : Bus) (c : Nat), b.Quiet c → b.advance c = .next { b with ts := b.ts + c }) ∧
  (∀ (b : Bus) (c : Nat) (e : Event), earliestDue (b.ts + c) b.queue = some e →
    ∃ n, b.advance c = andThen (({ b with ts := b.ts + c } : Bus).fire n e) (fireDue n)) ∧
  (∀ (b : Bus) (n : Nat) (e : Event),
    b.fire n e =
        andThen
          (runActions (Config.nesting b.draws) (some n) (Config.callback b.draws e.cb e.ctx)
            { b with queue := b.queue.erase e, running := some e.cat, draws := b.draws + 1 })
          (fun b' => .next { b' with running := none }) ∧
      (earliestDue b.ts b.queue = some e → fireDue (n + 1) b = andThen (b.fire n e) (fireDue n))) ∧
  ∀ (b b' : Bus) (c : Nat), b.advance c = .next b' → b'.ts = b.ts + c ∧ ∀ e ∈ b'.queue, b'.ts < e.time

/-! ## The whole machine -/

/-- No instruction is refused: its meaning answers a next state or a fault. -/
def Obligations.NoInstructionIsRefused : Prop := ∀ (i : Instr) (s : State) (e : Refusal), exec i s ≠ .refused e

/-- Privilege: an instruction executed in User mode leaves the mode only by entering an exception. Otherwise the mode, the
interrupt masks, every saved status register and every privileged mode's banked register stay as they were (R40,
R408). -/
def Obligations.UserModeIsConfined : Prop :=
  ∀ (i : Instr) (s t : State), s.cpsr.mode = .usr → exec i s = .next t →
    (t.cpsr.mode = .usr ∧ t.cpsr.i = s.cpsr.i ∧ t.cpsr.f = s.cpsr.f ∧ t.spsrs = s.spsrs ∧
      ∀ k : Fin 30, 15 ≤ k.val → t.gpr[k] = s.gpr[k]) ∨
    t = entered s .svc 0x8#32 (linkValue s) ∨ t = entered s .und 0x4#32 (linkValue s)

/-- What no instruction changes in its own way: the pipeline and the faulted flag never change; CPSR.T changes only with a
flow report; the bus, and with it every byte of memory, every port and every tracker, only by a transfer; the count of
drawn flags only by a multiply (R34, R156, R230; the count is the model's own, log 6). -/
def Obligations.ExecutionFrame : Prop :=
  ∀ (i : Instr) (s t : State), exec i s = .next t →
    t.pipe = s.pipe ∧ t.faulted = s.faulted ∧ (t.flow = none → s.flow = none ∧ t.cpsr.t = s.cpsr.t) ∧
    (transfers i = false → t.bus = s.bus ∧ ∀ k : Nat, t.cell k = s.cell k) ∧
    (multiplies i = false → t.draws = s.draws)

/-- Every step from a state that meets the invariant answers a state that meets it. -/
def Obligations.StepKeepsInvariant : Prop := ∀ s t : State, s.Inv → step s = .next t → t.Inv

/-- The reset state meets the invariant. -/
def Obligations.ResetMeetsInvariant : Prop := State.reset.Inv

/-- Reset is the cold reset's bubble from address 0, and leaves what the spec states: Supervisor mode, both masks set, ARM
state, the cursor at 8, an empty queue, not halted, not faulted, TS = 2, WAITCNT = 0 (R57, R430, R433). The registers and
flags without a stated value, and the 0 from which the bubble counts ACC, are the model's choice (logs 1 to 3, 32). -/
def Obligations.ResetState : Prop :=
  State.reset.hostReset = .next State.reset ∧
  State.reset.cpsr.mode = .svc ∧ State.reset.cpsr.i = true ∧ State.reset.cpsr.f = true ∧ State.reset.cpsr.t = false ∧
  State.reset.pipe.cursor = 8#32 ∧ State.reset.pipe.decoded = State.reset.cellWord 0 ∧
  State.reset.pipe.fetched = State.reset.cellWord 4 ∧ State.reset.bus.ob = State.reset.pipe.fetched ∧
  State.reset.bus.pfValid = false ∧ State.reset.bus.ts = 2 ∧ State.reset.bus.acc = 2 ∧ State.reset.bus.queue = [] ∧
  State.reset.bus.halted = false ∧ State.reset.faulted = none ∧ State.reset.bus.waitcnt = 0#16
end

