-- ==== Sys2Proof/Laws/State.lean ====
section
/-! SUPPORT. What each update of State leaves as it was, one lemma a field, so that no proof unfolds a record update. -/

namespace Sys2Proof.Machine

@[simp] theorem State.branch_gpr (s : State) (a : Word) : (s.branch a).gpr = s.gpr := rfl
@[simp] theorem State.branch_cpsr (s : State) (a : Word) : (s.branch a).cpsr = s.cpsr := rfl
@[simp] theorem State.branch_spsrs (s : State) (a : Word) : (s.branch a).spsrs = s.spsrs := rfl
@[simp] theorem State.branch_pipe (s : State) (a : Word) : (s.branch a).pipe = s.pipe := rfl
@[simp] theorem State.branch_bus (s : State) (a : Word) : (s.branch a).bus = s.bus := rfl
@[simp] theorem State.branch_faulted (s : State) (a : Word) : (s.branch a).faulted = s.faulted := rfl
@[simp] theorem State.branch_draws (s : State) (a : Word) : (s.branch a).draws = s.draws := rfl
@[simp] theorem State.branch_flow (s : State) (a : Word) : (s.branch a).flow = some a := rfl

@[simp] theorem State.switchMode_gpr (s : State) (m : Mode) : (s.switchMode m).gpr = s.gpr := rfl
@[simp] theorem State.switchMode_spsrs (s : State) (m : Mode) : (s.switchMode m).spsrs = s.spsrs := rfl
@[simp] theorem State.switchMode_pipe (s : State) (m : Mode) : (s.switchMode m).pipe = s.pipe := rfl
@[simp] theorem State.switchMode_flow (s : State) (m : Mode) : (s.switchMode m).flow = s.flow := rfl
@[simp] theorem State.switchMode_bus (s : State) (m : Mode) : (s.switchMode m).bus = s.bus := rfl
@[simp] theorem State.switchMode_faulted (s : State) (m : Mode) : (s.switchMode m).faulted = s.faulted := rfl
@[simp] theorem State.switchMode_draws (s : State) (m : Mode) : (s.switchMode m).draws = s.draws := rfl
@[simp] theorem State.switchMode_cpsr (s : State) (m : Mode) : (s.switchMode m).cpsr = { s.cpsr with mode := m } := rfl

@[simp] theorem State.setThumb_gpr (s : State) (b : Bool) : (s.setThumb b).gpr = s.gpr := rfl
@[simp] theorem State.setThumb_spsrs (s : State) (b : Bool) : (s.setThumb b).spsrs = s.spsrs := rfl
@[simp] theorem State.setThumb_pipe (s : State) (b : Bool) : (s.setThumb b).pipe = s.pipe := rfl
@[simp] theorem State.setThumb_flow (s : State) (b : Bool) : (s.setThumb b).flow = s.flow := rfl
@[simp] theorem State.setThumb_bus (s : State) (b : Bool) : (s.setThumb b).bus = s.bus := rfl
@[simp] theorem State.setThumb_faulted (s : State) (b : Bool) : (s.setThumb b).faulted = s.faulted := rfl
@[simp] theorem State.setThumb_draws (s : State) (b : Bool) : (s.setThumb b).draws = s.draws := rfl
@[simp] theorem State.setThumb_cpsr (s : State) (b : Bool) : (s.setThumb b).cpsr = { s.cpsr with t := b } := rfl

@[simp] theorem State.withBus_gpr (s : State) (b : Bus) : (s.withBus b).gpr = s.gpr := rfl
@[simp] theorem State.withBus_cpsr (s : State) (b : Bus) : (s.withBus b).cpsr = s.cpsr := rfl
@[simp] theorem State.withBus_spsrs (s : State) (b : Bus) : (s.withBus b).spsrs = s.spsrs := rfl
@[simp] theorem State.withBus_pipe (s : State) (b : Bus) : (s.withBus b).pipe = s.pipe := rfl
@[simp] theorem State.withBus_flow (s : State) (b : Bus) : (s.withBus b).flow = s.flow := rfl
@[simp] theorem State.withBus_faulted (s : State) (b : Bus) : (s.withBus b).faulted = s.faulted := rfl
@[simp] theorem State.withBus_draws (s : State) (b : Bus) : (s.withBus b).draws = s.draws := rfl
@[simp] theorem State.withBus_bus (s : State) (b : Bus) : (s.withBus b).bus = b := rfl

@[simp] theorem State.setMulFlags_gpr (s : State) (r : Word) : (s.setMulFlags r).gpr = s.gpr := rfl
@[simp] theorem State.setMulFlags_spsrs (s : State) (r : Word) : (s.setMulFlags r).spsrs = s.spsrs := rfl
@[simp] theorem State.setMulFlags_pipe (s : State) (r : Word) : (s.setMulFlags r).pipe = s.pipe := rfl
@[simp] theorem State.setMulFlags_flow (s : State) (r : Word) : (s.setMulFlags r).flow = s.flow := rfl
@[simp] theorem State.setMulFlags_bus (s : State) (r : Word) : (s.setMulFlags r).bus = s.bus := rfl
@[simp] theorem State.setMulFlags_faulted (s : State) (r : Word) : (s.setMulFlags r).faulted = s.faulted := rfl
@[simp] theorem State.setMulFlags_draws (s : State) (r : Word) : (s.setMulFlags r).draws = s.draws + 1 := rfl

@[simp] theorem State.setMulLongFlags_gpr (s : State) (r : BitVec 64) : (s.setMulLongFlags r).gpr = s.gpr := rfl
@[simp] theorem State.setMulLongFlags_spsrs (s : State) (r : BitVec 64) : (s.setMulLongFlags r).spsrs = s.spsrs := rfl
@[simp] theorem State.setMulLongFlags_pipe (s : State) (r : BitVec 64) : (s.setMulLongFlags r).pipe = s.pipe := rfl
@[simp] theorem State.setMulLongFlags_flow (s : State) (r : BitVec 64) : (s.setMulLongFlags r).flow = s.flow := rfl
@[simp] theorem State.setMulLongFlags_bus (s : State) (r : BitVec 64) : (s.setMulLongFlags r).bus = s.bus := rfl
@[simp] theorem State.setMulLongFlags_faulted (s : State) (r : BitVec 64) : (s.setMulLongFlags r).faulted = s.faulted := rfl
@[simp] theorem State.setMulLongFlags_draws (s : State) (r : BitVec 64) : (s.setMulLongFlags r).draws = s.draws + 2 := rfl

@[simp] theorem State.begin_gpr (s : State) : (s.begin).gpr = s.gpr := rfl
@[simp] theorem State.begin_cpsr (s : State) : (s.begin).cpsr = s.cpsr := rfl
@[simp] theorem State.begin_spsrs (s : State) : (s.begin).spsrs = s.spsrs := rfl
@[simp] theorem State.begin_pipe (s : State) : (s.begin).pipe = s.pipe := rfl
@[simp] theorem State.begin_faulted (s : State) : (s.begin).faulted = s.faulted := rfl
@[simp] theorem State.begin_draws (s : State) : (s.begin).draws = s.draws := rfl
@[simp] theorem State.begin_flow (s : State) : s.begin.flow = none := rfl
@[simp] theorem State.begin_bus (s : State) : s.begin.bus = { s.bus with acc := 0, trace := [] } := rfl

@[simp] theorem State.wake_gpr (s : State) : (s.wake).gpr = s.gpr := rfl
@[simp] theorem State.wake_cpsr (s : State) : (s.wake).cpsr = s.cpsr := rfl
@[simp] theorem State.wake_spsrs (s : State) : (s.wake).spsrs = s.spsrs := rfl
@[simp] theorem State.wake_pipe (s : State) : (s.wake).pipe = s.pipe := rfl
@[simp] theorem State.wake_flow (s : State) : (s.wake).flow = s.flow := rfl
@[simp] theorem State.wake_faulted (s : State) : (s.wake).faulted = s.faulted := rfl
@[simp] theorem State.wake_draws (s : State) : (s.wake).draws = s.draws := rfl
@[simp] theorem State.wake_bus (s : State) : s.wake.bus = { s.bus with halted := false } := rfl

@[simp] theorem State.setXm_cpsr (s : State) (m : Mode) (r : Reg) (v : Word) : (s.setXm m r v).cpsr = s.cpsr := by
  unfold State.setXm; split <;> rfl
@[simp] theorem State.setXm_spsrs (s : State) (m : Mode) (r : Reg) (v : Word) : (s.setXm m r v).spsrs = s.spsrs := by
  unfold State.setXm; split <;> rfl
@[simp] theorem State.setXm_pipe (s : State) (m : Mode) (r : Reg) (v : Word) : (s.setXm m r v).pipe = s.pipe := by
  unfold State.setXm; split <;> rfl
@[simp] theorem State.setXm_bus (s : State) (m : Mode) (r : Reg) (v : Word) : (s.setXm m r v).bus = s.bus := by
  unfold State.setXm; split <;> rfl
@[simp] theorem State.setXm_faulted (s : State) (m : Mode) (r : Reg) (v : Word) : (s.setXm m r v).faulted = s.faulted := by
  unfold State.setXm; split <;> rfl
@[simp] theorem State.setXm_draws (s : State) (m : Mode) (r : Reg) (v : Word) : (s.setXm m r v).draws = s.draws := by
  unfold State.setXm; split <;> rfl
theorem State.setXm_pc (s : State) (m : Mode) (v : Word) : s.setXm m 15#4 v = s.branch v := rfl
theorem State.setXm_of_ne (s : State) (m : Mode) (r : Reg) (v : Word) (h : r ≠ 15#4) :
    s.setXm m r v = { s with gpr := s.gpr.set (physIndex m r).val v (physIndex m r).isLt } := if_neg h

@[simp] theorem State.setReg_cpsr (s : State) (r : Reg) (v : Word) : (s.setReg r v).cpsr = s.cpsr :=
  s.setXm_cpsr _ r v
@[simp] theorem State.setReg_spsrs (s : State) (r : Reg) (v : Word) : (s.setReg r v).spsrs = s.spsrs :=
  s.setXm_spsrs _ r v
@[simp] theorem State.setReg_pipe (s : State) (r : Reg) (v : Word) : (s.setReg r v).pipe = s.pipe :=
  s.setXm_pipe _ r v
@[simp] theorem State.setReg_bus (s : State) (r : Reg) (v : Word) : (s.setReg r v).bus = s.bus :=
  s.setXm_bus _ r v
@[simp] theorem State.setReg_faulted (s : State) (r : Reg) (v : Word) : (s.setReg r v).faulted = s.faulted :=
  s.setXm_faulted _ r v
@[simp] theorem State.setReg_draws (s : State) (r : Reg) (v : Word) : (s.setReg r v).draws = s.draws :=
  s.setXm_draws _ r v
theorem State.setReg_of_ne (s : State) (r : Reg) (v : Word) (h : r ≠ 15#4) :
    s.setReg r v = { s with gpr := s.gpr.set (physIndex s.cpsr.mode r).val v (physIndex s.cpsr.mode r).isLt } := if_neg h
theorem State.setReg_flow (s : State) (r : Reg) (v : Word) (h : r ≠ 15#4) : (s.setReg r v).flow = s.flow := by
  rw [s.setReg_of_ne r v h]

@[simp] theorem State.setFlags_gpr (s : State) (sf : Bool) (p : Cpsr) : (s.setFlags sf p).gpr = s.gpr := by
  unfold State.setFlags; split <;> rfl
@[simp] theorem State.setFlags_spsrs (s : State) (sf : Bool) (p : Cpsr) : (s.setFlags sf p).spsrs = s.spsrs := by
  unfold State.setFlags; split <;> rfl
@[simp] theorem State.setFlags_pipe (s : State) (sf : Bool) (p : Cpsr) : (s.setFlags sf p).pipe = s.pipe := by
  unfold State.setFlags; split <;> rfl
@[simp] theorem State.setFlags_flow (s : State) (sf : Bool) (p : Cpsr) : (s.setFlags sf p).flow = s.flow := by
  unfold State.setFlags; split <;> rfl
@[simp] theorem State.setFlags_bus (s : State) (sf : Bool) (p : Cpsr) : (s.setFlags sf p).bus = s.bus := by
  unfold State.setFlags; split <;> rfl
@[simp] theorem State.setFlags_faulted (s : State) (sf : Bool) (p : Cpsr) : (s.setFlags sf p).faulted = s.faulted := by
  unfold State.setFlags; split <;> rfl
@[simp] theorem State.setFlags_draws (s : State) (sf : Bool) (p : Cpsr) : (s.setFlags sf p).draws = s.draws := by
  unfold State.setFlags; split <;> rfl
theorem State.setFlags_true (s : State) (p : Cpsr) : s.setFlags true p = { s with cpsr := p } := rfl
theorem State.setFlags_false (s : State) (p : Cpsr) : s.setFlags false p = s := rfl

@[simp] theorem State.setSpsr_gpr (s : State) (m : Mode) (p : Psr) : (s.setSpsr m p).gpr = s.gpr := by cases m <;> rfl
@[simp] theorem State.setSpsr_cpsr (s : State) (m : Mode) (p : Psr) : (s.setSpsr m p).cpsr = s.cpsr := by cases m <;> rfl
@[simp] theorem State.setSpsr_pipe (s : State) (m : Mode) (p : Psr) : (s.setSpsr m p).pipe = s.pipe := by cases m <;> rfl
@[simp] theorem State.setSpsr_flow (s : State) (m : Mode) (p : Psr) : (s.setSpsr m p).flow = s.flow := by cases m <;> rfl
@[simp] theorem State.setSpsr_bus (s : State) (m : Mode) (p : Psr) : (s.setSpsr m p).bus = s.bus := by cases m <;> rfl
@[simp] theorem State.setSpsr_faulted (s : State) (m : Mode) (p : Psr) : (s.setSpsr m p).faulted = s.faulted := by cases m <;> rfl
@[simp] theorem State.setSpsr_draws (s : State) (m : Mode) (p : Psr) : (s.setSpsr m p).draws = s.draws := by cases m <;> rfl

@[simp] theorem State.writeBack_cpsr (s : State) (t : Transfer) (rn : Reg) : (s.writeBack t rn).cpsr = s.cpsr := by
  unfold State.writeBack; split <;> simp
@[simp] theorem State.writeBack_spsrs (s : State) (t : Transfer) (rn : Reg) : (s.writeBack t rn).spsrs = s.spsrs := by
  unfold State.writeBack; split <;> simp
@[simp] theorem State.writeBack_pipe (s : State) (t : Transfer) (rn : Reg) : (s.writeBack t rn).pipe = s.pipe := by
  unfold State.writeBack; split <;> simp
@[simp] theorem State.writeBack_bus (s : State) (t : Transfer) (rn : Reg) : (s.writeBack t rn).bus = s.bus := by
  unfold State.writeBack; split <;> simp
@[simp] theorem State.writeBack_faulted (s : State) (t : Transfer) (rn : Reg) : (s.writeBack t rn).faulted = s.faulted := by
  unfold State.writeBack; split <;> simp
@[simp] theorem State.writeBack_draws (s : State) (t : Transfer) (rn : Reg) : (s.writeBack t rn).draws = s.draws := by
  unfold State.writeBack; split <;> simp
@[simp] theorem State.blockWriteBack_cpsr (s : State) (w : Bool) (rn : Reg) (regs : List Reg) (nb : Word) :
    (s.blockWriteBack w rn regs nb).cpsr = s.cpsr := by
  unfold State.blockWriteBack; split <;> simp
@[simp] theorem State.blockWriteBack_spsrs (s : State) (w : Bool) (rn : Reg) (regs : List Reg) (nb : Word) :
    (s.blockWriteBack w rn regs nb).spsrs = s.spsrs := by
  unfold State.blockWriteBack; split <;> simp
@[simp] theorem State.blockWriteBack_pipe (s : State) (w : Bool) (rn : Reg) (regs : List Reg) (nb : Word) :
    (s.blockWriteBack w rn regs nb).pipe = s.pipe := by
  unfold State.blockWriteBack; split <;> simp
@[simp] theorem State.blockWriteBack_bus (s : State) (w : Bool) (rn : Reg) (regs : List Reg) (nb : Word) :
    (s.blockWriteBack w rn regs nb).bus = s.bus := by
  unfold State.blockWriteBack; split <;> simp
@[simp] theorem State.blockWriteBack_faulted (s : State) (w : Bool) (rn : Reg) (regs : List Reg) (nb : Word) :
    (s.blockWriteBack w rn regs nb).faulted = s.faulted := by
  unfold State.blockWriteBack; split <;> simp
@[simp] theorem State.blockWriteBack_draws (s : State) (w : Bool) (rn : Reg) (regs : List Reg) (nb : Word) :
    (s.blockWriteBack w rn regs nb).draws = s.draws := by
  unfold State.blockWriteBack; split <;> simp

/-- A computation that answered a next value went through both its halves. -/
theorem andThen_next {α β φ : Type} {r : Host.Outcome α φ Refusal} {k : α → Host.Outcome β φ Refusal} {y : β}
    (h : andThen r k = .next y) : ∃ x, r = .next x ∧ k x = .next y := by
  cases r with
  | next x => exact ⟨x, rfl, h⟩
  | fault f => cases h
  | refused e => cases h

@[simp] theorem andThen_of_next {α β φ : Type} (x : α) (k : α → Host.Outcome β φ Refusal) :
    andThen (.next x) k = k x := rfl

/-- What goes on from an operation of the bus that answered a next value. -/
theorem State.onBus_next {α β : Type} {s : State} {r : BusResult α} {k : α → Host.Outcome β Fault Refusal} {y : β}
    (h : s.onBus r k = .next y) : ∃ x, r = .next x ∧ k x = .next y := by
  cases r with
  | next x => exact ⟨x, rfl, h⟩
  | fault f => cases h
  | refused e => cases h

@[simp] theorem State.onBus_of_next {α β : Type} (s : State) (x : α) (k : α → Host.Outcome β Fault Refusal) :
    s.onBus (.next x) k = k x := rfl

/-- A fault of the bus stops at one place, wherever the computation on the bus is cut. -/
theorem State.onBus_andThen {α β γ : Type} (s : State) (r : BusResult α) (k : α → BusResult β)
    (f : β → Host.Outcome γ Fault Refusal) : s.onBus (andThen r k) f = s.onBus r fun x => s.onBus (k x) f := by
  cases r <;> rfl

/-- What goes on after an operation of the bus goes on inside it. -/
theorem State.andThen_onBus {α β γ : Type} (s : State) (r : BusResult α) (k : α → Host.Outcome β Fault Refusal)
    (f : β → Host.Outcome γ Fault Refusal) : andThen (s.onBus r k) f = s.onBus r fun x => andThen (k x) f := by
  cases r <;> rfl

@[simp] theorem State.leaving_of_next (s t : State) : s.leaving (.next t) = .next t := rfl

/-- What a fault leaves does not matter to a next state. -/
theorem State.leaving_next {s t : State} {r : Result} (h : s.leaving r = .next t) : r = .next t := by
  cases r with
  | next x => exact h
  | fault f => cases h
  | refused e => cases h

theorem guarded_of_passes {c : Cond} {s : State} {k : State → Result} (h : Cond.passes c s.cpsr = true) :
    guarded c s k = k s := if_pos h

theorem guarded_of_fails {c : Cond} {s : State} {k : State → Result} (h : Cond.passes c s.cpsr = false) :
    guarded c s k = .next s := by simp [guarded, h]

/-- A guarded meaning either does nothing or is the meaning. -/
theorem guarded_next {c : Cond} {s t : State} {k : State → Result} (h : guarded c s k = .next t) : t = s ∨ k s = .next t := by
  unfold guarded at h
  split at h
  · exact .inr h
  · cases h; exact .inl rfl

/-! ## Registering a region -/

@[simp] theorem regionRow_regionTableSet (p : Params) (r : Region) (row : RegionRow) :
    regionRow { p with regions := regionTableSet p.regions r row } r = row := by
  cases r <;> rfl

@[simp] theorem regionRow_regionSizeSet (p : Params) (r q : Region) (n : Fin (regionLimit r + 1)) :
    regionRow (regionSizeSet p r n) q = regionRow p q := by
  cases r <;> rfl

@[simp] theorem regionSize_regionSizeSet (p : Params) (r : Region) (n : Fin (regionLimit r + 1)) :
    regionSize (regionSizeSet p r n) r = n.val := by
  cases r <;> rfl

/-- A registered region has the row and the size it was registered with (R75). -/
theorem State.registerRegion_row (s : State) (r : Region) (row : RegionRow) (n : Fin (regionLimit r + 1)) :
    regionRow (s.registerRegion r row n).bus.params r = row ∧ regionSize (s.registerRegion r row n).bus.params r = n.val := by
  simp [State.registerRegion, State.configure]

end Sys2Proof.Machine
end

