-- ==== Sys2Proof/Laws/Memory.lean ====
section
/-! SUPPORT. The laws of the store: what a write changes and leaves, and that every operation keeps the canonical form. -/

namespace Sys2Proof.Machine

theorem Memory.get_set_same (m : List Host.Cell) (a : Nat) (v : Byte) : Memory.get (Memory.set m a v) a = some v := by
  induction m with
  | nil => simp [Memory.set, Memory.get]
  | cons x m ih =>
    simp only [Memory.set]
    split
    · simp [Memory.get]
    · split
      · simp [Memory.get]
      · rename_i h
        simp [Memory.get, h, ih]

theorem Memory.get_of_lt {m : List Host.Cell} {x : Host.Cell} {a : Nat} (h : Memory.wf (x :: m) = true) (ha : a < x.1) :
    Memory.get (x :: m) a = none := by
  induction m generalizing x with
  | nil => simp [Memory.get, Nat.ne_of_gt ha]
  | cons y m ih =>
    simp only [Memory.wf, Bool.and_eq_true, decide_eq_true_eq] at h
    rw [Memory.get, if_neg (Nat.ne_of_gt ha)]
    exact ih h.2 (Nat.lt_trans ha h.1)

theorem Memory.get_set_other (m : List Host.Cell) (a b : Nat) (v : Byte) (h : b ≠ a) :
    Memory.get (Memory.set m a v) b = Memory.get m b := by
  induction m with
  | nil => simp [Memory.set, Memory.get, Ne.symm h]
  | cons x m ih =>
    simp only [Memory.set]
    split
    · simp [Memory.get, Ne.symm h]
    · split
      · rename_i hx
        simp [Memory.get, hx, Ne.symm h]
      · simp [Memory.get, ih]

theorem Memory.wf_tail {x : Host.Cell} {m : List Host.Cell} (h : Memory.wf (x :: m) = true) : Memory.wf m = true := by
  cases m with
  | nil => rfl
  | cons y m => simp only [Memory.wf, Bool.and_eq_true] at h; exact h.2

/-- A write above the first address keeps it the first. -/
theorem Memory.wf_cons_set {x : Host.Cell} {m : List Host.Cell} {a : Nat} {v : Byte} (hx : x.1 < a)
    (h : Memory.wf (x :: m) = true) (ih : Memory.wf (Memory.set m a v) = true) :
    Memory.wf (x :: Memory.set m a v) = true := by
  cases m with
  | nil => simp [Memory.set, Memory.wf, hx]
  | cons y m =>
    simp only [Memory.wf, Bool.and_eq_true, decide_eq_true_eq] at h
    by_cases h1 : a < y.1
    · simp_all [Memory.set, Memory.wf]
    · by_cases h2 : y.1 = a
      · simp_all [Memory.set, Memory.wf]
      · simp only [Memory.set, if_neg h1, if_neg h2] at ih ⊢
        simp [Memory.wf, h.1, ih]

theorem Memory.wf_set (m : List Host.Cell) (a : Nat) (v : Byte) (h : Memory.wf m = true) :
    Memory.wf (Memory.set m a v) = true := by
  induction m with
  | nil => rfl
  | cons x m ih =>
    have ht := ih (Memory.wf_tail h)
    by_cases h1 : a < x.1
    · simp only [Memory.set, if_pos h1, Memory.wf, h, Bool.and_true]
      exact decide_eq_true h1
    · by_cases h2 : x.1 = a
      · simp only [Memory.set, if_neg h1, if_pos h2]
        cases m with
        | nil => rfl
        | cons y m => simp_all [Memory.wf]
      · simp only [Memory.set, if_neg h1, if_neg h2]
        exact Memory.wf_cons_set (by omega) h ht

/-! ## Loading and restoring bytes -/

theorem Memory.wf_iff (m : List Host.Cell) : Memory.wf m = true ↔ m.Pairwise fun x y => x.1 < y.1 := by
  induction m with
  | nil => simp [Memory.wf]
  | cons x m ih =>
    rw [List.pairwise_cons, ← ih]
    cases m with
    | nil => simp [Memory.wf]
    | cons y m =>
      simp only [Memory.wf, Bool.and_eq_true, decide_eq_true_eq, List.mem_cons, forall_eq_or_imp]
      refine ⟨fun h => ⟨⟨h.1, fun z hz => ?_⟩, h.2⟩, fun h => ⟨h.1.1, h.2⟩⟩
      exact Nat.lt_trans h.1 ((List.pairwise_cons.mp (ih.mp h.2)).1 z hz)

theorem Memory.wf_filter {m : List Host.Cell} (p : Host.Cell → Bool) (h : Memory.wf m = true) :
    Memory.wf (m.filter p) = true :=
  (Memory.wf_iff _).mpr (((Memory.wf_iff m).mp h).filter p)

theorem Memory.wf_load {m : List Host.Cell} (cells : List Host.Cell) (h : Memory.wf m = true) :
    Memory.wf (Memory.load m cells) = true := by
  unfold Memory.load
  induction cells generalizing m with
  | nil => exact h
  | cons x cells ih => exact ih (Memory.wf_set m x.1 x.2 h)

theorem Memory.get_filter (m : List Host.Cell) (p : Nat → Bool) (a : Nat) :
    Memory.get (m.filter fun x => p x.1) a = if p a then Memory.get m a else none := by
  induction m with
  | nil => simp [Memory.get]
  | cons x m ih =>
    by_cases hx : x.1 = a
    · cases hp : p x.1 <;> simp_all [Memory.get]
    · cases hp : p x.1 <;> simp_all [Memory.get]

theorem Memory.get_tail {x : Host.Cell} {m : List Host.Cell} (h : Memory.wf (x :: m) = true) : Memory.get m x.1 = none := by
  cases m with
  | nil => rfl
  | cons y m =>
    simp only [Memory.wf, Bool.and_eq_true, decide_eq_true_eq] at h
    exact Memory.get_of_lt h.2 h.1

/-- Loaded bytes read as loaded, the others as before. -/
theorem Memory.get_load (m : List Host.Cell) {cells : List Host.Cell} (h : Memory.wf cells = true) (a : Nat) :
    Memory.get (Memory.load m cells) a = (Memory.get cells a).or (Memory.get m a) := by
  unfold Memory.load
  induction cells generalizing m with
  | nil => rfl
  | cons x cells ih =>
    rw [List.foldl_cons, ih _ (Memory.wf_tail h)]
    by_cases hx : x.1 = a
    · subst hx
      rw [Memory.get_tail h, Memory.get_set_same, Memory.get, if_pos rfl]
      rfl
    · rw [Memory.get_set_other m x.1 a x.2 (Ne.symm hx), Memory.get, if_neg hx]

/-- A canonical form is determined by what it reads as. -/
theorem Memory.ext {m n : List Host.Cell} (hm : Memory.wf m = true) (hn : Memory.wf n = true)
    (h : ∀ a, Memory.get m a = Memory.get n a) : m = n := by
  induction m generalizing n with
  | nil =>
    cases n with
    | nil => rfl
    | cons y n => simpa [Memory.get] using h y.1
  | cons x m ih =>
    cases n with
    | nil => simpa [Memory.get] using h x.1
    | cons y n =>
      obtain hlt | heq | hgt := Nat.lt_trichotomy x.1 y.1
      · have := h x.1
        rw [Memory.get_of_lt hn hlt] at this
        simp [Memory.get] at this
      · have hv : x = y := by
          have := h x.1
          simp only [Memory.get, if_pos, heq, Option.some.injEq] at this
          exact Prod.ext heq this
        subst hv
        rw [ih (Memory.wf_tail hm) (Memory.wf_tail hn) fun a => ?_]
        by_cases ha : x.1 = a
        · rw [← ha, Memory.get_tail hm, Memory.get_tail hn]
        · have := h a
          rwa [Memory.get, Memory.get, if_neg ha, if_neg ha] at this
      · have := h y.1
        rw [Memory.get_of_lt hm hgt] at this
        simp [Memory.get] at this

/-- A Deserialize keeps the images of the machine and gives every other byte of the snapshot (R9, R64, R65). -/
theorem get_restoredMem (now : List Host.Cell) {cells : List Host.Cell} (h : Memory.wf cells = true) (a : Nat) :
    Memory.get (restoredMem now cells) a = if isImageCell a then Memory.get now a else Memory.get cells a := by
  unfold restoredMem
  rw [Memory.get_load _ (Memory.wf_filter _ h), Memory.get_filter cells fun k => !isImageCell k, Memory.get_filter]
  cases isImageCell a <;> simp

theorem restoredMem_wf {now : List Host.Cell} (cells : List Host.Cell) (h : Memory.wf now = true) :
    Memory.wf (restoredMem now cells) = true := Memory.wf_load _ (Memory.wf_filter _ h)

/-- Put back on the machine it was taken from, a snapshot gives that machine (R64, R65). -/
theorem State.deserialize_serialize {s : State} (hm : Memory.wf s.bus.mem = true)
    (hc : (Psr.ofWord s.cpsr.toWord).restore = some s.cpsr) (ha : alignTo s.width s.pipe.cursor = s.pipe.cursor) :
    s.deserialize s.serialize = .next s := by
  have hmem : restoredMem s.bus.mem s.serialize.mem = s.bus.mem := by
    refine Memory.ext (restoredMem_wf _ hm) hm fun a => ?_
    show Memory.get (restoredMem s.bus.mem (s.bus.mem.filter fun x => !isImageCell x.1)) a = _
    rw [get_restoredMem _ (Memory.wf_filter _ hm), Memory.get_filter _ fun k => !isImageCell k]
    cases isImageCell a <;> rfl
  have hbus : s.bus.restored s.serialize = s.bus := by
    unfold Bus.restored
    rw [hmem]
    rfl
  have hf : s.faulted.or s.serialize.faulted = s.faulted := by
    show s.faulted.or s.faulted = s.faulted
    cases s.faulted <;> rfl
  unfold State.deserialize
  rw [show s.serialize.cpsr = s.cpsr.toWord from rfl, hc]
  dsimp only
  rw [if_pos (show alignTo (fetchWidth s.cpsr.t) s.serialize.pipe.cursor = s.serialize.pipe.cursor from ha), hbus, hf]
  rfl

/-! ## Wide writes -/

theorem storeByte_set (m : List Host.Cell) (a b : Nat) (v : Byte) :
    storeByte (Memory.set m a v) b = if b = a then v else storeByte m b := by
  unfold storeByte
  split
  · rename_i h
    rw [h, Memory.get_set_same]; rfl
  · rename_i h
    rw [Memory.get_set_other m a b v h]

theorem storeWrite_wf (m : List Host.Cell) (a : Nat) (w : Width) (v : Word) (h : Memory.wf m = true) :
    Memory.wf (storeWrite m a w v) = true := by
  cases w <;> simp only [storeWrite] <;> repeat (first | exact h | apply Memory.wf_set)

/-- A write leaves every byte outside its own as it was. -/
theorem storeByte_storeWrite_other (m : List Host.Cell) (a k : Nat) (w : Width) (v : Word)
    (h : k < a ∨ a + widthBytes w ≤ k) : storeByte (storeWrite m a w v) k = storeByte m k := by
  cases w <;> simp only [storeWrite, storeByte_set, widthBytes] at h ⊢ <;>
    repeat (first | rfl | rw [if_neg (by omega)])

/-- A write puts byte `j` of the value at byte `j`. -/
theorem storeByte_storeWrite (m : List Host.Cell) (a j : Nat) (w : Width) (v : Word) (h : j < widthBytes w) :
    storeByte (storeWrite m a w v) (a + j) = byteOf v j := by
  cases w <;> simp only [storeWrite, storeByte_set, widthBytes] at h ⊢
  · obtain rfl : j = 0 := by omega
    simp
  · obtain rfl | rfl : j = 0 ∨ j = 1 := by omega
    · simp
    · simp
  · obtain rfl | rfl | rfl | rfl : j = 0 ∨ j = 1 ∨ j = 2 ∨ j = 3 := by omega
    all_goals
      repeat (first | rfl | rw [if_pos (by omega)] | rw [if_neg (by omega)])

/-- A read of the bytes just written gives the value, at its width. -/
theorem storeRead_storeWrite (m : List Host.Cell) (a : Nat) (w : Width) (v : Word) :
    storeRead (storeWrite m a w v) a w =
      match w with
      | .byte => (v.setWidth 8).setWidth 32
      | .half => (v.setWidth 16).setWidth 32
      | .word => v := by
  have h := fun j hj => storeByte_storeWrite m a j w v hj
  cases w
  · have h0 := h 0 (by decide)
    simp only [storeRead, Nat.add_zero] at h0 ⊢
    rw [h0]
    apply BitVec.eq_of_getLsbD_eq
    intro i hi
    simp [byteOf]
  · have h0 := h 0 (by decide)
    have h1 := h 1 (by decide)
    simp only [storeRead, Nat.add_zero] at h0 ⊢
    rw [h0, h1]
    apply BitVec.eq_of_getLsbD_eq
    intro i hi
    simp only [byteOf, BitVec.getLsbD_setWidth, BitVec.getLsbD_append, BitVec.getLsbD_extractLsb', hi, decide_true,
      Bool.true_and]
    by_cases h2 : i < 8
    · simp [h2, show i < 16 by omega]
    · by_cases h3 : i < 16
      · simp only [h2, h3, if_false, show i - 8 < 8 by omega, decide_true, Bool.true_and]
        congr 1
        omega
      · simp [h2, h3, show ¬ i - 8 < 8 by omega]
  · have h0 := h 0 (by decide)
    have h1 := h 1 (by decide)
    have h2 := h 2 (by decide)
    have h3 := h 3 (by decide)
    simp only [storeRead, Nat.add_zero] at h0 ⊢
    rw [h0, h1, h2, h3]
    apply BitVec.eq_of_getLsbD_eq
    intro i hi
    simp only [byteOf, BitVec.getLsbD_append, BitVec.getLsbD_extractLsb']
    split
    · rename_i h0
      simp [h0]
    · split
      · rename_i h0 h1
        simp only [h1, decide_true, Bool.true_and]
        congr 1
        omega
      · split
        · rename_i h0 h1 h2
          simp only [h2, decide_true, Bool.true_and]
          congr 1
          omega
        · simp only [show i - 8 - 8 - 8 < 8 by omega, decide_true, Bool.true_and]
          congr 1
          omega

theorem regionStore_wf (p : Params) (m : List Host.Cell) (r : Region) (off : Nat) (w : Width) (v : Word)
    (h : Memory.wf m = true) : Memory.wf (regionStore p m r off w v) = true := by
  simp only [regionStore, videoByteStore]
  repeat' split
  all_goals first | exact h | exact storeWrite_wf _ _ _ _ h

theorem reset_memory_wf : Memory.wf State.reset.bus.mem = true := rfl

end Sys2Proof.Machine
end

