-- ==== Sys2Proof/Laws/Bus.lean ====
section
/-! SUPPORT. What each operation of the bus keeps: the parameters, the running callback, and the form that Bus.Inv asks for; and what it does in a quiet stretch. -/

namespace Sys2Proof.Machine

/-! ## The form of the bus -/

/-- Bus.Inv but for the running callback. -/
structure Bus.Form (b : Bus) : Prop where
  memory : Memory.wf b.mem = true
  reserved13 : b.waitcnt.getLsbD 13 = false
  reserved15 : b.waitcnt.getLsbD 15 = false
  order : b.queue.Pairwise fun e f => e.seq < f.seq
  fresh : ∀ e ∈ b.queue, e.seq < b.nextSeq
  capacity : b.queue.length ≤ b.params.schedCapacity

theorem Bus.Inv.form {b : Bus} (h : b.Inv) : b.Form := ⟨h.memory, h.reserved13, h.reserved15, h.order, h.fresh, h.capacity⟩

theorem Bus.Form.inv {b : Bus} (h : b.Form) (hr : b.running = none) : b.Inv :=
  ⟨h.memory, h.reserved13, h.reserved15, hr, h.order, h.fresh, h.capacity⟩

/-- What a bus becomes under any operation of the bus: the parameters and the running callback stay, the form is kept. -/
structure Bus.Follows (b b' : Bus) : Prop where
  running : b'.running = b.running
  params : b'.params = b.params
  form : b.Form → b'.Form

theorem Bus.Follows.refl (b : Bus) : b.Follows b := ⟨rfl, rfl, id⟩

theorem Bus.Follows.trans {a b c : Bus} (h1 : a.Follows b) (h2 : b.Follows c) : a.Follows c :=
  ⟨h2.running.trans h1.running, h2.params.trans h1.params, fun h => h2.form (h1.form h)⟩

theorem Bus.Follows.inv {b b' : Bus} (h : b.Follows b') (hi : b.Inv) : b'.Inv :=
  (h.form hi.form).inv (h.running.trans hi.idle)

/-- Two buses that differ only where the form does not look. -/
theorem Bus.Follows.of_eq {b b' : Bus} (hr : b'.running = b.running) (hp : b'.params = b.params) (hm : b'.mem = b.mem)
    (hw : b'.waitcnt = b.waitcnt) (hq : b'.queue = b.queue) (hn : b'.nextSeq = b.nextSeq) : b.Follows b' :=
  ⟨hr, hp, fun h => ⟨hm ▸ h.memory, hw ▸ h.reserved13, hw ▸ h.reserved15, hq ▸ h.order, hq ▸ hn ▸ h.fresh,
    hq ▸ hp ▸ h.capacity⟩⟩

/-! ## Reads -/

/-- What a read without its cost leaves: all but the latch and the draw counter. -/
theorem Bus.valueRead_frame (b : Bus) (a : Word) (w : Width) :
    ∃ ob draws, (b.valueRead a w).2 = { b with ob := ob, draws := draws } := by
  unfold Bus.valueRead
  split
  · exact ⟨b.ob, b.draws, rfl⟩
  · split
    · exact ⟨b.ob, b.draws, rfl⟩
    · split
      · exact ⟨_, _, rfl⟩
      · exact ⟨_, _, rfl⟩
      · exact ⟨_, b.draws, rfl⟩

theorem Bus.valueRead_follows (b : Bus) (a : Word) (w : Width) : b.Follows (b.valueRead a w).2 := by
  obtain ⟨ob, draws, h⟩ := b.valueRead_frame a w
  rw [h]
  exact .of_eq rfl rfl rfl rfl rfl rfl

theorem Bus.charge_follows (b : Bus) (wr : Bool) (k : AccessKind) (x : Word) (w : Width) (v : Word) (sq : Bool) (c : Nat) :
    b.Follows (b.charge wr k x w v sq c) := .of_eq rfl rfl rfl rfl rfl rfl

/-! ## Writes -/

/-- A write of WAITCNT's low byte leaves its high bits. -/
theorem highByte_keep (wc : BitVec 16) (v : Byte) (i : Nat) (h1 : 8 ≤ i) (h2 : i < 16) :
    (wc.extractLsb' 8 8 ++ v).getLsbD i = wc.getLsbD i := by
  rw [BitVec.getLsbD_append, if_neg (by omega), BitVec.getLsbD_extractLsb']
  simp only [show i - 8 < 8 by omega, decide_true, Bool.true_and]
  congr 1
  omega

/-- A write of WAITCNT's high byte leaves bits 13 and 15 zero. -/
theorem highByte_masked (wc : BitVec 16) (v : Byte) (i : Nat) (h : i = 13 ∨ i = 15) :
    ((v &&& 0x5F#8) ++ wc.extractLsb' 0 8).getLsbD i = false := by
  rcases h with rfl | rfl <;> rw [BitVec.getLsbD_append, if_neg (by omega), BitVec.getLsbD_and] <;> simp

theorem Bus.portWriteByte_form (b : Bus) (o : Nat) (v : Byte) : b.Follows (b.portWriteByte o v) := by
  unfold Bus.portWriteByte
  split
  · split
    · refine ⟨rfl, rfl, fun h => ⟨h.memory, ?_, ?_, h.order, h.fresh, h.capacity⟩⟩
      · rw [← h.reserved13]
        exact highByte_keep b.waitcnt v 13 (by omega) (by omega)
      · rw [← h.reserved15]
        exact highByte_keep b.waitcnt v 15 (by omega) (by omega)
    · exact ⟨rfl, rfl, fun h => ⟨h.memory, highByte_masked _ _ 13 (.inl rfl), highByte_masked _ _ 15 (.inr rfl),
        h.order, h.fresh, h.capacity⟩⟩
    · exact .refl b
  · exact .of_eq rfl rfl rfl rfl rfl rfl

theorem Bus.portWrite_follows (b : Bus) (o : Nat) (w : Width) (v : Word) : b.Follows (b.portWrite o w v) := by
  unfold Bus.portWrite
  generalize List.range (widthBytes w) = ks
  induction ks generalizing b with
  | nil => exact .refl b
  | cons k ks ih => exact (b.portWriteByte_form _ _).trans (ih _)

/-- What a port write leaves: all but the port table and WAITCNT. -/
theorem Bus.portWrite_frame (b : Bus) (o : Nat) (w : Width) (v : Word) :
    ∃ ports waitcnt, b.portWrite o w v = { b with ports := ports, waitcnt := waitcnt } := by
  have hbyte : ∀ (b : Bus) (o : Nat) (v : Byte), ∃ ports waitcnt, b.portWriteByte o v = { b with ports := ports, waitcnt := waitcnt } := by
    intro b o v
    unfold Bus.portWriteByte
    split
    · split
      · exact ⟨b.ports, _, rfl⟩
      · exact ⟨b.ports, _, rfl⟩
      · exact ⟨b.ports, b.waitcnt, rfl⟩
    · exact ⟨_, b.waitcnt, rfl⟩
  unfold Bus.portWrite
  generalize List.range (widthBytes w) = ks
  induction ks generalizing b with
  | nil => exact ⟨b.ports, b.waitcnt, rfl⟩
  | cons k ks ih =>
    obtain ⟨p1, c1, h1⟩ := hbyte b (o + k) (byteOf v k)
    obtain ⟨p2, c2, h2⟩ := ih (b.portWriteByte (o + k) (byteOf v k))
    refine ⟨p2, c2, ?_⟩
    rw [List.foldl_cons, h2, h1]

/-- The timestamp takes no part in the value part of a store. -/
theorem Bus.valueWrite_ts (b : Bus) (n : Nat) (a : Word) (w : Width) (v : Word) :
    ({ b with ts := n } : Bus).valueWrite a w v = ((b.valueWrite a w v).1, { (b.valueWrite a w v).2 with ts := n }) := by
  have hbyte : ∀ (b : Bus) (o : Nat) (v : Byte), ({ b with ts := n } : Bus).portWriteByte o v = { b.portWriteByte o v with ts := n } := by
    intro b o v
    unfold Bus.portWriteByte
    split
    · split <;> rfl
    · rfl
  have hport : ∀ (b : Bus) (o : Nat), ({ b with ts := n } : Bus).portWrite o w v = { b.portWrite o w v with ts := n } := by
    intro b o
    unfold Bus.portWrite
    generalize List.range (widthBytes w) = ks
    induction ks generalizing b with
    | nil => rfl
    | cons k ks ih => rw [List.foldl_cons, List.foldl_cons, hbyte, ih]
  unfold Bus.valueWrite
  dsimp only
  split
  · rfl
  · split
    · rfl
    · split
      · rw [hport { b with ob := replicate w v }]
      · rfl
      · rfl

theorem Bus.valueWrite_follows (b : Bus) (a : Word) (w : Width) (v : Word) : b.Follows (b.valueWrite a w v).2 := by
  unfold Bus.valueWrite
  split
  · exact .refl b
  · split
    · exact .of_eq rfl rfl rfl rfl rfl rfl
    · split
      · have h : b.Follows { b with ob := replicate w v } := .of_eq rfl rfl rfl rfl rfl rfl
        exact h.trans (Bus.portWrite_follows _ _ _ _)
      · exact .of_eq rfl rfl rfl rfl rfl rfl
      · exact ⟨rfl, rfl, fun h => ⟨regionStore_wf _ _ _ _ _ _ h.memory, h.reserved13, h.reserved15, h.order, h.fresh,
          h.capacity⟩⟩

/-! ## Callbacks, `DEVICE` and the scheduler -/

/-- Calling `DEVICE` draws its answers and changes nothing else. -/
theorem Bus.deviceActions_frame (b : Bus) (calls : List DeviceCall) :
    (b.deviceActions calls).2 = { b with draws := b.draws + calls.length } := by
  induction calls generalizing b with
  | nil => rfl
  | cons c calls ih =>
    simp only [Bus.deviceActions, ih, List.length_cons, Bus.mk.injEq, true_and, and_true]
    omega

theorem Bus.deviceActions_follows (b : Bus) (calls : List DeviceCall) : b.Follows (b.deviceActions calls).2 := by
  rw [b.deviceActions_frame calls]
  exact .of_eq rfl rfl rfl rfl rfl rfl

theorem Bus.schedule_follows {b : Bus} {rel cat cb ctx : Nat} {rc : Bool} {x : Bool × Bus}
    (h : b.schedule rel cat cb ctx rc = .next x) : b.Follows x.2 := by
  unfold Bus.schedule at h
  split at h
  · cases h; exact .refl _
  · split at h
    · cases h
    · rename_i hc
      cases h
      refine ⟨rfl, rfl, fun h => ⟨h.memory, h.reserved13, h.reserved15, ?_, ?_, ?_⟩⟩
      · simp only [List.pairwise_append, List.pairwise_cons, List.not_mem_nil, false_implies, implies_true,
          List.Pairwise.nil, and_true, List.mem_singleton, forall_eq, true_and]
        exact ⟨h.order, fun e he => h.fresh e he⟩
      · intro e he
        rcases List.mem_append.mp he with he | he
        · exact Nat.lt_succ_of_lt (h.fresh e he)
        · rw [List.mem_singleton.mp he]; exact Nat.lt_succ_self _
      · simp only [List.length_append, List.length_singleton]
        omega

/-- A queue from which events were taken keeps the form. -/
theorem Bus.Form.of_sublist {b : Bus} {q : List Event} (h : b.Form) (hq : q.Sublist b.queue) : ({ b with queue := q } : Bus).Form :=
  ⟨h.memory, h.reserved13, h.reserved15, h.order.sublist hq, fun e he => h.fresh e (hq.subset he),
    Nat.le_trans hq.length_le h.capacity⟩

theorem Bus.deschedule_follows (b : Bus) (cat : Nat) : b.Follows (b.deschedule cat) :=
  ⟨rfl, rfl, fun h => h.of_sublist List.filter_sublist⟩

theorem Bus.record_follows (b : Bus) (x : Access) : b.Follows (b.record x) := .of_eq rfl rfl rfl rfl rfl rfl

theorem Bus.otherRead_follows (b : Bus) (a : Word) (w : Width) : b.Follows (b.otherRead a w) :=
  (b.valueRead_follows a w).trans (Bus.record_follows _ _)

theorem Bus.otherWrite_follows (b : Bus) (a : Word) (w : Width) (v : Word) : b.Follows (b.otherWrite a w v) :=
  (b.valueWrite_follows a w v).trans (Bus.record_follows _ _)

theorem Bus.perform_follows {b : Bus} {limit : Option Nat} {a : Action} {x : List Action × Bus}
    (h : b.perform limit a = .next x) : b.Follows x.2 := by
  cases a with
  | read addr w => cases h; exact (b.otherRead_follows addr w).trans (Bus.deviceActions_follows _ _)
  | write addr w v => cases h; exact (b.otherWrite_follows addr w v).trans (Bus.deviceActions_follows _ _)
  | setPort o v =>
    cases h
    dsimp only
    split
    · exact .refl b
    · exact .of_eq rfl rfl rfl rfl rfl rfl
  | schedule rel cat cb ctx rc =>
    unfold Bus.perform at h
    dsimp only at h
    split at h
    · obtain ⟨y, hy, hx⟩ := andThen_next h
      cases hx
      exact Bus.schedule_follows hy
    · cases h; exact .refl _
  | deschedule cat => cases h; exact b.deschedule_follows cat
  | setIrqLine level => cases h; exact .of_eq rfl rfl rfl rfl rfl rfl
  | requestHalt => cases h; exact .of_eq rfl rfl rfl rfl rfl rfl

theorem runEach_follows {run : Action → Bus → BusResult Bus} (hrun : ∀ a b b', run a b = .next b' → b.Follows b')
    {acts : List Action} {b b' : Bus} (h : runEach run acts b = .next b') : b.Follows b' := by
  induction acts generalizing b with
  | nil => cases h; exact .refl _
  | cons a acts ih =>
    obtain ⟨c, hc, h⟩ := andThen_next h
    exact (hrun a b c hc).trans (ih h)

theorem runActions_follows {nesting : Nat} {limit : Option Nat} {acts : List Action} {b b' : Bus}
    (h : runActions nesting limit acts b = .next b') : b.Follows b' := by
  induction nesting generalizing acts b b' with
  | zero =>
    refine runEach_follows (fun a b b' h => ?_) h
    obtain ⟨x, hx, h⟩ := andThen_next h
    cases h
    exact Bus.perform_follows hx
  | succ d ih =>
    refine runEach_follows (fun a b b' h => ?_) h
    obtain ⟨x, hx, h⟩ := andThen_next h
    exact (Bus.perform_follows hx).trans (ih h)

/-- No action is no change, at any depth. -/
@[simp] theorem runActions_nil (nesting : Nat) (limit : Option Nat) (b : Bus) : runActions nesting limit [] b = .next b := by
  cases nesting <;> rfl

theorem Bus.call_follows {b b' : Bus} {calls : List DeviceCall} (h : b.call calls = .next b') : b.Follows b' := by
  unfold Bus.call at h
  split at h
  · cases h; exact .refl _
  · exact (b.deviceActions_follows _).trans (runActions_follows h)

/-- Firing an event leaves no callback running and keeps the form. -/
theorem Bus.fire_follows {b b' : Bus} {n : Nat} {e : Event} (hr : b.running = none) (h : b.fire n e = .next b') :
    b.Follows b' := by
  obtain ⟨c, hc, h⟩ := andThen_next h
  cases h
  have h1 := runActions_follows hc
  refine ⟨hr.symm, h1.params, fun hf => ?_⟩
  have h2 := h1.form ⟨hf.memory, hf.reserved13, hf.reserved15, hf.order.sublist List.erase_sublist,
    fun e he => hf.fresh e (List.erase_sublist.subset he), Nat.le_trans List.erase_sublist.length_le hf.capacity⟩
  exact ⟨h2.memory, h2.reserved13, h2.reserved15, h2.order, h2.fresh, h2.capacity⟩

theorem fireDue_follows {n : Nat} {b b' : Bus} (hr : b.running = none) (h : fireDue n b = .next b') : b.Follows b' := by
  induction n generalizing b with
  | zero => cases h; exact .refl _
  | succ n ih =>
    unfold fireDue at h
    split at h
    · cases h; exact .refl _
    · obtain ⟨c, hc, h⟩ := andThen_next h
      have h1 := Bus.fire_follows hr hc
      exact h1.trans (ih (h1.running.trans hr) h)

theorem Bus.later_follows (b : Bus) (c : Nat) : b.Follows (b.later c) := .of_eq rfl rfl rfl rfl rfl rfl

theorem Bus.advance_follows {b b' : Bus} {c : Nat} (hr : b.running = none) (h : b.advance c = .next b') : b.Follows b' := by
  unfold Bus.advance at h
  split at h
  · cases h; exact b.later_follows c
  · exact (b.later_follows c).trans (fireDue_follows hr h)

/-! ## The observation -/

/-- What a store's value part leaves: all but the store, the port table, WAITCNT and the latch. -/
theorem Bus.valueWrite_frame (b : Bus) (a : Word) (w : Width) (v : Word) :
    ∃ mem ports waitcnt ob, (b.valueWrite a w v).2 = { b with mem := mem, ports := ports, waitcnt := waitcnt, ob := ob } := by
  unfold Bus.valueWrite
  split
  · exact ⟨b.mem, b.ports, b.waitcnt, b.ob, rfl⟩
  · rename_i r _
    split
    · exact ⟨b.mem, b.ports, b.waitcnt, _, rfl⟩
    · split
      · obtain ⟨p, c, h⟩ := Bus.portWrite_frame { b with ob := replicate w v } (regionOffset b.params r (alignTo w a)) w v
        exact ⟨b.mem, p, c, replicate w v, h⟩
      · exact ⟨b.mem, b.ports, b.waitcnt, _, rfl⟩
      · exact ⟨_, b.ports, b.waitcnt, _, rfl⟩

/-- Every access observed in `b` is still observed in what `r` leaves, be it a next bus or a fault (R67, R155). -/
def Bus.Observed (b : Bus) (r : BusResult Bus) : Prop := ∀ b', r = .next b' ∨ r = .fault b' → b.trace <+: b'.trace

theorem Bus.Observed.next {b b' : Bus} (h : b.trace <+: b'.trace) : b.Observed (.next b') := by
  rintro c (hc | hc) <;> cases hc
  exact h

theorem Bus.Observed.andThen {α : Type} {b : Bus} {r : BusResult α} {k : α → BusResult Bus}
    (hf : ∀ b', r = .fault b' → b.trace <+: b'.trace) (hk : ∀ x, r = .next x → b.Observed (k x)) :
    b.Observed (Machine.andThen r k) := by
  cases r with
  | next x => exact hk x rfl
  | fault c =>
    rintro b' (h | h) <;> cases h
    exact hf _ rfl
  | refused e => rintro b' (h | h) <;> cases h

theorem Bus.schedule_trace {b : Bus} {rel cat cb ctx : Nat} {rc : Bool} :
    (∀ x, b.schedule rel cat cb ctx rc = .next x → x.2.trace = b.trace) ∧
      ∀ b', b.schedule rel cat cb ctx rc = .fault b' → b' = b := by
  unfold Bus.schedule
  split
  · exact ⟨fun x h => (by cases h; rfl), fun _ h => (by cases h)⟩
  · split
    · exact ⟨fun _ h => (by cases h), fun _ h => by cases h; rfl⟩
    · exact ⟨fun x h => (by cases h; rfl), fun _ h => (by cases h)⟩

theorem Bus.otherRead_trace (b : Bus) (a : Word) (w : Width) : b.trace <+: (b.otherRead a w).trace := by
  obtain ⟨ob, draws, h⟩ := b.valueRead_frame a w
  unfold Bus.otherRead
  rw [h]
  exact List.prefix_append _ _

theorem Bus.otherWrite_trace (b : Bus) (a : Word) (w : Width) (v : Word) : b.trace <+: (b.otherWrite a w v).trace := by
  obtain ⟨mem, ports, wc, ob, h⟩ := b.valueWrite_frame a w v
  unfold Bus.otherWrite
  rw [h]
  exact List.prefix_append _ _

theorem Bus.perform_trace {b : Bus} {limit : Option Nat} {a : Action} :
    (∀ x, b.perform limit a = .next x → b.trace <+: x.2.trace) ∧ ∀ b', b.perform limit a = .fault b' → b' = b := by
  cases a with
  | read addr w =>
    refine ⟨fun x h => ?_, fun _ h => (by cases h)⟩
    cases h
    rw [Bus.deviceActions_frame]
    exact b.otherRead_trace addr w
  | write addr w v =>
    refine ⟨fun x h => ?_, fun _ h => (by cases h)⟩
    cases h
    rw [Bus.deviceActions_frame]
    exact b.otherWrite_trace addr w v
  | setPort o v =>
    refine ⟨fun x h => ?_, fun _ h => (by cases h)⟩
    cases h
    dsimp only
    split <;> exact List.prefix_rfl
  | schedule rel cat cb ctx rc =>
    unfold Bus.perform
    dsimp only
    split
    · cases hs : b.schedule rel cat cb ctx rc with
      | next y => exact ⟨fun x h => (by cases h; rw [Bus.schedule_trace.1 y hs]), fun _ h => (by cases h)⟩
      | fault c => exact ⟨fun _ h => (by cases h), fun b' h => by cases h; exact Bus.schedule_trace.2 _ hs⟩
      | refused e => exact ⟨fun _ h => (by cases h), fun _ h => (by cases h)⟩
    · exact ⟨fun x h => (by cases h; exact List.prefix_rfl), fun _ h => (by cases h)⟩
  | deschedule cat => exact ⟨fun x h => (by cases h; exact List.prefix_rfl), fun _ h => (by cases h)⟩
  | setIrqLine level => exact ⟨fun x h => (by cases h; exact List.prefix_rfl), fun _ h => (by cases h)⟩
  | requestHalt => exact ⟨fun x h => (by cases h; exact List.prefix_rfl), fun _ h => (by cases h)⟩

theorem Bus.Observed.trans {b c : Bus} {r : BusResult Bus} (h : b.trace <+: c.trace) (hc : c.Observed r) : b.Observed r :=
  fun b' hb => h.trans (hc b' hb)

theorem runEach_observed {run : Action → Bus → BusResult Bus} (hrun : ∀ (a : Action) (b : Bus), b.Observed (run a b)) (acts : List Action)
    (b : Bus) : b.Observed (runEach run acts b) := by
  induction acts generalizing b with
  | nil => exact .next List.prefix_rfl
  | cons a acts ih => exact .andThen (fun b' h => hrun a b b' (.inr h)) fun c hc => .trans (hrun a b c (.inl hc)) (ih c)

theorem runActions_observed (nesting : Nat) (limit : Option Nat) (acts : List Action) (b : Bus) :
    b.Observed (runActions nesting limit acts b) := by
  induction nesting generalizing acts b with
  | zero =>
    exact runEach_observed (fun a b => .andThen (fun b' h => Bus.perform_trace.2 b' h ▸ List.prefix_rfl) fun x hx =>
      .next (Bus.perform_trace.1 x hx)) acts b
  | succ d ih =>
    exact runEach_observed (fun a b => .andThen (fun b' h => Bus.perform_trace.2 b' h ▸ List.prefix_rfl) fun x hx =>
      .trans (Bus.perform_trace.1 x hx) (ih x.1 x.2)) acts b

/-- What `DEVICE` does for an access, a fault included, leaves the access observed. -/
theorem Bus.call_observed (b : Bus) (calls : List DeviceCall) : b.Observed (b.call calls) := by
  unfold Bus.call
  split
  · exact .next List.prefix_rfl
  · exact .trans (by rw [Bus.deviceActions_frame]) (runActions_observed _ _ _ _)

/-! ## The accesses of the core -/

theorem Bus.readDeferred_follows {b b' : Bus} {k : AccessKind} {a : Word} {w : Width} {cont : Bool}
    (h : b.readDeferred k a w cont = .next b') : b.Follows b' :=
  ((b.valueRead_follows a w).trans (Bus.charge_follows _ _ _ _ _ _ _ _)).trans (Bus.call_follows h)

theorem Bus.read_follows {b : Bus} {k : AccessKind} {a : Word} {w : Width} {cont : Bool} {x : Word × Bus}
    (hr : b.running = none) (h : b.read k a w cont = .next x) : b.Follows x.2 := by
  obtain ⟨c, hc, h⟩ := andThen_next h
  obtain ⟨d, hd, h⟩ := andThen_next h
  cases h
  have h1 := Bus.readDeferred_follows hc
  exact h1.trans (Bus.advance_follows (h1.running.trans hr) hd)

theorem Bus.writeDeferred_follows {b b' : Bus} {a : Word} {w : Width} {v : Word} {cont : Bool}
    (h : b.writeDeferred a w v cont = .next b') : b.Follows b' :=
  ((b.valueWrite_follows a w v).trans (Bus.charge_follows _ _ _ _ _ _ _ _)).trans (Bus.call_follows h)

theorem Bus.write_follows {b b' : Bus} {a : Word} {w : Width} {v : Word} {block : Bool} (hr : b.running = none)
    (h : b.write a w v block = .next b') : b.Follows b' := by
  obtain ⟨c, hc, h⟩ := andThen_next h
  have h1 := Bus.writeDeferred_follows hc
  exact h1.trans (Bus.advance_follows (h1.running.trans hr) h)

theorem Bus.swap_follows {b : Bus} {a : Word} {w : Width} {v : Word} {x : Word × Bus} (hr : b.running = none)
    (h : b.swap a w v = .next x) : b.Follows x.2 := by
  obtain ⟨c, hc, h⟩ := andThen_next h
  obtain ⟨d, hd, h⟩ := andThen_next h
  obtain ⟨e, he, h⟩ := andThen_next h
  cases h
  have h1 := (Bus.readDeferred_follows hc).trans (Bus.writeDeferred_follows hd)
  exact h1.trans (Bus.advance_follows (h1.running.trans hr) he)

/-! ## Quiet stretches -/

theorem earliestDue_none {ts : Nat} {q : List Event} (h : ∀ e ∈ q, ts < e.time) : earliestDue ts q = none := by
  induction q with
  | nil => rfl
  | cons e q ih =>
    have he := h e List.mem_cons_self
    rw [earliestDue, ih fun x hx => h x (List.mem_cons_of_mem e hx)]
    exact if_neg (by omega)

/-- In a quiet stretch `Advance` only raises the timestamp. -/
theorem Bus.advance_quiet {b : Bus} {n c : Nat} (hq : b.Quiet n) (hc : c ≤ n) :
    b.advance c = .next { b with ts := b.ts + c } := by
  have h : earliestDue (b.ts + c) b.queue = none :=
    earliestDue_none fun e he => Nat.lt_of_le_of_lt (Nat.add_le_add_left hc b.ts) (hq e he)
  unfold Bus.advance Bus.later
  simp [h]

theorem waitFirst_le (n : Nat) : waitFirst n ≤ 8 := by
  unfold waitFirst
  split <;> omega

theorem firstWait_le (wc : BitVec 16) (r : Region) : firstWait wc r ≤ 8 := by
  cases r <;> first | exact waitFirst_le _ | exact Nat.zero_le _

theorem secondWait_le (wc : BitVec 16) (r : Region) : secondWait wc r ≤ 8 := by
  cases r <;> simp only [secondWait] <;> first | omega | (split <;> omega)

theorem costCycles_le {c : AccessCost} {x y : Nat} (hx : x ≤ 8) (hy : y ≤ 8) : costCycles c x y ≤ costMax c :=
  Nat.add_le_add (Nat.add_le_add_left (Nat.mul_le_mul_left _ hx) _) (Nat.mul_le_mul_left _ hy)

theorem rowCost_le (c : WaitRow) (w : Width) (sq : Bool) : costMax (rowCost c w sq) ≤ rowMax c := by
  unfold rowMax
  cases w <;> cases sq <;> simp only [rowCost] <;> omega

theorem le_foldr_max {α : Type} {f : α → Nat} {l : List α} {x : α} (h : x ∈ l) : f x ≤ l.foldr (fun y n => max (f y) n) 0 := by
  induction l with
  | nil => cases h
  | cons y l ih =>
    rcases List.mem_cons.mp h with rfl | h
    · exact Nat.le_max_left _ _
    · exact Nat.le_trans (ih h) (Nat.le_max_right _ _)

theorem regionCost_le (p : Params) (wc : BitVec 16) (r : Option Region) (w : Width) (sq : Bool) :
    regionCost p wc r w sq ≤ maxDataCost p := by
  have hr : rowMax (waitRow p r) ≤ maxDataCost p :=
    le_foldr_max (f := fun r => rowMax (waitRow p r)) (l := none :: allRegions.map some) (by
      cases r with
      | none => exact List.mem_cons_self
      | some r => cases r <;> decide)
  refine Nat.le_trans ?_ (Nat.le_trans (rowCost_le (waitRow p r) w sq) hr)
  cases r with
  | none => exact costCycles_le (Nat.zero_le _) (Nat.zero_le _)
  | some r => exact costCycles_le (firstWait_le wc r) (secondWait_le wc r)

/-- A data access is never served from the prefetch buffer (R106). -/
theorem Bus.accessCost_data (b : Bus) (x : Word) (w : Width) (block : Bool) :
    b.accessCost .data x w block = regionCost b.params b.waitcnt (regionOf b.params x) w (b.sequential .data x block) := by
  simp [Bus.accessCost, Bus.prefetchHit, Bus.prefetchBefore]

theorem Bus.costAt_data_le (b : Bus) (a : Word) (w : Width) (block : Bool) : b.costAt .data a w block ≤ maxDataCost b.params := by
  rw [Bus.costAt, Bus.accessCost_data]
  exact regionCost_le _ _ _ _ _

/-! ## `DEVICE` at rest -/

theorem Bus.deviceActions_silent (b : Bus) {calls : List DeviceCall} (h : SilentCalls calls) :
    b.deviceActions calls = ([], { b with draws := b.draws + calls.length }) := by
  have h2 := b.deviceActions_frame calls
  have h1 : (b.deviceActions calls).1 = [] := by
    clear h2
    induction calls generalizing b with
    | nil => rfl
    | cons c calls ih =>
      simp only [Bus.deviceActions, h c List.mem_cons_self, List.nil_append]
      exact ih _ fun x hx => h x (List.mem_cons_of_mem c hx)
  exact Prod.ext h1 h2

/-- Calls for which `DEVICE` does nothing only draw its answers. -/
theorem Bus.call_silent (b : Bus) {calls : List DeviceCall} (h : SilentCalls calls) :
    b.call calls = .next { b with draws := b.draws + calls.length } := by
  unfold Bus.call
  split
  · rfl
  · rw [b.deviceActions_silent h, runActions_nil]

/-- A read for which `DEVICE` does nothing, before its `Advance`. -/
theorem Bus.readDeferred_calm {b : Bus} {a : Word} {w : Width} {block : Bool} (hm : b.Calm a w) :
    b.readDeferred .data a w block = .next { b.readResult a w block with ts := b.ts } := by
  obtain ⟨ob, draws, hf⟩ := b.valueRead_frame a w
  unfold Bus.readDeferred
  rw [Bus.call_silent _ hm]
  simp [Bus.readResult, Bus.charge, hf]

/-- A store for which `DEVICE` does nothing, before its `Advance`. -/
theorem Bus.writeDeferred_silent {b : Bus} {a : Word} {w : Width} {v : Word} {block : Bool} (hs : b.Silent a w) :
    b.writeDeferred a w v block = .next { b.writeResult a w v block with ts := b.ts } := by
  obtain ⟨mem, ports, wc, ob, hf⟩ := b.valueWrite_frame a w v
  unfold Bus.writeDeferred
  rw [Bus.call_silent _ (hs v)]
  simp [Bus.writeResult, Bus.charge, hf]

theorem Bus.readResult_frame (b : Bus) (a : Word) (w : Width) (block : Bool) :
    (b.readResult a w block).mem = b.mem ∧ (b.readResult a w block).ports = b.ports ∧
      (b.readResult a w block).waitcnt = b.waitcnt ∧ (b.readResult a w block).queue = b.queue ∧
      (b.readResult a w block).nextSeq = b.nextSeq ∧ (b.readResult a w block).running = b.running ∧
      (b.readResult a w block).halted = b.halted ∧ (b.readResult a w block).irqLine = b.irqLine ∧
      (b.readResult a w block).params = b.params := by
  obtain ⟨ob, draws, hf⟩ := b.valueRead_frame a w
  unfold Bus.readResult
  rw [hf]
  exact ⟨rfl, rfl, rfl, rfl, rfl, rfl, rfl, rfl, rfl⟩

theorem Bus.writeResult_frame (b : Bus) (a : Word) (w : Width) (v : Word) (block : Bool) :
    (b.writeResult a w v block).params = b.params ∧ (b.writeResult a w v block).queue = b.queue := by
  obtain ⟨mem, ports, wc, ob, hf⟩ := b.valueWrite_frame a w v
  unfold Bus.writeResult
  rw [hf]
  exact ⟨rfl, rfl⟩

theorem Bus.writeResult_params (b : Bus) (a : Word) (w : Width) (v : Word) (block : Bool) :
    (b.writeResult a w v block).params = b.params := (b.writeResult_frame a w v block).1

/-- A core read in a quiet stretch. -/
theorem Bus.read_quiet {b : Bus} {n : Nat} {a : Word} {w : Width} {block : Bool} (hm : b.Calm a w) (hq : b.Quiet n)
    (hn : maxDataCost b.params ≤ n) : b.read .data a w block = .next ((b.valueRead a w).1, b.readResult a w block) := by
  have hqu : ({ b.readResult a w block with ts := b.ts } : Bus).Quiet n := by
    unfold Bus.Quiet
    rw [(b.readResult_frame a w block).2.2.2.1]
    exact hq
  unfold Bus.read
  rw [Bus.readDeferred_calm hm, andThen_of_next, Bus.advance_quiet hqu (Nat.le_trans (b.costAt_data_le a w block) hn)]
  rfl

/-- A core write in a quiet stretch. -/
theorem Bus.write_quiet {b : Bus} {n : Nat} {a : Word} {w : Width} {v : Word} {block : Bool} (hs : b.Silent a w)
    (hq : b.Quiet n) (hn : maxDataCost b.params ≤ n) : b.write a w v block = .next (b.writeResult a w v block) := by
  have hqu : ({ b.writeResult a w v block with ts := b.ts } : Bus).Quiet n := by
    unfold Bus.Quiet
    rw [(b.writeResult_frame a w v block).2]
    exact hq
  unfold Bus.write
  rw [Bus.writeDeferred_silent hs, andThen_of_next, Bus.advance_quiet hqu (Nat.le_trans (b.costAt_data_le a w block) hn)]
  rfl

/-- What a store asks of `DEVICE`, read off the parameters and the port table (R89, R94). -/
def writeCallsAt (p : Params) (ports : List PortReg) (a : Word) (w : Width) (v : Word) : List DeviceCall :=
  match regionOf p (alignTo w a) with
  | none => []
  | some r =>
    if pastSize p r (alignTo w a) w then []
    else
      match regionTarget p r with
      | .ports => interceptsOf ports (regionOffset p r (alignTo w a)) w
      | .device => [.saveWrite a (deviceByte a w v)]
      | .store => []

theorem Bus.valueWrite_calls (b : Bus) (a : Word) (w : Width) (v : Word) :
    (b.valueWrite a w v).1 = writeCallsAt b.params b.ports a w v := by
  unfold Bus.valueWrite writeCallsAt
  cases regionOf b.params (alignTo w a) with
  | none => rfl
  | some r =>
    by_cases hp : pastSize b.params r (alignTo w a) w = true
    · simp only [hp, if_true]
    · simp only [hp]
      cases regionTarget b.params r <;> rfl

/-- What a store asks of `DEVICE` depends on the parameters and the port table only. -/
theorem Bus.Silent.congr {b b' : Bus} {a : Word} {w : Width} (h : b.Silent a w) (hp : b'.params = b.params)
    (hi : ∀ v, writeCallsAt b.params b'.ports a w v = writeCallsAt b.params b.ports a w v) : b'.Silent a w := by
  intro v
  rw [Bus.valueWrite_calls, hp, hi, ← Bus.valueWrite_calls b a w v]
  exact h v

/-- What a read asks of `DEVICE` depends on the parameters and the port table only. -/
theorem Bus.Calm.congr {b b' : Bus} {a : Word} {w : Width} (h : b.Calm a w) (hp : b'.params = b.params)
    (hi : b'.ports = b.ports) : b'.Calm a w := by
  unfold Bus.Calm Bus.readCalls at h ⊢
  rw [hp, hi]
  exact h

/-- A read leaves what a store would ask of `DEVICE`. -/
theorem Bus.silent_readResult {b : Bus} {a a' : Word} {w w' : Width} {block : Bool} (h : b.Silent a w) :
    (b.readResult a' w' block).Silent a w := by
  have hf := b.readResult_frame a' w' block
  exact h.congr hf.2.2.2.2.2.2.2.2 fun v => by rw [hf.2.1]

/-- The timestamp takes no part in a store but where it is raised. -/
theorem Bus.writeResult_ts (b : Bus) (n : Nat) (a : Word) (w : Width) (v : Word) (block : Bool) :
    ({ b with ts := n } : Bus).writeResult a w v block =
      { b.writeResult a w v block with ts := n + b.costAt .data a w block } := by
  unfold Bus.writeResult
  rw [b.valueWrite_ts n a w v]
  rfl

/-- A swap for which `DEVICE` does nothing: nothing fires between its read and its write, and both costs are advanced
after the write (R115). -/
theorem Bus.swap_silent {b : Bus} {a : Word} {w : Width} {v : Word} (hm : b.Calm a w) (hs : b.Silent a w) :
    b.swap a w v =
      andThen (({ (b.readResult a w false).writeResult a w v false with ts := b.ts } : Bus).advance
        (b.costAt .data a w false + (b.readResult a w false).costAt .data a w false)) fun b' =>
          .next ((b.valueRead a w).1, b') := by
  have hs' : ({ b.readResult a w false with ts := b.ts } : Bus).Silent a w :=
    (Bus.silent_readResult (a' := a) (w' := w) (block := false) hs).congr rfl fun _ => rfl
  unfold Bus.swap
  rw [Bus.readDeferred_calm hm, andThen_of_next, Bus.writeDeferred_silent hs', andThen_of_next, Bus.writeResult_ts]
  rfl

/-- A swap in a quiet stretch. -/
theorem Bus.swap_quiet {b : Bus} {n : Nat} {a : Word} {w : Width} {v : Word} (hm : b.Calm a w) (hs : b.Silent a w)
    (hq : b.Quiet n) (hn : 2 * maxDataCost b.params ≤ n) :
    b.swap a w v = .next ((b.valueRead a w).1, (b.readResult a w false).writeResult a w v false) := by
  have hf := b.readResult_frame a w false
  have hc1 := b.costAt_data_le a w false
  have hc2 := (b.readResult a w false).costAt_data_le a w false
  rw [hf.2.2.2.2.2.2.2.2] at hc2
  have hqu : ({ (b.readResult a w false).writeResult a w v false with ts := b.ts } : Bus).Quiet n := by
    unfold Bus.Quiet
    rw [((b.readResult a w false).writeResult_frame a w v false).2, hf.2.2.2.1]
    exact hq
  rw [Bus.swap_silent hm hs, Bus.advance_quiet hqu (by omega), andThen_of_next]
  have hts : ((b.readResult a w false).writeResult a w v false).ts =
      b.ts + (b.costAt .data a w false + (b.readResult a w false).costAt .data a w false) := by
    simp [Bus.writeResult, Bus.readResult]
    omega
  rw [← hts]

end Sys2Proof.Machine
end

