-- ==== Sys2Proof/Laws/Ops.lean ====
section
/-! SUPPORT. What each named operation of the machine does: what it keeps, and its answer in a quiet stretch. -/

namespace Sys2Proof.Machine

/-! ## What an operation of an instruction keeps -/

/-- What an instruction leaves of its state: the pipeline and the fault are untouched, the bus only follows (R42, R55),
and CPSR.T stands unless a flow is reported (R156). -/
structure State.Keeps (s t : State) : Prop where
  pipe : t.pipe = s.pipe
  faulted : t.faulted = s.faulted
  bus : s.bus.running = none → s.bus.Follows t.bus
  thumb : t.flow = none → s.flow = none ∧ t.cpsr.t = s.cpsr.t

theorem State.Keeps.refl (s : State) : s.Keeps s := ⟨rfl, rfl, fun _ => .refl _, fun h => ⟨h, rfl⟩⟩

theorem State.Keeps.trans {s t u : State} (h1 : s.Keeps t) (h2 : t.Keeps u) : s.Keeps u :=
  ⟨h2.pipe.trans h1.pipe, h2.faulted.trans h1.faulted,
    fun h => (h1.bus h).trans (h2.bus ((h1.bus h).running.trans h)),
    fun h => ⟨(h1.thumb (h2.thumb h).1).1, (h2.thumb h).2.trans (h1.thumb (h2.thumb h).1).2⟩⟩

/-- A change of registers, of flags, of saved status or of the draw counter, the encoding kept. -/
theorem State.Keeps.of_eq {s t : State} (hp : t.pipe = s.pipe) (hf : t.faulted = s.faulted) (hb : t.bus = s.bus)
    (hl : t.flow = s.flow) (ht : t.cpsr.t = s.cpsr.t) : s.Keeps t :=
  ⟨hp, hf, fun _ => hb ▸ .refl _, fun h => ⟨hl ▸ h, ht⟩⟩

/-- Whatever reports a flow may change the encoding. -/
theorem State.Keeps.of_flow {s t : State} {a : Word} (hp : t.pipe = s.pipe) (hf : t.faulted = s.faulted) (hb : t.bus = s.bus)
    (hl : t.flow = some a) : s.Keeps t :=
  ⟨hp, hf, fun _ => hb ▸ .refl _, fun h => by rw [hl] at h; cases h⟩

theorem State.branch_keeps (s : State) (a : Word) : s.Keeps (s.branch a) := .of_flow rfl rfl rfl rfl

theorem State.setXm_keeps (s : State) (m : Mode) (r : Reg) (v : Word) : s.Keeps (s.setXm m r v) := by
  by_cases h : r = 15#4
  · rw [h]; exact s.branch_keeps v
  · rw [s.setXm_of_ne m r v h]
    exact .of_eq rfl rfl rfl rfl rfl

theorem State.setReg_keeps (s : State) (r : Reg) (v : Word) : s.Keeps (s.setReg r v) := s.setXm_keeps _ r v

theorem State.setFlags_keeps (s : State) (sf : Bool) (p : Cpsr) (h : p.t = s.cpsr.t) : s.Keeps (s.setFlags sf p) := by
  cases sf
  · exact .refl s
  · exact .of_eq rfl rfl rfl rfl h

theorem State.setMulFlags_keeps (s : State) (r : Word) : s.Keeps (s.setMulFlags r) := .of_eq rfl rfl rfl rfl rfl

theorem State.setMulLongFlags_keeps (s : State) (r : BitVec 64) : s.Keeps (s.setMulLongFlags r) :=
  .of_eq rfl rfl rfl rfl rfl

theorem State.setSpsr_keeps (s : State) (m : Mode) (p : Psr) : s.Keeps (s.setSpsr m p) := by
  cases m <;> exact .of_eq rfl rfl rfl rfl rfl

theorem State.branchExchange_keeps (s : State) (a : Word) : s.Keeps (s.branchExchange a) := by
  unfold State.branchExchange
  split <;> exact .of_flow rfl rfl rfl rfl

/-- Taking an exception keeps the pipeline and the bus, and reports the vector. -/
theorem State.enterException_keeps (s : State) (e : Exception) (lr : Word) : s.Keeps (s.enterException e lr) := by
  refine .of_flow (a := e.vector) ?_ ?_ ?_ rfl <;> simp [State.enterException]

theorem State.raise_keeps (s : State) (e : Exception) : s.Keeps (s.raise e) := s.enterException_keeps e _

/-- A restore of CPSR changes nothing else, and the saved mode was a mode. -/
theorem State.restoreCpsr_next {s t : State} (h : s.restoreCpsr = .next t) :
    ∃ p c, s.spsrOf s.cpsr.mode = some p ∧ p.restore = some c ∧ t = { s with cpsr := c } := by
  unfold State.restoreCpsr at h
  split at h
  · cases h
  · rename_i p hp
    split at h
    · cases h
    · rename_i c hc
      cases h
      exact ⟨p, c, hp, hc, rfl⟩

theorem State.exceptionReturn_next {s t : State} {a : Word} (h : s.exceptionReturn a = .next t) :
    ∃ p c, s.spsrOf s.cpsr.mode = some p ∧ p.restore = some c ∧ t = ({ s with cpsr := c } : State).branch a := by
  obtain ⟨u, hu, h⟩ := andThen_next h
  cases h
  obtain ⟨p, c, hp, hc, rfl⟩ := State.restoreCpsr_next hu
  exact ⟨p, c, hp, hc, rfl⟩

theorem State.exceptionReturn_keeps {s t : State} {a : Word} (h : s.exceptionReturn a = .next t) : s.Keeps t := by
  obtain ⟨p, c, -, -, rfl⟩ := State.exceptionReturn_next h
  exact .of_flow rfl rfl rfl rfl

theorem State.writeBack_keeps (s : State) (t : Transfer) (rn : Reg) : s.Keeps (s.writeBack t rn) := by
  unfold State.writeBack
  split
  · exact s.setReg_keeps rn _
  · exact .refl s

theorem State.blockWriteBack_keeps (s : State) (w : Bool) (rn : Reg) (regs : List Reg) (nb : Word) :
    s.Keeps (s.blockWriteBack w rn regs nb) := by
  unfold State.blockWriteBack
  split
  · exact s.setReg_keeps rn _
  · exact .refl s

theorem loadRegs_keeps (m : Mode) (mask : Word) (s : State) (regs : List Reg) (vals : List Word) :
    s.Keeps (loadRegs m mask s regs vals) := by
  induction regs generalizing s vals with
  | nil => exact .refl s
  | cons r regs ih =>
    cases vals with
    | nil => exact .refl s
    | cons v vals => exact (s.setXm_keeps m r _).trans (ih _ vals)

/-! ## Memory -/

theorem State.withBus_keeps {s : State} {b : Bus} (h : s.bus.running = none → s.bus.Follows b) : s.Keeps (s.withBus b) :=
  ⟨rfl, rfl, h, fun h => ⟨h, rfl⟩⟩

/-- A data read changes the bus only. -/
theorem State.memRead_next {s : State} {a : Word} {w : Width} {block : Bool} {x : Word × State}
    (h : s.memRead a w block = .next x) : ∃ b, s.bus.read .data a w block = .next (x.1, b) ∧ x.2 = s.withBus b := by
  obtain ⟨y, hy, h⟩ := State.onBus_next h
  cases h
  exact ⟨y.2, hy, rfl⟩

theorem State.memRead_keeps {s : State} {a : Word} {w : Width} {block : Bool} {x : Word × State}
    (h : s.memRead a w block = .next x) : s.Keeps x.2 := by
  obtain ⟨b, hb, hx⟩ := State.memRead_next h
  rw [hx]
  exact State.withBus_keeps fun hr => Bus.read_follows hr hb

/-- A data write changes the bus only. -/
theorem State.memWrite_next {s t : State} {a : Word} {w : Width} {v : Word} {block : Bool}
    (h : s.memWrite a w v block = .next t) : ∃ b, s.bus.write a w v block = .next b ∧ t = s.withBus b := by
  obtain ⟨b, hb, h⟩ := State.onBus_next h
  cases h
  exact ⟨b, hb, rfl⟩

theorem State.memWrite_keeps {s t : State} {a : Word} {w : Width} {v : Word} {block : Bool}
    (h : s.memWrite a w v block = .next t) : s.Keeps t := by
  obtain ⟨b, hb, rfl⟩ := State.memWrite_next h
  exact State.withBus_keeps fun hr => Bus.write_follows hr hb

theorem State.swap_keeps {s : State} {a : Word} {w : Width} {v : Word} {x : Word × State} (h : s.swap a w v = .next x) :
    s.Keeps x.2 := by
  obtain ⟨y, hy, h⟩ := State.onBus_next h
  cases h
  exact State.withBus_keeps fun hr => Bus.swap_follows hr hy

/-- A load operation that only reads memory and shapes the value. -/
def LoadKeeps (load : State → Word → Host.Outcome (Word × State) Fault Refusal) : Prop :=
  ∀ (s : State) (a : Word) (x : Word × State), load s a = .next x → s.Keeps x.2

theorem loadWord_keeps : LoadKeeps State.loadWord := by
  intro s a x h
  obtain ⟨y, hy, h⟩ := andThen_next h
  cases h
  exact State.memRead_keeps (x := y) hy

theorem loadByte_keeps : LoadKeeps State.loadByte := fun _ _ _ h => State.memRead_keeps h

theorem loadSignedByte_keeps : LoadKeeps State.loadSignedByte := by
  intro s a x h
  obtain ⟨y, hy, h⟩ := andThen_next h
  cases h
  exact State.memRead_keeps (x := y) hy

theorem loadHalf_keeps : LoadKeeps State.loadHalf := by
  intro s a x h
  obtain ⟨y, hy, h⟩ := andThen_next h
  cases h
  exact State.memRead_keeps (x := y) hy

theorem loadSignedHalf_keeps : LoadKeeps State.loadSignedHalf := by
  intro s a x h
  unfold State.loadSignedHalf at h
  split at h
  · exact loadSignedByte_keeps s a x h
  · obtain ⟨y, hy, h⟩ := andThen_next h
    cases h
    exact State.memRead_keeps (x := y) hy

theorem loadAligned_keeps : LoadKeeps State.loadAligned := fun _ _ _ h => State.memRead_keeps h

theorem loadList_keeps {s : State} {regs : List Reg} {a : Word} {block : Bool} {x : List Word × State}
    (h : loadList s regs a block = .next x) : s.Keeps x.2 := by
  induction regs generalizing s a block x with
  | nil => cases h; exact .refl s
  | cons r regs ih =>
    obtain ⟨y, hy, h⟩ := andThen_next h
    obtain ⟨z, hz, h⟩ := andThen_next h
    cases h
    exact (State.memRead_keeps (x := y) hy).trans (ih (x := z) hz)

theorem loadEach_keeps {m : Mode} {mask : Word} {s t : State} {regs : List Reg} {a : Word} {block : Bool}
    (h : loadEach m mask s regs a block = .next t) : s.Keeps t := by
  induction regs generalizing s a block with
  | nil => cases h; exact .refl _
  | cons r regs ih =>
    obtain ⟨x, hx, h⟩ := andThen_next h
    exact ((State.memRead_keeps (x := x) hx).trans (State.setXm_keeps _ m r _)).trans (ih h)

theorem storeList_keeps {s t : State} {vals : List Word} {a : Word} {block : Bool} (h : storeList s vals a block = .next t) :
    s.Keeps t := by
  induction vals generalizing s a block with
  | nil => cases h; exact .refl _
  | cons v vals ih =>
    obtain ⟨u, hu, h⟩ := andThen_next h
    exact (State.memWrite_keeps hu).trans (ih h)

/-! ## Shared ends of the instructions -/

theorem writeDp_keeps {s t : State} {rd : Reg} {sf : Bool} {a : Alu} (ht : a.flags.t = s.cpsr.t)
    (h : writeDp s rd sf a = .next t) : s.Keeps t := by
  unfold writeDp at h
  split at h
  · split at h
    · exact State.exceptionReturn_keeps h
    · cases h; exact s.branch_keeps _
  · cases h
    exact (s.setReg_keeps rd _).trans (State.setFlags_keeps _ sf _ (by simp [ht]))

theorem writeCompare_keeps {s t : State} {rd : Reg} {a : Alu} (ht : a.flags.t = s.cpsr.t)
    (h : writeCompare s rd a = .next t) : s.Keeps t := by
  unfold writeCompare at h
  split at h
  · cases h
  · cases h; exact s.setFlags_keeps true _ ht

@[simp] theorem logical_t (p : Cpsr) (r : Word) (c : Bool) : (logical p r c).flags.t = p.t := rfl

@[simp] theorem addWithCarry_t (p : Cpsr) (a b : Word) (c : Bool) : (addWithCarry p a b c).flags.t = p.t := rfl

theorem writeMul_keeps (s : State) (sf : Bool) (rd : Reg) (r : Word) : s.Keeps (writeMul s sf rd r) := by
  unfold writeMul
  split
  · exact (s.setReg_keeps rd r).trans (State.setMulFlags_keeps _ r)
  · exact s.setReg_keeps rd r

theorem writeMulLong_keeps (s : State) (sf : Bool) (rdHi rdLo : Reg) (r : BitVec 64) :
    s.Keeps (writeMulLong s sf rdHi rdLo r) := by
  unfold writeMulLong
  dsimp only
  split
  · exact ((s.setReg_keeps rdLo _).trans (State.setReg_keeps _ rdHi _)).trans (State.setMulLongFlags_keeps _ r)
  · exact (s.setReg_keeps rdLo _).trans (State.setReg_keeps _ rdHi _)

theorem finishLoad_keeps (s : State) (t : Transfer) (rn rd : Reg) (v : Word) : s.Keeps (finishLoad s t rn rd v) := by
  unfold finishLoad
  split
  · exact s.setReg_keeps rd v
  · exact (s.writeBack_keeps t rn).trans (State.setReg_keeps _ rd v)

theorem writeHi_keeps (s : State) (d : Reg) (r : Word) : s.Keeps (writeHi s d r) := by
  unfold writeHi
  split
  · exact s.branch_keeps _
  · exact s.setReg_keeps d r

/-! ## Quiet stretches -/

theorem State.memRead_quiet {s : State} {n : Nat} {a : Word} {w : Width} {block : Bool} (hm : s.bus.Calm a w)
    (hq : s.bus.Quiet n) (hn : maxDataCost s.bus.params ≤ n) :
    s.memRead a w block = .next ((s.bus.valueRead a w).1, s.withBus (s.bus.readResult a w block)) := by
  rw [State.memRead, Bus.read_quiet hm hq hn, State.onBus_of_next]

theorem State.memWrite_quiet {s : State} {n : Nat} {a : Word} {w : Width} {v : Word} {block : Bool} (hs : s.bus.Silent a w)
    (hq : s.bus.Quiet n) (hn : maxDataCost s.bus.params ≤ n) :
    s.memWrite a w v block = .next (s.withBus (s.bus.writeResult a w v block)) := by
  rw [State.memWrite, Bus.write_quiet hs hq hn, State.onBus_of_next]

/-- A swap for which `DEVICE` does nothing: one `Advance` of both costs, after the write (R115). -/
theorem State.swap_silent {s : State} {a : Word} {w : Width} {v : Word} (hm : s.bus.Calm a w) (hs : s.bus.Silent a w) :
    s.swap a w v =
      s.onBus (({ (s.bus.readResult a w false).writeResult a w v false with ts := s.bus.ts } : Bus).advance
        (s.bus.costAt .data a w false + (s.bus.readResult a w false).costAt .data a w false)) fun b =>
          .next ((s.bus.valueRead a w).1, s.withBus b) := by
  rw [State.swap, Bus.swap_silent hm hs, State.onBus_andThen]
  rfl

theorem State.swap_quiet {s : State} {n : Nat} {a : Word} {w : Width} {v : Word} (hm : s.bus.Calm a w)
    (hs : s.bus.Silent a w) (hq : s.bus.Quiet n) (hn : 2 * maxDataCost s.bus.params ≤ n) :
    s.swap a w v =
      .next ((s.bus.valueRead a w).1, s.withBus ((s.bus.readResult a w false).writeResult a w v false)) := by
  rw [State.swap, Bus.swap_quiet hm hs hq hn, State.onBus_of_next]

theorem Bus.Quiet.mono {b : Bus} {m n : Nat} (h : b.Quiet n) (hm : m ≤ n) : b.Quiet m :=
  fun e he => Nat.lt_of_le_of_lt (Nat.add_le_add_left hm b.ts) (h e he)

/-- A quiet stretch is long enough for its first access, and after it is quiet for the rest. -/
theorem Bus.QuietFor.one {b : Bus} {n : Nat} (h : b.QuietFor (n + 1)) : b.Quiet (maxDataCost b.params + maxDataCost b.params * n) := by
  unfold Bus.QuietFor at h
  rwa [Nat.mul_succ, Nat.add_comm] at h

/-- One read uses up at most maxDataCost of a quiet stretch. -/
theorem Bus.Quiet.readResult {b : Bus} {n : Nat} (h : b.Quiet (maxDataCost b.params + n)) (a : Word) (w : Width) (block : Bool) :
    (b.readResult a w block).Quiet n := by
  intro e he
  rw [(b.readResult_frame a w block).2.2.2.1] at he
  have h1 := h e he
  have h2 := b.costAt_data_le a w block
  have h3 : (b.readResult a w block).ts = b.ts + b.costAt .data a w block := rfl
  omega

theorem Bus.Quiet.writeResult {b : Bus} {n : Nat} (h : b.Quiet (maxDataCost b.params + n)) (a : Word) (w : Width) (v : Word)
    (block : Bool) : (b.writeResult a w v block).Quiet n := by
  intro e he
  rw [(b.writeResult_frame a w v block).2] at he
  have h1 := h e he
  have h2 := b.costAt_data_le a w block
  have h3 : (b.writeResult a w v block).ts = b.ts + b.costAt .data a w block := rfl
  omega

theorem Bus.QuietFor.readResult {b : Bus} {n : Nat} (h : b.QuietFor (n + 1)) (a : Word) (w : Width) (block : Bool) :
    (b.readResult a w block).QuietFor n := by
  unfold Bus.QuietFor
  rw [(b.readResult_frame a w block).2.2.2.2.2.2.2.2]
  exact h.one.readResult a w block

theorem Bus.QuietFor.writeResult {b : Bus} {n : Nat} (h : b.QuietFor (n + 1)) (a : Word) (w : Width) (v : Word)
    (block : Bool) : (b.writeResult a w v block).QuietFor n := by
  unfold Bus.QuietFor
  rw [b.writeResult_params a w v block]
  exact h.one.writeResult a w v block

/-- The addresses of a block's accesses after its first. -/
theorem block_addr (a : Word) (k : Nat) : a + 4#32 + BitVec.ofNat 32 (4 * k) = a + BitVec.ofNat 32 (4 * (k + 1)) := by
  rw [BitVec.add_assoc, ← BitVec.ofNat_add, Nat.mul_succ, Nat.add_comm 4]

/-- A read leaves what a later read would ask of `DEVICE`. -/
theorem Bus.calm_readResult {b : Bus} {a a' : Word} {w w' : Width} {block : Bool} (h : b.Calm a w) :
    (b.readResult a' w' block).Calm a w := by
  have hf := b.readResult_frame a' w' block
  exact h.congr hf.2.2.2.2.2.2.2.2 hf.2.1

theorem loadList_quiet {s : State} (regs : List Reg) (a : Word) (block : Bool) (hm : s.bus.CalmBlock a regs.length)
    (hq : s.bus.QuietFor regs.length) :
    loadList s regs a block =
      .next ((s.bus.readBlock regs.length a block).1, s.withBus (s.bus.readBlock regs.length a block).2) := by
  induction regs generalizing s a block with
  | nil => rfl
  | cons r regs ih =>
    have hm0 : s.bus.Calm a .word := by
      have := hm 0 (Nat.zero_lt_succ _)
      simpa using this
    have h := ih (s := s.withBus (s.bus.readResult a .word block)) (a + 4#32) true
      (fun k hk => by
        rw [block_addr]
        exact Bus.calm_readResult (hm (k + 1) (Nat.succ_lt_succ hk)))
      (hq.readResult a .word block)
    unfold loadList
    rw [State.memRead_quiet hm0 (Bus.QuietFor.one hq) (by omega), andThen_of_next, h]
    rfl

theorem State.setXm_withBus (s : State) (b : Bus) (m : Mode) (r : Reg) (v : Word) :
    (s.withBus b).setXm m r v = (s.setXm m r v).withBus b := by
  unfold State.setXm
  split <;> rfl

/-- Loads that write each register at once, in a quiet stretch: what `loadRegs` writes after all of them. -/
theorem loadEach_quiet {m : Mode} {mask : Word} {s : State} (regs : List Reg) (a : Word) (block : Bool)
    (hm : s.bus.CalmBlock a regs.length) (hq : s.bus.QuietFor regs.length) :
    loadEach m mask s regs a block =
      .next (loadRegs m mask (s.withBus (s.bus.readBlock regs.length a block).2) regs
        (s.bus.readBlock regs.length a block).1) := by
  induction regs generalizing s a block with
  | nil => rfl
  | cons r regs ih =>
    have hm0 : s.bus.Calm a .word := by
      have := hm 0 (Nat.zero_lt_succ _)
      simpa using this
    have h := fun v => ih (s := (s.withBus (s.bus.readResult a .word block)).setXm m r v) (a + 4#32) true
      (fun k hk => by
        rw [block_addr, State.setXm_bus]
        exact Bus.calm_readResult (hm (k + 1) (Nat.succ_lt_succ hk)))
      (by rw [State.setXm_bus]; exact hq.readResult a .word block)
    unfold loadEach
    rw [State.memRead_quiet hm0 (Bus.QuietFor.one hq) (by omega), andThen_of_next, h]
    simp only [State.setXm_withBus, List.length_cons, Bus.readBlock, loadRegs]
    rfl

/-- A fault of a later load leaves the registers of the loads before it written (R155, R361). -/
theorem loadEach_fault {m : Mode} {mask : Word} {s : State} {r q : Reg} {regs : List Reg} {a : Word} {block : Bool}
    {x : Word × Bus} {b : Bus} (hr : s.bus.read .data a .word block = .next x)
    (hf : x.2.read .data (a + 4#32) .word true = .fault b) :
    loadEach m mask s (r :: q :: regs) a block =
      .fault (.stopped .schedulerCapacity
        ((s.setXm m r (if r = 15#4 then x.1 &&& mask else x.1)).withBus b).remains) := by
  simp only [loadEach, State.memRead, hr, State.onBus_of_next, andThen_of_next, State.setXm_withBus]
  simp only [State.withBus, hf, State.onBus, andThen]

/-- A port write leaves the intercepts of every register. -/
theorem interceptsOf_map (f : PortReg → PortReg) (hb : ∀ r, (f r).base = r.base) (hl : ∀ r, (f r).bytes.length = r.bytes.length)
    (hi : ∀ r, (f r).intercept = r.intercept) (ports : List PortReg) (o : Nat) (w : Width) :
    interceptsOf (ports.map f) o w = interceptsOf ports o w := by
  have hins : ∀ (r : PortReg) (l : List PortReg), (insertByBase (f r) (l.map f)) = (insertByBase r l).map f := by
    intro r l
    induction l with
    | nil => rfl
    | cons x l ih =>
      simp only [List.map_cons, insertByBase, hb]
      split
      · rfl
      · rw [List.map_cons, ih]
  have hsort : ∀ l : List PortReg, (l.map f).foldr insertByBase [] = (l.foldr insertByBase []).map f := by
    intro l
    induction l with
    | nil => rfl
    | cons x l ih => rw [List.map_cons, List.foldr_cons, List.foldr_cons, ih, hins]
  have htouch : (fun r => portRegTouched o (widthBytes w) r) ∘ f = fun r => portRegTouched o (widthBytes w) r := by
    funext r
    simp only [Function.comp, portRegTouched, hb, hl]
  unfold interceptsOf touchedRegs
  rw [List.filter_map, htouch, hsort, List.filterMap_map]
  congr 1
  funext r
  simp only [Function.comp, hi]

theorem portRegPut_shape (o : Nat) (v : Byte) (force : Bool) (r : PortReg) :
    (portRegPut o v force r).base = r.base ∧ (portRegPut o v force r).bytes.length = r.bytes.length ∧
      (portRegPut o v force r).intercept = r.intercept := by
  unfold portRegPut
  split
  · exact ⟨rfl, List.length_modify _ _ _, rfl⟩
  · exact ⟨rfl, rfl, rfl⟩

theorem Bus.portWrite_intercepts (b : Bus) (o : Nat) (w : Width) (v : Word) (o' : Nat) (w' : Width) :
    interceptsOf (b.portWrite o w v).ports o' w' = interceptsOf b.ports o' w' := by
  unfold Bus.portWrite
  generalize List.range (widthBytes w) = ks
  induction ks generalizing b with
  | nil => rfl
  | cons k ks ih =>
    rw [List.foldl_cons, ih]
    unfold Bus.portWriteByte
    split
    · split <;> rfl
    · exact interceptsOf_map _ (fun r => (portRegPut_shape _ _ _ r).1) (fun r => (portRegPut_shape _ _ _ r).2.1)
        (fun r => (portRegPut_shape _ _ _ r).2.2) _ _ _

theorem Bus.valueWrite_keeps_calls (b : Bus) (a : Word) (w : Width) (v : Word) (p : Params) (a' : Word) (w' : Width)
    (v' : Word) : writeCallsAt p (b.valueWrite a w v).2.ports a' w' v' = writeCallsAt p b.ports a' w' v' := by
  have h : ∀ o, interceptsOf (b.valueWrite a w v).2.ports o w' = interceptsOf b.ports o w' := by
    intro o
    unfold Bus.valueWrite
    split
    · rfl
    · split
      · rfl
      · split
        · exact Bus.portWrite_intercepts _ _ _ _ _ _
        · rfl
        · rfl
  unfold writeCallsAt
  simp only [h]

/-- A store leaves what a later store would ask of `DEVICE`. -/
theorem Bus.silent_writeResult {b : Bus} {a a' : Word} {w w' : Width} {v : Word} {block : Bool} (h : b.Silent a w) :
    (b.writeResult a' w' v block).Silent a w :=
  h.congr (b.writeResult_params a' w' v block) fun v' => b.valueWrite_keeps_calls a' w' v b.params a w v'

theorem storeList_quiet {s : State} (vals : List Word) (a : Word) (block : Bool) (hs : s.bus.SilentBlock a vals.length)
    (hq : s.bus.QuietFor vals.length) :
    storeList s vals a block = .next (s.withBus (s.bus.writeBlock vals a block)) := by
  induction vals generalizing s a block with
  | nil => rfl
  | cons v vals ih =>
    have hs0 : s.bus.Silent a .word := by
      have := hs 0 (Nat.zero_lt_succ _)
      simpa using this
    have h := ih (s := s.withBus (s.bus.writeResult a .word v block)) (a + 4#32) true
      (fun k hk => by
        rw [block_addr]
        exact Bus.silent_writeResult (hs (k + 1) (Nat.succ_lt_succ hk)))
      (hq.writeResult a .word v block)
    unfold storeList
    rw [State.memWrite_quiet hs0 (Bus.QuietFor.one hq) (by omega), andThen_of_next, h]
    rfl

end Sys2Proof.Machine
end

