-- ==== Sys2Proof/Laws/Regs.lean ====
section
/-! SUPPORT. The laws of the registers: a read after a write, in one bank and across banks; and of the saved status registers. -/

namespace Sys2Proof.Machine

/-- Within one mode the indices 0 to 14 name different registers (R25). -/
theorem physIndex_inj {m : Mode} {r r' : Reg} (h : r ≠ 15#4) (h' : r' ≠ 15#4) : physIndex m r = physIndex m r' ↔ r = r' := by
  refine ⟨?_, fun e => e ▸ rfl⟩
  revert r r'
  cases m <;> decide

/-- A register as one mode sees it after a write in another. -/
theorem State.xm_setXm (s : State) (m m' : Mode) {r r' : Reg} (v : Word) (h : r ≠ 15#4) (h' : r' ≠ 15#4) :
    (s.setXm m r v).xm m' r' = if physIndex m r = physIndex m' r' then v else s.xm m' r' := by
  unfold State.xm State.setXm
  rw [if_neg h, if_neg h', if_neg h', Fin.getElem_fin, Fin.getElem_fin, Vector.getElem_set]
  simp only [Fin.ext_iff]

/-- R15 does not see a write of another register. -/
theorem State.xm_setXm_pc (s : State) (m m' : Mode) {r : Reg} (v : Word) : (s.setXm m r v).xm m' 15#4 = s.xm m' 15#4 := by
  unfold State.xm
  rw [if_pos rfl, if_pos rfl, State.setXm_pipe]

/-- A register reads what was written to it. -/
theorem State.reg_setReg_same (s : State) {r : Reg} (v : Word) (h : r ≠ 15#4) : (s.setReg r v).reg r = v := by
  unfold State.reg
  rw [State.setReg_cpsr, State.setReg, s.xm_setXm _ _ v h h, if_pos rfl]

/-- Writes of two registers of one mode commute. -/
theorem State.setXm_comm (s : State) (m : Mode) {r q : Reg} (v w : Word) (h : r ≠ q) :
    (s.setXm m r v).setXm m q w = (s.setXm m q w).setXm m r v := by
  by_cases hr : r = 15#4
  · subst hr
    rw [State.setXm_pc, State.setXm_of_ne _ m q w h.symm, State.setXm_pc, State.setXm_of_ne _ m q w h.symm]
    rfl
  · by_cases hq : q = 15#4
    · subst hq
      rw [State.setXm_pc, State.setXm_of_ne _ m r v hr, State.setXm_pc, State.setXm_of_ne _ m r v hr]
      rfl
    · have hi : (physIndex m r).val ≠ (physIndex m q).val := fun e => h ((physIndex_inj hr hq).mp (Fin.ext e))
      rw [State.setXm_of_ne _ m r v hr, State.setXm_of_ne _ m q w hq, State.setXm_of_ne _ m q w hq,
        State.setXm_of_ne _ m r v hr]
      simp only [State.mk.injEq, and_self, and_true]
      exact Vector.set_comm _ _ hi

/-- A register is unchanged by a write of another. -/
theorem State.reg_setReg_other (s : State) {r r' : Reg} (v : Word) (h : r ≠ r') : (s.setReg r v).reg r' = s.reg r' := by
  unfold State.reg
  rw [State.setReg_cpsr, State.setReg]
  by_cases h' : r' = 15#4
  · rw [h', s.xm_setXm_pc]
  · by_cases h0 : r = 15#4
    · unfold State.setXm
      rw [if_pos h0]
      rfl
    · rw [s.xm_setXm _ _ v h0 h', if_neg fun e => h ((physIndex_inj h0 h').mp e)]

/-- The saved status of a mode reads what was written to it. -/
theorem State.spsrOf_setSpsr_same (s : State) {m : Mode} (p : Psr) (hu : m ≠ .usr) (hs : m ≠ .sys) :
    (s.setSpsr m p).spsrOf m = some p := by
  cases m <;> first | exact absurd rfl hu | exact absurd rfl hs | rfl

/-- The saved status of a mode is unchanged by a write of another's. -/
theorem State.spsrOf_setSpsr_other (s : State) {m m' : Mode} (p : Psr) (h : m ≠ m') :
    (s.setSpsr m p).spsrOf m' = s.spsrOf m' := by
  cases m <;> cases m' <;> first | exact absurd rfl h | rfl

/-- Which modes have a saved status (R38, R39). -/
theorem State.spsrOf_none (s : State) (m : Mode) : s.spsrOf m = none ↔ m = .usr ∨ m = .sys := by
  cases m <;> simp [State.spsrOf]

/-- The saved status depends on the saved status registers only. -/
theorem State.spsrOf_congr {s t : State} (h : t.spsrs = s.spsrs) (m : Mode) : t.spsrOf m = s.spsrOf m := by
  unfold State.spsrOf
  rw [h]

end Sys2Proof.Machine
end

