-- ==== Sys2Proof/Laws/Words.lean ====
section
/-! SUPPORT. Laws of words that the instructions' offsets need. -/

namespace Sys2Proof

/-- An offset field followed by zeros, sign-extended, is the sign-extended field shifted left. -/
theorem signExtend_append (n k : Nat) (x : BitVec n) (hn : 0 < n) :
    (x ++ 0#k).signExtend 32 = x.signExtend 32 <<< k := by
  apply BitVec.eq_of_getLsbD_eq
  intro i hi
  rw [BitVec.getLsbD_signExtend, BitVec.getLsbD_shiftLeft, BitVec.getLsbD_signExtend, BitVec.getLsbD_append,
    BitVec.msb_append]
  simp only [hi, decide_true, Bool.true_and]
  by_cases h1 : i < k
  · simp [h1]
    omega
  · have h2 : i - k < 32 := by omega
    simp only [h1, h2, decide_true, decide_false, Bool.not_false, Bool.true_and, if_false]
    by_cases h3 : i < n + k
    · have : i - k < n := by omega
      simp [h3, this]
    · have : ¬i - k < n := by omega
      have hn0 : ¬n = 0 := by omega
      simp [h3, this, hn0]

/-- An unsigned field followed by zeros is the field's number times a power of two. -/
theorem append_zero_setWidth (n k : Nat) (x : BitVec n) : (x ++ 0#k).setWidth 32 = BitVec.ofNat 32 (2 ^ k * x.toNat) := by
  apply BitVec.eq_of_toNat_eq
  simp [BitVec.toNat_append, Nat.shiftLeft_eq, Nat.mul_comm]

end Sys2Proof
end

