-- ==== Sys2Proof/Laws/Answers.lean ====
section
/-! SUPPORT. What the shared operations of the instructions answer: the checks that let an instruction run, the loads and stores in a quiet stretch, the ends of data processing, the restore of CPSR, and the decoder on a word's own bytes. -/

namespace Sys2Proof.Machine

/-! ## Checks that pass -/

theorem checkBase_ok {t : Transfer} {rn : Reg} {k : Result} (h : t.writeBack = true → rn ≠ 15#4) : checkBase t rn k = k :=
  if_neg fun e => h e.1 e.2

theorem checkPostIndexed_ok {p w : Bool} {k : Result} (h : p = true ∨ w = false) : checkPostIndexed p w k = k :=
  if_neg fun e => by rcases h with h | h <;> simp [h] at e

theorem checkBlockBase_ok {rn : Reg} {k : Result} (h : rn ≠ 15#4) : checkBlockBase rn k = k := if_neg h

theorem checkUserBank_ok {s : State} {w : Bool} {k : Result} (hw : w = false) (hu : s.cpsr.mode ≠ .usr)
    (hs : s.cpsr.mode ≠ .sys) : checkUserBank s w k = k := if_neg (by simp [hw, hu, hs])

theorem checkRs_ok {rs : Reg} {k : Result} (h : rs ≠ 15#4) : checkRs rs k = k := if_neg h

theorem checkHi_ok {h1 h2 : Bool} {k : Result} (h : h1 = true ∨ h2 = true) : checkHi h1 h2 k = k :=
  if_neg fun e => by rcases h with h | h <;> simp [h] at e

theorem checkStackList_ok {regs : List Reg} {k : Result} (h : regs ≠ []) : checkStackList regs k = k :=
  if_neg (by simpa using h)

theorem swapGuard_ok {rn rd rm : Reg} {k : Result} (h1 : rn ≠ 15#4) (h2 : rd ≠ 15#4) (h3 : rm ≠ 15#4) (h4 : rn ≠ rm)
    (h5 : rn ≠ rd) : swapGuard rn rd rm k = k := by simp [swapGuard, h1, h2, h3, h4, h5]

theorem mulLongGuard_ok {rdHi rdLo rs rm : Reg} {k : Result} (h1 : rdHi ≠ 15#4) (h2 : rdLo ≠ 15#4) (h3 : rm ≠ 15#4)
    (h4 : rs ≠ 15#4) (h5 : rdHi ≠ rdLo) (h6 : rdHi ≠ rm) (h7 : rdLo ≠ rm) : mulLongGuard rdHi rdLo rs rm k = k := by
  simp [mulLongGuard, h1, h2, h3, h4, h5, h6, h7]

/-! ## Loads and stores in a quiet stretch -/

theorem one_access {n : Nat} : n ≤ n * 1 := Nat.le_of_eq (Nat.mul_one n).symm

/-- What a load does in a quiet stretch: one data read at the width `wd`, its value shaped from the address and what the
bus reads. -/
def LoadAnswers (load : State → Word → Host.Outcome (Word × State) Fault Refusal) (wd : Word → Width)
    (shape : Word → Word → Word) : Prop :=
  ∀ (s : State) (a : Word), s.bus.Calm a (wd a) → s.bus.QuietFor 1 →
    load s a = .next (shape a (s.bus.valueRead a (wd a)).1, s.withBus (s.bus.readResult a (wd a) false))

theorem loadAligned_answers : LoadAnswers State.loadAligned (fun _ => .word) fun _ v => v :=
  fun _ _ hm hq => State.memRead_quiet hm hq one_access

theorem loadByte_answers : LoadAnswers State.loadByte (fun _ => .byte) fun _ v => v :=
  fun _ _ hm hq => State.memRead_quiet hm hq one_access

theorem loadWord_answers : LoadAnswers State.loadWord (fun _ => .word) fun a v => v.rotateRight (8 * (a.toNat % 4)) := by
  intro s a hm hq
  simp only [State.loadWord, State.memRead_quiet hm hq one_access, andThen_of_next]

theorem loadSignedByte_answers : LoadAnswers State.loadSignedByte (fun _ => .byte) fun _ v => (v.setWidth 8).signExtend 32 := by
  intro s a hm hq
  simp only [State.loadSignedByte, State.memRead_quiet hm hq one_access, andThen_of_next]

theorem loadHalf_answers :
    LoadAnswers State.loadHalf (fun _ => .half) fun a v => if a.getLsbD 0 then v.rotateRight 8 else v := by
  intro s a hm hq
  simp only [State.loadHalf, State.memRead_quiet hm hq one_access, andThen_of_next]

theorem loadSignedHalf_answers :
    LoadAnswers State.loadSignedHalf (fun a => if a.getLsbD 0 then .byte else .half) fun a v =>
      if a.getLsbD 0 then (v.setWidth 8).signExtend 32 else (v.setWidth 16).signExtend 32 := by
  intro s a hm hq
  unfold State.loadSignedHalf
  by_cases h : a.getLsbD 0 = true
  · simp only [if_pos h] at hm ⊢
    exact loadSignedByte_answers s a hm hq
  · simp only [if_neg h] at hm
    simp only [if_neg h, State.memRead_quiet hm hq one_access, andThen_of_next]

/-- A load narrower than a word, not to R15. -/
theorem opLoadNarrow_answers {load : State → Word → Host.Outcome (Word × State) Fault Refusal} {wd : Word → Width}
    {shape : Word → Word → Word} (hl : LoadAnswers load wd shape) {s : State} (t : Transfer) (rn : Reg) {rd : Reg}
    (hr : rd ≠ 15#4) (hm : s.bus.Calm t.addr (wd t.addr)) (hq : s.bus.QuietFor 1) :
    opLoadNarrow load s t rn rd =
      .next (finishLoad (s.withBus (s.bus.readResult t.addr (wd t.addr) false)) t rn rd
        (shape t.addr (s.bus.valueRead t.addr (wd t.addr)).1)) := by
  simp only [opLoadNarrow, if_neg hr, hl s t.addr hm hq, andThen_of_next]

/-- LDR. -/
theorem opLdr_answers {s : State} (t : Transfer) (rn rd : Reg) (hm : s.bus.Calm t.addr .word) (hq : s.bus.QuietFor 1) :
    opLdr s t rn rd =
      .next (finishLoad (s.withBus (s.bus.readResult t.addr .word false)) t rn rd
        (if rd = 15#4 then (s.bus.valueRead t.addr .word).1.rotateRight (8 * (t.addr.toNat % 4)) &&& 0xFFFFFFFC#32
        else (s.bus.valueRead t.addr .word).1.rotateRight (8 * (t.addr.toNat % 4)))) := by
  simp only [opLdr, loadWord_answers s t.addr hm hq, andThen_of_next]

/-- STR. -/
theorem opStr_answers {s : State} (t : Transfer) (rn rd : Reg) (hs : s.bus.Silent t.addr .word)
    (hq : s.bus.QuietFor 1) :
    opStr s t rn rd = .next ((s.withBus (s.bus.writeResult t.addr .word (s.regLate rd) false)).writeBack t rn) := by
  simp only [opStr, State.memWrite_quiet hs hq one_access, andThen_of_next]

/-- A store narrower than a word, not of R15. -/
theorem opStoreNarrow_answers {w : Width} {s : State} (t : Transfer) (rn : Reg) {rd : Reg} (hr : rd ≠ 15#4)
    (hs : s.bus.Silent t.addr w) (hq : s.bus.QuietFor 1) :
    opStoreNarrow w s t rn rd = .next ((s.withBus (s.bus.writeResult t.addr w (s.reg rd) false)).writeBack t rn) := by
  simp only [opStoreNarrow, if_neg hr, State.memWrite_quiet hs hq one_access, andThen_of_next]

/-- A Thumb load. -/
theorem thumbLoad_answers {load : State → Word → Host.Outcome (Word × State) Fault Refusal} {wd : Word → Width}
    {shape : Word → Word → Word} (hl : LoadAnswers load wd shape) {s : State} (rd : LowReg) (a : Word)
    (hm : s.bus.Calm a (wd a)) (hq : s.bus.QuietFor 1) :
    thumbLoad load s rd a =
      .next ((s.withBus (s.bus.readResult a (wd a) false)).setReg rd.reg (shape a (s.bus.valueRead a (wd a)).1)) := by
  rw [thumbLoad, hl s a hm hq, andThen_of_next]

/-- A Thumb store. -/
theorem thumbStore_answers {w : Width} {s : State} (rd : LowReg) (a : Word) (hs : s.bus.Silent a w)
    (hq : s.bus.QuietFor 1) :
    thumbStore w s rd a = .next (s.withBus (s.bus.writeResult a w (s.reg rd.reg) false)) := by
  rw [thumbStore, State.memWrite_quiet hs hq one_access]

/-! ## Data processing, status registers, exceptions -/

theorem writeDp_reg {s : State} {rd : Reg} (sf : Bool) (a : Alu) (h : rd ≠ 15#4) :
    writeDp s rd sf a = .next ((s.setReg rd a.result).setFlags sf a.flags) := if_neg h

theorem writeDp_pc (s : State) (a : Alu) : writeDp s 15#4 false a = .next (s.branch a.result) := rfl

theorem writeDp_return (s : State) (a : Alu) : writeDp s 15#4 true a = s.exceptionReturn a.result := rfl

theorem writeCompare_ok {s : State} {rd : Reg} (a : Alu) (h : rd ≠ 15#4) :
    writeCompare s rd a = .next (s.setFlags true a.flags) := if_neg h

/-- The mode codes of R35, both ways. -/
theorem Mode.ofBits_iff (b : BitVec 5) (m : Mode) : Mode.ofBits b = some m ↔ b = m.bits :=
  ⟨by cases m <;> revert b <;> decide, by rintro rfl; cases m <;> rfl⟩

theorem State.exceptionReturn_ok {s : State} {p : Psr} {c : Cpsr} (a : Word) (hp : s.spsrOf s.cpsr.mode = some p)
    (hc : p.restore = some c) : s.exceptionReturn a = .next (({ s with cpsr := c } : State).branch a) := by
  simp [State.exceptionReturn, State.restoreCpsr, hp, hc]

/-! ## Block transfers -/

@[simp] theorem loadRegs_cpsr (m : Mode) (mask : Word) (s : State) (regs : List Reg) (vals : List Word) :
    (loadRegs m mask s regs vals).cpsr = s.cpsr := by
  induction regs generalizing s vals with
  | nil => rfl
  | cons r regs ih =>
    cases vals with
    | nil => rfl
    | cons v vals => rw [loadRegs, ih, State.setXm_cpsr]

/-- A register that is not in the list may be written before its registers or after them. -/
theorem loadRegs_setReg (mask : Word) (s : State) {q : Reg} (w : Word) (regs : List Reg) (vals : List Word) (h : q ∉ regs) :
    (loadRegs s.cpsr.mode mask s regs vals).setReg q w = loadRegs s.cpsr.mode mask (s.setReg q w) regs vals := by
  unfold State.setReg
  rw [loadRegs_cpsr]
  generalize s.cpsr.mode = m
  induction regs generalizing s vals with
  | nil => rfl
  | cons r regs ih =>
    cases vals with
    | nil => rfl
    | cons v vals =>
      have hne : r ≠ q := fun e => h (e ▸ List.mem_cons_self)
      rw [loadRegs, loadRegs, ih _ vals fun hq => h (List.mem_cons_of_mem r hq), State.setXm_comm _ m _ w hne]

@[simp] theorem loadRegs_spsrs (m : Mode) (mask : Word) (s : State) (regs : List Reg) (vals : List Word) :
    (loadRegs m mask s regs vals).spsrs = s.spsrs := by
  induction regs generalizing s vals with
  | nil => rfl
  | cons r regs ih =>
    cases vals with
    | nil => rfl
    | cons v vals => rw [loadRegs, ih, State.setXm_spsrs]

@[simp] theorem loadRegs_bus (m : Mode) (mask : Word) (s : State) (regs : List Reg) (vals : List Word) :
    (loadRegs m mask s regs vals).bus = s.bus := by
  induction regs generalizing s vals with
  | nil => rfl
  | cons r regs ih =>
    cases vals with
    | nil => rfl
    | cons v vals => rw [loadRegs, ih, State.setXm_bus]

/-! ## Words and bytes -/

/-- A word is its four bytes. -/
theorem bytes_word (w : BitVec 32) :
    bitsOf 8 w.toNat 24 ++ bitsOf 8 w.toNat 16 ++ bitsOf 8 w.toNat 8 ++ bitsOf 8 w.toNat 0 = w := by
  have h : ∀ lo : Nat, bitsOf 8 w.toNat lo = w.extractLsb' lo 8 := by
    intro lo
    apply BitVec.eq_of_toNat_eq
    simp [bitsOf, Nat.shiftRight_eq_div_pow]
  rw [h, h, h, h]
  apply BitVec.eq_of_getLsbD_eq
  intro i hi
  simp only [BitVec.getLsbD_append, BitVec.getLsbD_extractLsb']
  split
  · rename_i h0
    simp [h0]
  · split
    · rename_i h0 h1
      simp only [h1, decide_true, Bool.true_and]
      congr 1
      omega
    · split
      · rename_i h0 h1 h2
        simp only [h2, decide_true, Bool.true_and]
        congr 1
        omega
      · rename_i h0 h1 h2
        simp only [show i - 8 - 8 - 8 < 8 by omega, decide_true, Bool.true_and]
        congr 1
        omega

/-- A halfword is its two bytes. -/
theorem bytes_half (h : BitVec 16) : bitsOf 8 h.toNat 8 ++ bitsOf 8 h.toNat 0 = h := by
  have he : ∀ lo : Nat, bitsOf 8 h.toNat lo = h.extractLsb' lo 8 := by
    intro lo
    apply BitVec.eq_of_toNat_eq
    simp [bitsOf, Nat.shiftRight_eq_div_pow]
  rw [he, he]
  apply BitVec.eq_of_getLsbD_eq
  intro i hi
  simp only [BitVec.getLsbD_append, BitVec.getLsbD_extractLsb']
  split
  · rename_i h0
    simp [h0]
  · simp only [show i - 8 < 8 by omega, decide_true, Bool.true_and]
    congr 1
    omega

/-- The decoder on the bytes of an ARM word. -/
theorem decodeBytes_arm (w : BitVec 32) : decodeBytes false (Code.arm w).bytes = .ok (decodeArm w, []) := by
  show Except.ok (decodeArm _, []) = _
  rw [bytes_word]

/-- The decoder on the bytes of a Thumb halfword. -/
theorem decodeBytes_thumb (h : BitVec 16) : decodeBytes true (Code.thumb h).bytes = .ok (decodeThumb h, []) := by
  show Except.ok (decodeThumb _, []) = _
  rw [bytes_half]

end Sys2Proof.Machine
end

