-- ==== Sys2Proof/Laws/PerInstr.lean ====
section
/-! SUPPORT. Statements made for every instruction: its condition field stands in its word (spec R138, R140, R370). -/

namespace Sys2Proof.Laws.CondField

open Sys2Proof.Machine

/-- The condition of an instruction is the field of its word: bits 31:28 of an ARM word, bits 11:8 of a Thumb
halfword. -/
def Statement (i : Instr) : Prop :=
  ∀ c, condOf i = some c →
    (∀ w, encode i = .arm w → w.toNat / 2 ^ 28 = c.code) ∧ ∀ h, encode i = .thumb h → h.toNat / 2 ^ 8 % 16 = c.code

/-- An instruction without a condition field. -/
theorem of_none {i : Instr} (h : condOf i = none) : Statement i := by
  intro c hc
  rw [h] at hc
  cases hc

theorem code_lt (c : Cond) : c.code < 15 := by cases c <;> decide

theorem shift_lt (k : ShiftKind) : k.code < 4 := by cases k <;> decide

/-- An ARM word whose other fields fit below bit 28. -/
theorem of_armWord {i : Instr} {c : Cond} {base : Nat} {fs : List (Nat × Nat)} (hc : condOf i = some c)
    (he : encode i = armWord base c fs) (hb : packFields base fs < 2 ^ 28) : Statement i := by
  intro c' hc'
  rw [hc] at hc'
  obtain rfl := Option.some.inj hc'
  refine ⟨fun w hw => ?_, fun h hh => ?_⟩
  · rw [he, armWord, packFields] at hw
    obtain rfl := Code.arm.inj hw
    have := code_lt c
    rw [BitVec.toNat_ofNat]
    omega
  · rw [he, armWord] at hh
    cases hh

theorem cond1111 (bits : BitVec 28) : Statement (.cond1111 bits) := of_none rfl

theorem bx (c : Cond) (rm : Reg) : Statement (.bx c rm) := by
  refine of_armWord rfl rfl ?_
  have := rm.isLt
  simp only [packFields]
  omega

theorem swp (c : Cond) (rn : Reg) (rd : Reg) (rm : Reg) : Statement (.swp c rn rd rm) := by
  refine of_armWord rfl rfl ?_
  have := rn.isLt
  have := rd.isLt
  have := rm.isLt
  simp only [packFields]
  omega

theorem swpb (c : Cond) (rn : Reg) (rd : Reg) (rm : Reg) : Statement (.swpb c rn rd rm) := by
  refine of_armWord rfl rfl ?_
  have := rn.isLt
  have := rd.isLt
  have := rm.isLt
  simp only [packFields]
  omega

theorem mul (c : Cond) (sf : Bool) (rd : Reg) (rs : Reg) (rm : Reg) : Statement (.mul c sf rd rs rm) := by
  refine of_armWord rfl rfl ?_
  have := Bool.toNat_le sf
  have := rd.isLt
  have := rs.isLt
  have := rm.isLt
  simp only [packFields]
  omega

theorem mla (c : Cond) (sf : Bool) (rd : Reg) (rn : Reg) (rs : Reg) (rm : Reg) : Statement (.mla c sf rd rn rs rm) := by
  refine of_armWord rfl rfl ?_
  have := Bool.toNat_le sf
  have := rd.isLt
  have := rn.isLt
  have := rs.isLt
  have := rm.isLt
  simp only [packFields]
  omega

theorem umull (c : Cond) (sf : Bool) (rdHi : Reg) (rdLo : Reg) (rs : Reg) (rm : Reg) : Statement (.umull c sf rdHi rdLo rs rm) := by
  refine of_armWord rfl rfl ?_
  have := Bool.toNat_le sf
  have := rdHi.isLt
  have := rdLo.isLt
  have := rs.isLt
  have := rm.isLt
  simp only [packFields]
  omega

theorem umlal (c : Cond) (sf : Bool) (rdHi : Reg) (rdLo : Reg) (rs : Reg) (rm : Reg) : Statement (.umlal c sf rdHi rdLo rs rm) := by
  refine of_armWord rfl rfl ?_
  have := Bool.toNat_le sf
  have := rdHi.isLt
  have := rdLo.isLt
  have := rs.isLt
  have := rm.isLt
  simp only [packFields]
  omega

theorem smull (c : Cond) (sf : Bool) (rdHi : Reg) (rdLo : Reg) (rs : Reg) (rm : Reg) : Statement (.smull c sf rdHi rdLo rs rm) := by
  refine of_armWord rfl rfl ?_
  have := Bool.toNat_le sf
  have := rdHi.isLt
  have := rdLo.isLt
  have := rs.isLt
  have := rm.isLt
  simp only [packFields]
  omega

theorem smlal (c : Cond) (sf : Bool) (rdHi : Reg) (rdLo : Reg) (rs : Reg) (rm : Reg) : Statement (.smlal c sf rdHi rdLo rs rm) := by
  refine of_armWord rfl rfl ?_
  have := Bool.toNat_le sf
  have := rdHi.isLt
  have := rdLo.isLt
  have := rs.isLt
  have := rm.isLt
  simp only [packFields]
  omega

theorem strhReg (c : Cond) (p : Bool) (u : Bool) (w : Bool) (rn : Reg) (rd : Reg) (rm : Reg) : Statement (.strhReg c p u w rn rd rm) := by
  refine of_armWord rfl rfl ?_
  have := Bool.toNat_le p
  have := Bool.toNat_le u
  have := Bool.toNat_le w
  have := rn.isLt
  have := rd.isLt
  have := rm.isLt
  simp only [packFields]
  omega

theorem strhImm (c : Cond) (p : Bool) (u : Bool) (w : Bool) (rn : Reg) (rd : Reg) (immH : BitVec 4) (immL : BitVec 4) : Statement (.strhImm c p u w rn rd immH immL) := by
  refine of_armWord rfl rfl ?_
  have := Bool.toNat_le p
  have := Bool.toNat_le u
  have := Bool.toNat_le w
  have := rn.isLt
  have := rd.isLt
  have := immH.isLt
  have := immL.isLt
  simp only [packFields]
  omega

theorem ldrhReg (c : Cond) (p : Bool) (u : Bool) (w : Bool) (rn : Reg) (rd : Reg) (rm : Reg) : Statement (.ldrhReg c p u w rn rd rm) := by
  refine of_armWord rfl rfl ?_
  have := Bool.toNat_le p
  have := Bool.toNat_le u
  have := Bool.toNat_le w
  have := rn.isLt
  have := rd.isLt
  have := rm.isLt
  simp only [packFields]
  omega

theorem ldrhImm (c : Cond) (p : Bool) (u : Bool) (w : Bool) (rn : Reg) (rd : Reg) (immH : BitVec 4) (immL : BitVec 4) : Statement (.ldrhImm c p u w rn rd immH immL) := by
  refine of_armWord rfl rfl ?_
  have := Bool.toNat_le p
  have := Bool.toNat_le u
  have := Bool.toNat_le w
  have := rn.isLt
  have := rd.isLt
  have := immH.isLt
  have := immL.isLt
  simp only [packFields]
  omega

theorem ldrsbReg (c : Cond) (p : Bool) (u : Bool) (w : Bool) (rn : Reg) (rd : Reg) (rm : Reg) : Statement (.ldrsbReg c p u w rn rd rm) := by
  refine of_armWord rfl rfl ?_
  have := Bool.toNat_le p
  have := Bool.toNat_le u
  have := Bool.toNat_le w
  have := rn.isLt
  have := rd.isLt
  have := rm.isLt
  simp only [packFields]
  omega

theorem ldrsbImm (c : Cond) (p : Bool) (u : Bool) (w : Bool) (rn : Reg) (rd : Reg) (immH : BitVec 4) (immL : BitVec 4) : Statement (.ldrsbImm c p u w rn rd immH immL) := by
  refine of_armWord rfl rfl ?_
  have := Bool.toNat_le p
  have := Bool.toNat_le u
  have := Bool.toNat_le w
  have := rn.isLt
  have := rd.isLt
  have := immH.isLt
  have := immL.isLt
  simp only [packFields]
  omega

theorem ldrshReg (c : Cond) (p : Bool) (u : Bool) (w : Bool) (rn : Reg) (rd : Reg) (rm : Reg) : Statement (.ldrshReg c p u w rn rd rm) := by
  refine of_armWord rfl rfl ?_
  have := Bool.toNat_le p
  have := Bool.toNat_le u
  have := Bool.toNat_le w
  have := rn.isLt
  have := rd.isLt
  have := rm.isLt
  simp only [packFields]
  omega

theorem ldrshImm (c : Cond) (p : Bool) (u : Bool) (w : Bool) (rn : Reg) (rd : Reg) (immH : BitVec 4) (immL : BitVec 4) : Statement (.ldrshImm c p u w rn rd immH immL) := by
  refine of_armWord rfl rfl ?_
  have := Bool.toNat_le p
  have := Bool.toNat_le u
  have := Bool.toNat_le w
  have := rn.isLt
  have := rd.isLt
  have := immH.isLt
  have := immL.isLt
  simp only [packFields]
  omega

theorem unallocHalfStore (c : Cond) (hi : BitVec 4) (mid : BitVec 12) (sh : BitVec 1) (lo : BitVec 4) : Statement (.unallocHalfStore c hi mid sh lo) := by
  refine of_armWord rfl rfl ?_
  have := hi.isLt
  have := mid.isLt
  have := sh.isLt
  have := lo.isLt
  simp only [packFields]
  omega

theorem unallocMul (c : Cond) (op : BitVec 5) (mid : BitVec 12) (lo : BitVec 4) : Statement (.unallocMul c op mid lo) := by
  refine of_armWord rfl rfl ?_
  have := op.isLt
  have := mid.isLt
  have := lo.isLt
  simp only [packFields]
  omega

theorem mrs (c : Cond) (r : Bool) (rd : Reg) : Statement (.mrs c r rd) := by
  refine of_armWord rfl rfl ?_
  have := Bool.toNat_le r
  have := rd.isLt
  simp only [packFields]
  omega

theorem msrCpsrReg (c : Cond) (mask : BitVec 4) (rm : Reg) : Statement (.msrCpsrReg c mask rm) := by
  refine of_armWord rfl rfl ?_
  have := mask.isLt
  have := rm.isLt
  simp only [packFields]
  omega

theorem msrSpsrReg (c : Cond) (mask : BitVec 4) (rm : Reg) : Statement (.msrSpsrReg c mask rm) := by
  refine of_armWord rfl rfl ?_
  have := mask.isLt
  have := rm.isLt
  simp only [packFields]
  omega

theorem msrCpsrImm (c : Cond) (mask : BitVec 4) (rot : BitVec 4) (imm : BitVec 8) : Statement (.msrCpsrImm c mask rot imm) := by
  refine of_armWord rfl rfl ?_
  have := mask.isLt
  have := rot.isLt
  have := imm.isLt
  simp only [packFields]
  omega

theorem msrSpsrImm (c : Cond) (mask : BitVec 4) (rot : BitVec 4) (imm : BitVec 8) : Statement (.msrSpsrImm c mask rot imm) := by
  refine of_armWord rfl rfl ?_
  have := mask.isLt
  have := rot.isLt
  have := imm.isLt
  simp only [packFields]
  omega

theorem unallocPsr (c : Cond) (im : Bool) (op : BitVec 2) (mid : BitVec 12) (nib : BitVec 4) (lo : BitVec 4) : Statement (.unallocPsr c im op mid nib lo) := by
  refine of_armWord rfl rfl ?_
  have := Bool.toNat_le im
  have := op.isLt
  have := mid.isLt
  have := nib.isLt
  have := lo.isLt
  simp only [packFields]
  omega

theorem andImm (c : Cond) (sf : Bool) (rn : Reg) (rd : Reg) (rot : BitVec 4) (imm : BitVec 8) : Statement (.andImm c sf rn rd rot imm) := by
  refine of_armWord rfl rfl ?_
  have := Bool.toNat_le sf
  have := rn.isLt
  have := rd.isLt
  have := rot.isLt
  have := imm.isLt
  simp only [packFields]
  omega

theorem andImmShift (c : Cond) (sf : Bool) (rn : Reg) (rd : Reg) (n : BitVec 5) (sh : ShiftKind) (rm : Reg) : Statement (.andImmShift c sf rn rd n sh rm) := by
  refine of_armWord rfl rfl ?_
  have := Bool.toNat_le sf
  have := rn.isLt
  have := rd.isLt
  have := n.isLt
  have := shift_lt sh
  have := rm.isLt
  simp only [packFields]
  omega

theorem andRegShift (c : Cond) (sf : Bool) (rn : Reg) (rd : Reg) (rs : Reg) (sh : ShiftKind) (rm : Reg) : Statement (.andRegShift c sf rn rd rs sh rm) := by
  refine of_armWord rfl rfl ?_
  have := Bool.toNat_le sf
  have := rn.isLt
  have := rd.isLt
  have := rs.isLt
  have := shift_lt sh
  have := rm.isLt
  simp only [packFields]
  omega

theorem eorImm (c : Cond) (sf : Bool) (rn : Reg) (rd : Reg) (rot : BitVec 4) (imm : BitVec 8) : Statement (.eorImm c sf rn rd rot imm) := by
  refine of_armWord rfl rfl ?_
  have := Bool.toNat_le sf
  have := rn.isLt
  have := rd.isLt
  have := rot.isLt
  have := imm.isLt
  simp only [packFields]
  omega

theorem eorImmShift (c : Cond) (sf : Bool) (rn : Reg) (rd : Reg) (n : BitVec 5) (sh : ShiftKind) (rm : Reg) : Statement (.eorImmShift c sf rn rd n sh rm) := by
  refine of_armWord rfl rfl ?_
  have := Bool.toNat_le sf
  have := rn.isLt
  have := rd.isLt
  have := n.isLt
  have := shift_lt sh
  have := rm.isLt
  simp only [packFields]
  omega

theorem eorRegShift (c : Cond) (sf : Bool) (rn : Reg) (rd : Reg) (rs : Reg) (sh : ShiftKind) (rm : Reg) : Statement (.eorRegShift c sf rn rd rs sh rm) := by
  refine of_armWord rfl rfl ?_
  have := Bool.toNat_le sf
  have := rn.isLt
  have := rd.isLt
  have := rs.isLt
  have := shift_lt sh
  have := rm.isLt
  simp only [packFields]
  omega

theorem subImm (c : Cond) (sf : Bool) (rn : Reg) (rd : Reg) (rot : BitVec 4) (imm : BitVec 8) : Statement (.subImm c sf rn rd rot imm) := by
  refine of_armWord rfl rfl ?_
  have := Bool.toNat_le sf
  have := rn.isLt
  have := rd.isLt
  have := rot.isLt
  have := imm.isLt
  simp only [packFields]
  omega

theorem subImmShift (c : Cond) (sf : Bool) (rn : Reg) (rd : Reg) (n : BitVec 5) (sh : ShiftKind) (rm : Reg) : Statement (.subImmShift c sf rn rd n sh rm) := by
  refine of_armWord rfl rfl ?_
  have := Bool.toNat_le sf
  have := rn.isLt
  have := rd.isLt
  have := n.isLt
  have := shift_lt sh
  have := rm.isLt
  simp only [packFields]
  omega

theorem subRegShift (c : Cond) (sf : Bool) (rn : Reg) (rd : Reg) (rs : Reg) (sh : ShiftKind) (rm : Reg) : Statement (.subRegShift c sf rn rd rs sh rm) := by
  refine of_armWord rfl rfl ?_
  have := Bool.toNat_le sf
  have := rn.isLt
  have := rd.isLt
  have := rs.isLt
  have := shift_lt sh
  have := rm.isLt
  simp only [packFields]
  omega

theorem rsbImm (c : Cond) (sf : Bool) (rn : Reg) (rd : Reg) (rot : BitVec 4) (imm : BitVec 8) : Statement (.rsbImm c sf rn rd rot imm) := by
  refine of_armWord rfl rfl ?_
  have := Bool.toNat_le sf
  have := rn.isLt
  have := rd.isLt
  have := rot.isLt
  have := imm.isLt
  simp only [packFields]
  omega

theorem rsbImmShift (c : Cond) (sf : Bool) (rn : Reg) (rd : Reg) (n : BitVec 5) (sh : ShiftKind) (rm : Reg) : Statement (.rsbImmShift c sf rn rd n sh rm) := by
  refine of_armWord rfl rfl ?_
  have := Bool.toNat_le sf
  have := rn.isLt
  have := rd.isLt
  have := n.isLt
  have := shift_lt sh
  have := rm.isLt
  simp only [packFields]
  omega

theorem rsbRegShift (c : Cond) (sf : Bool) (rn : Reg) (rd : Reg) (rs : Reg) (sh : ShiftKind) (rm : Reg) : Statement (.rsbRegShift c sf rn rd rs sh rm) := by
  refine of_armWord rfl rfl ?_
  have := Bool.toNat_le sf
  have := rn.isLt
  have := rd.isLt
  have := rs.isLt
  have := shift_lt sh
  have := rm.isLt
  simp only [packFields]
  omega

theorem addImm (c : Cond) (sf : Bool) (rn : Reg) (rd : Reg) (rot : BitVec 4) (imm : BitVec 8) : Statement (.addImm c sf rn rd rot imm) := by
  refine of_armWord rfl rfl ?_
  have := Bool.toNat_le sf
  have := rn.isLt
  have := rd.isLt
  have := rot.isLt
  have := imm.isLt
  simp only [packFields]
  omega

theorem addImmShift (c : Cond) (sf : Bool) (rn : Reg) (rd : Reg) (n : BitVec 5) (sh : ShiftKind) (rm : Reg) : Statement (.addImmShift c sf rn rd n sh rm) := by
  refine of_armWord rfl rfl ?_
  have := Bool.toNat_le sf
  have := rn.isLt
  have := rd.isLt
  have := n.isLt
  have := shift_lt sh
  have := rm.isLt
  simp only [packFields]
  omega

theorem addRegShift (c : Cond) (sf : Bool) (rn : Reg) (rd : Reg) (rs : Reg) (sh : ShiftKind) (rm : Reg) : Statement (.addRegShift c sf rn rd rs sh rm) := by
  refine of_armWord rfl rfl ?_
  have := Bool.toNat_le sf
  have := rn.isLt
  have := rd.isLt
  have := rs.isLt
  have := shift_lt sh
  have := rm.isLt
  simp only [packFields]
  omega

theorem adcImm (c : Cond) (sf : Bool) (rn : Reg) (rd : Reg) (rot : BitVec 4) (imm : BitVec 8) : Statement (.adcImm c sf rn rd rot imm) := by
  refine of_armWord rfl rfl ?_
  have := Bool.toNat_le sf
  have := rn.isLt
  have := rd.isLt
  have := rot.isLt
  have := imm.isLt
  simp only [packFields]
  omega

theorem adcImmShift (c : Cond) (sf : Bool) (rn : Reg) (rd : Reg) (n : BitVec 5) (sh : ShiftKind) (rm : Reg) : Statement (.adcImmShift c sf rn rd n sh rm) := by
  refine of_armWord rfl rfl ?_
  have := Bool.toNat_le sf
  have := rn.isLt
  have := rd.isLt
  have := n.isLt
  have := shift_lt sh
  have := rm.isLt
  simp only [packFields]
  omega

theorem adcRegShift (c : Cond) (sf : Bool) (rn : Reg) (rd : Reg) (rs : Reg) (sh : ShiftKind) (rm : Reg) : Statement (.adcRegShift c sf rn rd rs sh rm) := by
  refine of_armWord rfl rfl ?_
  have := Bool.toNat_le sf
  have := rn.isLt
  have := rd.isLt
  have := rs.isLt
  have := shift_lt sh
  have := rm.isLt
  simp only [packFields]
  omega

theorem sbcImm (c : Cond) (sf : Bool) (rn : Reg) (rd : Reg) (rot : BitVec 4) (imm : BitVec 8) : Statement (.sbcImm c sf rn rd rot imm) := by
  refine of_armWord rfl rfl ?_
  have := Bool.toNat_le sf
  have := rn.isLt
  have := rd.isLt
  have := rot.isLt
  have := imm.isLt
  simp only [packFields]
  omega

theorem sbcImmShift (c : Cond) (sf : Bool) (rn : Reg) (rd : Reg) (n : BitVec 5) (sh : ShiftKind) (rm : Reg) : Statement (.sbcImmShift c sf rn rd n sh rm) := by
  refine of_armWord rfl rfl ?_
  have := Bool.toNat_le sf
  have := rn.isLt
  have := rd.isLt
  have := n.isLt
  have := shift_lt sh
  have := rm.isLt
  simp only [packFields]
  omega

theorem sbcRegShift (c : Cond) (sf : Bool) (rn : Reg) (rd : Reg) (rs : Reg) (sh : ShiftKind) (rm : Reg) : Statement (.sbcRegShift c sf rn rd rs sh rm) := by
  refine of_armWord rfl rfl ?_
  have := Bool.toNat_le sf
  have := rn.isLt
  have := rd.isLt
  have := rs.isLt
  have := shift_lt sh
  have := rm.isLt
  simp only [packFields]
  omega

theorem rscImm (c : Cond) (sf : Bool) (rn : Reg) (rd : Reg) (rot : BitVec 4) (imm : BitVec 8) : Statement (.rscImm c sf rn rd rot imm) := by
  refine of_armWord rfl rfl ?_
  have := Bool.toNat_le sf
  have := rn.isLt
  have := rd.isLt
  have := rot.isLt
  have := imm.isLt
  simp only [packFields]
  omega

theorem rscImmShift (c : Cond) (sf : Bool) (rn : Reg) (rd : Reg) (n : BitVec 5) (sh : ShiftKind) (rm : Reg) : Statement (.rscImmShift c sf rn rd n sh rm) := by
  refine of_armWord rfl rfl ?_
  have := Bool.toNat_le sf
  have := rn.isLt
  have := rd.isLt
  have := n.isLt
  have := shift_lt sh
  have := rm.isLt
  simp only [packFields]
  omega

theorem rscRegShift (c : Cond) (sf : Bool) (rn : Reg) (rd : Reg) (rs : Reg) (sh : ShiftKind) (rm : Reg) : Statement (.rscRegShift c sf rn rd rs sh rm) := by
  refine of_armWord rfl rfl ?_
  have := Bool.toNat_le sf
  have := rn.isLt
  have := rd.isLt
  have := rs.isLt
  have := shift_lt sh
  have := rm.isLt
  simp only [packFields]
  omega

theorem tstImm (c : Cond) (rn : Reg) (rd : Reg) (rot : BitVec 4) (imm : BitVec 8) : Statement (.tstImm c rn rd rot imm) := by
  refine of_armWord rfl rfl ?_
  have := rn.isLt
  have := rd.isLt
  have := rot.isLt
  have := imm.isLt
  simp only [packFields]
  omega

theorem tstImmShift (c : Cond) (rn : Reg) (rd : Reg) (n : BitVec 5) (sh : ShiftKind) (rm : Reg) : Statement (.tstImmShift c rn rd n sh rm) := by
  refine of_armWord rfl rfl ?_
  have := rn.isLt
  have := rd.isLt
  have := n.isLt
  have := shift_lt sh
  have := rm.isLt
  simp only [packFields]
  omega

theorem tstRegShift (c : Cond) (rn : Reg) (rd : Reg) (rs : Reg) (sh : ShiftKind) (rm : Reg) : Statement (.tstRegShift c rn rd rs sh rm) := by
  refine of_armWord rfl rfl ?_
  have := rn.isLt
  have := rd.isLt
  have := rs.isLt
  have := shift_lt sh
  have := rm.isLt
  simp only [packFields]
  omega

theorem teqImm (c : Cond) (rn : Reg) (rd : Reg) (rot : BitVec 4) (imm : BitVec 8) : Statement (.teqImm c rn rd rot imm) := by
  refine of_armWord rfl rfl ?_
  have := rn.isLt
  have := rd.isLt
  have := rot.isLt
  have := imm.isLt
  simp only [packFields]
  omega

theorem teqImmShift (c : Cond) (rn : Reg) (rd : Reg) (n : BitVec 5) (sh : ShiftKind) (rm : Reg) : Statement (.teqImmShift c rn rd n sh rm) := by
  refine of_armWord rfl rfl ?_
  have := rn.isLt
  have := rd.isLt
  have := n.isLt
  have := shift_lt sh
  have := rm.isLt
  simp only [packFields]
  omega

theorem teqRegShift (c : Cond) (rn : Reg) (rd : Reg) (rs : Reg) (sh : ShiftKind) (rm : Reg) : Statement (.teqRegShift c rn rd rs sh rm) := by
  refine of_armWord rfl rfl ?_
  have := rn.isLt
  have := rd.isLt
  have := rs.isLt
  have := shift_lt sh
  have := rm.isLt
  simp only [packFields]
  omega

theorem cmpImm (c : Cond) (rn : Reg) (rd : Reg) (rot : BitVec 4) (imm : BitVec 8) : Statement (.cmpImm c rn rd rot imm) := by
  refine of_armWord rfl rfl ?_
  have := rn.isLt
  have := rd.isLt
  have := rot.isLt
  have := imm.isLt
  simp only [packFields]
  omega

theorem cmpImmShift (c : Cond) (rn : Reg) (rd : Reg) (n : BitVec 5) (sh : ShiftKind) (rm : Reg) : Statement (.cmpImmShift c rn rd n sh rm) := by
  refine of_armWord rfl rfl ?_
  have := rn.isLt
  have := rd.isLt
  have := n.isLt
  have := shift_lt sh
  have := rm.isLt
  simp only [packFields]
  omega

theorem cmpRegShift (c : Cond) (rn : Reg) (rd : Reg) (rs : Reg) (sh : ShiftKind) (rm : Reg) : Statement (.cmpRegShift c rn rd rs sh rm) := by
  refine of_armWord rfl rfl ?_
  have := rn.isLt
  have := rd.isLt
  have := rs.isLt
  have := shift_lt sh
  have := rm.isLt
  simp only [packFields]
  omega

theorem cmnImm (c : Cond) (rn : Reg) (rd : Reg) (rot : BitVec 4) (imm : BitVec 8) : Statement (.cmnImm c rn rd rot imm) := by
  refine of_armWord rfl rfl ?_
  have := rn.isLt
  have := rd.isLt
  have := rot.isLt
  have := imm.isLt
  simp only [packFields]
  omega

theorem cmnImmShift (c : Cond) (rn : Reg) (rd : Reg) (n : BitVec 5) (sh : ShiftKind) (rm : Reg) : Statement (.cmnImmShift c rn rd n sh rm) := by
  refine of_armWord rfl rfl ?_
  have := rn.isLt
  have := rd.isLt
  have := n.isLt
  have := shift_lt sh
  have := rm.isLt
  simp only [packFields]
  omega

theorem cmnRegShift (c : Cond) (rn : Reg) (rd : Reg) (rs : Reg) (sh : ShiftKind) (rm : Reg) : Statement (.cmnRegShift c rn rd rs sh rm) := by
  refine of_armWord rfl rfl ?_
  have := rn.isLt
  have := rd.isLt
  have := rs.isLt
  have := shift_lt sh
  have := rm.isLt
  simp only [packFields]
  omega

theorem orrImm (c : Cond) (sf : Bool) (rn : Reg) (rd : Reg) (rot : BitVec 4) (imm : BitVec 8) : Statement (.orrImm c sf rn rd rot imm) := by
  refine of_armWord rfl rfl ?_
  have := Bool.toNat_le sf
  have := rn.isLt
  have := rd.isLt
  have := rot.isLt
  have := imm.isLt
  simp only [packFields]
  omega

theorem orrImmShift (c : Cond) (sf : Bool) (rn : Reg) (rd : Reg) (n : BitVec 5) (sh : ShiftKind) (rm : Reg) : Statement (.orrImmShift c sf rn rd n sh rm) := by
  refine of_armWord rfl rfl ?_
  have := Bool.toNat_le sf
  have := rn.isLt
  have := rd.isLt
  have := n.isLt
  have := shift_lt sh
  have := rm.isLt
  simp only [packFields]
  omega

theorem orrRegShift (c : Cond) (sf : Bool) (rn : Reg) (rd : Reg) (rs : Reg) (sh : ShiftKind) (rm : Reg) : Statement (.orrRegShift c sf rn rd rs sh rm) := by
  refine of_armWord rfl rfl ?_
  have := Bool.toNat_le sf
  have := rn.isLt
  have := rd.isLt
  have := rs.isLt
  have := shift_lt sh
  have := rm.isLt
  simp only [packFields]
  omega

theorem movImm (c : Cond) (sf : Bool) (rd : Reg) (rot : BitVec 4) (imm : BitVec 8) : Statement (.movImm c sf rd rot imm) := by
  refine of_armWord rfl rfl ?_
  have := Bool.toNat_le sf
  have := rd.isLt
  have := rot.isLt
  have := imm.isLt
  simp only [packFields]
  omega

theorem movImmShift (c : Cond) (sf : Bool) (rd : Reg) (n : BitVec 5) (sh : ShiftKind) (rm : Reg) : Statement (.movImmShift c sf rd n sh rm) := by
  refine of_armWord rfl rfl ?_
  have := Bool.toNat_le sf
  have := rd.isLt
  have := n.isLt
  have := shift_lt sh
  have := rm.isLt
  simp only [packFields]
  omega

theorem movRegShift (c : Cond) (sf : Bool) (rd : Reg) (rs : Reg) (sh : ShiftKind) (rm : Reg) : Statement (.movRegShift c sf rd rs sh rm) := by
  refine of_armWord rfl rfl ?_
  have := Bool.toNat_le sf
  have := rd.isLt
  have := rs.isLt
  have := shift_lt sh
  have := rm.isLt
  simp only [packFields]
  omega

theorem bicImm (c : Cond) (sf : Bool) (rn : Reg) (rd : Reg) (rot : BitVec 4) (imm : BitVec 8) : Statement (.bicImm c sf rn rd rot imm) := by
  refine of_armWord rfl rfl ?_
  have := Bool.toNat_le sf
  have := rn.isLt
  have := rd.isLt
  have := rot.isLt
  have := imm.isLt
  simp only [packFields]
  omega

theorem bicImmShift (c : Cond) (sf : Bool) (rn : Reg) (rd : Reg) (n : BitVec 5) (sh : ShiftKind) (rm : Reg) : Statement (.bicImmShift c sf rn rd n sh rm) := by
  refine of_armWord rfl rfl ?_
  have := Bool.toNat_le sf
  have := rn.isLt
  have := rd.isLt
  have := n.isLt
  have := shift_lt sh
  have := rm.isLt
  simp only [packFields]
  omega

theorem bicRegShift (c : Cond) (sf : Bool) (rn : Reg) (rd : Reg) (rs : Reg) (sh : ShiftKind) (rm : Reg) : Statement (.bicRegShift c sf rn rd rs sh rm) := by
  refine of_armWord rfl rfl ?_
  have := Bool.toNat_le sf
  have := rn.isLt
  have := rd.isLt
  have := rs.isLt
  have := shift_lt sh
  have := rm.isLt
  simp only [packFields]
  omega

theorem mvnImm (c : Cond) (sf : Bool) (rd : Reg) (rot : BitVec 4) (imm : BitVec 8) : Statement (.mvnImm c sf rd rot imm) := by
  refine of_armWord rfl rfl ?_
  have := Bool.toNat_le sf
  have := rd.isLt
  have := rot.isLt
  have := imm.isLt
  simp only [packFields]
  omega

theorem mvnImmShift (c : Cond) (sf : Bool) (rd : Reg) (n : BitVec 5) (sh : ShiftKind) (rm : Reg) : Statement (.mvnImmShift c sf rd n sh rm) := by
  refine of_armWord rfl rfl ?_
  have := Bool.toNat_le sf
  have := rd.isLt
  have := n.isLt
  have := shift_lt sh
  have := rm.isLt
  simp only [packFields]
  omega

theorem mvnRegShift (c : Cond) (sf : Bool) (rd : Reg) (rs : Reg) (sh : ShiftKind) (rm : Reg) : Statement (.mvnRegShift c sf rd rs sh rm) := by
  refine of_armWord rfl rfl ?_
  have := Bool.toNat_le sf
  have := rd.isLt
  have := rs.isLt
  have := shift_lt sh
  have := rm.isLt
  simp only [packFields]
  omega

theorem undefined (c : Cond) (hi : BitVec 20) (lo : BitVec 4) : Statement (.undefined c hi lo) := by
  refine of_armWord rfl rfl ?_
  have := hi.isLt
  have := lo.isLt
  simp only [packFields]
  omega

theorem strtImm (c : Cond) (u : Bool) (rn : Reg) (rd : Reg) (off : BitVec 12) : Statement (.strtImm c u rn rd off) := by
  refine of_armWord rfl rfl ?_
  have := Bool.toNat_le u
  have := rn.isLt
  have := rd.isLt
  have := off.isLt
  simp only [packFields]
  omega

theorem strtReg (c : Cond) (u : Bool) (rn : Reg) (rd : Reg) (n : BitVec 5) (sh : ShiftKind) (rm : Reg) : Statement (.strtReg c u rn rd n sh rm) := by
  refine of_armWord rfl rfl ?_
  have := Bool.toNat_le u
  have := rn.isLt
  have := rd.isLt
  have := n.isLt
  have := shift_lt sh
  have := rm.isLt
  simp only [packFields]
  omega

theorem ldrtImm (c : Cond) (u : Bool) (rn : Reg) (rd : Reg) (off : BitVec 12) : Statement (.ldrtImm c u rn rd off) := by
  refine of_armWord rfl rfl ?_
  have := Bool.toNat_le u
  have := rn.isLt
  have := rd.isLt
  have := off.isLt
  simp only [packFields]
  omega

theorem ldrtReg (c : Cond) (u : Bool) (rn : Reg) (rd : Reg) (n : BitVec 5) (sh : ShiftKind) (rm : Reg) : Statement (.ldrtReg c u rn rd n sh rm) := by
  refine of_armWord rfl rfl ?_
  have := Bool.toNat_le u
  have := rn.isLt
  have := rd.isLt
  have := n.isLt
  have := shift_lt sh
  have := rm.isLt
  simp only [packFields]
  omega

theorem strbtImm (c : Cond) (u : Bool) (rn : Reg) (rd : Reg) (off : BitVec 12) : Statement (.strbtImm c u rn rd off) := by
  refine of_armWord rfl rfl ?_
  have := Bool.toNat_le u
  have := rn.isLt
  have := rd.isLt
  have := off.isLt
  simp only [packFields]
  omega

theorem strbtReg (c : Cond) (u : Bool) (rn : Reg) (rd : Reg) (n : BitVec 5) (sh : ShiftKind) (rm : Reg) : Statement (.strbtReg c u rn rd n sh rm) := by
  refine of_armWord rfl rfl ?_
  have := Bool.toNat_le u
  have := rn.isLt
  have := rd.isLt
  have := n.isLt
  have := shift_lt sh
  have := rm.isLt
  simp only [packFields]
  omega

theorem ldrbtImm (c : Cond) (u : Bool) (rn : Reg) (rd : Reg) (off : BitVec 12) : Statement (.ldrbtImm c u rn rd off) := by
  refine of_armWord rfl rfl ?_
  have := Bool.toNat_le u
  have := rn.isLt
  have := rd.isLt
  have := off.isLt
  simp only [packFields]
  omega

theorem ldrbtReg (c : Cond) (u : Bool) (rn : Reg) (rd : Reg) (n : BitVec 5) (sh : ShiftKind) (rm : Reg) : Statement (.ldrbtReg c u rn rd n sh rm) := by
  refine of_armWord rfl rfl ?_
  have := Bool.toNat_le u
  have := rn.isLt
  have := rd.isLt
  have := n.isLt
  have := shift_lt sh
  have := rm.isLt
  simp only [packFields]
  omega

theorem strImm (c : Cond) (p : Bool) (u : Bool) (w : Bool) (rn : Reg) (rd : Reg) (off : BitVec 12) : Statement (.strImm c p u w rn rd off) := by
  refine of_armWord rfl rfl ?_
  have := Bool.toNat_le p
  have := Bool.toNat_le u
  have := Bool.toNat_le w
  have := rn.isLt
  have := rd.isLt
  have := off.isLt
  simp only [packFields]
  omega

theorem strReg (c : Cond) (p : Bool) (u : Bool) (w : Bool) (rn : Reg) (rd : Reg) (n : BitVec 5) (sh : ShiftKind) (rm : Reg) : Statement (.strReg c p u w rn rd n sh rm) := by
  refine of_armWord rfl rfl ?_
  have := Bool.toNat_le p
  have := Bool.toNat_le u
  have := Bool.toNat_le w
  have := rn.isLt
  have := rd.isLt
  have := n.isLt
  have := shift_lt sh
  have := rm.isLt
  simp only [packFields]
  omega

theorem ldrImm (c : Cond) (p : Bool) (u : Bool) (w : Bool) (rn : Reg) (rd : Reg) (off : BitVec 12) : Statement (.ldrImm c p u w rn rd off) := by
  refine of_armWord rfl rfl ?_
  have := Bool.toNat_le p
  have := Bool.toNat_le u
  have := Bool.toNat_le w
  have := rn.isLt
  have := rd.isLt
  have := off.isLt
  simp only [packFields]
  omega

theorem ldrReg (c : Cond) (p : Bool) (u : Bool) (w : Bool) (rn : Reg) (rd : Reg) (n : BitVec 5) (sh : ShiftKind) (rm : Reg) : Statement (.ldrReg c p u w rn rd n sh rm) := by
  refine of_armWord rfl rfl ?_
  have := Bool.toNat_le p
  have := Bool.toNat_le u
  have := Bool.toNat_le w
  have := rn.isLt
  have := rd.isLt
  have := n.isLt
  have := shift_lt sh
  have := rm.isLt
  simp only [packFields]
  omega

theorem strbImm (c : Cond) (p : Bool) (u : Bool) (w : Bool) (rn : Reg) (rd : Reg) (off : BitVec 12) : Statement (.strbImm c p u w rn rd off) := by
  refine of_armWord rfl rfl ?_
  have := Bool.toNat_le p
  have := Bool.toNat_le u
  have := Bool.toNat_le w
  have := rn.isLt
  have := rd.isLt
  have := off.isLt
  simp only [packFields]
  omega

theorem strbReg (c : Cond) (p : Bool) (u : Bool) (w : Bool) (rn : Reg) (rd : Reg) (n : BitVec 5) (sh : ShiftKind) (rm : Reg) : Statement (.strbReg c p u w rn rd n sh rm) := by
  refine of_armWord rfl rfl ?_
  have := Bool.toNat_le p
  have := Bool.toNat_le u
  have := Bool.toNat_le w
  have := rn.isLt
  have := rd.isLt
  have := n.isLt
  have := shift_lt sh
  have := rm.isLt
  simp only [packFields]
  omega

theorem ldrbImm (c : Cond) (p : Bool) (u : Bool) (w : Bool) (rn : Reg) (rd : Reg) (off : BitVec 12) : Statement (.ldrbImm c p u w rn rd off) := by
  refine of_armWord rfl rfl ?_
  have := Bool.toNat_le p
  have := Bool.toNat_le u
  have := Bool.toNat_le w
  have := rn.isLt
  have := rd.isLt
  have := off.isLt
  simp only [packFields]
  omega

theorem ldrbReg (c : Cond) (p : Bool) (u : Bool) (w : Bool) (rn : Reg) (rd : Reg) (n : BitVec 5) (sh : ShiftKind) (rm : Reg) : Statement (.ldrbReg c p u w rn rd n sh rm) := by
  refine of_armWord rfl rfl ?_
  have := Bool.toNat_le p
  have := Bool.toNat_le u
  have := Bool.toNat_le w
  have := rn.isLt
  have := rd.isLt
  have := n.isLt
  have := shift_lt sh
  have := rm.isLt
  simp only [packFields]
  omega

theorem stm (c : Cond) (p : Bool) (u : Bool) (w : Bool) (rn : Reg) (list : BitVec 16) : Statement (.stm c p u w rn list) := by
  refine of_armWord rfl rfl ?_
  have := Bool.toNat_le p
  have := Bool.toNat_le u
  have := Bool.toNat_le w
  have := rn.isLt
  have := list.isLt
  simp only [packFields]
  omega

theorem ldm (c : Cond) (p : Bool) (u : Bool) (w : Bool) (rn : Reg) (list : BitVec 16) : Statement (.ldm c p u w rn list) := by
  refine of_armWord rfl rfl ?_
  have := Bool.toNat_le p
  have := Bool.toNat_le u
  have := Bool.toNat_le w
  have := rn.isLt
  have := list.isLt
  simp only [packFields]
  omega

theorem stmUser (c : Cond) (p : Bool) (u : Bool) (w : Bool) (rn : Reg) (list : BitVec 16) : Statement (.stmUser c p u w rn list) := by
  refine of_armWord rfl rfl ?_
  have := Bool.toNat_le p
  have := Bool.toNat_le u
  have := Bool.toNat_le w
  have := rn.isLt
  have := list.isLt
  simp only [packFields]
  omega

theorem ldmUser (c : Cond) (p : Bool) (u : Bool) (w : Bool) (rn : Reg) (list : BitVec 15) : Statement (.ldmUser c p u w rn list) := by
  refine of_armWord rfl rfl ?_
  have := Bool.toNat_le p
  have := Bool.toNat_le u
  have := Bool.toNat_le w
  have := rn.isLt
  have := list.isLt
  simp only [packFields]
  omega

theorem ldmRestore (c : Cond) (p : Bool) (u : Bool) (w : Bool) (rn : Reg) (list : BitVec 15) : Statement (.ldmRestore c p u w rn list) := by
  refine of_armWord rfl rfl ?_
  have := Bool.toNat_le p
  have := Bool.toNat_le u
  have := Bool.toNat_le w
  have := rn.isLt
  have := list.isLt
  simp only [packFields]
  omega

theorem b (c : Cond) (off : BitVec 24) : Statement (.b c off) := by
  refine of_armWord rfl rfl ?_
  have := off.isLt
  simp only [packFields]
  omega

theorem bl (c : Cond) (off : BitVec 24) : Statement (.bl c off) := by
  refine of_armWord rfl rfl ?_
  have := off.isLt
  simp only [packFields]
  omega

theorem stc (c : Cond) (p : Bool) (u : Bool) (n : Bool) (w : Bool) (rn : Reg) (crd : BitVec 4) (cp : BitVec 4) (off : BitVec 8) : Statement (.stc c p u n w rn crd cp off) := by
  refine of_armWord rfl rfl ?_
  have := Bool.toNat_le p
  have := Bool.toNat_le u
  have := Bool.toNat_le n
  have := Bool.toNat_le w
  have := rn.isLt
  have := crd.isLt
  have := cp.isLt
  have := off.isLt
  simp only [packFields]
  omega

theorem ldc (c : Cond) (p : Bool) (u : Bool) (n : Bool) (w : Bool) (rn : Reg) (crd : BitVec 4) (cp : BitVec 4) (off : BitVec 8) : Statement (.ldc c p u n w rn crd cp off) := by
  refine of_armWord rfl rfl ?_
  have := Bool.toNat_le p
  have := Bool.toNat_le u
  have := Bool.toNat_le n
  have := Bool.toNat_le w
  have := rn.isLt
  have := crd.isLt
  have := cp.isLt
  have := off.isLt
  simp only [packFields]
  omega

theorem cdp (c : Cond) (op1 : BitVec 4) (crn : BitVec 4) (crd : BitVec 4) (cp : BitVec 4) (op2 : BitVec 3) (crm : BitVec 4) : Statement (.cdp c op1 crn crd cp op2 crm) := by
  refine of_armWord rfl rfl ?_
  have := op1.isLt
  have := crn.isLt
  have := crd.isLt
  have := cp.isLt
  have := op2.isLt
  have := crm.isLt
  simp only [packFields]
  omega

theorem mcr (c : Cond) (op1 : BitVec 3) (crn : BitVec 4) (rd : Reg) (cp : BitVec 4) (op2 : BitVec 3) (crm : BitVec 4) : Statement (.mcr c op1 crn rd cp op2 crm) := by
  refine of_armWord rfl rfl ?_
  have := op1.isLt
  have := crn.isLt
  have := rd.isLt
  have := cp.isLt
  have := op2.isLt
  have := crm.isLt
  simp only [packFields]
  omega

theorem mrc (c : Cond) (op1 : BitVec 3) (crn : BitVec 4) (rd : Reg) (cp : BitVec 4) (op2 : BitVec 3) (crm : BitVec 4) : Statement (.mrc c op1 crn rd cp op2 crm) := by
  refine of_armWord rfl rfl ?_
  have := op1.isLt
  have := crn.isLt
  have := rd.isLt
  have := cp.isLt
  have := op2.isLt
  have := crm.isLt
  simp only [packFields]
  omega

theorem swi (c : Cond) (comment : BitVec 24) : Statement (.swi c comment) := by
  refine of_armWord rfl rfl ?_
  have := comment.isLt
  simp only [packFields]
  omega

theorem tAddReg (rn : LowReg) (rs : LowReg) (rd : LowReg) : Statement (.tAddReg rn rs rd) := of_none rfl

theorem tSubReg (rn : LowReg) (rs : LowReg) (rd : LowReg) : Statement (.tSubReg rn rs rd) := of_none rfl

theorem tAddImm3 (imm : BitVec 3) (rs : LowReg) (rd : LowReg) : Statement (.tAddImm3 imm rs rd) := of_none rfl

theorem tSubImm3 (imm : BitVec 3) (rs : LowReg) (rd : LowReg) : Statement (.tSubImm3 imm rs rd) := of_none rfl

theorem tLslImm (off : BitVec 5) (rs : LowReg) (rd : LowReg) : Statement (.tLslImm off rs rd) := of_none rfl

theorem tLsrImm (off : BitVec 5) (rs : LowReg) (rd : LowReg) : Statement (.tLsrImm off rs rd) := of_none rfl

theorem tAsrImm (off : BitVec 5) (rs : LowReg) (rd : LowReg) : Statement (.tAsrImm off rs rd) := of_none rfl

theorem tMovImm8 (rd : LowReg) (imm : BitVec 8) : Statement (.tMovImm8 rd imm) := of_none rfl

theorem tCmpImm8 (rd : LowReg) (imm : BitVec 8) : Statement (.tCmpImm8 rd imm) := of_none rfl

theorem tAddImm8 (rd : LowReg) (imm : BitVec 8) : Statement (.tAddImm8 rd imm) := of_none rfl

theorem tSubImm8 (rd : LowReg) (imm : BitVec 8) : Statement (.tSubImm8 rd imm) := of_none rfl

theorem tAnd (rs : LowReg) (rd : LowReg) : Statement (.tAnd rs rd) := of_none rfl

theorem tEor (rs : LowReg) (rd : LowReg) : Statement (.tEor rs rd) := of_none rfl

theorem tLslReg (rs : LowReg) (rd : LowReg) : Statement (.tLslReg rs rd) := of_none rfl

theorem tLsrReg (rs : LowReg) (rd : LowReg) : Statement (.tLsrReg rs rd) := of_none rfl

theorem tAsrReg (rs : LowReg) (rd : LowReg) : Statement (.tAsrReg rs rd) := of_none rfl

theorem tAdc (rs : LowReg) (rd : LowReg) : Statement (.tAdc rs rd) := of_none rfl

theorem tSbc (rs : LowReg) (rd : LowReg) : Statement (.tSbc rs rd) := of_none rfl

theorem tRor (rs : LowReg) (rd : LowReg) : Statement (.tRor rs rd) := of_none rfl

theorem tTst (rs : LowReg) (rd : LowReg) : Statement (.tTst rs rd) := of_none rfl

theorem tNeg (rs : LowReg) (rd : LowReg) : Statement (.tNeg rs rd) := of_none rfl

theorem tCmpReg (rs : LowReg) (rd : LowReg) : Statement (.tCmpReg rs rd) := of_none rfl

theorem tCmn (rs : LowReg) (rd : LowReg) : Statement (.tCmn rs rd) := of_none rfl

theorem tOrr (rs : LowReg) (rd : LowReg) : Statement (.tOrr rs rd) := of_none rfl

theorem tMul (rs : LowReg) (rd : LowReg) : Statement (.tMul rs rd) := of_none rfl

theorem tBic (rs : LowReg) (rd : LowReg) : Statement (.tBic rs rd) := of_none rfl

theorem tMvn (rs : LowReg) (rd : LowReg) : Statement (.tMvn rs rd) := of_none rfl

theorem tAddHi (h1 : Bool) (h2 : Bool) (rs : LowReg) (rd : LowReg) : Statement (.tAddHi h1 h2 rs rd) := of_none rfl

theorem tCmpHi (h1 : Bool) (h2 : Bool) (rs : LowReg) (rd : LowReg) : Statement (.tCmpHi h1 h2 rs rd) := of_none rfl

theorem tMovHi (h1 : Bool) (h2 : Bool) (rs : LowReg) (rd : LowReg) : Statement (.tMovHi h1 h2 rs rd) := of_none rfl

theorem tBx (h1 : Bool) (h2 : Bool) (rs : LowReg) : Statement (.tBx h1 h2 rs) := of_none rfl

theorem tLdrPc (rd : LowReg) (imm : BitVec 8) : Statement (.tLdrPc rd imm) := of_none rfl

theorem tStrReg (ro : LowReg) (rb : LowReg) (rd : LowReg) : Statement (.tStrReg ro rb rd) := of_none rfl

theorem tStrbReg (ro : LowReg) (rb : LowReg) (rd : LowReg) : Statement (.tStrbReg ro rb rd) := of_none rfl

theorem tLdrReg (ro : LowReg) (rb : LowReg) (rd : LowReg) : Statement (.tLdrReg ro rb rd) := of_none rfl

theorem tLdrbReg (ro : LowReg) (rb : LowReg) (rd : LowReg) : Statement (.tLdrbReg ro rb rd) := of_none rfl

theorem tStrhReg (ro : LowReg) (rb : LowReg) (rd : LowReg) : Statement (.tStrhReg ro rb rd) := of_none rfl

theorem tLdsbReg (ro : LowReg) (rb : LowReg) (rd : LowReg) : Statement (.tLdsbReg ro rb rd) := of_none rfl

theorem tLdrhReg (ro : LowReg) (rb : LowReg) (rd : LowReg) : Statement (.tLdrhReg ro rb rd) := of_none rfl

theorem tLdshReg (ro : LowReg) (rb : LowReg) (rd : LowReg) : Statement (.tLdshReg ro rb rd) := of_none rfl

theorem tStrImm (off : BitVec 5) (rb : LowReg) (rd : LowReg) : Statement (.tStrImm off rb rd) := of_none rfl

theorem tLdrImm (off : BitVec 5) (rb : LowReg) (rd : LowReg) : Statement (.tLdrImm off rb rd) := of_none rfl

theorem tStrbImm (off : BitVec 5) (rb : LowReg) (rd : LowReg) : Statement (.tStrbImm off rb rd) := of_none rfl

theorem tLdrbImm (off : BitVec 5) (rb : LowReg) (rd : LowReg) : Statement (.tLdrbImm off rb rd) := of_none rfl

theorem tStrhImm (off : BitVec 5) (rb : LowReg) (rd : LowReg) : Statement (.tStrhImm off rb rd) := of_none rfl

theorem tLdrhImm (off : BitVec 5) (rb : LowReg) (rd : LowReg) : Statement (.tLdrhImm off rb rd) := of_none rfl

theorem tStrSp (rd : LowReg) (imm : BitVec 8) : Statement (.tStrSp rd imm) := of_none rfl

theorem tLdrSp (rd : LowReg) (imm : BitVec 8) : Statement (.tLdrSp rd imm) := of_none rfl

theorem tAddPc (rd : LowReg) (imm : BitVec 8) : Statement (.tAddPc rd imm) := of_none rfl

theorem tAddSp (rd : LowReg) (imm : BitVec 8) : Statement (.tAddSp rd imm) := of_none rfl

theorem tAdjSp (neg : Bool) (imm : BitVec 7) : Statement (.tAdjSp neg imm) := of_none rfl

theorem tPush (r : Bool) (list : BitVec 8) : Statement (.tPush r list) := of_none rfl

theorem tPop (r : Bool) (list : BitVec 8) : Statement (.tPop r list) := of_none rfl

theorem tUndef1011 (bits : BitVec 12) : Statement (.tUndef1011 bits) := of_none rfl

theorem tStmia (rb : LowReg) (list : BitVec 8) : Statement (.tStmia rb list) := of_none rfl

theorem tLdmia (rb : LowReg) (list : BitVec 8) : Statement (.tLdmia rb list) := of_none rfl

theorem tUndef1110 (bits : BitVec 8) : Statement (.tUndef1110 bits) := of_none rfl

theorem tUndef11101 (bits : BitVec 11) : Statement (.tUndef11101 bits) := of_none rfl

theorem tSwi (value : BitVec 8) : Statement (.tSwi value) := of_none rfl

theorem tBCond (c : Cond) (off : BitVec 8) : Statement (.tBCond c off) := by
  intro c' hc'
  obtain rfl := Option.some.inj hc'
  refine ⟨fun w hw => ?_, fun h hh => ?_⟩
  · rw [encode, thumbWord] at hw
    cases hw
  · rw [encode, thumbWord] at hh
    obtain rfl := Code.thumb.inj hh
    have := code_lt c
    have := off.isLt
    simp only [packFields, BitVec.toNat_ofNat]
    omega

theorem tB (off : BitVec 11) : Statement (.tB off) := of_none rfl

theorem tBlPrefix (off : BitVec 11) : Statement (.tBlPrefix off) := of_none rfl

theorem tBlSuffix (off : BitVec 11) : Statement (.tBlSuffix off) := of_none rfl

end Sys2Proof.Laws.CondField
end

