-- ==== Sys2Proof/Laws/Scheduler.lean ====
section
/-! SUPPORT. What the actions of a callback leave of the events that are due: never more than its `Advance` may still fire. -/

namespace Sys2Proof.Machine

/-- What becomes of a bus under operations inside an `Advance` that fires at most `n` more events: the timestamp stays,
and no more than `n` events are due if no more were (log 10). -/
structure Bus.Within (n : Nat) (b b' : Bus) : Prop where
  ts : b'.ts = b.ts
  due : b.dueCount ≤ n → b'.dueCount ≤ n

theorem Bus.Within.refl (n : Nat) (b : Bus) : b.Within n b := ⟨rfl, id⟩

theorem Bus.Within.trans {n : Nat} {a b c : Bus} (h1 : a.Within n b) (h2 : b.Within n c) : a.Within n c :=
  ⟨h2.ts.trans h1.ts, fun h => h2.due (h1.due h)⟩

/-- Two buses with one timestamp and one queue. -/
theorem Bus.Within.of_eq {n : Nat} {b b' : Bus} (ht : b'.ts = b.ts) (hq : b'.queue = b.queue) : b.Within n b' :=
  ⟨ht, fun h => by unfold Bus.dueCount at h ⊢; rwa [hq, ht]⟩

theorem Bus.valueRead_within (n : Nat) (b : Bus) (a : Word) (w : Width) : b.Within n (b.valueRead a w).2 := by
  obtain ⟨ob, draws, h⟩ := b.valueRead_frame a w
  rw [h]
  exact .of_eq rfl rfl

theorem Bus.valueWrite_within (n : Nat) (b : Bus) (a : Word) (w : Width) (v : Word) : b.Within n (b.valueWrite a w v).2 := by
  obtain ⟨mem, ports, wc, ob, h⟩ := b.valueWrite_frame a w v
  rw [h]
  exact .of_eq rfl rfl

theorem Bus.otherRead_within (n : Nat) (b : Bus) (a : Word) (w : Width) : b.Within n (b.otherRead a w) :=
  (b.valueRead_within n a w).trans (.of_eq rfl rfl)

theorem Bus.otherWrite_within (n : Nat) (b : Bus) (a : Word) (w : Width) (v : Word) : b.Within n (b.otherWrite a w v) :=
  (b.valueWrite_within n a w v).trans (.of_eq rfl rfl)

theorem Bus.deviceActions_within (n : Nat) (b : Bus) (calls : List DeviceCall) : b.Within n (b.deviceActions calls).2 := by
  rw [b.deviceActions_frame calls]
  exact .of_eq rfl rfl

theorem Bus.schedule_within {n : Nat} {b : Bus} {rel cat cb ctx : Nat} {rc : Bool} {x : Bool × Bus}
    (hm : b.mayFire (some n) rel = true) (h : b.schedule rel cat cb ctx rc = .next x) : b.Within n x.2 := by
  unfold Bus.schedule at h
  split at h
  · cases h; exact .refl n b
  · split at h
    · cases h
    · cases h
      refine ⟨rfl, fun hd => ?_⟩
      simp only [Bus.mayFire, Bool.or_eq_true, bne_iff_ne, ne_eq, decide_eq_true_eq] at hm
      unfold Bus.dueCount at hd hm ⊢
      simp only [List.filter_append, List.length_append]
      by_cases hr : rel = 0
      · simp [hr]
        omega
      · simp [show ¬b.ts + rel ≤ b.ts by omega]
        omega

theorem Bus.deschedule_within (n : Nat) (b : Bus) (cat : Nat) : b.Within n (b.deschedule cat) :=
  ⟨rfl, fun h => Nat.le_trans (List.filter_sublist.filter _).length_le h⟩

theorem Bus.perform_within {n : Nat} {b : Bus} {a : Action} {x : List Action × Bus} (h : b.perform (some n) a = .next x) :
    b.Within n x.2 := by
  cases a with
  | read addr w => cases h; exact (b.otherRead_within n addr w).trans (Bus.deviceActions_within _ _ _)
  | write addr w v => cases h; exact (b.otherWrite_within n addr w v).trans (Bus.deviceActions_within _ _ _)
  | setPort o v =>
    cases h
    dsimp only
    split
    · exact .refl n b
    · exact .of_eq rfl rfl
  | schedule rel cat cb ctx rc =>
    unfold Bus.perform at h
    dsimp only at h
    split at h
    · rename_i hm
      obtain ⟨y, hy, hx⟩ := andThen_next h
      cases hx
      exact Bus.schedule_within hm hy
    · cases h; exact .refl n _
  | deschedule cat => cases h; exact b.deschedule_within n cat
  | setIrqLine level => cases h; exact .of_eq rfl rfl
  | requestHalt => cases h; exact .of_eq rfl rfl

theorem runEach_within {n : Nat} {run : Action → Bus → BusResult Bus}
    (hrun : ∀ a b b', run a b = .next b' → b.Within n b') {acts : List Action} {b b' : Bus}
    (h : runEach run acts b = .next b') : b.Within n b' := by
  induction acts generalizing b with
  | nil => cases h; exact .refl n _
  | cons a acts ih =>
    obtain ⟨c, hc, h⟩ := andThen_next h
    exact (hrun a b c hc).trans (ih h)

/-- What a callback does inside an `Advance` leaves no more events due than the `Advance` may still fire. -/
theorem runActions_within {n nesting : Nat} {acts : List Action} {b b' : Bus}
    (h : runActions nesting (some n) acts b = .next b') : b.Within n b' := by
  induction nesting generalizing acts b b' with
  | zero =>
    refine runEach_within (fun a b b' h => ?_) h
    obtain ⟨x, hx, h⟩ := andThen_next h
    cases h
    exact Bus.perform_within hx
  | succ d ih =>
    refine runEach_within (fun a b b' h => ?_) h
    obtain ⟨x, hx, h⟩ := andThen_next h
    exact (Bus.perform_within hx).trans (ih h)

end Sys2Proof.Machine
end

