-- ==== Sys2Proof/Tests/Slice0.lean ====
section
/-! SUPPORT. Small tests of the model, their expected results from the spec: hand-written words, the vectors of 95_test_vectors.md, the well-formedness smoke test, and a witness for the hypotheses of every obligation that has some. -/

namespace Sys2Proof.Tests

open Sys2Proof.Machine Sys2Proof.Claims

/-! ## Well-formedness: an ill-formed term for each check -/

/-- A multiply's own bits are no unallocated multiply; R145. -/
theorem test_wf_unallocated_multiply :
    Instr.wf (.unallocMul .al 0#5 0x023#12 1#4) = false ∧ Instr.wf (.unallocMul .al 4#5 0x123#12 4#4) = true := by decide

/-- BX's and MRS's own bits are no unallocated status transfer; R145. -/
theorem test_wf_unallocated_psr :
    Instr.wf (.unallocPsr .al false 1#2 0xFFF#12 1#4 14#4) = false ∧
    Instr.wf (.unallocPsr .al false 0#2 0xF00#12 0#4 0#4) = false ∧
    Instr.wf (.unallocPsr .al false 1#2 0#12 7#4 0#4) = true := by decide

/-- P = 0 with W = 1 is a word of STRT, LDRT, STRBT or LDRBT; R254. -/
theorem test_wf_translated_transfers :
    Instr.wf (.strImm .al false true true 2#4 1#4 4#12) = false ∧
    Instr.wf (.strReg .al false true true 2#4 1#4 5#5 .lsr 3#4) = false ∧
    Instr.wf (.ldrImm .al false true true 2#4 1#4 4#12) = false ∧
    Instr.wf (.ldrReg .al false true true 2#4 1#4 5#5 .lsr 3#4) = false ∧
    Instr.wf (.strbImm .al false true true 2#4 1#4 4#12) = false ∧
    Instr.wf (.strbReg .al false true true 2#4 1#4 5#5 .lsr 3#4) = false ∧
    Instr.wf (.ldrbImm .al false true true 2#4 1#4 4#12) = false ∧
    Instr.wf (.ldrbReg .al false true true 2#4 1#4 5#5 .lsr 3#4) = false ∧
    Instr.wf (.strImm .al true true true 2#4 1#4 4#12) = true := by decide

/-- The 1011 holes exclude ADD SP and PUSH; a conditional branch has no condition AL; R134, R148. -/
theorem test_wf_thumb :
    Instr.wf (.tUndef1011 0x055#12) = false ∧ Instr.wf (.tUndef1011 0x510#12) = false ∧
    Instr.wf (.tUndef1011 0x100#12) = true ∧ Instr.wf (.tBCond .al 2#8) = false ∧ Instr.wf (.tBCond .eq 2#8) = true := by
  decide

/-! ## Decoding: one word for every constructor, its fields written out from R131 and R134 -/

/-- Branch-exchange, swaps, multiplies (A10, A9, A7, A8). -/
theorem test_decode_multiply_swap :
    decodeArm 0x112FFF13#32 = .bx .ne 3#4 ∧
    decodeArm 0xE1020091#32 = .swp .al 2#4 0#4 1#4 ∧
    decodeArm 0xE1453094#32 = .swpb .al 5#4 3#4 4#4 ∧
    decodeArm 0xE0010392#32 = .mul .al false 1#4 3#4 2#4 ∧
    decodeArm 0xE0314392#32 = .mla .al true 1#4 4#4 3#4 2#4 ∧
    decodeArm 0xE0854796#32 = .umull .al false 5#4 4#4 7#4 6#4 ∧
    decodeArm 0xE0B54796#32 = .umlal .al true 5#4 4#4 7#4 6#4 ∧
    decodeArm 0xE0C54796#32 = .smull .al false 5#4 4#4 7#4 6#4 ∧
    decodeArm 0xE0F54796#32 = .smlal .al true 5#4 4#4 7#4 6#4 := by decide

/-- Halfword and signed transfers (A11, A12). -/
theorem test_decode_halfword :
    decodeArm 0xE18210B3#32 = .strhReg .al true true false 2#4 1#4 3#4 ∧
    decodeArm 0xE16212B3#32 = .strhImm .al true false true 2#4 1#4 2#4 3#4 ∧
    decodeArm 0xE01210B3#32 = .ldrhReg .al false false false 2#4 1#4 3#4 ∧
    decodeArm 0xE1D214B5#32 = .ldrhImm .al true true false 2#4 1#4 4#4 5#4 ∧
    decodeArm 0xE11210D3#32 = .ldrsbReg .al true false false 2#4 1#4 3#4 ∧
    decodeArm 0xE1D211D0#32 = .ldrsbImm .al true true false 2#4 1#4 1#4 0#4 ∧
    decodeArm 0xE1B210F3#32 = .ldrshReg .al true true true 2#4 1#4 3#4 ∧
    decodeArm 0xE1D211F2#32 = .ldrshImm .al true true false 2#4 1#4 1#4 2#4 := by decide

/-- Status transfers (A4, A5, A6). -/
theorem test_decode_status :
    decodeArm 0xE10F3000#32 = .mrs .al false 3#4 ∧
    decodeArm 0xE14F3000#32 = .mrs .al true 3#4 ∧
    decodeArm 0xE129F002#32 = .msrCpsrReg .al 9#4 2#4 ∧
    decodeArm 0xE169F002#32 = .msrSpsrReg .al 9#4 2#4 ∧
    decodeArm 0xE328F20F#32 = .msrCpsrImm .al 8#4 2#4 15#8 ∧
    decodeArm 0xE368F20F#32 = .msrSpsrImm .al 8#4 2#4 15#8 := by decide

/-- The unallocated spaces and the condition 1111: LDRD, STRD, an extra word, BKPT, an immediate form; R141, R145,
R253. -/
theorem test_decode_unallocated :
    decodeArm 0xE1C200D0#32 = .unallocHalfStore .al 0xE#4 0x200#12 0#1 0#4 ∧
    decodeArm 0xE1C234F5#32 = .unallocHalfStore .al 0xE#4 0x234#12 1#1 5#4 ∧
    decodeArm 0xE0412394#32 = .unallocMul .al 4#5 0x123#12 4#4 ∧
    decodeArm 0xE1200070#32 = .unallocPsr .al false 1#2 0#12 7#4 0#4 ∧
    decodeArm 0xE3000000#32 = .unallocPsr .al true 0#2 0#12 0#4 0#4 ∧
    decodeArm 0xF5D0F00A#32 = .cond1111 0x5D0F00A#28 := by decide

/-- Data processing, immediate (A1): R2 and the rotated immediate 0xFC, rotate 3, into R1. -/
theorem test_decode_dp_immediate :
    decodeArm 0xE20213FC#32 = .andImm .al false 2#4 1#4 3#4 0xFC#8 ∧
    decodeArm 0xE23213FC#32 = .eorImm .al true 2#4 1#4 3#4 0xFC#8 ∧
    decodeArm 0xE24213FC#32 = .subImm .al false 2#4 1#4 3#4 0xFC#8 ∧
    decodeArm 0xE27213FC#32 = .rsbImm .al true 2#4 1#4 3#4 0xFC#8 ∧
    decodeArm 0xE28213FC#32 = .addImm .al false 2#4 1#4 3#4 0xFC#8 ∧
    decodeArm 0xE2B213FC#32 = .adcImm .al true 2#4 1#4 3#4 0xFC#8 ∧
    decodeArm 0xE2C213FC#32 = .sbcImm .al false 2#4 1#4 3#4 0xFC#8 ∧
    decodeArm 0xE2F213FC#32 = .rscImm .al true 2#4 1#4 3#4 0xFC#8 ∧
    decodeArm 0xE31213FC#32 = .tstImm .al 2#4 1#4 3#4 0xFC#8 ∧
    decodeArm 0xE33213FC#32 = .teqImm .al 2#4 1#4 3#4 0xFC#8 ∧
    decodeArm 0xE35213FC#32 = .cmpImm .al 2#4 1#4 3#4 0xFC#8 ∧
    decodeArm 0xE37213FC#32 = .cmnImm .al 2#4 1#4 3#4 0xFC#8 ∧
    decodeArm 0xE38213FC#32 = .orrImm .al false 2#4 1#4 3#4 0xFC#8 ∧
    decodeArm 0xE3B013FC#32 = .movImm .al true 1#4 3#4 0xFC#8 ∧
    decodeArm 0xE3C213FC#32 = .bicImm .al false 2#4 1#4 3#4 0xFC#8 ∧
    decodeArm 0xE3F013FC#32 = .mvnImm .al true 1#4 3#4 0xFC#8 := by decide

/-- Data processing, immediate shift (A2): R2 and R3, LSR #5, into R1. -/
theorem test_decode_dp_immediate_shift :
    decodeArm 0xE01212A3#32 = .andImmShift .al true 2#4 1#4 5#5 .lsr 3#4 ∧
    decodeArm 0xE02212A3#32 = .eorImmShift .al false 2#4 1#4 5#5 .lsr 3#4 ∧
    decodeArm 0xE05212A3#32 = .subImmShift .al true 2#4 1#4 5#5 .lsr 3#4 ∧
    decodeArm 0xE06212A3#32 = .rsbImmShift .al false 2#4 1#4 5#5 .lsr 3#4 ∧
    decodeArm 0xE09212A3#32 = .addImmShift .al true 2#4 1#4 5#5 .lsr 3#4 ∧
    decodeArm 0xE0A212A3#32 = .adcImmShift .al false 2#4 1#4 5#5 .lsr 3#4 ∧
    decodeArm 0xE0D212A3#32 = .sbcImmShift .al true 2#4 1#4 5#5 .lsr 3#4 ∧
    decodeArm 0xE0E212A3#32 = .rscImmShift .al false 2#4 1#4 5#5 .lsr 3#4 ∧
    decodeArm 0xE11212A3#32 = .tstImmShift .al 2#4 1#4 5#5 .lsr 3#4 ∧
    decodeArm 0xE13212A3#32 = .teqImmShift .al 2#4 1#4 5#5 .lsr 3#4 ∧
    decodeArm 0xE15212A3#32 = .cmpImmShift .al 2#4 1#4 5#5 .lsr 3#4 ∧
    decodeArm 0xE17212A3#32 = .cmnImmShift .al 2#4 1#4 5#5 .lsr 3#4 ∧
    decodeArm 0xE19212A3#32 = .orrImmShift .al true 2#4 1#4 5#5 .lsr 3#4 ∧
    decodeArm 0xE1A012A3#32 = .movImmShift .al false 1#4 5#5 .lsr 3#4 ∧
    decodeArm 0xE1D212A3#32 = .bicImmShift .al true 2#4 1#4 5#5 .lsr 3#4 ∧
    decodeArm 0xE1E012A3#32 = .mvnImmShift .al false 1#4 5#5 .lsr 3#4 := by decide

/-- Data processing, register shift (A3): R2 and R3, ROR R4, into R1. -/
theorem test_decode_dp_register_shift :
    decodeArm 0xE0021473#32 = .andRegShift .al false 2#4 1#4 4#4 .ror 3#4 ∧
    decodeArm 0xE0321473#32 = .eorRegShift .al true 2#4 1#4 4#4 .ror 3#4 ∧
    decodeArm 0xE0421473#32 = .subRegShift .al false 2#4 1#4 4#4 .ror 3#4 ∧
    decodeArm 0xE0721473#32 = .rsbRegShift .al true 2#4 1#4 4#4 .ror 3#4 ∧
    decodeArm 0xE0821473#32 = .addRegShift .al false 2#4 1#4 4#4 .ror 3#4 ∧
    decodeArm 0xE0B21473#32 = .adcRegShift .al true 2#4 1#4 4#4 .ror 3#4 ∧
    decodeArm 0xE0C21473#32 = .sbcRegShift .al false 2#4 1#4 4#4 .ror 3#4 ∧
    decodeArm 0xE0F21473#32 = .rscRegShift .al true 2#4 1#4 4#4 .ror 3#4 ∧
    decodeArm 0xE1121473#32 = .tstRegShift .al 2#4 1#4 4#4 .ror 3#4 ∧
    decodeArm 0xE1321473#32 = .teqRegShift .al 2#4 1#4 4#4 .ror 3#4 ∧
    decodeArm 0xE1521473#32 = .cmpRegShift .al 2#4 1#4 4#4 .ror 3#4 ∧
    decodeArm 0xE1721473#32 = .cmnRegShift .al 2#4 1#4 4#4 .ror 3#4 ∧
    decodeArm 0xE1821473#32 = .orrRegShift .al false 2#4 1#4 4#4 .ror 3#4 ∧
    decodeArm 0xE1B01473#32 = .movRegShift .al true 1#4 4#4 .ror 3#4 ∧
    decodeArm 0xE1C21473#32 = .bicRegShift .al false 2#4 1#4 4#4 .ror 3#4 ∧
    decodeArm 0xE1F01473#32 = .mvnRegShift .al true 1#4 4#4 .ror 3#4 := by decide

/-- Single transfers (A13, A14) and the undefined space (A15). -/
theorem test_decode_single :
    decodeArm 0xE4A21004#32 = .strtImm .al true 2#4 1#4 4#12 ∧
    decodeArm 0xE6A212A3#32 = .strtReg .al true 2#4 1#4 5#5 .lsr 3#4 ∧
    decodeArm 0xE4321004#32 = .ldrtImm .al false 2#4 1#4 4#12 ∧
    decodeArm 0xE6B212A3#32 = .ldrtReg .al true 2#4 1#4 5#5 .lsr 3#4 ∧
    decodeArm 0xE4E21004#32 = .strbtImm .al true 2#4 1#4 4#12 ∧
    decodeArm 0xE66212A3#32 = .strbtReg .al false 2#4 1#4 5#5 .lsr 3#4 ∧
    decodeArm 0xE4F21004#32 = .ldrbtImm .al true 2#4 1#4 4#12 ∧
    decodeArm 0xE6F212A3#32 = .ldrbtReg .al true 2#4 1#4 5#5 .lsr 3#4 ∧
    decodeArm 0xE5821ABC#32 = .strImm .al true true false 2#4 1#4 0xABC#12 ∧
    decodeArm 0xE78212A3#32 = .strReg .al true true false 2#4 1#4 5#5 .lsr 3#4 ∧
    decodeArm 0xE5321ABC#32 = .ldrImm .al true false true 2#4 1#4 0xABC#12 ∧
    decodeArm 0xE73212A3#32 = .ldrReg .al true false true 2#4 1#4 5#5 .lsr 3#4 ∧
    decodeArm 0xE4C21ABC#32 = .strbImm .al false true false 2#4 1#4 0xABC#12 ∧
    decodeArm 0xE6C212A3#32 = .strbReg .al false true false 2#4 1#4 5#5 .lsr 3#4 ∧
    decodeArm 0xE5D21ABC#32 = .ldrbImm .al true true false 2#4 1#4 0xABC#12 ∧
    decodeArm 0xE7D212A3#32 = .ldrbReg .al true true false 2#4 1#4 5#5 .lsr 3#4 ∧
    decodeArm 0xE7F000F0#32 = .undefined .al 0xF8007#20 0#4 := by decide

/-- Block transfers (A16): with and without the S bit, with and without R15 in the list. -/
theorem test_decode_block :
    decodeArm 0xE8A24003#32 = .stm .al false true true 2#4 0x4003#16 ∧
    decodeArm 0xE912FFFF#32 = .ldm .al true false false 2#4 0xFFFF#16 ∧
    decodeArm 0xE9C28008#32 = .stmUser .al true true false 2#4 0x8008#16 ∧
    decodeArm 0xE8D27FFF#32 = .ldmUser .al false true false 2#4 0x7FFF#15 ∧
    decodeArm 0xE8FD8001#32 = .ldmRestore .al false true true 13#4 1#15 := by decide

/-- Branches, the coprocessor space and SWI (A17 to A21). -/
theorem test_decode_branch_coprocessor :
    decodeArm 0xEAFFFFFE#32 = .b .al 0xFFFFFE#24 ∧
    decodeArm 0x0BFFFF00#32 = .bl .eq 0xFFFF00#24 ∧
    decodeArm 0xED832105#32 = .stc .al true true false false 3#4 2#4 1#4 5#8 ∧
    decodeArm 0xED932105#32 = .ldc .al true true false false 3#4 2#4 1#4 5#8 ∧
    decodeArm 0xEE3541E6#32 = .cdp .al 3#4 5#4 4#4 1#4 7#3 6#4 ∧
    decodeArm 0xEE454F36#32 = .mcr .al 2#3 5#4 4#4 15#4 1#3 6#4 ∧
    decodeArm 0xEE554F36#32 = .mrc .al 2#3 5#4 4#4 15#4 1#3 6#4 ∧
    decodeArm 0xEF123456#32 = .swi .al 0x123456#24 := by decide

/-- Thumb shifts, additions and immediates (T1 to T3). -/
theorem test_decode_thumb_shift_add :
    decodeThumb 0x0153#16 = .tLslImm 5#5 2#3 3#3 ∧ decodeThumb 0x0953#16 = .tLsrImm 5#5 2#3 3#3 ∧
    decodeThumb 0x1153#16 = .tAsrImm 5#5 2#3 3#3 ∧ decodeThumb 0x1888#16 = .tAddReg 2#3 1#3 0#3 ∧
    decodeThumb 0x1A88#16 = .tSubReg 2#3 1#3 0#3 ∧ decodeThumb 0x1DC8#16 = .tAddImm3 7#3 1#3 0#3 ∧
    decodeThumb 0x1FC8#16 = .tSubImm3 7#3 1#3 0#3 ∧ decodeThumb 0x237F#16 = .tMovImm8 3#3 0x7F#8 ∧
    decodeThumb 0x2B7F#16 = .tCmpImm8 3#3 0x7F#8 ∧ decodeThumb 0x337F#16 = .tAddImm8 3#3 0x7F#8 ∧
    decodeThumb 0x3B7F#16 = .tSubImm8 3#3 0x7F#8 := by decide

/-- Thumb ALU operations and hi-register forms (T4, T5). -/
theorem test_decode_thumb_alu :
    decodeThumb 0x4013#16 = .tAnd 2#3 3#3 ∧ decodeThumb 0x4053#16 = .tEor 2#3 3#3 ∧
    decodeThumb 0x4093#16 = .tLslReg 2#3 3#3 ∧ decodeThumb 0x40D3#16 = .tLsrReg 2#3 3#3 ∧
    decodeThumb 0x4113#16 = .tAsrReg 2#3 3#3 ∧ decodeThumb 0x4153#16 = .tAdc 2#3 3#3 ∧
    decodeThumb 0x4193#16 = .tSbc 2#3 3#3 ∧ decodeThumb 0x41D3#16 = .tRor 2#3 3#3 ∧
    decodeThumb 0x4213#16 = .tTst 2#3 3#3 ∧ decodeThumb 0x4253#16 = .tNeg 2#3 3#3 ∧
    decodeThumb 0x4293#16 = .tCmpReg 2#3 3#3 ∧ decodeThumb 0x42D3#16 = .tCmn 2#3 3#3 ∧
    decodeThumb 0x4313#16 = .tOrr 2#3 3#3 ∧ decodeThumb 0x4353#16 = .tMul 2#3 3#3 ∧
    decodeThumb 0x4393#16 = .tBic 2#3 3#3 ∧ decodeThumb 0x43D3#16 = .tMvn 2#3 3#3 ∧
    decodeThumb 0x4480#16 = .tAddHi true false 0#3 0#3 ∧ decodeThumb 0x4553#16 = .tCmpHi false true 2#3 3#3 ∧
    decodeThumb 0x46D3#16 = .tMovHi true true 2#3 3#3 ∧ decodeThumb 0x4770#16 = .tBx false true 6#3 := by decide

/-- Thumb loads and stores (T6 to T11). -/
theorem test_decode_thumb_transfer :
    decodeThumb 0x4B55#16 = .tLdrPc 3#3 0x55#8 ∧ decodeThumb 0x5053#16 = .tStrReg 1#3 2#3 3#3 ∧
    decodeThumb 0x5453#16 = .tStrbReg 1#3 2#3 3#3 ∧ decodeThumb 0x5853#16 = .tLdrReg 1#3 2#3 3#3 ∧
    decodeThumb 0x5C53#16 = .tLdrbReg 1#3 2#3 3#3 ∧ decodeThumb 0x5253#16 = .tStrhReg 1#3 2#3 3#3 ∧
    decodeThumb 0x5653#16 = .tLdsbReg 1#3 2#3 3#3 ∧ decodeThumb 0x5A53#16 = .tLdrhReg 1#3 2#3 3#3 ∧
    decodeThumb 0x5E53#16 = .tLdshReg 1#3 2#3 3#3 ∧ decodeThumb 0x6253#16 = .tStrImm 9#5 2#3 3#3 ∧
    decodeThumb 0x6A53#16 = .tLdrImm 9#5 2#3 3#3 ∧ decodeThumb 0x7253#16 = .tStrbImm 9#5 2#3 3#3 ∧
    decodeThumb 0x7A53#16 = .tLdrbImm 9#5 2#3 3#3 ∧ decodeThumb 0x8253#16 = .tStrhImm 9#5 2#3 3#3 ∧
    decodeThumb 0x8A53#16 = .tLdrhImm 9#5 2#3 3#3 ∧ decodeThumb 0x9355#16 = .tStrSp 3#3 0x55#8 ∧
    decodeThumb 0x9B55#16 = .tLdrSp 3#3 0x55#8 := by decide

/-- Thumb addresses, stack and block transfers, branches (T12 to T19) and the undefined encodings (R148). -/
theorem test_decode_thumb_branch :
    decodeThumb 0xA355#16 = .tAddPc 3#3 0x55#8 ∧ decodeThumb 0xAB55#16 = .tAddSp 3#3 0x55#8 ∧
    decodeThumb 0xB055#16 = .tAdjSp false 0x55#7 ∧ decodeThumb 0xB0D5#16 = .tAdjSp true 0x55#7 ∧
    decodeThumb 0xB510#16 = .tPush true 0x10#8 ∧ decodeThumb 0xBC11#16 = .tPop false 0x11#8 ∧
    decodeThumb 0xB123#16 = .tUndef1011 0x123#12 ∧ decodeThumb 0xC305#16 = .tStmia 3#3 5#8 ∧
    decodeThumb 0xCB05#16 = .tLdmia 3#3 5#8 ∧ decodeThumb 0xD1FE#16 = .tBCond .ne 0xFE#8 ∧
    decodeThumb 0xDE12#16 = .tUndef1110 0x12#8 ∧ decodeThumb 0xDF05#16 = .tSwi 5#8 ∧
    decodeThumb 0xE7FE#16 = .tB 0x7FE#11 ∧ decodeThumb 0xE812#16 = .tUndef11101 0x12#11 ∧
    decodeThumb 0xF001#16 = .tBlPrefix 1#11 ∧ decodeThumb 0xF80A#16 = .tBlSuffix 10#11 := by decide

/-- The reduced keys of S5 (R143), and the categories of both words of a pair. -/
theorem test_reduced_keys :
    armKey 0xE0810002#32 = 0x080#12 ∧ armKey 0xE08FF00E#32 = 0x080#12 ∧ armKey 0xE12FFF10#32 = 0x121#12 ∧
    armKey 0xE1020091#32 = 0x109#12 ∧ armKey 0xE1D100B2#32 = 0x1DB#12 ∧ thumbKey 0x4778#16 = 0x47#8 ∧
    armClassify 0xE0810002#32 = armClassify 0xE08FF00E#32 ∧ armClassify 0xE1020091#32 = armClassify 0xE10FF09F#32 := by
  decide

/-- Bytes are read little-endian, and what is left over is handed on (R76, R130). -/
theorem test_decode_bytes :
    decodeBytes false [0x91#8, 0x00#8, 0x02#8, 0xE1#8, 0x55#8] = .ok (.swp .al 2#4 0#4 1#4, [0x55#8]) ∧
    decodeBytes true [0x05#8, 0xDF#8] = .ok (.tSwi 5#8, []) := by
  exact ⟨rfl, rfl⟩

/-! ## One step, from a small state (95_test_vectors.md) -/

/-- A state in mode `m`, interrupts unmasked, all flags clear. -/
def base (m : Mode) : State :=
  { State.reset with cpsr := { Cpsr.reset with i := false, f := false, mode := m } }

/-- Flags set by hand. -/
def flags (n z c v : Bool) (s : State) : State := { s with cpsr := { s.cpsr with n := n, z := z, c := c, v := v } }

/-- Registers set by hand. -/
def regs (l : List (Reg × Word)) (s : State) : State := l.foldl (fun s x => s.setReg x.1 x.2) s

/-- Words of memory set by hand, by store address. -/
def mems (l : List (Nat × Word)) (s : State) : State :=
  { s with bus := { s.bus with mem := l.foldl (fun m x => storeWrite m x.1 .word x.2) s.bus.mem } }

/-- The saved status of mode `m` set by hand. -/
def saved (m : Mode) (w : Word) (s : State) : State := s.setSpsr m (Psr.ofWord w)

/-- The next instruction stands at `a`. -/
def placed (a : Word) (thumb : Bool) (s : State) : State :=
  { s with pipe := { s.pipe with cursor := a + (if thumb then 4#32 else 8#32) } }

/-- One ARM instruction, and what is read of the next state. -/
def arm {α : Type} (w : Nat) (s : State) (f : State → α) : Option α :=
  match step (s.withFetchWord 32 w) with
  | .next t => some (f t)
  | _ => none

/-- One Thumb instruction, and what is read of the next state. -/
def thumb {α : Type} (w : Nat) (s : State) (f : State → α) : Option α :=
  match step (s.withFetchWord 16 w) with
  | .next t => some (f t)
  | _ => none

/-- The fault of a step, whatever it leaves. -/
def stops (r : Result) : Option Fault :=
  match r with
  | .fault (.stopped f _) => some f
  | .fault f => some f
  | _ => none

/-- N, Z, C and V. -/
def nzcv (s : State) : Bool × Bool × Bool × Bool := (s.cpsr.n, s.cpsr.z, s.cpsr.c, s.cpsr.v)

/-! ### Data processing (S1, P1 to P27) -/

/-- S1: 0xFFFFFFFF + 1. -/
theorem test_adds_overflow :
    arm 0xE0910002 (regs [(1#4, 0xFFFFFFFF#32), (2#4, 1#32)] (base .sys)) (fun t => (t.reg 0#4, nzcv t)) =
      some (0#32, false, true, true, false) := by decide

/-- S1: CMN writes no register. -/
theorem test_cmn :
    arm 0xE1710002 (regs [(1#4, 0xFFFFFFFF#32), (2#4, 1#32)] (base .sys)) (fun t => (t.reg 0#4, nzcv t)) =
      some (0#32, false, true, true, false) := by decide

/-- P1: LSL #0 passes C through. -/
theorem test_movs_lsl0 :
    arm 0xE1B00001 (flags false false true false (regs [(1#4, 0x80000000#32)] (base .sys)))
      (fun t => (t.reg 0#4, nzcv t)) = some (0x80000000#32, true, false, true, false) := by decide

/-- P2: LSR #32. -/
theorem test_movs_lsr32 :
    arm 0xE1B00021 (regs [(1#4, 0x80000000#32)] (base .sys)) (fun t => (t.reg 0#4, nzcv t)) =
      some (0#32, false, true, true, false) := by decide

/-- P3: ASR #32. -/
theorem test_movs_asr32 :
    arm 0xE1B00041 (regs [(1#4, 0x80000000#32)] (base .sys)) (fun t => (t.reg 0#4, nzcv t)) =
      some (0xFFFFFFFF#32, true, false, true, false) := by decide

/-- P4: RRX. -/
theorem test_movs_rrx :
    arm 0xE1B00061 (flags false false true false (regs [(1#4, 1#32)] (base .sys))) (fun t => (t.reg 0#4, nzcv t)) =
      some (0x80000000#32, true, false, true, false) := by decide

/-- P5, P6, P7: LSL by a register of 32, 33 and 0x100. -/
theorem test_movs_lsl_register :
    arm 0xE1B00211 (regs [(1#4, 1#32), (2#4, 32#32)] (base .sys)) (fun t => (t.reg 0#4, t.cpsr.c)) = some (0#32, true) ∧
    arm 0xE1B00211 (regs [(1#4, 1#32), (2#4, 33#32)] (base .sys)) (fun t => (t.reg 0#4, t.cpsr.c)) = some (0#32, false) ∧
    arm 0xE1B00211 (regs [(1#4, 5#32), (2#4, 0x100#32)] (base .sys)) (fun t => (t.reg 0#4, t.cpsr.c)) =
      some (5#32, false) := by decide

/-- P8: ROR by a register of 32. -/
theorem test_movs_ror_register :
    arm 0xE1B00271 (regs [(1#4, 0x80000001#32), (2#4, 32#32)] (base .sys)) (fun t => (t.reg 0#4, nzcv t)) =
      some (0x80000001#32, true, false, true, false) := by decide

/-- P9: a rotated immediate. -/
theorem test_movs_rotated :
    arm 0xE3B004FF (base .sys) (fun t => (t.reg 0#4, nzcv t)) = some (0xFF000000#32, true, false, true, false) := by decide

/-- P10: ANDS leaves V. -/
theorem test_ands :
    arm 0xE2110102 (flags false false false true (regs [(1#4, 0x80000000#32)] (base .sys)))
      (fun t => (t.reg 0#4, nzcv t)) = some (0x80000000#32, true, false, true, true) := by decide

/-- P11, P12: SUBS borrows, SUBS overflows. -/
theorem test_subs :
    arm 0xE2510001 (base .sys) (fun t => (t.reg 0#4, nzcv t)) = some (0xFFFFFFFF#32, true, false, false, false) ∧
    arm 0xE2510001 (regs [(1#4, 0x80000000#32)] (base .sys)) (fun t => (t.reg 0#4, nzcv t)) =
      some (0x7FFFFFFF#32, false, false, true, true) := by decide

/-- P14: ADCS. -/
theorem test_adcs :
    arm 0xE0B10002 (flags false false true false (regs [(1#4, 0xFFFFFFFF#32)] (base .sys)))
      (fun t => (t.reg 0#4, nzcv t)) = some (0#32, false, true, true, false) := by decide

/-- P15: SBCS. -/
theorem test_sbcs :
    arm 0xE0D10002 (regs [(1#4, 5#32), (2#4, 2#32)] (base .sys)) (fun t => (t.reg 0#4, t.cpsr.c, t.cpsr.v)) =
      some (2#32, true, false) := by decide

/-- P16: RSBS. -/
theorem test_rsbs :
    arm 0xE2710000 (regs [(1#4, 1#32)] (base .sys)) (fun t => (t.reg 0#4, nzcv t)) =
      some (0xFFFFFFFF#32, true, false, false, false) := by decide

/-- P17: RSCS. -/
theorem test_rscs :
    arm 0xE2F10000 (base .sys) (fun t => (t.reg 0#4, t.cpsr.n, t.cpsr.c)) = some (0xFFFFFFFF#32, true, false) := by decide

/-- P18: CMP. -/
theorem test_cmp :
    arm 0xE1510002 (regs [(1#4, 1#32), (2#4, 2#32)] (base .sys)) nzcv = some (true, false, false, false) := by decide

/-- P19: TEQ. -/
theorem test_teq :
    arm 0xE1310001 (flags false false true false (regs [(1#4, 0x1234#32)] (base .sys))) nzcv =
      some (false, true, true, false) := by decide

/-- P20, P21: R15 as an operand at address 0x100, with and without a register-specified shift. -/
theorem test_read_pc :
    arm 0xE08F0211 (placed 0x100#32 false (base .sys)) (fun t => t.reg 0#4) = some 0x10C#32 ∧
    arm 0xE28F0000 (placed 0x100#32 false (base .sys)) (fun t => t.reg 0#4) = some 0x108#32 := by decide

/-- P22: MOV PC, R0. -/
theorem test_mov_pc :
    arm 0xE1A0F000 (regs [(0#4, 0x08000103#32)] (base .sys)) (fun t => (t.pipe.cursor, t.cpsr.t, nzcv t)) =
      some (0x08000108#32, false, false, false, false, false) := by decide

/-- P23: MOVS PC, R14 in IRQ mode. -/
theorem test_movs_pc_returns :
    arm 0xE1B0F00E (saved .irq 0x3F#32 (regs [(14#4, 0x08000103#32)] (base .irq)))
      (fun t => (t.cpsr.toWord, t.pipe.cursor)) = some (0x3F#32, 0x08000106#32) := by decide

/-- P24, P25, P26: the forbidden forms. -/
theorem test_dp_faults :
    stops (step ((base .sys).withFetchWord 32 0xE1B0F00E)) = some .noSavedStatus ∧
    stops (step ((base .sys).withFetchWord 32 0xE311F010)) = some .compareRd15 ∧
    stops (step ((base .sys).withFetchWord 32 0xE0810F12)) = some .r15Operand := by decide

/-- P27: a failed condition. -/
theorem test_failed_condition :
    arm 0x12800001 (flags false true false false (base .sys)) (fun t => (t.reg 0#4, t.pipe.cursor, t.bus.acc)) =
      some (0#32, 12#32, 1) := by decide

/-- The logical operations on 0b1100 and 0b1010 (R188, R189, R200, R202, R203). -/
theorem test_logic :
    arm 0xE0210002 (regs [(1#4, 12#32), (2#4, 10#32)] (base .sys)) (fun t => t.reg 0#4) = some 6#32 ∧
    arm 0xE1810002 (regs [(1#4, 12#32), (2#4, 10#32)] (base .sys)) (fun t => t.reg 0#4) = some 14#32 ∧
    arm 0xE1C10002 (regs [(1#4, 12#32), (2#4, 10#32)] (base .sys)) (fun t => t.reg 0#4) = some 4#32 ∧
    arm 0xE1E00002 (regs [(2#4, 10#32)] (base .sys)) (fun t => t.reg 0#4) = some 0xFFFFFFF5#32 := by decide

/-! ### Status registers (K1 to K9) -/

/-- K1: MRS. -/
theorem test_mrs :
    arm 0xE10F0000 (flags false true true false (base .sys)) (fun t => t.reg 0#4) = some 0x6000001F#32 := by decide

/-- K3, K4, K5: MSR to CPSR. -/
theorem test_msr_cpsr :
    arm 0xE328F4F0 (base .sys) (fun t => t.cpsr.toWord) = some 0xF000001F#32 ∧
    arm 0xE321F0D2 (base .sys) (fun t => t.cpsr.toWord) = some 0x000000D2#32 ∧
    arm 0xE321F01F (base .usr) (fun t => t.cpsr.toWord) = some 0x00000010#32 := by decide

/-- K2, K6, K7: the faults. -/
theorem test_status_faults :
    stops (step ((base .sys).withFetchWord 32 0xE14F0000)) = some .noSavedStatus ∧
    stops (step ((base .sys).withFetchWord 32 0xE321F000)) = some .notAMode ∧
    stops (step ((base .sys).withFetchWord 32 0xE321F03F)) = some .changesEncoding := by decide

/-- K8: MSR to SPSR. -/
theorem test_msr_spsr :
    arm 0xE169F000 (regs [(0#4, 0x800000D3#32)] (base .svc)) (fun t => t.spsrs.svc.toWord) = some 0x800000D3#32 := by
  decide

/-- K9: reserved bits are discarded. -/
theorem test_msr_reserved :
    arm 0xE129F000 (regs [(0#4, 0x0FFFFF1F#32)] (base .sys)) (fun t => t.cpsr.toWord) = some 0x0800001F#32 := by decide

/-! ### Multiplies (M1 to M7) -/

/-- M1: N and Z of MULS; M3: MLA. -/
theorem test_mul_mla :
    arm 0xE0100291 (regs [(1#4, 0x80000000#32), (2#4, 2#32)] (base .sys)) (fun t => (t.reg 0#4, t.cpsr.n, t.cpsr.z, t.cpsr.v)) =
      some (0#32, false, true, false) ∧
    arm 0xE0200291 (regs [(0#4, 1#32), (1#4, 3#32), (2#4, 4#32)] (base .sys)) (fun t => t.reg 0#4) = some 13#32 := by
  decide

/-- M4: UMULL; M6: UMLAL wraps. -/
theorem test_umull_umlal :
    arm 0xE0810392 (regs [(2#4, 0xFFFFFFFF#32), (3#4, 0xFFFFFFFF#32)] (base .sys)) (fun t => (t.reg 0#4, t.reg 1#4)) =
      some (1#32, 0xFFFFFFFE#32) ∧
    arm 0xE0A10392 (regs [(0#4, 0xFFFFFFFF#32), (1#4, 0xFFFFFFFF#32), (2#4, 1#32), (3#4, 1#32)] (base .sys))
      (fun t => (t.reg 0#4, t.reg 1#4)) = some (0#32, 0#32) := by decide

/-- M5: SMULL; SMLAL of −1 · 1 + 5 (R236). -/
theorem test_smull_smlal :
    arm 0xE0C10392 (regs [(2#4, 0xFFFFFFFF#32), (3#4, 0xFFFFFFFF#32)] (base .sys)) (fun t => (t.reg 0#4, t.reg 1#4)) =
      some (1#32, 0#32) ∧
    arm 0xE0E10392 (regs [(0#4, 5#32), (2#4, 0xFFFFFFFF#32), (3#4, 1#32)] (base .sys)) (fun t => (t.reg 0#4, t.reg 1#4)) =
      some (4#32, 0#32) := by decide

/-- M2, M7: the forbidden registers. -/
theorem test_multiply_faults :
    stops (step ((base .sys).withFetchWord 32 0xE0000190)) = some .registerClash ∧
    stops (step ((base .sys).withFetchWord 32 0xE0800392)) = some .registerClash := by decide

/-! ### Single transfers and swap (L1 to L17, B12 to B14) -/

/-- L1, L4: LDR, aligned and misaligned. -/
theorem test_ldr :
    arm 0xE5910004 (mems [(0x03000004, 0x11223344#32)] (regs [(1#4, 0x03000000#32)] (base .sys))) (fun t => t.reg 0#4) =
      some 0x11223344#32 ∧
    arm 0xE5910000 (mems [(0x03000000, 0x11223344#32)] (regs [(1#4, 0x03000002#32)] (base .sys))) (fun t => t.reg 0#4) =
      some 0x33441122#32 := by decide

/-- L2, L5: the write-back, and the write-back a load of the base drops. -/
theorem test_ldr_write_back :
    arm 0xE4910004 (mems [(0x03000000, 10#32)] (regs [(1#4, 0x03000000#32)] (base .sys)))
      (fun t => (t.reg 0#4, t.reg 1#4)) = some (10#32, 0x03000004#32) ∧
    arm 0xE5B11004 (mems [(0x03000004, 9#32)] (regs [(1#4, 0x03000000#32)] (base .sys))) (fun t => t.reg 1#4) =
      some 9#32 := by decide

/-- L3: a shifted register offset, subtracted. -/
theorem test_ldr_register :
    arm 0xE7110102 (mems [(0x03000008, 7#32)] (regs [(1#4, 0x03000010#32), (2#4, 2#32)] (base .sys)))
      (fun t => (t.reg 0#4, t.reg 1#4)) = some (7#32, 0x03000010#32) := by decide

/-- L6, L9: STR of the base, and misaligned. -/
theorem test_str :
    arm 0xE5A11004 (regs [(1#4, 0x03000000#32)] (base .sys)) (fun t => (t.cellWord 0x03000004, t.reg 1#4)) =
      some (0x03000000#32, 0x03000004#32) ∧
    arm 0xE5810000 (regs [(0#4, 0xAABBCCDD#32), (1#4, 0x03000003#32)] (base .sys)) (fun t => t.cellWord 0x03000000) =
      some 0xAABBCCDD#32 := by decide

/-- L7, L8: STR and LDR of R15. -/
theorem test_str_ldr_pc :
    arm 0xE581F000 (placed 0x100#32 false (regs [(1#4, 0x03000000#32)] (base .sys))) (fun t => t.cellWord 0x03000000) =
      some 0x10C#32 ∧
    arm 0xE591F000 (mems [(0x03000000, 0x08000103#32)] (regs [(1#4, 0x03000000#32)] (base .sys)))
      (fun t => (t.pipe.cursor, t.cpsr.t)) = some (0x08000108#32, false) := by decide

/-- L10: LDRB; STRB (R245). -/
theorem test_ldrb_strb :
    arm 0xE7D10002 (mems [(0x03000000, 0x11223344#32)] (regs [(1#4, 0x03000000#32), (2#4, 3#32)] (base .sys)))
      (fun t => t.reg 0#4) = some 0x11#32 ∧
    arm 0xE5C10001 (mems [(0x03000000, 0x11223344#32)] (regs [(0#4, 0xAABB#32), (1#4, 0x03000000#32)] (base .sys)))
      (fun t => t.cellWord 0x03000000) = some 0x1122BB44#32 := by decide

/-- L11: LDRH misaligned; STRH (R248). -/
theorem test_ldrh_strh :
    arm 0xE1D100B0 (mems [(0x03000000, 0xBEEF#32)] (regs [(1#4, 0x03000001#32)] (base .sys))) (fun t => t.reg 0#4) =
      some 0xEF0000BE#32 ∧
    arm 0xE1C100B2 (mems [(0x03000000, 0x11223344#32)] (regs [(0#4, 0xAABB#32), (1#4, 0x03000000#32)] (base .sys)))
      (fun t => t.cellWord 0x03000000) = some 0xAABB3344#32 := by decide

/-- L12, L13: LDRSH misaligned, LDRSB. -/
theorem test_ldrsh_ldrsb :
    arm 0xE1D100F0 (mems [(0x03000000, 0xBEEF#32)] (regs [(1#4, 0x03000001#32)] (base .sys))) (fun t => t.reg 0#4) =
      some 0xFFFFFFBE#32 ∧
    arm 0xE1D100D1 (mems [(0x03000000, 0x8000#32)] (regs [(1#4, 0x03000000#32)] (base .sys))) (fun t => t.reg 0#4) =
      some 0xFFFFFF80#32 := by decide

/-- L14 to L16: the forbidden forms. -/
theorem test_transfer_faults :
    stops (step ((base .sys).withFetchWord 32 0xE1D1F0B0)) = some .r15Operand ∧
    stops (step ((base .sys).withFetchWord 32 0xE0E100B2)) = some .postIndexedWriteBack ∧
    stops (step ((base .sys).withFetchWord 32 0xE791000F)) = some .r15Operand := by decide

/-- L17: LDRT in User mode. -/
theorem test_ldrt :
    arm 0xE4B10004 (mems [(0x03000000, 5#32)] (regs [(1#4, 0x03000000#32)] (base .usr)))
      (fun t => (t.reg 0#4, t.reg 1#4)) = some (5#32, 0x03000004#32) := by decide

/-- B12, B13: SWP misaligned, SWPB. -/
theorem test_swap :
    arm 0xE1020091 (mems [(0x03000000, 0x11223344#32)] (regs [(1#4, 5#32), (2#4, 0x03000001#32)] (base .sys)))
      (fun t => (t.reg 0#4, t.cellWord 0x03000000)) = some (0x44112233#32, 5#32) ∧
    arm 0xE1420091 (mems [(0x03000000, 0x7A#32)] (regs [(1#4, 0x1FF#32), (2#4, 0x03000000#32)] (base .sys)))
      (fun t => (t.reg 0#4, t.cell 0x03000000)) = some (0x7A#32, 0xFF#8) := by decide

/-- B14: Rn = Rd. -/
theorem test_swap_fault : stops (step ((base .sys).withFetchWord 32 0xE1022091)) = some .registerClash := by decide

/-! ### Block transfers (B1 to B11) -/

/-- B1: LDMIB with write-back. -/
theorem test_ldmib :
    arm 0xE9B00006 (mems [(0x03000004, 1#32), (0x03000008, 2#32)] (regs [(0#4, 0x03000000#32)] (base .sys)))
      (fun t => (t.reg 1#4, t.reg 2#4, t.reg 0#4)) = some (1#32, 2#32, 0x03000008#32) := by decide

/-- B2: STMDA with write-back. -/
theorem test_stmda :
    arm 0xE8200006 (regs [(0#4, 0x03000010#32), (1#4, 1#32), (2#4, 2#32)] (base .sys))
      (fun t => (t.cellWord 0x0300000C, t.cellWord 0x03000010, t.reg 0#4)) = some (1#32, 2#32, 0x03000008#32) := by decide

/-- B3, B4: the base in the list, first and not first. -/
theorem test_stm_base :
    arm 0xE8A00003 (regs [(0#4, 0x03000000#32), (1#4, 7#32)] (base .sys))
      (fun t => (t.cellWord 0x03000000, t.cellWord 0x03000004, t.reg 0#4)) = some (0x03000000#32, 7#32, 0x03000008#32) ∧
    arm 0xE8A10003 (regs [(0#4, 7#32), (1#4, 0x03000000#32)] (base .sys))
      (fun t => (t.cellWord 0x03000000, t.cellWord 0x03000004, t.reg 1#4)) = some (7#32, 0x03000008#32, 0x03000008#32) := by
  decide

/-- B5, B6: LDMIA with the base in the list, and of the empty list. -/
theorem test_ldm_base_empty :
    arm 0xE8B00003 (mems [(0x03000000, 0x55#32), (0x03000004, 0x66#32)] (regs [(0#4, 0x03000000#32)] (base .sys)))
      (fun t => (t.reg 0#4, t.reg 1#4)) = some (0x55#32, 0x66#32) ∧
    arm 0xE8B00000 (mems [(0x03000000, 0x08000201#32)] (regs [(0#4, 0x03000000#32)] (base .sys)))
      (fun t => (t.pipe.cursor, t.cpsr.t, t.reg 0#4)) = some (0x08000208#32, false, 0x03000040#32) := by decide

/-- B7: STMDB of the empty list at address 0x100. -/
theorem test_stm_empty :
    arm 0xE9200000 (placed 0x100#32 false (regs [(0#4, 0x03000100#32)] (base .sys)))
      (fun t => (t.cellWord 0x030000C0, t.reg 0#4)) = some (0x10C#32, 0x030000C0#32) := by decide

/-- B8, B9: the forbidden forms. -/
theorem test_block_faults :
    stops (step ((base .sys).withFetchWord 32 0xE89F0001)) = some .r15Operand ∧
    stops (step ((base .sys).withFetchWord 32 0xE8C02000)) = some .userBankTransfer := by decide

/-- B10: STM of the user bank in IRQ mode. -/
theorem test_stm_user :
    arm 0xE8C02000 (((regs [(0#4, 0x03000000#32)] (base .irq)).setXm .usr 13#4 0x03007F00#32).setXm .irq 13#4 0x03007FA0#32)
      (fun t => t.cellWord 0x03000000) = some 0x03007F00#32 := by decide

/-- B11: LDM with PSR restore in IRQ mode. -/
theorem test_ldm_restore :
    arm 0xE8FD8001
      (saved .irq 0x1F#32
        (mems [(0x03007FA0, 3#32), (0x03007FA4, 0x08000104#32)] (regs [(13#4, 0x03007FA0#32)] (base .irq))))
      (fun t => (t.reg 0#4, t.xm .irq 13#4, t.cpsr.toWord, t.pipe.cursor)) =
        some (3#32, 0x03007FA8#32, 0x1F#32, 0x0800010C#32) := by decide

/-- LDM of the user bank in IRQ mode writes R13_usr (R266). -/
theorem test_ldm_user :
    arm 0xE8D02000 (mems [(0x03000000, 0x1234#32)] (regs [(0#4, 0x03000000#32), (13#4, 7#32)] (base .irq)))
      (fun t => (t.xm .usr 13#4, t.xm .irq 13#4)) = some (0x1234#32, 7#32) := by decide

/-! ### Branches and exceptions (J1 to J10) -/

/-- S2, J1: B. -/
theorem test_b :
    arm 0xEA000002 (placed 0x08000000#32 false (base .sys)) (fun t => t.pipe.cursor) = some 0x08000018#32 ∧
    arm 0xEAFFFFFE (placed 0x100#32 false (base .sys)) (fun t => t.pipe.cursor) = some 0x108#32 := by decide

/-- J2, J3: BL. -/
theorem test_bl :
    arm 0xEB000010 (placed 0x08000000#32 false (base .sys)) (fun t => (t.reg 14#4, t.pipe.cursor)) =
      some (0x08000004#32, 0x08000050#32) ∧
    arm 0xEBFFFFFE (placed 0x08000100#32 false (base .sys)) (fun t => (t.reg 14#4, t.pipe.cursor)) =
      some (0x08000104#32, 0x08000108#32) := by decide

/-- J4, J5: BX to Thumb and to ARM. -/
theorem test_bx :
    arm 0xE12FFF10 (regs [(0#4, 0x08000201#32)] (base .sys)) (fun t => (t.cpsr.t, t.pipe.cursor)) =
      some (true, 0x08000204#32) ∧
    arm 0xE12FFF10 (regs [(0#4, 0x08000202#32)] (base .sys)) (fun t => (t.cpsr.t, t.pipe.cursor)) =
      some (false, 0x08000208#32) := by decide

/-- J8: SWI. -/
theorem test_swi :
    arm 0xEF050000 (placed 0x08000100#32 false (flags false true true false (base .sys)))
      (fun t => (t.xm .svc 14#4, t.spsrs.svc.toWord, t.cpsr.toWord, t.pipe.cursor)) =
        some (0x08000104#32, 0x6000001F#32, 0x60000093#32, 0x10#32) := by decide

/-- J9: the undefined space. -/
theorem test_undefined :
    arm 0xE7F000F0 (placed 0x08000000#32 false (base .sys))
      (fun t => (t.xm .und 14#4, t.spsrs.und.toWord, t.cpsr.toWord, t.pipe.cursor)) =
        some (0x08000004#32, 0x1F#32, 0x9B#32, 0xC#32) := by decide

/-- J10: the coprocessor space; MRC, and one each of STC, LDC, CDP, MCR. -/
theorem test_coprocessor :
    [0xEE100F10, 0xED832105, 0xED932105, 0xEE3541E6, 0xEE454F36].map
      (fun w => arm w (placed 0x08000000#32 false (base .sys)) (fun t => (t.xm .und 14#4, t.cpsr.toWord, t.reg 0#4))) =
        List.replicate 5 (some (0x08000004#32, 0x9B#32, 0#32)) := by decide

/-- The unallocated spaces and the condition 1111 are faults (D). -/
theorem test_unallocated :
    stops (step ((base .sys).withFetchWord 32 0xE0400090)) = some .unallocatedMultiply ∧
    stops (step ((base .sys).withFetchWord 32 0xE1C100D0)) = some .unallocatedHalfwordStore ∧
    stops (step ((base .sys).withFetchWord 32 0xE12FFF30)) = some .unallocatedPsrTransfer ∧
    stops (step ((base .sys).withFetchWord 32 0xE16F0F11)) = some .unallocatedPsrTransfer ∧
    stops (step ((base .sys).withFetchWord 32 0xF0000000)) = some .conditionNever := by decide

/-! ### Thumb (S1, T1 to T15, U1 to U14) -/

/-- S1 in Thumb state. -/
theorem test_t_add :
    thumb 0x1888 (regs [(1#4, 0xFFFFFFFF#32), (2#4, 1#32)] (base .sys)) (fun t => (t.reg 0#4, nzcv t)) =
      some (0#32, false, true, true, false) := by decide

/-- T1, T2: LSL #0 and LSR #32; ASR #31 (R302). -/
theorem test_t_shift_immediate :
    thumb 0x0008 (regs [(1#4, 0x80000000#32)] (base .sys)) (fun t => (t.reg 0#4, nzcv t)) =
      some (0x80000000#32, true, false, false, false) ∧
    thumb 0x0808 (regs [(1#4, 0x80000000#32)] (base .sys)) (fun t => (t.reg 0#4, nzcv t)) =
      some (0#32, false, true, true, false) ∧
    thumb 0x17C8 (regs [(1#4, 0x80000000#32)] (base .sys)) (fun t => (t.reg 0#4, nzcv t)) =
      some (0xFFFFFFFF#32, true, false, false, false) := by decide

/-- T3: ADD of 0 clears C and V; T4: MOV leaves them. -/
theorem test_t_add_mov :
    thumb 0x1C08 (flags false false true true (regs [(1#4, 0x80000000#32)] (base .sys))) (fun t => (t.reg 0#4, nzcv t)) =
      some (0x80000000#32, true, false, false, false) ∧
    thumb 0x2000 (flags false false true true (base .sys)) (fun t => (t.reg 0#4, nzcv t)) =
      some (0#32, false, true, true, true) := by decide

/-- T5, T6: NEG. -/
theorem test_t_neg :
    thumb 0x4248 (regs [(1#4, 0x80000000#32)] (base .sys)) (fun t => (t.reg 0#4, nzcv t)) =
      some (0x80000000#32, true, false, false, true) ∧
    thumb 0x4248 (base .sys) (fun t => (t.reg 0#4, nzcv t)) = some (0#32, false, true, true, false) := by decide

/-- T7, T8: ROR by 64, LSL by 0. -/
theorem test_t_shift_register :
    thumb 0x41C8 (regs [(0#4, 0x80000001#32), (1#4, 64#32)] (base .sys)) (fun t => (t.reg 0#4, t.cpsr.c)) =
      some (0x80000001#32, true) ∧
    thumb 0x4088 (flags false false true false (regs [(0#4, 3#32), (1#4, 0x100#32)] (base .sys)))
      (fun t => (t.reg 0#4, t.cpsr.c)) = some (3#32, true) := by decide

/-- SUB, CMP and the 8-bit immediate forms (R304, R306, R308 to R310). -/
theorem test_t_sub_cmp :
    thumb 0x1A88 (regs [(1#4, 5#32), (2#4, 7#32)] (base .sys)) (fun t => (t.reg 0#4, nzcv t)) =
      some (0xFFFFFFFE#32, true, false, false, false) ∧
    thumb 0x1FC8 (regs [(1#4, 9#32)] (base .sys)) (fun t => t.reg 0#4) = some 2#32 ∧
    thumb 0x2807 (regs [(0#4, 7#32)] (base .sys)) nzcv = some (false, true, true, false) ∧
    thumb 0x30FF (regs [(0#4, 1#32)] (base .sys)) (fun t => t.reg 0#4) = some 0x100#32 ∧
    thumb 0x38FF (regs [(0#4, 0x100#32)] (base .sys)) (fun t => t.reg 0#4) = some 1#32 := by decide

/-- The logical operations on 0b1100 and 0b1010 (R311, R312, R319, R323, R325, R326). -/
theorem test_t_logic :
    [0x4008, 0x4048, 0x4308, 0x4388, 0x43C8].map
      (fun w => thumb w (regs [(0#4, 12#32), (1#4, 10#32)] (base .sys)) (fun t => t.reg 0#4)) =
        [some 8#32, some 6#32, some 14#32, some 4#32, some 0xFFFFFFF5#32] ∧
    thumb 0x4208 (regs [(0#4, 12#32), (1#4, 3#32)] (base .sys)) nzcv = some (false, true, false, false) := by decide

/-- ADC, SBC, LSR, ASR, CMP, CMN, MUL (R314 to R317, R321, R322, R324). -/
theorem test_t_arithmetic :
    thumb 0x4148 (flags false false true false (regs [(0#4, 2#32), (1#4, 3#32)] (base .sys))) (fun t => t.reg 0#4) =
      some 6#32 ∧
    thumb 0x4188 (regs [(0#4, 5#32), (1#4, 2#32)] (base .sys)) (fun t => (t.reg 0#4, t.cpsr.c)) = some (2#32, true) ∧
    thumb 0x40C8 (regs [(0#4, 0x80#32), (1#4, 4#32)] (base .sys)) (fun t => t.reg 0#4) = some 8#32 ∧
    thumb 0x4108 (regs [(0#4, 0x80000000#32), (1#4, 31#32)] (base .sys)) (fun t => t.reg 0#4) = some 0xFFFFFFFF#32 ∧
    thumb 0x4288 (regs [(0#4, 1#32), (1#4, 2#32)] (base .sys)) nzcv = some (true, false, false, false) ∧
    thumb 0x42C8 (regs [(0#4, 0xFFFFFFFF#32), (1#4, 1#32)] (base .sys)) nzcv = some (false, true, true, false) ∧
    thumb 0x4348 (regs [(0#4, 6#32), (1#4, 7#32)] (base .sys)) (fun t => t.reg 0#4) = some 42#32 := by decide

/-- T10, T12: ADD PC, R0, and BX PC. -/
theorem test_t_hi :
    thumb 0x4487 (placed 0x100#32 true (regs [(0#4, 0x10#32)] (base .sys))) (fun t => (t.pipe.cursor, t.cpsr.t)) =
      some (0x118#32, true) ∧
    thumb 0x4778 (placed 0x08000102#32 true (base .sys)) (fun t => (t.pipe.cursor, t.cpsr.t)) =
      some (0x0800010C#32, false) := by decide

/-- MOV and CMP of high registers (R328, R329). -/
theorem test_t_hi_mov_cmp :
    thumb 0x46D3 (regs [(10#4, 9#32)] (base .sys)) (fun t => t.reg 11#4) = some 9#32 ∧
    thumb 0x4553 (regs [(3#4, 4#32), (10#4, 4#32)] (base .sys)) nzcv = some (false, true, true, false) := by decide

/-- T9, T11, T13, U7: the forbidden forms. -/
theorem test_t_faults :
    stops (step ((base .sys).withFetchWord 16 0x4340)) = some .registerClash ∧
    stops (step ((base .sys).withFetchWord 16 0x4408)) = some .lowRegisters ∧
    stops (step ((base .sys).withFetchWord 16 0x4780)) = some .branchLinkExchange ∧
    stops (step ((base .sys).withFetchWord 16 0xB400)) = some .emptyStackList ∧
    stops (step ((base .sys).withFetchWord 16 0xBC00)) = some .emptyStackList := by decide

/-- T14, T15: ADD from PC, SUB SP; ADD from SP (R332). -/
theorem test_t_addresses :
    thumb 0xA002 (placed 0x08000102#32 true (base .sys)) (fun t => t.reg 0#4) = some 0x0800010C#32 ∧
    thumb 0xB0FF (regs [(13#4, 0x03007F00#32)] (base .sys)) (fun t => t.reg 13#4) = some 0x03007D04#32 ∧
    thumb 0xA802 (regs [(13#4, 0x100#32)] (base .sys)) (fun t => t.reg 0#4) = some 0x108#32 := by decide

/-- U1, U3, U4: PC-relative, misaligned and signed loads. -/
theorem test_t_loads :
    thumb 0x4801 (mems [(0x08000108, 0xCAFEF00D#32)] (placed 0x08000102#32 true (base .sys))) (fun t => t.reg 0#4) =
      some 0xCAFEF00D#32 ∧
    thumb 0x5888 (mems [(0x03000000, 0x11223344#32)] (regs [(1#4, 0x03000000#32), (2#4, 2#32)] (base .sys)))
      (fun t => t.reg 0#4) = some 0x33441122#32 ∧
    thumb 0x5E88 (mems [(0x03000000, 0xBEEF#32)] (regs [(1#4, 0x03000000#32), (2#4, 1#32)] (base .sys)))
      (fun t => t.reg 0#4) = some 0xFFFFFFBE#32 := by decide

/-- The other loads of the word 0x8899AABB at 0x03000000 (R344, R346, R347, R350, R352, R354, R356). -/
theorem test_t_loads_narrow :
    [0x5C88, 0x5688, 0x5A88, 0x6808, 0x7808, 0x8808].map
      (fun w => thumb w (mems [(0x03000000, 0x8899AABB#32)] (regs [(1#4, 0x03000000#32)] (base .sys))) (fun t => t.reg 0#4)) =
        [some 0xBB#32, some 0xFFFFFFBB#32, some 0xAABB#32, some 0x8899AABB#32, some 0xBB#32, some 0xAABB#32] ∧
    thumb 0x9801 (mems [(0x03000004, 7#32)] (regs [(13#4, 0x03000000#32)] (base .sys))) (fun t => t.reg 0#4) = some 7#32 := by
  decide

/-- The stores (R341, R342, R345, R349, R351, R353, R355), over the word 0x11111111. -/
theorem test_t_stores :
    [0x5088, 0x5488, 0x5288, 0x6008, 0x7008, 0x8008].map
      (fun w => thumb w (mems [(0x03000000, 0x11111111#32)] (regs [(0#4, 0x8899AABB#32), (1#4, 0x03000000#32)] (base .sys)))
        (fun t => t.cellWord 0x03000000)) =
        [some 0x8899AABB#32, some 0x111111BB#32, some 0x1111AABB#32, some 0x8899AABB#32, some 0x111111BB#32,
          some 0x1111AABB#32] ∧
    thumb 0x9001 (regs [(0#4, 7#32), (13#4, 0x03000000#32)] (base .sys)) (fun t => t.cellWord 0x03000004) =
      some 7#32 := by decide

/-- U5: PUSH. -/
theorem test_t_push :
    thumb 0xB510 (regs [(13#4, 0x03007F00#32), (4#4, 4#32), (14#4, 0x08000101#32)] (base .sys))
      (fun t => (t.cellWord 0x03007EF8, t.cellWord 0x03007EFC, t.reg 13#4)) = some (4#32, 0x08000101#32, 0x03007EF8#32) := by
  decide

/-- U6: POP. -/
theorem test_t_pop :
    thumb 0xBD10 (mems [(0x03007EF8, 4#32), (0x03007EFC, 0x08000101#32)] (regs [(13#4, 0x03007EF8#32)] (base .sys)))
      (fun t => (t.reg 4#4, t.reg 13#4, t.pipe.cursor, t.cpsr.t)) = some (4#32, 0x03007F00#32, 0x08000104#32, true) := by
  decide

/-- U8, U9: STMIA of the empty list at address 0x100, and with the base first. -/
theorem test_t_stmia :
    thumb 0xC000 (placed 0x100#32 true (regs [(0#4, 0x03000000#32)] (base .sys)))
      (fun t => (t.cellWord 0x03000000, t.reg 0#4)) = some (0x106#32, 0x03000040#32) ∧
    thumb 0xC003 (regs [(0#4, 0x03000000#32), (1#4, 9#32)] (base .sys))
      (fun t => (t.cellWord 0x03000000, t.cellWord 0x03000004, t.reg 0#4)) = some (0x03000000#32, 9#32, 0x03000008#32) := by
  decide

/-- LDMIA, with the base out of the list and in it (R363, R365). -/
theorem test_t_ldmia :
    thumb 0xC806 (mems [(0x03000000, 5#32), (0x03000004, 6#32)] (regs [(0#4, 0x03000000#32)] (base .sys)))
      (fun t => (t.reg 0#4, t.reg 1#4, t.reg 2#4)) = some (0x03000008#32, 5#32, 6#32) ∧
    thumb 0xC801 (mems [(0x03000000, 5#32)] (regs [(0#4, 0x03000000#32)] (base .sys))) (fun t => t.reg 0#4) = some 5#32 := by
  decide

/-- U10, U12: a branch not taken, and one backwards; BEQ taken (R370). -/
theorem test_t_branches :
    thumb 0xD002 (placed 0x100#32 true (base .sys)) (fun t => t.pipe.cursor) = some 0x106#32 ∧
    thumb 0xD002 (placed 0x100#32 true (flags false true false false (base .sys))) (fun t => t.pipe.cursor) =
      some 0x10C#32 ∧
    thumb 0xE400 (placed 0x08000800#32 true (base .sys)) (fun t => t.pipe.cursor) = some 0x08000008#32 := by decide

/-- U11: the two halves of BL. -/
theorem test_t_bl :
    thumb 0xF7FF (placed 0x08000100#32 true (base .sys)) (fun t => (t.reg 14#4, t.pipe.cursor)) =
      some (0x08000104#32 - 0x1000#32, 0x08000106#32) ∧
    thumb 0xFFFE (placed 0x08000102#32 true (regs [(14#4, 0x08000104#32 - 0x1000#32)] (base .sys)))
      (fun t => (t.reg 14#4, t.pipe.cursor)) = some (0x08000105#32, 0x08000104#32) := by decide

/-- U13: SWI in Thumb state. -/
theorem test_t_swi :
    thumb 0xDF05 (placed 0x08000100#32 true (base .sys))
      (fun t => (t.xm .svc 14#4, t.spsrs.svc.toWord, t.cpsr.toWord, t.pipe.cursor)) =
        some (0x08000102#32, 0x3F#32, 0x93#32, 0x10#32) := by decide

/-- U14: the undefined encodings of R148. -/
theorem test_t_undefined :
    [0xDE00, 0xB100, 0xE800].map
      (fun w => thumb w (placed 0x08000100#32 true (base .sys))
        (fun t => (t.xm .und 14#4, t.spsrs.und.toWord, t.cpsr.toWord))) =
        List.replicate 3 (some (0x08000102#32, 0x3F#32, 0x9B#32)) := by decide

/-! ### Interrupts, halt, memory, timing, the scheduler -/

/-- The staged state with the interrupt line asserted. -/
def withLine (s : State) : State := { s with bus := { s.bus with irqLine := true } }

/-- The staged state, halted. -/
def withHalt (s : State) : State := { s with bus := { s.bus with halted := true } }

/-- X1: the IRQ entry; the handler's first instruction is here a word of memory 0xE1A00000. -/
theorem test_irq :
    (match step (withLine ((mems [(0x18, 0xE1A00000#32)] (placed 0x08000100#32 false (base .sys))).withFetchWord 32 0xE3A00001)) with
      | .next t => some (t.xm .irq 14#4, t.spsrs.irq.toWord, t.cpsr.toWord, t.pipe.cursor, t.reg 0#4)
      | _ => none) = some (0x08000104#32, 0x1F#32, 0x92#32, 0x24#32, 0#32) := by decide

/-- X7, X9: a masked line enters nothing; a halted core wakes and executes. -/
theorem test_masked_line :
    (match step (withHalt (withLine ((State.reset).withFetchWord 32 0xE3A00005))) with
      | .next t => some (t.reg 0#4, t.bus.halted, t.bus.irqLine, t.cpsr.mode)
      | _ => none) = some (5#32, false, true, .svc) := by decide

/-- X8: a halted step. -/
theorem test_halted :
    (match step (withHalt ((base .sys).withFetchWord 32 0xE3A00005)) with
      | .next t => some (t.reg 0#4, t.bus.acc, t.bus.ts, t.bus.halted)
      | _ => none) = some (0#32, 1, 3, true) := by decide

/-- R3, R4 of 95_test_vectors.md: the lanes of the open-bus latch. -/
theorem test_open_bus :
    (({ Bus.reset with ob := 0xAABBCCDD#32 }).valueRead 0x10000001#32 .byte).1 = 0xCC#32 ∧
    (({ Bus.reset with ob := 0xAABBCCDD#32 }).valueRead 0x10000002#32 .half).1 = 0xAABB#32 ∧
    (({ Bus.reset with ob := 0xAABBCCDD#32 }).valueRead 0x02040000#32 .word).1 = 0xAABBCCDD#32 := by decide

/-- R7, R8: WAITCNT as a port. -/
theorem test_waitcnt :
    ((Bus.reset.valueWrite 0x04000204#32 .half 0xFFFF#32).2.valueRead 0x04000204#32 .half).1 = 0x5FFF#32 ∧
    (({ Bus.reset with waitcnt := 0x4317#16, ob := 0xAABBCCDD#32 }).valueRead 0x04000204#32 .word).1 = 0xAABB4317#32 := by
  decide

/-- R5: a store to ROM changes the latch alone. -/
theorem test_rom_store :
    (Bus.reset.valueWrite 0x08000000#32 .byte 0xAB#32).2 = { Bus.reset with ob := 0xABABABAB#32 } := rfl

/-- R12: waits from WAITCNT = 0x0014. -/
theorem test_wait_states :
    regionCost Params.default 0x0014#16 (some .rom0) .half false = 4 ∧ regionCost Params.default 0x0014#16 (some .rom0) .half true = 2 ∧
    regionCost Params.default 0x0014#16 (some .rom0) .word true = 4 ∧ regionCost Params.default 0#16 (some .rom0) .word false = 8 := by decide

/-- R453: a taken branch in cartridge ROM costs 14, the branch to A + 8 included, whose first fetch stands where the last
fetch ended (R103). -/
theorem test_branch_cost :
    [0xEA000000, 0xEA000010].map
      (fun w => arm w
        (placed 0x08000000#32 false
          { base .sys with bus := { Bus.reset with last := some { kind := .code, addr := 0x08000004#32, width := .word } } })
        (fun t => t.bus.acc)) = [some 14, some 14] := by decide

/-- What the data accesses of a step show: the address and the value. -/
def shown (s : State) : List (Word × Word) :=
  (s.bus.trace.filter fun x => x.kind == .data).map fun x => (x.addr, x.value)

/-- The value of a narrow store is that of its width (R245, R248, R351). -/
theorem test_observed_value :
    arm 0xE5C10000 (regs [(0#4, 0x1234#32), (1#4, 0x03000000#32)] (base .sys)) shown = some [(0x03000000#32, 0x34#32)] ∧
    arm 0xE1C100B0 (regs [(0#4, 0x12345678#32), (1#4, 0x03000001#32)] (base .sys)) shown =
      some [(0x03000000#32, 0x5678#32)] ∧
    thumb 0x7008 (regs [(0#4, 0x1FF#32), (1#4, 0x03000000#32)] (base .sys)) shown = some [(0x03000000#32, 0xFF#32)] := by
  decide

/-- SWPB writes the low byte of its source (R271). -/
theorem test_observed_swap :
    arm 0xE1420091 (mems [(0x03000000, 0x7A#32)] (regs [(1#4, 0x1FF#32), (2#4, 0x03000000#32)] (base .sys))) shown =
      some [(0x03000000#32, 0x7A#32), (0x03000000#32, 0xFF#32)] := by decide

/-- A save-media write delivers the byte that the exact address selects (R89). -/
theorem test_save_write :
    (Bus.reset.valueWrite 0x0E000001#32 .byte 0xAB#32).1 = [.saveWrite 0x0E000001#32 0xAB#8] ∧
    (Bus.reset.valueWrite 0x0E000001#32 .half 0xABCD#32).1 = [.saveWrite 0x0E000001#32 0xAB#8] ∧
    (Bus.reset.valueWrite 0x0E000003#32 .word 0x11223344#32).1 = [.saveWrite 0x0E000003#32 0x11#8] ∧
    shownAddr Params.default 0x0E000003#32 .word = 0x0E000003#32 ∧
    shownValue Params.default 0x0E000003#32 .word 0x11223344#32 = 0x11#32 := by decide

/-- A fault of the checks after the loads of LDM^ leaves the loads' accesses (R155, R267). -/
theorem test_fault_leaves_accesses :
    (match step ((mems [(0x03000000, 5#32), (0x03000004, 6#32)] (regs [(0#4, 0x03000000#32)] (base .sys))).withFetchWord 32
        0xE8D08002) with
      | .fault f => some ((State.reset.afterFault f).faulted, shown (State.reset.afterFault f))
      | _ => none) =
        some (some .noSavedStatus, [(0x03000000#32, 5#32), (0x03000004#32, 6#32)]) := by decide

/-- The internal cycles of an instruction that reports no flow. -/
def cyclesOf (i : Instr) (s : State) : Nat := internalCycles i s s

/-- M8, M9: the internal cycles of the multiplies, beside the instruction's own access cycles; none where the condition
fails (R452). -/
theorem test_multiply_cycles :
    [0xFF#32, 0x100#32, 0x00FF0000#32, 0x12345678#32, 0xFFFFFF00#32].map
      (fun v => cyclesOf (.mul .al false 1#4 2#4 3#4) (regs [(2#4, v)] (base .sys))) = [1, 2, 3, 4, 1] ∧
    cyclesOf (.umull .al false 4#4 1#4 2#4 3#4) (regs [(2#4, 0xFFFFFF00#32)] (base .sys)) =
      cyclesOf (.umull .al false 4#4 1#4 2#4 3#4) (regs [(2#4, 0x12345678#32)] (base .sys)) ∧
    cyclesOf (.mul .eq false 1#4 2#4 3#4) (base .sys) = 0 := by decide

/-- R8: a table of internal cycles that an implementation gives is asked for the instruction and its outcome. -/
theorem test_given_cycles :
    cyclesOf (.tBCond .eq 2#8) { base .sys with bus := { Bus.reset with params := { Params.default with internal := .given } } } =
      Config.internalCycles (.tBCond .eq 2#8) { passed := false, flow := none, multiplier := 0#32 } := rfl

/-- R58, R75: a region registered with another size. -/
theorem test_register_region :
    pastSize (State.reset.registerRegion .iwram RegionTable.default.iwram 0x10000).bus.params .iwram 0x0300FFFC#32 .word =
      false ∧
    pastSize State.reset.bus.params .iwram 0x0300FFFC#32 .word = true := by decide

/-- R67, R419: a callback's access is observed, without a cost. -/
theorem test_observed_collaborator :
    (match Bus.reset.perform none (.write 0x03000001#32 .byte 0x1234#32) with
      | .next x => (x.2.trace.drop 2).map fun a => (a.master, a.addr, a.value, a.cost)
      | _ => []) = [(.collaborator, 0x03000001#32, 0x34#32, 0)] := by decide

/-- Q1, Q8: a second event of a category is rejected; a full queue is a fault. -/
theorem test_schedule :
    (match Bus.reset.schedule 5 1 0 0 false with
      | .next (a, b) => some (a, b.queue.length, b.pending 1,
          match b.schedule 5 1 0 0 false with | .next (a', b') => some (a', b'.queue.length) | _ => none)
      | _ => none) = some (true, 1, true, some (false, 1)) ∧
    (match ({ Bus.reset with params := { Params.default with schedCapacity := 0 } }).schedule 1 1 0 0 false with
      | .fault b => some b.queue.length
      | _ => none) = some 0 := by decide

/-- S9, Q3: the earliest due event, ties by sequence number. -/
theorem test_earliest :
    earliestDue 4 [⟨10, 1, 0, 0, 0, false⟩, ⟨5, 2, 0, 0, 1, false⟩] = none ∧
    earliestDue 5 [⟨10, 1, 0, 0, 0, false⟩, ⟨5, 2, 0, 0, 1, false⟩] = some ⟨5, 2, 0, 0, 1, false⟩ ∧
    earliestDue 9 [⟨5, 1, 0, 0, 3, false⟩, ⟨5, 2, 0, 0, 4, false⟩] = some ⟨5, 1, 0, 0, 3, false⟩ := by decide

/-- I3: what a skip_bios reset leaves (R432). -/
theorem test_skip_bios :
    (match ({ State.reset with bus := { Bus.reset with params := { Params.default with bootMode := .skipBios } } }).hostReset with
      | .next t => some (t.cpsr.toWord, t.reg 13#4, t.xm .irq 13#4, t.xm .svc 13#4, t.pipe.cursor, t.bus.ts)
      | _ => none) = some (0x1F#32, 0x03007F00#32, 0x03007FA0#32, 0x03007FE0#32, 0x08000008#32, 14) := by decide


/-- R65, R55: a snapshot put into a faulted machine leaves it faulted. -/
theorem test_deserialize_faulted :
    (match (State.reset.afterFault .conditionNever).deserialize State.reset.serialize with
      | .next t => some (t.faulted, t.pipe.cursor)
      | _ => none) = some (some .conditionNever, State.reset.pipe.cursor) := by decide

/-- R64, R65, R9: a Deserialize takes memory and WAITCNT from the snapshot, and leaves the machine its images and its port
table. -/
theorem test_deserialize_oracles :
    (match
        ((State.reset.loadBytes [(0x08000000, 1#8), (0x03000000, 2#8)]).registerPort ⟨0, [⟨9#8, true, true⟩], none⟩).deserialize
          (State.reset.loadBytes [(0x08000000, 3#8), (0x03000000, 4#8)]).serialize with
      | .next t => some (t.cell 0x08000000, t.cell 0x03000000, t.bus.ports.length)
      | _ => none) = some (1#8, 4#8, 1) := by decide
/-! ## Witnesses: for each obligation with hypotheses, a state and operands that meet them, and each of its clauses -/

/-- The reset bus is quiet for any number of cycles. -/
theorem reset_quiet (n : Nat) : Bus.reset.Quiet n := fun e he => by cases he

/-- Nothing asked of `DEVICE`: it does nothing. -/
theorem silentCalls_of_nil {calls : List DeviceCall} (h : calls = []) : SilentCalls calls := by
  subst h
  exact fun c hc => by cases hc

/-- A store to fast memory asks nothing of `DEVICE`. -/
theorem reset_silent : Bus.reset.Silent 0x03000000#32 .word ∧ Bus.reset.Silent 0x03000000#32 .byte :=
  ⟨fun _ => silentCalls_of_nil rfl, fun _ => silentCalls_of_nil rfl⟩

/-- A read of fast memory asks nothing of `DEVICE`. -/
theorem reset_calm : Bus.reset.Calm 0x03000000#32 .word ∧ Bus.reset.Calm 0x03000000#32 .byte :=
  ⟨silentCalls_of_nil rfl, silentCalls_of_nil rfl⟩

/-- A block of stores in fast memory asks nothing of `DEVICE`. -/
theorem reset_silent_block : Bus.reset.SilentBlock 0x03000000#32 2 := by
  intro k hk v
  obtain rfl | rfl : k = 0 ∨ k = 1 := by omega
  · exact silentCalls_of_nil rfl
  · exact silentCalls_of_nil rfl

/-- A block of reads of fast memory asks nothing of `DEVICE`. -/
theorem reset_calm_block : Bus.reset.CalmBlock 0x03000000#32 2 := by
  intro k hk
  obtain rfl | rfl : k = 0 ∨ k = 1 := by omega
  · exact silentCalls_of_nil rfl
  · exact silentCalls_of_nil rfl

theorem witness_DecodeInvertsEncode :
    Instr.wf (.strImm .al true true true 2#4 1#4 4#12) = true ∧ Instr.wf (.unallocMul .ne 4#5 0x123#12 4#4) = true ∧
    Instr.wf (.unallocPsr .al true 2#2 0#12 15#4 0#4) = true ∧ Instr.wf (.tUndef1011 0xFFF#12) = true ∧
    Instr.wf (.tBCond .le 0xFF#8) = true := by decide

theorem witness_ArmDecoderFollowsClassifier :
    (0xE0810002#32).extractLsb' 28 4 ≠ 15#4 ∧ (0x00000000#32).extractLsb' 28 4 ≠ 15#4 ∧
    (0xEFFFFFFF#32).extractLsb' 28 4 ≠ 15#4 := by decide

theorem witness_FailedConditionHasNoEffect :
    condOf (.addImm .ne false 0#4 0#4 0#4 1#8) = some .ne ∧
    Cond.passes .ne (flags false true false false (base .sys)).cpsr = false ∧
    condOf (.tBCond .eq 2#8) = some .eq ∧ Cond.passes .eq (base .sys).cpsr = false := by decide

theorem witness_ConditionNeverFaults :
    (0xF0000000#32).extractLsb' 28 4 = 15#4 ∧ (0xFFFFFFFF#32).extractLsb' 28 4 = 15#4 := by decide

/-- Both sides of the equivalence, at the boundary of each bank. -/
theorem witness_BankSharing :
    (14#4 ≠ 15#4) ∧ physIndex .usr 14#4 = physIndex .sys 14#4 ∧ physIndex .fiq 7#4 = physIndex .svc 7#4 ∧
    physIndex .fiq 8#4 ≠ physIndex .svc 8#4 ∧ physIndex .irq 12#4 = physIndex .und 12#4 ∧
    physIndex .irq 13#4 ≠ physIndex .und 13#4 := by decide

theorem witness_BankIsolation :
    8 ≤ (8#4).toNat ∧ (12#4).toNat ≤ 12 ∧ Mode.irq ≠ .fiq ∧ Mode.usr ≠ .fiq := by decide

theorem witness_MrsReadsStatus :
    Cond.passes .al (base .svc).cpsr = true ∧ (14#4 ≠ 15#4) ∧ (base .svc).spsrOf .svc = some Psr.zero := by decide

/-- The User-mode clause, the clause without a control byte, and the privileged clause. -/
theorem witness_MsrWritesCpsr :
    Cond.passes .al (base .sys).cpsr = true ∧ (0#4 ≠ 15#4) ∧ (base .usr).cpsr.mode = .usr ∧
    (8#4).getLsbD 0 = false ∧ (9#4).getLsbD 0 = true ∧ (base .sys).cpsr.mode ≠ .usr ∧
    (0xD2#32).extractLsb' 0 5 = Mode.irq.bits ∧ (0xD2#32).getLsbD 5 = (base .sys).cpsr.t := by decide

theorem witness_MsrWritesSpsr :
    Cond.passes .al (base .fiq).cpsr = true ∧ (base .fiq).spsrOf (base .fiq).cpsr.mode = some Psr.zero ∧ (0#4 ≠ 15#4) := by
  decide

/-- No SPSR; a value that is no mode; a value that changes T; and both values as immediates (K6, K7). -/
theorem witness_StatusTransferFaults :
    Cond.passes .al (base .usr).cpsr = true ∧ (base .usr).cpsr.mode = .usr ∧ (base .sys).cpsr.mode = .sys ∧
    (1#4).getLsbD 0 = true ∧ (base .sys).cpsr.mode ≠ .usr ∧
    Mode.ofBits (((base .sys).reg 0#4).extractLsb' 0 5) = none ∧
    Mode.ofBits (((regs [(0#4, 0x3F#32)] (base .sys)).reg 0#4).extractLsb' 0 5) ≠ none ∧
    ((regs [(0#4, 0x3F#32)] (base .sys)).reg 0#4).getLsbD 5 ≠ (base .sys).cpsr.t ∧
    Mode.ofBits ((((0#8).setWidth 32).rotateRight (2 * (0#4).toNat)).extractLsb' 0 5) = none ∧
    Mode.ofBits ((((0x3F#8).setWidth 32).rotateRight (2 * (0#4).toNat)).extractLsb' 0 5) ≠ none ∧
    (((0x3F#8).setWidth 32).rotateRight (2 * (0#4).toNat)).getLsbD 5 ≠ (base .sys).cpsr.t := by decide

/-- Amounts 0, 31, 32, 33 and 255, and the immediate amounts 1 and 31. -/
theorem witness_ShifterOperands :
    (0#8 = 0#8) ∧ (31#8).toNat < 32 ∧ ¬(32#8).toNat < 32 ∧ ¬(33#8).toNat ≤ 32 ∧ ¬(255#8).toNat ≤ 32 ∧
    (1#5 ≠ 0#5) ∧ (31#5 ≠ 0#5) := by decide

theorem witness_ArmDataProcResults :
    DpOp.compares .rsc = false ∧ Cond.passes .al (base .usr).cpsr = true ∧ (14#4 ≠ 15#4) ∧
    (Operand2.regShift 14#4 .ror 15#4).legal ∧ (Operand2.imm 0#4 0#8).legal := ⟨rfl, rfl, by decide, (by decide : (14#4) ≠ 15#4), trivial⟩

theorem witness_ArmCompareResults :
    DpOp.compares .cmn = true ∧ Cond.passes .al (base .usr).cpsr = true ∧ (Operand2.immShift 0#5 .ror 15#4).legal ∧
    (0#4 ≠ 15#4) := ⟨rfl, rfl, trivial, by decide⟩

/-- A saved mode that restores, a saved mode that is none, and a mode without SPSR. -/
theorem witness_ArmDataProcToPc :
    Cond.passes .al (base .irq).cpsr = true ∧ DpOp.compares .sub = false ∧ DpOp.compares .tst = true ∧
    (saved .irq 0x1F#32 (base .irq)).spsrOf .irq = some (Psr.ofWord 0x1F#32) ∧
    (Psr.ofWord 0x1F#32).restore = some Cpsr.skipBios ∧ (base .irq).spsrOf .irq = some Psr.zero ∧
    Psr.zero.restore = none ∧ (base .sys).cpsr.mode = .sys := by decide

theorem witness_MultiplyResults :
    Cond.passes .al (base .sys).cpsr = true ∧ (0#4 ≠ 15#4) ∧ (1#4 ≠ 15#4) ∧ (2#4 ≠ 15#4) ∧ (0#4 ≠ 1#4) ∧ (0#3 ≠ 1#3) := by
  decide

theorem witness_MultiplyLongResults :
    Cond.passes .al (base .sys).cpsr = true ∧ (0#4 ≠ 15#4) ∧ (1#4 ≠ 15#4) ∧ (2#4 ≠ 15#4) ∧ (3#4 ≠ 15#4) ∧ (1#4 ≠ 0#4) ∧
    (1#4 ≠ 2#4) ∧ (0#4 ≠ 2#4) := by decide

/-- Pre-indexed without write-back from R15, and post-indexed from another register. -/
theorem witness_WordLoads :
    Cond.passes .al (base .usr).cpsr = true ∧ (base .usr).bus.QuietFor 1 ∧
    (base .usr).bus.Calm (transferAt true true ((base .usr).reg 15#4) 0#32) .word ∧
    (true = false ∨ false = true → (15#4) ≠ 15#4) ∧
    (regs [(1#4, 0x03000000#32)] (base .usr)).bus.Calm
      (transferAt false true ((regs [(1#4, 0x03000000#32)] (base .usr)).reg 1#4) 4#32) .word ∧
    (false = false ∨ false = true → (1#4) ≠ 15#4) :=
  ⟨rfl, reset_quiet _, silentCalls_of_nil rfl, by decide, reset_calm.1, by decide⟩

theorem witness_NarrowLoads :
    Cond.passes .al (regs [(1#4, 0x03000000#32)] (base .usr)).cpsr = true ∧
    (regs [(1#4, 0x03000000#32)] (base .usr)).bus.QuietFor 1 ∧
    (regs [(1#4, 0x03000000#32)] (base .usr)).bus.Calm
      (transferAt true true ((regs [(1#4, 0x03000000#32)] (base .usr)).reg 1#4) 0#32) .byte ∧ (0#4 ≠ 15#4) ∧ (1#4 ≠ 15#4) ∧
    (true = true ∨ true = false) ∧ (false = true ∨ false = false) :=
  ⟨rfl, reset_quiet _, reset_calm.2, by decide, by decide, .inl rfl, .inr rfl⟩

/-- A store at the base 0x03000000. -/
theorem witness_SingleStores :
    Cond.passes .al (regs [(1#4, 0x03000000#32)] (base .usr)).cpsr = true ∧
    (regs [(1#4, 0x03000000#32)] (base .usr)).bus.QuietFor 1 ∧
    (regs [(1#4, 0x03000000#32)] (base .usr)).bus.Silent
      (transferAt true true ((regs [(1#4, 0x03000000#32)] (base .usr)).reg 1#4) 0#32) .word ∧ (1#4 ≠ 15#4) :=
  ⟨rfl, reset_quiet _, reset_silent.1, by decide⟩

theorem witness_SwapExchanges :
    Cond.passes .al (regs [(2#4, 0x03000000#32)] (base .usr)).cpsr = true ∧ (2#4 ≠ 15#4) ∧ (0#4 ≠ 15#4) ∧ (1#4 ≠ 15#4) ∧
    (2#4 ≠ 1#4) ∧ (2#4 ≠ 0#4) ∧ (regs [(2#4, 0x03000000#32)] (base .usr)).bus.QuietFor 2 ∧
    (regs [(2#4, 0x03000000#32)] (base .usr)).bus.Calm ((regs [(2#4, 0x03000000#32)] (base .usr)).reg 2#4) .word ∧
    (regs [(2#4, 0x03000000#32)] (base .usr)).bus.Silent ((regs [(2#4, 0x03000000#32)] (base .usr)).reg 2#4) .word ∧
    (regs [(2#4, 0x03000000#32)] (base .usr)).bus.Calm ((regs [(2#4, 0x03000000#32)] (base .usr)).reg 2#4) .byte ∧
    (regs [(2#4, 0x03000000#32)] (base .usr)).bus.Silent ((regs [(2#4, 0x03000000#32)] (base .usr)).reg 2#4) .byte :=
  ⟨rfl, by decide, by decide, by decide, by decide, by decide, reset_quiet _, reset_calm.1, reset_silent.1, reset_calm.2,
    reset_silent.2⟩

theorem witness_TransferFaults :
    Cond.passes .al (base .usr).cpsr = true ∧ (false = false ∨ true = true) ∧ (true = true ∨ true = false) ∧
    (true = true) ∧ (base .usr).cpsr.mode = .usr ∧ (1#4 ≠ 15#4) ∧ (2#4 ≠ 15#4) ∧ (3#4 ≠ 15#4) ∧ (2#4 = 2#4) := by decide

/-- A byte outside the stored ones; a writable region, whose target is not the port table; past its size; and WAITCNT in
the port table, at the first and the last byte of it that a store reaches. -/
theorem witness_StoreChangesOnlyItsBytes :
    0x03000004 ∉ Bus.reset.storedCells 0x03000000#32 .word ∧
    regionOf Params.default (alignTo .word 0x03000000#32) = some .iwram ∧ regionTarget Params.default .iwram ≠ .ports ∧
    regionWritable Params.default .iwram = true ∧
    pastSize Params.default .iwram (alignTo .word 0x03007FFC#32) .word = false ∧ isVideoByte .palette .half = false ∧
    0x03000008 ∉ Bus.reset.storedCells (0x03000000#32 + BitVec.ofNat 32 (4 * 1)) .word ∧
    regionOf Params.default (alignTo .half 0x04000204#32) = some .io ∧ regionTarget Params.default .io = .ports ∧
    pastSize Params.default .io (alignTo .half 0x04000204#32) .half = false ∧
    regionOffset Params.default .io (alignTo .half 0x04000204#32) ≤ 0x204 ∧
    0x205 < regionOffset Params.default .io (alignTo .half 0x04000204#32) + widthBytes .half := by decide

theorem witness_ReadAfterWrite :
    regionOf Params.default (alignTo .word 0x0203FFFF#32) = some .ewram ∧ regionWritable Params.default .ewram = true ∧
    pastSize Params.default .ewram (alignTo .word 0x0203FFFF#32) .word = false ∧
    Params.default.videoByteWrite = .plain ∧ isVideoByte .ewram .byte = false := by decide

/-- A bus with one register at port offset 0, its first byte readable and writable, its second neither. -/
def onePort : Bus :=
  { Bus.reset with
    ports := [{ base := 0, bytes := [⟨0x12#8, true, true⟩, ⟨0x34#8, false, false⟩], intercept := none }] }

/-- An undefined region, and the first byte past a size; and of the port table a readable byte, a byte that is not, and
the bytes of WAITCNT with the byte behind them. -/
theorem witness_OpenBusValues :
    regionOf Params.default (alignTo .word 0x10000000#32) = none ∧
    regionOf Params.default (alignTo .byte 0x02040000#32) = some .ewram ∧
    pastSize Params.default .ewram (alignTo .byte 0x02040000#32) .byte = true ∧
    pastSize Params.default .ewram (alignTo .byte 0x0203FFFF#32) .byte = false ∧
    regionOf onePort.params (alignTo .half 0x04000000#32) = some .io ∧ regionTarget onePort.params .io = .ports ∧
    pastSize onePort.params .io (alignTo .half 0x04000000#32) .half = false ∧
    regionOffset onePort.params .io (alignTo .half 0x04000000#32) = 0 ∧
    portByteAt onePort.ports 0 = some ⟨0x12#8, true, true⟩ ∧ portByteAt onePort.ports 1 = some ⟨0x34#8, false, false⟩ ∧
    regionOffset onePort.params .io (alignTo .word 0x04000204#32) = 0x204 := by decide

/-- Every row under the default table. -/
theorem witness_DataAccessCosts :
    Bus.reset.params.wait = WaitTable.default ∧
    [0x08000000#32, 0x0A000000#32, 0x0C000000#32, 0x0E000000#32, 0x02000000#32, 0x05000000#32, 0x06000000#32, 0x10000000#32,
      0x00000000#32, 0x03000000#32, 0x04000000#32, 0x07000000#32].map (fun a => regionOf Params.default (alignTo .word a)) =
      [some .rom0, some .rom1, some .rom2, some .save, some .ewram, some .palette, some .vram, none, some .bios, some .iwram,
        some .io, some .oam] := by decide

/-- Two registers stored from 0x03000000, in User mode, and in IRQ mode for the user bank. -/
theorem witness_BlockStores :
    Cond.passes .al (regs [(0#4, 0x03000000#32)] (base .usr)).cpsr = true ∧ (0#4 ≠ 15#4) ∧
    (regs [(0#4, 0x03000000#32)] (base .usr)).bus.QuietFor (moved (regsOf 6#16)).length ∧
    (regs [(0#4, 0x03000000#32)] (base .usr)).bus.SilentBlock
      (listStart false true ((regs [(0#4, 0x03000000#32)] (base .usr)).reg 0#4) (regsOf 6#16)) (moved (regsOf 6#16)).length ∧
    (base .irq).cpsr.mode ≠ .usr ∧ (base .irq).cpsr.mode ≠ .sys ∧ regsOf 6#16 ≠ [] := by
  refine ⟨rfl, by decide, reset_quiet _, ?_, by decide, by decide, by decide⟩
  exact reset_silent_block

/-- A list of two registers from 0x03000000, in User mode, and in IRQ mode for the user bank. -/
theorem witness_BlockLoads :
    Cond.passes .al (regs [(0#4, 0x03000000#32)] (base .usr)).cpsr = true ∧ (0#4 ≠ 15#4) ∧
    (regs [(0#4, 0x03000000#32)] (base .usr)).bus.QuietFor (moved (regsOf 6#16)).length ∧
    (regs [(0#4, 0x03000000#32)] (base .usr)).bus.CalmBlock
      (listStart false true ((regs [(0#4, 0x03000000#32)] (base .usr)).reg 0#4) (regsOf 6#16)) (moved (regsOf 6#16)).length ∧
    (regs [(0#4, 0x03000000#32)] (base .irq)).bus.CalmBlock
      (listStart false true ((regs [(0#4, 0x03000000#32)] (base .irq)).reg 0#4) (regsOf ((6#15).setWidth 16)))
      (moved (regsOf ((6#15).setWidth 16))).length ∧
    (regs [(0#4, 0x03000000#32)] (base .irq)).cpsr.mode ≠ .usr ∧
    (regs [(0#4, 0x03000000#32)] (base .irq)).cpsr.mode ≠ .sys := by
  refine ⟨rfl, by decide, reset_quiet _, ?_, ?_, by decide, by decide⟩
  · exact reset_calm_block
  · exact reset_calm_block

/-- A saved mode that restores, one that does not, and a mode without SPSR; R0 and R15 loaded from 0x03000000. -/
theorem witness_BlockLoadRestoresStatus :
    Cond.passes .al (regs [(13#4, 0x03000000#32)] (base .irq)).cpsr = true ∧ (13#4 ≠ 15#4) ∧
    (regs [(13#4, 0x03000000#32)] (base .irq)).bus.QuietFor (regsOf ((1#15).setWidth 16) ++ [15#4]).length ∧
    (regs [(13#4, 0x03000000#32)] (base .irq)).bus.CalmBlock
      (listStart false true ((regs [(13#4, 0x03000000#32)] (base .irq)).reg 13#4) (regsOf ((1#15).setWidth 16) ++ [15#4]))
      (regsOf ((1#15).setWidth 16) ++ [15#4]).length ∧
    (saved .irq 0x1F#32 (base .irq)).spsrOf .irq = some (Psr.ofWord 0x1F#32) ∧
    (Psr.ofWord 0x1F#32).restore = some Cpsr.skipBios ∧ Psr.zero.restore = none ∧ (base .usr).cpsr.mode = .usr := by
  refine ⟨rfl, by decide, reset_quiet _, ?_, rfl, rfl, rfl, rfl⟩
  exact reset_calm_block

theorem witness_ArmBranches : Cond.passes .mi (flags true false false false (base .usr)).cpsr = true := rfl

theorem witness_ExceptionsAreTaken : Cond.passes .al (base .usr).cpsr = true := rfl

theorem witness_UnallocatedSpacesFault :
    Cond.passes .al (base .usr).cpsr = true ∧ Cond.passes .eq (base .usr).cpsr = false := by decide

/-- Both outcomes of B<cond>. -/
theorem witness_ThumbBranches :
    Cond.passes .eq (flags false true false false (base .usr)).cpsr = true ∧ Cond.passes .eq (base .usr).cpsr = false := by
  decide

theorem witness_ThumbHiRegisters : (true = true ∨ false = true) ∧ (false = true ∨ true = true) := by decide

theorem witness_ThumbLoads :
    (regs [(1#4, 0x03000000#32)] (base .usr)).bus.QuietFor 1 ∧
    (regs [(1#4, 0x03000000#32)] (base .usr)).bus.Calm ((regs [(1#4, 0x03000000#32)] (base .usr)).reg 1#4) .word ∧
    (regs [(1#4, 0x03000000#32)] (base .usr)).bus.Calm ((regs [(1#4, 0x03000000#32)] (base .usr)).reg 1#4) .byte :=
  ⟨reset_quiet _, reset_calm.1, reset_calm.2⟩

theorem witness_ThumbStores :
    (regs [(1#4, 0x03000000#32)] (base .usr)).bus.QuietFor 1 ∧
    (regs [(1#4, 0x03000000#32)] (base .usr)).bus.Silent ((regs [(1#4, 0x03000000#32)] (base .usr)).reg 1#4) .byte :=
  ⟨reset_quiet _, reset_silent.2⟩

/-- A list of one low register and LR from SP = 0x03000008, and of one and R15 from SP = 0x03000000. -/
theorem witness_ThumbStackTransfers :
    stackList true 14#4 0x10#8 ≠ [] ∧ stackList true 15#4 0x10#8 ≠ [] ∧
    (regs [(13#4, 0x03000008#32)] (base .usr)).bus.QuietFor (stackList true 14#4 0x10#8).length ∧
    (regs [(13#4, 0x03000008#32)] (base .usr)).bus.SilentBlock
      ((regs [(13#4, 0x03000008#32)] (base .usr)).reg 13#4 - BitVec.ofNat 32 (4 * (stackList true 14#4 0x10#8).length))
      (stackList true 14#4 0x10#8).length ∧
    (regs [(13#4, 0x03000000#32)] (base .usr)).bus.QuietFor (stackList true 15#4 0x10#8).length ∧
    (regs [(13#4, 0x03000000#32)] (base .usr)).bus.CalmBlock ((regs [(13#4, 0x03000000#32)] (base .usr)).reg 13#4)
      (stackList true 15#4 0x10#8).length := by
  refine ⟨by decide, by decide, reset_quiet _, ?_, reset_quiet _, ?_⟩
  · exact reset_silent_block
  · exact reset_calm_block

/-- A list of two registers, the base at 0x03000000. -/
theorem witness_ThumbBlockTransfers :
    (regs [(0#4, 0x03000000#32)] (base .usr)).bus.QuietFor (moved (lowRegsOf 6#8)).length ∧
    (regs [(0#4, 0x03000000#32)] (base .usr)).bus.SilentBlock ((regs [(0#4, 0x03000000#32)] (base .usr)).reg 0#4)
      (moved (lowRegsOf 6#8)).length ∧
    (regs [(0#4, 0x03000000#32)] (base .usr)).bus.CalmBlock ((regs [(0#4, 0x03000000#32)] (base .usr)).reg 0#4)
      (moved (lowRegsOf 6#8)).length := by
  refine ⟨reset_quiet _, ?_, ?_⟩
  · exact reset_silent_block
  · exact reset_calm_block

/-- An ARM and a Thumb word, the line clear, and the line asserted but masked. -/
theorem witness_StepRunsDecodedInstruction :
    State.reset.faulted = none ∧ State.reset.bus.halted = false ∧ State.reset.bus.irqLine = false ∧
    State.reset.cpsr.i = true ∧
    decodeBytes false (Code.arm 0xE3A00005#32).bytes = .ok (.movImm .al false 0#4 0#4 5#8, []) ∧
    decodeBytes true (Code.thumb 0x2005#16).bytes = .ok (.tMovImm8 0#3 5#8, []) := ⟨rfl, rfl, rfl, rfl, rfl, rfl⟩

theorem witness_RefillFetches :
    State.reset.flow = none ∧ (State.reset.branch 0x08000000#32).flow = some 0x08000000#32 := by decide

/-- The line unmasked, and masked. -/
theorem witness_InterruptIsTaken :
    (withLine (base .sys)).faulted = none ∧ (withLine (base .sys)).bus.irqLine = true ∧ (withLine (base .sys)).cpsr.i = false ∧
    (withLine State.reset).bus.irqLine = true ∧ (withLine State.reset).cpsr.i = true := by decide

/-- Faulted; halted with the line clear; halted with the line asserted. -/
theorem witness_HaltedStep :
    (State.reset.afterFault .conditionNever).faulted = some .conditionNever ∧ (withHalt (base .sys)).faulted = none ∧
    (withHalt (base .sys)).bus.halted = true ∧ (withHalt (base .sys)).bus.irqLine = false ∧
    (withHalt (base .sys)).bus.Quiet (withHalt (base .sys)).bus.params.haltStepCycles ∧
    (withHalt (withLine (base .sys))).bus.halted = true ∧ (withHalt (withLine (base .sys))).bus.irqLine = true :=
  ⟨rfl, rfl, rfl, rfl, reset_quiet _, rfl, rfl⟩

/-- A due event, and none; an event that an `Advance` makes due; an `Advance` that ends. -/
theorem witness_EarliestDueEventFires :
    earliestDue 5 [⟨5, 2, 0, 0, 1, false⟩] = some ⟨5, 2, 0, 0, 1, false⟩ ∧ earliestDue 4 [⟨5, 2, 0, 0, 1, false⟩] = none ∧
    Bus.reset.Quiet 9 ∧
    earliestDue (({ Bus.reset with queue := [⟨5, 2, 0, 0, 1, false⟩] } : Bus).ts + 5) [⟨5, 2, 0, 0, 1, false⟩] =
      some ⟨5, 2, 0, 0, 1, false⟩ ∧
    Bus.reset.advance 9 = .next { Bus.reset with ts := Bus.reset.ts + 9 } := ⟨by decide, by decide, reset_quiet _, by decide, rfl⟩

/-- In User mode, an instruction that stays there and one that takes an exception. -/
theorem witness_UserModeIsConfined :
    (base .usr).cpsr.mode = .usr ∧ exec (.b .al 2#24) (base .usr) = .next ((base .usr).branch 0x10#32) ∧
    exec (.swi .al 0#24) (base .usr) = .next (entered (base .usr) .svc 0x8#32 4#32) := ⟨rfl, rfl, rfl⟩

/-- A branch-exchange to Thumb, and an instruction without a flow report. -/
theorem witness_ExecutionFrame :
    exec (.bx .al 0#4) (regs [(0#4, 0x101#32)] (base .sys)) =
      .next (({ regs [(0#4, 0x101#32)] (base .sys) with
        cpsr := { (regs [(0#4, 0x101#32)] (base .sys)).cpsr with t := true } } : State).branch 0x100#32) ∧
    exec (.tMovImm8 0#3 5#8) (base .sys) = .next ((base .sys).setReg 0#4 5#32) ∧
    transfers (.bx .al 0#4) = false ∧ multiplies (.bx .al 0#4) = false ∧ transfers (.tMovImm8 0#3 5#8) = false :=
  ⟨rfl, rfl, rfl, rfl, rfl⟩

/-- A state that meets the invariant and takes a step. -/
theorem witness_StepKeepsInvariant :
    (State.reset.withFetchWord 32 0xE3A00005).Inv ∧
    (match step (State.reset.withFetchWord 32 0xE3A00005) with | .next t => some (t.reg 0#4) | _ => none) = some 5#32 := by
  refine ⟨⟨⟨rfl, rfl, rfl, rfl, List.Pairwise.nil, (fun e he => by cases he), by decide⟩, rfl, rfl,
    by decide, (fun h => by cases h)⟩, by decide⟩

end Sys2Proof.Tests
end

section
/-! The banks, the status words, R15, the refill and the reset (R25 to R28, R35, R37, R42, R43, R57). -/

namespace Sys2Proof.Machine

/-! ## Banks -/

/-- R0 to R14 are the indices below 15 (R20). -/
theorem toNat_lt_of_ne_pc {r : Reg} (h : r ≠ 15#4) : r.toNat < 15 := by
  have hr : r.toNat ≠ 15 := fun e => h (BitVec.eq_of_toNat_eq e)
  have hlt := r.isLt
  omega

/-- A shared index names the register of that number (R25). -/
theorem physIndex_val_shared {m : Mode} {r : Reg} (h : r ≠ 15#4) (hs : r.toNat < m.firstPrivate) :
    (physIndex m r).val = r.toNat := by
  have hlt := toNat_lt_of_ne_pc h
  unfold physIndex
  rw [if_neg (Nat.not_le.mpr hs)]
  exact Nat.mod_eq_of_lt (by omega)

/-- A register that two modes share is one (R25). -/
theorem physIndex_eq_of_shared {m1 m2 : Mode} {r : Reg} (h : r ≠ 15#4) (hs1 : r.toNat < m1.firstPrivate)
    (hs2 : r.toNat < m2.firstPrivate) : physIndex m1 r = physIndex m2 r :=
  Fin.ext ((physIndex_val_shared h hs1).trans (physIndex_val_shared h hs2).symm)

/-- An index that a mode has for itself names a register of the mode's bank, none of User mode's (R25). -/
theorem physIndex_val_own {m : Mode} {r : Reg} (h : r ≠ 15#4) (ho : m.firstPrivate ≤ r.toNat) :
    (physIndex m r).val = m.bankStart + (r.toNat - m.firstPrivate) ∧ 15 ≤ m.bankStart := by
  have hlt := toNat_lt_of_ne_pc h
  have hb : 15 ≤ m.bankStart ∧ m.bankStart + (r.toNat - m.firstPrivate) < 30 := by
    cases m <;> simp only [Mode.firstPrivate, Mode.bankStart] at ho ⊢ <;> omega
  unfold physIndex
  rw [if_pos ho]
  exact ⟨Nat.mod_eq_of_lt hb.2, hb.1⟩

/-- Two banks have a register in common only if they are one bank, and then at one index (R25). -/
theorem physIndex_own_eq {m1 m2 : Mode} {r1 r2 : Reg} (h1 : r1 ≠ 15#4) (h2 : r2 ≠ 15#4) (ho1 : m1.firstPrivate ≤ r1.toNat)
    (ho2 : m2.firstPrivate ≤ r2.toNat) (h : physIndex m1 r1 = physIndex m2 r2) : r1 = r2 ∧ m1 = m2 := by
  have hlt1 := toNat_lt_of_ne_pc h1
  have hlt2 := toNat_lt_of_ne_pc h2
  rw [Fin.ext_iff, (physIndex_val_own h1 ho1).1, (physIndex_val_own h2 ho2).1] at h
  rw [← BitVec.toNat_inj]
  cases m1 <;> cases m2 <;>
    simp only [Mode.firstPrivate, Mode.bankStart, reduceCtorEq, and_true, and_false] at h ho1 ho2 ⊢ <;> omega

/-- An index that a mode has for itself never names a shared register (R25). -/
theorem physIndex_own_ne_shared {m1 m2 : Mode} {r1 r2 : Reg} (h1 : r1 ≠ 15#4) (h2 : r2 ≠ 15#4)
    (ho : m1.firstPrivate ≤ r1.toNat) (hs : r2.toNat < m2.firstPrivate) : physIndex m1 r1 ≠ physIndex m2 r2 := by
  intro h
  obtain ⟨hv, hb⟩ := physIndex_val_own h1 ho
  rw [Fin.ext_iff, hv, physIndex_val_shared h2 hs] at h
  have hlt := toNat_lt_of_ne_pc h2
  omega

theorem firstPrivate_of_usr_sys {m : Mode} (h : m = .usr ∨ m = .sys) : m.firstPrivate = 16 := by
  obtain rfl | rfl := h <;> rfl

/-- Two modes name one register: a shared one, or one of the bank that both have (R25). -/
theorem physIndex_eq_iff {m1 m2 : Mode} {r1 r2 : Reg} (h1 : r1 ≠ 15#4) (h2 : r2 ≠ 15#4) :
    physIndex m1 r1 = physIndex m2 r2 ↔
      r1 = r2 ∧ ((r1.toNat < m1.firstPrivate ∧ r1.toNat < m2.firstPrivate) ∨ m1 = m2 ∨
        ((m1 = .usr ∨ m1 = .sys) ∧ (m2 = .usr ∨ m2 = .sys))) := by
  constructor
  · intro h
    by_cases hs1 : r1.toNat < m1.firstPrivate <;> by_cases hs2 : r2.toNat < m2.firstPrivate
    · rw [Fin.ext_iff, physIndex_val_shared h1 hs1, physIndex_val_shared h2 hs2, BitVec.toNat_inj] at h
      exact ⟨h, .inl ⟨hs1, h ▸ hs2⟩⟩
    · exact absurd h.symm (physIndex_own_ne_shared h2 h1 (Nat.not_lt.mp hs2) hs1)
    · exact absurd h (physIndex_own_ne_shared h1 h2 (Nat.not_lt.mp hs1) hs2)
    · obtain ⟨hr, hm⟩ := physIndex_own_eq h1 h2 (Nat.not_lt.mp hs1) (Nat.not_lt.mp hs2) h
      exact ⟨hr, .inr (.inl hm)⟩
  · rintro ⟨rfl, ⟨hs1, hs2⟩ | rfl | ⟨hu1, hu2⟩⟩
    · exact physIndex_eq_of_shared h1 hs1 hs2
    · rfl
    · exact physIndex_eq_of_shared h1 (firstPrivate_of_usr_sys hu1 ▸ r1.isLt) (firstPrivate_of_usr_sys hu2 ▸ r1.isLt)

/-- Settles O10: the banks of two modes overlap where neither register is the mode's own. -/
theorem bankSharing : Obligations.BankSharing :=
  ⟨⟨rfl, rfl, rfl, rfl, rfl, rfl, rfl⟩, fun _ _ _ _ h1 h2 => physIndex_eq_iff h1 h2⟩

/-- Every mode but FIQ shares R8 to R12 (R25). -/
theorem firstPrivate_of_ne_fiq {m : Mode} (h : m ≠ .fiq) : 13 ≤ m.firstPrivate := by
  cases m
  case fiq => exact absurd rfl h
  all_goals decide

/-- FIQ's R8 to R14 are its own (R25). -/
theorem physIndex_fiq_ne {m : Mode} {r : Reg} (hm : m ≠ .fiq) (h8 : 8 ≤ r.toNat) (hr : r ≠ 15#4) :
    physIndex .fiq r ≠ physIndex m r := by
  by_cases hs : r.toNat < m.firstPrivate
  · exact physIndex_own_ne_shared hr hr h8 hs
  · exact fun h => hm (physIndex_own_eq (m1 := .fiq) hr hr h8 (Nat.not_lt.mp hs) h).2.symm

/-- A write in one mode is not seen in another that names another register. -/
theorem State.xm_setXm_of_ne (s : State) {m m' : Mode} {r : Reg} (v : Word) (hr : r ≠ 15#4)
    (h : physIndex m r ≠ physIndex m' r) : (s.setXm m r v).xm m' r = s.xm m' r := by
  rw [s.xm_setXm m m' v hr hr, if_neg h]

/-- Settles O11: FIQ's registers are its own, the other modes share theirs. -/
theorem bankIsolation : Obligations.BankIsolation := by
  intro s v r m m' h8 h12 hm hm'
  have hr : r ≠ 15#4 := by rintro rfl; exact absurd h12 (by decide)
  have h13 := physIndex_fiq_ne hm (r := 13#4) (by decide) (by decide)
  have hshared : physIndex m r = physIndex m' r := by
    have hlt := firstPrivate_of_ne_fiq hm
    have hlt' := firstPrivate_of_ne_fiq hm'
    exact physIndex_eq_of_shared hr (by omega) (by omega)
  have hown := physIndex_fiq_ne hm h8 hr
  refine ⟨s.xm_setXm_of_ne v (by decide) h13, s.xm_setXm_of_ne v (by decide) h13.symm, ?_, s.xm_setXm_of_ne v hr hown,
    s.xm_setXm_of_ne v hr hown.symm⟩
  rw [s.xm_setXm m m' v hr hr, if_pos hshared]

/-! ## R15 -/

/-- Settles O12: R15 is the cursor, two widths past the executing instruction. -/
theorem programCounterReads : Obligations.ProgramCounterReads := by
  intro s m
  refine ⟨?_, rfl, rfl⟩
  have hc : s.xm m 15#4 = s.pipe.cursor := rfl
  have hw : BitVec.ofNat 32 (2 * widthBytes s.width) = if s.cpsr.t then 4#32 else 8#32 := by
    unfold State.width
    cases s.cpsr.t <;> rfl
  rw [hc, State.here, hw, BitVec.sub_add_cancel]

/-! ## Status words -/

/-- The layout of a status word: the mode in bits 4:0, T, F and I in 5 to 7, nothing in 26:8, Q, V, C, Z and N in 27 to 31
(R30, R37). -/
theorem Psr.toWord_getLsbD (p : Psr) {i : Nat} (hi : i < 32) :
    p.toWord.getLsbD i =
      if i < 5 then p.m.getLsbD i
      else if i = 5 then p.t
      else if i = 6 then p.f
      else if i = 7 then p.i
      else if i < 27 then false
      else if i = 27 then p.q
      else if i = 28 then p.v
      else if i = 29 then p.c
      else if i = 30 then p.z
      else p.n := by
  simp only [Psr.toWord, flagBit, BitVec.getLsbD_append, BitVec.getLsbD_ofBool, BitVec.getLsbD_zero]
  interval_cases i <;> simp

theorem Psr.toWord_mode (p : Psr) : p.toWord.extractLsb' 0 5 = p.m := by
  apply BitVec.eq_of_getLsbD_eq
  intro i hi
  rw [BitVec.getLsbD_extractLsb', Nat.zero_add, p.toWord_getLsbD (by omega), if_pos hi]
  simp [hi]

theorem Psr.toWord_reserved (p : Psr) : p.toWord.extractLsb' 8 19 = 0#19 := by
  apply BitVec.eq_of_getLsbD_eq
  intro i hi
  rw [BitVec.getLsbD_extractLsb', p.toWord_getLsbD (by omega), if_neg (by omega), if_neg (by omega), if_neg (by omega),
    if_neg (by omega), if_pos (by omega)]
  simp

theorem Psr.ofWord_toWord (p : Psr) : Psr.ofWord p.toWord = p := by
  simp only [Psr.ofWord, Psr.toWord_mode, Psr.toWord_getLsbD, Nat.reduceLT, Nat.reduceEqDiff, reduceIte]

theorem Psr.toWord_ofWord (w : Word) : (Psr.ofWord w).toWord = w &&& 0xF80000FF#32 := by
  apply BitVec.eq_of_getLsbD_eq
  intro i hi
  rw [BitVec.getLsbD_and, Psr.toWord_getLsbD _ hi]
  interval_cases i <;> simp [Psr.ofWord]

/-- A saved CPSR names a mode, so that its restore gives it back (R36). -/
theorem Cpsr.restore_save (p : Cpsr) : p.save.restore = some p := by
  unfold Psr.restore
  rw [show p.save.m = p.mode.bits from rfl, (Mode.ofBits_iff _ _).mpr rfl]
  rfl

/-- Settles O13: the layout of a status word, bit by bit, and the mode codes. -/
theorem statusWordLayout : Obligations.StatusWordLayout := by
  refine ⟨fun p => ⟨p.ofWord_toWord, ?_, ?_, ?_, ?_, ?_, p.toWord_reserved, ?_, ?_, ?_, p.toWord_mode⟩, Psr.toWord_ofWord,
    ⟨rfl, rfl, rfl, rfl, rfl, rfl, rfl⟩, Mode.ofBits_iff, Cpsr.restore_save⟩
  all_goals exact p.toWord_getLsbD (by decide)

/-! ## The refill -/

/-- A fetch is one code read at the cursor, a fault of which finds the slots shifted (R42, R155). -/
theorem State.fetch_eq (s : State) (cont : Bool) :
    s.fetch cont =
      ({ s with pipe := { s.pipe with decoded := s.pipe.fetched } } : State).onBus
        (s.bus.read .code s.pipe.cursor (if s.cpsr.t then .half else .word) cont) fun x =>
          .next { s with
            bus := x.2
            pipe :=
              { fetched := x.1, decoded := s.pipe.fetched, cursor := s.pipe.cursor + (if s.cpsr.t then 2#32 else 4#32) } } := by
  have hn : BitVec.ofNat 32 (widthBytes s.width) = if s.cpsr.t then 2#32 else 4#32 := by
    unfold State.width
    cases s.cpsr.t <;> rfl
  unfold State.fetch addrPlus
  rw [hn]
  rfl

/-- An access that does not continue another is never sequential (R103). -/
theorem Bus.sequential_false (b : Bus) (k : AccessKind) (x : Word) : b.sequential k x false = false := by
  unfold Bus.sequential
  split <;> rfl

theorem State.refill_of_none {s : State} (h : s.flow = none) : s.refill = s.fetch true := by
  unfold State.refill
  rw [h]

theorem State.refill_of_some {s : State} {target : Word} (h : s.flow = some target) :
    s.refill = ({ s with flow := none } : State).bubble target := by
  unfold State.refill
  rw [h]

/-- Settles O51: the refill is one fetch, or the two of a bubble. -/
theorem refillFetches : Obligations.RefillFetches := by
  intro s
  refine ⟨fun hq => ?_, fun b x => b.sequential_false .code x, fun target hq => ?_⟩
  · rw [State.refill_of_none hq]
    exact s.fetch_eq true
  · rw [State.refill_of_some hq, State.bubble, State.fetch_eq, State.andThen_onBus]
    simp only [andThen_of_next, State.fetch_eq]
    rfl

/-! ## Reset -/

/-- Settles O60: the bubble of the reset state's own bus reads the boot ROM's first two words, one cycle each. -/
theorem resetState : Obligations.ResetState := by
  refine ⟨?_, rfl, rfl, rfl, rfl, rfl, rfl, rfl, rfl, rfl, rfl, rfl, rfl, rfl, rfl, rfl⟩
  rfl

end Sys2Proof.Machine
end

section
/-! What an instruction may change: one relation that every meaning but an exception entry meets, and from it the frame
of `Execute` and the confinement of User mode (R34, R40, R156, R408). -/

namespace Sys2Proof.Machine

open Sys2Proof.Claims

/-! ## The relation -/

/-- The control bits of two status registers agree: the mode, both masks and the encoding (R30). -/
structure Cpsr.SameControl (p q : Cpsr) : Prop where
  mode : q.mode = p.mode
  irq : q.i = p.i
  fiq : q.f = p.f
  thumb : q.t = p.t

/-- What User mode may not change: the mode, the masks, the saved status registers and every register that another mode
has for itself (R40, R408). -/
structure State.Confined (s t : State) : Prop where
  mode : t.cpsr.mode = s.cpsr.mode
  irq : t.cpsr.i = s.cpsr.i
  fiq : t.cpsr.f = s.cpsr.f
  spsrs : t.spsrs = s.spsrs
  banked : ∀ k : Fin 30, 15 ≤ k.val → t.gpr[k] = s.gpr[k]

/-- What an instruction that takes no exception may do: `acc` allows it to access memory, `mul` to draw a flag; in User
mode it is confined. -/
structure State.Effect (acc mul : Bool) (s t : State) : Prop where
  keeps : s.Keeps t
  bus : acc = false → t.bus = s.bus
  draws : mul = false → t.draws = s.draws
  user : s.cpsr.mode = .usr → s.Confined t

/-- Every next state that `r` may be is an effect of `s`. -/
def State.Admits (acc mul : Bool) (s : State) (r : Result) : Prop := ∀ t, r = .next t → s.Effect acc mul t

variable {acc mul : Bool}

theorem Cpsr.SameControl.refl (p : Cpsr) : p.SameControl p := ⟨rfl, rfl, rfl, rfl⟩

theorem State.Confined.refl (s : State) : s.Confined s := ⟨rfl, rfl, rfl, rfl, fun _ _ => rfl⟩

theorem State.Confined.trans {s t u : State} (h1 : s.Confined t) (h2 : t.Confined u) : s.Confined u :=
  ⟨h2.mode.trans h1.mode, h2.irq.trans h1.irq, h2.fiq.trans h1.fiq, h2.spsrs.trans h1.spsrs,
    fun k hk => (h2.banked k hk).trans (h1.banked k hk)⟩

theorem State.Effect.refl (s : State) : s.Effect acc mul s := ⟨.refl s, fun _ => rfl, fun _ => rfl, fun _ => .refl s⟩

theorem State.Effect.trans {s t u : State} (h1 : s.Effect acc mul t) (h2 : t.Effect acc mul u) : s.Effect acc mul u where
  keeps := h1.keeps.trans h2.keeps
  bus h := (h2.bus h).trans (h1.bus h)
  draws h := (h2.draws h).trans (h1.draws h)
  user h := (h1.user h).trans (h2.user ((h1.user h).mode.trans h))

/-! ## The updates of the state -/

theorem State.branch_effect (s : State) (a : Word) : s.Effect acc mul (s.branch a) :=
  ⟨s.branch_keeps a, fun _ => rfl, fun _ => rfl, fun _ => ⟨rfl, rfl, rfl, rfl, fun _ _ => rfl⟩⟩

/-- A register write through User mode's bank leaves the registers of the other banks. -/
theorem State.setXm_confined (s : State) (r : Reg) (v : Word) : s.Confined (s.setXm .usr r v) := by
  by_cases hr : r = 15#4
  · rw [hr, s.setXm_pc]
    exact ⟨rfl, rfl, rfl, rfl, fun _ _ => rfl⟩
  · refine ⟨by simp, by simp, by simp, by simp, fun k hk => ?_⟩
    have hne : (physIndex .usr r).val ≠ k.val := by
      rw [physIndex_val_shared (m := .usr) hr r.isLt]
      exact Nat.ne_of_lt (Nat.lt_of_lt_of_le (toNat_lt_of_ne_pc hr) hk)
    rw [s.setXm_of_ne _ r v hr]
    exact Vector.getElem_set_ne (physIndex .usr r).isLt k.isLt hne

theorem State.setXm_effect (s : State) {m : Mode} (r : Reg) (v : Word) (hm : s.cpsr.mode = .usr → m = .usr) :
    s.Effect acc mul (s.setXm m r v) :=
  ⟨s.setXm_keeps m r v, fun _ => s.setXm_bus m r v, fun _ => s.setXm_draws m r v, fun h => hm h ▸ s.setXm_confined r v⟩

theorem State.setReg_effect (s : State) (r : Reg) (v : Word) : s.Effect acc mul (s.setReg r v) := s.setXm_effect r v id

/-- A change of the flags alone. -/
theorem State.flags_effect (s : State) {p : Cpsr} (h : s.cpsr.SameControl p) : s.Effect acc mul { s with cpsr := p } :=
  ⟨.of_eq rfl rfl rfl rfl h.thumb, fun _ => rfl, fun _ => rfl, fun _ => ⟨h.mode, h.irq, h.fiq, rfl, fun _ _ => rfl⟩⟩

theorem State.setFlags_effect (s : State) (sf : Bool) {p : Cpsr} (h : s.cpsr.SameControl p) :
    s.Effect acc mul (s.setFlags sf p) := by
  cases sf
  · exact .refl s
  · exact s.flags_effect h

theorem State.setMulFlags_effect (s : State) (r : Word) : s.Effect acc true (s.setMulFlags r) :=
  ⟨s.setMulFlags_keeps r, fun _ => rfl, nofun, fun _ => ⟨rfl, rfl, rfl, rfl, fun _ _ => rfl⟩⟩

theorem State.setMulLongFlags_effect (s : State) (r : BitVec 64) : s.Effect acc true (s.setMulLongFlags r) :=
  ⟨s.setMulLongFlags_keeps r, fun _ => rfl, nofun, fun _ => ⟨rfl, rfl, rfl, rfl, fun _ _ => rfl⟩⟩

/-- A branch-exchange sets the encoding and reports a flow (R283). -/
theorem State.branchExchange_eq (s : State) (a : Word) : ∃ t x, s.branchExchange a = (s.setThumb t).branch x := by
  unfold State.branchExchange
  split
  · exact ⟨true, _, rfl⟩
  · exact ⟨false, _, rfl⟩

theorem State.branchExchange_effect (s : State) (a : Word) : s.Effect acc mul (s.branchExchange a) := by
  have hk := s.branchExchange_keeps a
  obtain ⟨t, x, h⟩ := s.branchExchange_eq a
  rw [h] at hk ⊢
  exact ⟨hk, fun _ => rfl, fun _ => rfl, fun _ => ⟨rfl, rfl, rfl, rfl, fun _ _ => rfl⟩⟩

theorem State.writeBack_effect (s : State) (t : Transfer) (rn : Reg) : s.Effect acc mul (s.writeBack t rn) := by
  unfold State.writeBack
  split
  · exact s.setReg_effect rn _
  · exact .refl s

theorem State.blockWriteBack_effect (s : State) (w : Bool) (rn : Reg) (regs : List Reg) (nb : Word) :
    s.Effect acc mul (s.blockWriteBack w rn regs nb) := by
  unfold State.blockWriteBack
  split
  · exact s.setReg_effect rn _
  · exact .refl s

theorem loadRegs_effect {m : Mode} (mask : Word) (s : State) (regs : List Reg) (vals : List Word)
    (hm : s.cpsr.mode = .usr → m = .usr) : s.Effect acc mul (loadRegs m mask s regs vals) := by
  induction regs generalizing s vals with
  | nil => exact .refl s
  | cons r regs ih =>
    cases vals with
    | nil => exact .refl s
    | cons v vals => exact (s.setXm_effect r _ hm).trans (ih _ vals (by rwa [State.setXm_cpsr]))

theorem finishLoad_effect (s : State) (t : Transfer) (rn rd : Reg) (v : Word) :
    s.Effect acc mul (finishLoad s t rn rd v) := by
  unfold finishLoad
  split
  · exact s.setReg_effect rd v
  · exact (s.writeBack_effect t rn).trans (State.setReg_effect _ rd v)

theorem writeHi_effect (s : State) (d : Reg) (r : Word) : s.Effect acc mul (writeHi s d r) := by
  unfold writeHi
  split
  · exact s.branch_effect _
  · exact s.setReg_effect d r

theorem writeMul_effect (s : State) (sf : Bool) (rd : Reg) (r : Word) : s.Effect acc true (writeMul s sf rd r) := by
  cases sf
  · exact s.setReg_effect rd r
  · exact (s.setReg_effect rd r).trans (State.setMulFlags_effect _ r)

theorem writeMulLong_effect (s : State) (sf : Bool) (rdHi rdLo : Reg) (r : BitVec 64) :
    s.Effect acc true (writeMulLong s sf rdHi rdLo r) := by
  have h : s.Effect acc true ((s.setReg rdLo (r.extractLsb' 0 32)).setReg rdHi (r.extractLsb' 32 32)) :=
    (s.setReg_effect rdLo _).trans (State.setReg_effect _ rdHi _)
  cases sf
  · exact h
  · exact h.trans (State.setMulLongFlags_effect _ r)

/-! ## Answers -/

theorem State.Effect.admits {s t : State} (h : s.Effect acc mul t) : s.Admits acc mul (.next t) := by
  rintro _ ⟨⟩
  exact h

theorem State.admits_fault (s : State) (f : Fault) : s.Admits acc mul (.fault f) := by rintro _ ⟨⟩

/-- A check that faults or lets the instruction run. -/
theorem State.Admits.check {s : State} {c : Prop} [Decidable c] {f : Fault} {k : Result} (h : s.Admits acc mul k) :
    s.Admits acc mul (if c then .fault f else k) := by
  split
  · exact s.admits_fault f
  · exact h

theorem State.Admits.guarded {s : State} {c : Cond} {k : State → Result} (h : s.Admits acc mul (k s)) :
    s.Admits acc mul (guarded c s k) := by
  intro t ht
  obtain rfl | ht := guarded_next ht
  · exact .refl _
  · exact h t ht

theorem State.Admits.andThen {s : State} {r : Result} {k : State → Result} (hr : s.Admits acc mul r)
    (hk : ∀ u : State, u.Admits acc mul (k u)) : s.Admits acc mul (andThen r k) := by
  intro t ht
  obtain ⟨u, hu, ht⟩ := andThen_next ht
  exact (hr u hu).trans (hk u t ht)

/-- An answer that goes on from the state a load leaves. -/
theorem State.Admits.andThen_load {α : Type} {s : State} {r : Host.Outcome (α × State) Fault Refusal}
    {k : α × State → Result} (hr : ∀ x, r = .next x → s.Effect acc mul x.2)
    (hk : ∀ x, r = .next x → x.2.Admits acc mul (k x)) :
    s.Admits acc mul (Machine.andThen r k) := by
  intro t ht
  obtain ⟨x, hx, ht⟩ := andThen_next ht
  exact (hr x hx).trans (hk x hx t ht)

/-! ## Memory -/

/-- A change of the bus alone, by an instruction that may access memory. -/
theorem State.Keeps.withBus_effect {s : State} {b : Bus} (h : s.Keeps (s.withBus b)) : s.Effect true mul (s.withBus b) :=
  ⟨h, nofun, fun _ => rfl, fun _ => ⟨rfl, rfl, rfl, rfl, fun _ _ => rfl⟩⟩

theorem State.memRead_effect {s : State} {a : Word} {w : Width} {block : Bool} {x : Word × State}
    (h : s.memRead a w block = .next x) : s.Effect true mul x.2 := by
  have hk := State.memRead_keeps h
  obtain ⟨b, -, hx⟩ := State.memRead_next h
  rw [hx] at hk ⊢
  exact hk.withBus_effect

theorem State.memWrite_admits (s : State) (a : Word) (w : Width) (v : Word) (block : Bool) :
    s.Admits true mul (s.memWrite a w v block) := by
  intro t h
  have hk := State.memWrite_keeps h
  obtain ⟨b, -, rfl⟩ := State.memWrite_next h
  exact hk.withBus_effect

theorem State.swap_effect {s : State} {a : Word} {w : Width} {v : Word} {x : Word × State} (h : s.swap a w v = .next x) :
    s.Effect true mul x.2 := by
  have hk := State.swap_keeps h
  obtain ⟨y, -, hy⟩ := State.onBus_next h
  cases hy
  exact hk.withBus_effect

/-- A load that is one data read whose value it shapes. -/
def LoadReads (load : State → Word → Host.Outcome (Word × State) Fault Refusal) : Prop :=
  ∀ (s : State) (a : Word) (x : Word × State), load s a = .next x → ∃ w v, s.memRead a w false = .next (v, x.2)

theorem loadByte_reads : LoadReads State.loadByte := fun _ _ x h => ⟨.byte, x.1, h⟩

theorem loadAligned_reads : LoadReads State.loadAligned := fun _ _ x h => ⟨.word, x.1, h⟩

/-- A data read and a shape for its value. -/
theorem loadShaped_reads {s : State} {a : Word} {w : Width} {shape : Word → Word} {x : Word × State}
    (h : andThen (s.memRead a w false) (fun y => .next (shape y.1, y.2)) = (.next x : Host.Outcome _ Fault Refusal)) :
    ∃ w v, s.memRead a w false = .next (v, x.2) := by
  obtain ⟨y, hy, h⟩ := andThen_next h
  cases h
  exact ⟨w, y.1, hy⟩

theorem loadWord_reads : LoadReads State.loadWord := fun _ a _ h =>
  loadShaped_reads (shape := fun v => v.rotateRight (8 * (a.toNat % 4))) h

theorem loadSignedByte_reads : LoadReads State.loadSignedByte := fun _ _ _ h =>
  loadShaped_reads (shape := fun v => (v.setWidth 8).signExtend 32) h

theorem loadHalf_reads : LoadReads State.loadHalf := fun _ a _ h =>
  loadShaped_reads (shape := fun v => if a.getLsbD 0 then v.rotateRight 8 else v) h

theorem loadSignedHalf_reads : LoadReads State.loadSignedHalf := by
  intro s a x h
  unfold State.loadSignedHalf at h
  split at h
  · exact loadSignedByte_reads s a x h
  · exact loadShaped_reads (shape := fun v => (v.setWidth 16).signExtend 32) h

theorem LoadReads.effect {load : State → Word → Host.Outcome (Word × State) Fault Refusal} (hl : LoadReads load) {s : State}
    {a : Word} {x : Word × State} (h : load s a = .next x) : s.Effect true mul x.2 := by
  obtain ⟨w, v, hr⟩ := hl s a x h
  exact State.memRead_effect (x := (v, x.2)) hr

/-- A block load changes the bus only. -/
theorem loadList_withBus {s : State} {regs : List Reg} {a : Word} {block : Bool} {x : List Word × State}
    (h : loadList s regs a block = .next x) : ∃ b, x.2 = s.withBus b := by
  induction regs generalizing s a block x with
  | nil => cases h; exact ⟨s.bus, rfl⟩
  | cons r regs ih =>
    obtain ⟨y, hy, h⟩ := andThen_next h
    obtain ⟨z, hz, h⟩ := andThen_next h
    cases h
    obtain ⟨b, -, hb⟩ := State.memRead_next hy
    obtain ⟨b', hb'⟩ := ih (x := z) hz
    exact ⟨b', by rw [hb', hb]; rfl⟩

theorem loadList_effect {s : State} {regs : List Reg} {a : Word} {block : Bool} {x : List Word × State}
    (h : loadList s regs a block = .next x) : s.Effect true mul x.2 := by
  have hk := loadList_keeps h
  obtain ⟨b, hb⟩ := loadList_withBus h
  rw [hb] at hk ⊢
  exact hk.withBus_effect

theorem loadEach_admits {m : Mode} (mask : Word) (s : State) (regs : List Reg) (a : Word) (block : Bool)
    (hm : s.cpsr.mode = .usr → m = .usr) : s.Admits true mul (loadEach m mask s regs a block) := by
  induction regs generalizing s a block with
  | nil => exact (State.Effect.refl s).admits
  | cons r regs ih =>
    refine .andThen_load (fun _ => State.memRead_effect) fun x hx t ht => ?_
    have hmode : x.2.cpsr.mode = .usr → m = .usr := by
      obtain ⟨b, -, hb⟩ := State.memRead_next hx
      rwa [hb]
    exact (State.setXm_effect _ r _ hmode).trans (ih _ _ _ (by rwa [State.setXm_cpsr]) t ht)

theorem storeList_admits (s : State) (vals : List Word) (a : Word) (block : Bool) :
    s.Admits true mul (storeList s vals a block) := by
  induction vals generalizing s a block with
  | nil => exact (State.Effect.refl s).admits
  | cons v vals ih => exact .andThen (s.memWrite_admits a .word v block) fun u => ih u _ _

/-! ## Status registers -/

/-- A restore of CPSR reports a flow, and in User mode there is none (R39). -/
theorem State.exceptionReturn_admits (s : State) (a : Word) : s.Admits acc mul (s.exceptionReturn a) := by
  intro t h
  have hk := State.exceptionReturn_keeps h
  obtain ⟨p, c, hp, -, rfl⟩ := State.exceptionReturn_next h
  exact ⟨hk, fun _ => rfl, fun _ => rfl, fun hu => by rw [hu] at hp; cases hp⟩

theorem Cpsr.writeFlagsByte_sameControl (p : Cpsr) (mask : BitVec 4) (v : Word) : p.SameControl (p.writeFlagsByte mask v) := by
  unfold Cpsr.writeFlagsByte
  split <;> exact ⟨rfl, rfl, rfl, rfl⟩

/-- MSR to CPSR writes the control byte in privileged modes only, and never the encoding (R221). -/
theorem State.writeCpsr_admits (s : State) (mask : BitVec 4) (v : Word) : s.Admits acc mul (s.writeCpsr mask v) := by
  have hf := s.cpsr.writeFlagsByte_sameControl mask v
  unfold State.writeCpsr
  split
  · rename_i hpriv
    have hm : s.cpsr.mode ≠ .usr := by simpa using (Bool.and_eq_true_iff.mp hpriv).2
    split
    · exact s.admits_fault _
    · split
      · exact State.Effect.admits ⟨.of_eq rfl rfl rfl rfl hf.thumb, fun _ => rfl, fun _ => rfl, fun h => absurd h hm⟩
      · exact s.admits_fault _
  · exact (s.flags_effect hf).admits

/-- MSR to the SPSR is a fault in User mode (R39). -/
theorem State.writeSpsr_admits (s : State) (mask : BitVec 4) (v : Word) : s.Admits acc mul (s.writeSpsr mask v) := by
  unfold State.writeSpsr
  split
  · exact s.admits_fault _
  · rename_i p hp
    exact State.Effect.admits ⟨s.setSpsr_keeps _ _, fun _ => s.setSpsr_bus _ _, fun _ => s.setSpsr_draws _ _,
      fun hu => by rw [hu] at hp; cases hp⟩

theorem execMrs_admits (c : Cond) (r : Bool) (rd : Reg) (s : State) : s.Admits acc mul (execMrs c r rd s) := by
  refine .guarded (.check ?_)
  split
  · split
    · exact s.admits_fault _
    · exact (s.setReg_effect rd _).admits
  · exact (s.setReg_effect rd _).admits

/-! ## Data processing -/

theorem writeDp_admits {s : State} (rd : Reg) (sf : Bool) {a : Alu} (h : s.cpsr.SameControl a.flags) :
    s.Admits acc mul (writeDp s rd sf a) := by
  unfold writeDp
  split
  · split
    · exact s.exceptionReturn_admits _
    · exact (s.branch_effect _).admits
  · exact ((s.setReg_effect rd _).trans (State.setFlags_effect _ sf (by rwa [State.setReg_cpsr]))).admits

theorem writeCompare_admits {s : State} (rd : Reg) {a : Alu} (h : s.cpsr.SameControl a.flags) :
    s.Admits acc mul (writeCompare s rd a) := .check (s.setFlags_effect true h).admits

theorem thumbResult_admits {s : State} (rd : LowReg) {a : Alu} (h : s.cpsr.SameControl a.flags) :
    s.Admits acc mul (thumbResult s rd a) :=
  ((s.setReg_effect rd.reg _).trans (State.setFlags_effect _ true (by rwa [State.setReg_cpsr]))).admits

theorem thumbFlags_admits {s : State} {a : Alu} (h : s.cpsr.SameControl a.flags) : s.Admits acc mul (thumbFlags s a) :=
  (s.setFlags_effect true h).admits

/-! ## Transfers -/

/-- What a single transfer does with its address, at any state, address and registers. -/
def TransferAdmits (mul : Bool) (op : State → Transfer → Reg → Reg → Result) : Prop :=
  ∀ (s : State) (t : Transfer) (rn rd : Reg), s.Admits true mul (op s t rn rd)

theorem opLdr_admits : TransferAdmits mul opLdr := fun _ t rn rd =>
  .andThen_load (fun _ => loadWord_reads.effect) fun x _ => (finishLoad_effect x.2 t rn rd _).admits

theorem opStr_admits : TransferAdmits mul opStr := fun s t rn _ =>
  .andThen (s.memWrite_admits _ _ _ _) fun u => (u.writeBack_effect t rn).admits

theorem opLoadNarrow_admits {load : State → Word → Host.Outcome (Word × State) Fault Refusal} (hl : LoadReads load) :
    TransferAdmits mul (opLoadNarrow load) := fun _ t rn rd =>
  .check (.andThen_load (fun _ => hl.effect) fun x _ => (finishLoad_effect x.2 t rn rd _).admits)

theorem opStoreNarrow_admits (w : Width) : TransferAdmits mul (opStoreNarrow w) := fun s t rn _ =>
  .check (.andThen (s.memWrite_admits _ _ _ _) fun u => (u.writeBack_effect t rn).admits)

theorem TransferAdmits.singleImm {op : State → Transfer → Reg → Reg → Result} (hop : TransferAdmits mul op) (c : Cond)
    (p u w : Bool) (rn rd : Reg) (off : BitVec 12) (s : State) :
    s.Admits true mul (singleImm op c p u w rn rd off s) := .guarded (.check (hop _ _ _ _))

theorem TransferAdmits.singleReg {op : State → Transfer → Reg → Reg → Result} (hop : TransferAdmits mul op) (c : Cond)
    (p u w : Bool) (rn rd : Reg) (n : BitVec 5) (sh : ShiftKind) (rm : Reg) (s : State) :
    s.Admits true mul (singleReg op c p u w rn rd n sh rm s) := .guarded (.check (.check (hop _ _ _ _)))

theorem TransferAdmits.halfImm {op : State → Transfer → Reg → Reg → Result} (hop : TransferAdmits mul op) (c : Cond)
    (p u w : Bool) (rn rd : Reg) (immH immL : BitVec 4) (s : State) :
    s.Admits true mul (halfImm op c p u w rn rd immH immL s) := .guarded (.check (.check (hop _ _ _ _)))

theorem TransferAdmits.halfReg {op : State → Transfer → Reg → Reg → Result} (hop : TransferAdmits mul op) (c : Cond)
    (p u w : Bool) (rn rd rm : Reg) (s : State) :
    s.Admits true mul (halfReg op c p u w rn rd rm s) := .guarded (.check (.check (.check (hop _ _ _ _))))

theorem LoadReads.thumbLoad_admits {load : State → Word → Host.Outcome (Word × State) Fault Refusal} (hl : LoadReads load)
    (s : State) (rd : LowReg) (a : Word) : s.Admits true mul (thumbLoad load s rd a) :=
  .andThen_load (fun _ => hl.effect) fun x _ => (x.2.setReg_effect rd.reg _).admits

/-- A swap, then a write of its destination. -/
theorem swap_admits {s : State} (rn rd rm : Reg) (w : Width) (a v : Word) (shape : Word × State → Word) :
    s.Admits true mul (swapGuard rn rd rm (andThen (s.swap a w v) fun x => .next (x.2.setReg rd (shape x)))) :=
  .check (.check (.andThen_load (fun _ => State.swap_effect) fun x _ => (x.2.setReg_effect rd _).admits))

/-! ## Block transfers -/

/-- What a block load does with the words it read: the write-back, then the registers as mode `m` sees them. -/
theorem loadList_admits {s : State} {regs : List Reg} {a : Word} {k : List Word × State → State}
    (hk : ∀ (x : List Word × State) (b : Bus), x.2 = s.withBus b → x.2.Effect true mul (k x)) :
    s.Admits true mul (andThen (loadList s regs a false) fun x => .next (k x)) := by
  refine .andThen_load (fun _ => loadList_effect) fun x hx => ?_
  obtain ⟨b, hb⟩ := loadList_withBus hx
  exact (hk x b hb).admits

/-- The end of LDM and LDMIA: the write-back, then the registers of the current mode. -/
theorem blockLoad_effect (mask : Word) {s t : State} (w : Bool) (rn : Reg) (list regs : List Reg) (nb : Word)
    (vals : List Word) (h : t.cpsr = s.cpsr) :
    t.Effect acc mul (loadRegs s.cpsr.mode mask (t.blockWriteBack w rn list nb) regs vals) :=
  (t.blockWriteBack_effect w rn list nb).trans
    (loadRegs_effect mask _ regs vals fun hu => by rwa [State.blockWriteBack_cpsr, h] at hu)

theorem execLdm_admits (c : Cond) (p u w : Bool) (rn : Reg) (list : BitVec 16) (s : State) :
    s.Admits true mul (execLdm c p u w rn list s) :=
  .guarded (.check (loadList_admits fun _ _ hb => blockLoad_effect _ w rn _ _ _ _ (by rw [hb]; rfl)))

theorem execTLdmia_admits (rb : LowReg) (list : BitVec 8) (s : State) : s.Admits true mul (execTLdmia rb list s) :=
  loadList_admits fun _ _ hb => blockLoad_effect _ true rb.reg _ _ _ _ (by rw [hb]; rfl)

theorem execLdmUser_admits (c : Cond) (p u w : Bool) (rn : Reg) (list : BitVec 15) (s : State) :
    s.Admits true mul (execLdmUser c p u w rn list s) :=
  .guarded (.check (.check (loadList_admits fun x _ _ => loadRegs_effect _ x.2 _ _ fun _ => rfl)))

theorem State.Admits.leaving {s u : State} {r : Result} (h : s.Admits acc mul r) : s.Admits acc mul (u.leaving r) :=
  fun t ht => h t (State.leaving_next ht)

/-- An update of registers, then the return from an exception. -/
theorem State.Effect.admits_return {s u : State} (h : s.Effect acc mul u) (a : Word) :
    s.Admits acc mul (u.exceptionReturn a) :=
  fun t ht => h.trans (u.exceptionReturn_admits a t ht)

theorem execLdmRestore_admits (c : Cond) (p u w : Bool) (rn : Reg) (list : BitVec 15) (s : State) :
    s.Admits true mul (execLdmRestore c p u w rn list s) := by
  refine .guarded (.check (.andThen_load (fun _ => loadList_effect) fun x hx => ?_))
  obtain ⟨b, hb⟩ := loadList_withBus hx
  exact ((blockLoad_effect _ w rn _ _ _ _ (by rw [hb]; rfl)).admits_return _).leaving

theorem execStm_admits (c : Cond) (p u w : Bool) (rn : Reg) (list : BitVec 16) (s : State) :
    s.Admits true mul (execStm c p u w rn list s) := by
  refine .guarded (.check (.andThen (storeList_admits _ _ _ _) fun t => .admits ?_))
  split
  · exact t.setReg_effect rn _
  · exact .refl t

theorem execStmUser_admits (c : Cond) (p u w : Bool) (rn : Reg) (list : BitVec 16) (s : State) :
    s.Admits true mul (execStmUser c p u w rn list s) :=
  .guarded (.check (.check (.check (storeList_admits _ _ _ _))))

theorem execTPush_admits (r : Bool) (list : BitVec 8) (s : State) : s.Admits true mul (execTPush r list s) :=
  .check (.andThen (storeList_admits _ _ _ _) fun t => (t.setReg_effect 13#4 _).admits)

theorem execTPop_admits (r : Bool) (list : BitVec 8) (s : State) : s.Admits true mul (execTPop r list s) :=
  .check (.andThen (loadEach_admits _ _ _ _ _ id) fun t => (t.setReg_effect 13#4 _).admits)

theorem execTStmia_admits (rb : LowReg) (list : BitVec 8) (s : State) : s.Admits true mul (execTStmia rb list s) :=
  .andThen (storeList_admits _ _ _ _) fun t => (t.setReg_effect rb.reg _).admits

/-! ## Every instruction -/

/-- The exceptions an instruction raises (R285 to R287, R371). -/
def State.Raised (s t : State) : Prop := t = s.raise .softwareInterrupt ∨ t = s.raise .undefined

/-- An instruction that only raises an exception does so where its condition passes. -/
theorem guarded_raise {c : Cond} {s t : State} {e : Exception} (h : guarded c s (fun s => .next (s.raise e)) = .next t) :
    s.Effect acc mul t ∨ t = s.raise e := by
  obtain rfl | h := guarded_next h
  · exact .inl (.refl _)
  · cases h; exact .inr rfl

/-- What an instruction can do: an effect of its class, or an exception entry. -/
theorem exec_effect {i : Instr} {s t : State} (h : exec i s = .next t) :
    s.Effect (transfers i) (multiplies i) t ∨ s.Raised t := by
  unfold exec at h
  cases i
  case cond1111 => exact .inl (s.admits_fault _ t h)
  case undefined | stc | ldc | cdp | mcr | mrc => exact (guarded_raise h).imp_right .inr
  case swi => exact (guarded_raise h).imp_right .inl
  case tUndef1011 | tUndef1110 | tUndef11101 => cases h; exact .inr (.inr rfl)
  case tSwi => cases h; exact .inr (.inl rfl)
  all_goals refine .inl ((?_ : s.Admits _ _ _) t h)
  case unallocHalfStore | unallocMul | unallocPsr => exact .guarded (s.admits_fault _)
  -- Branches
  case bx => exact .guarded (s.branchExchange_effect _).admits
  case b | tBCond => exact .guarded (s.branch_effect _).admits
  case bl => exact .guarded ((s.setReg_effect 14#4 _).trans (State.branch_effect _ _)).admits
  case tB => exact (s.branch_effect _).admits
  case tBx => exact .check (s.branchExchange_effect _).admits
  case tBlPrefix => exact (s.setReg_effect 14#4 _).admits
  case tBlSuffix => exact ((s.setReg_effect 14#4 _).trans (State.branch_effect _ _)).admits
  -- Multiplies
  case mul | mla => exact .guarded (.check (.check (writeMul_effect s _ _ _).admits))
  case umull | umlal | smull | smlal => exact .guarded (.check (.check (writeMulLong_effect s _ _ _ _).admits))
  case tMul => exact .check ((s.setReg_effect _ _).trans (State.setMulFlags_effect _ _)).admits
  -- Status registers
  case mrs => exact execMrs_admits _ _ _ s
  case msrCpsrReg => exact .guarded (.check (s.writeCpsr_admits _ _))
  case msrSpsrReg => exact .guarded (.check (s.writeSpsr_admits _ _))
  case msrCpsrImm => exact .guarded (s.writeCpsr_admits _ _)
  case msrSpsrImm => exact .guarded (s.writeSpsr_admits _ _)
  -- ARM data processing
  case andImm | andImmShift | eorImm | eorImmShift | subImm | subImmShift | rsbImm | rsbImmShift | addImm | addImmShift |
      adcImm | adcImmShift | sbcImm | sbcImmShift | rscImm | rscImmShift | orrImm | orrImmShift | movImm | movImmShift |
      bicImm | bicImmShift | mvnImm | mvnImmShift =>
    exact .guarded (writeDp_admits _ _ ⟨rfl, rfl, rfl, rfl⟩)
  case andRegShift | eorRegShift | subRegShift | rsbRegShift | addRegShift | adcRegShift | sbcRegShift | rscRegShift |
      orrRegShift | movRegShift | bicRegShift | mvnRegShift =>
    exact .guarded (.check (writeDp_admits _ _ ⟨rfl, rfl, rfl, rfl⟩))
  case tstImm | tstImmShift | teqImm | teqImmShift | cmpImm | cmpImmShift | cmnImm | cmnImmShift =>
    exact .guarded (writeCompare_admits _ ⟨rfl, rfl, rfl, rfl⟩)
  case tstRegShift | teqRegShift | cmpRegShift | cmnRegShift =>
    exact .guarded (.check (writeCompare_admits _ ⟨rfl, rfl, rfl, rfl⟩))
  -- ARM transfers
  case swp | swpb => exact .guarded (swap_admits _ _ _ _ _ _ _)
  case strImm | strtImm => exact opStr_admits.singleImm _ _ _ _ _ _ _ s
  case strReg | strtReg => exact opStr_admits.singleReg _ _ _ _ _ _ _ _ _ s
  case ldrImm | ldrtImm => exact opLdr_admits.singleImm _ _ _ _ _ _ _ s
  case ldrReg | ldrtReg => exact opLdr_admits.singleReg _ _ _ _ _ _ _ _ _ s
  case strbImm | strbtImm => exact (opStoreNarrow_admits .byte).singleImm _ _ _ _ _ _ _ s
  case strbReg | strbtReg => exact (opStoreNarrow_admits .byte).singleReg _ _ _ _ _ _ _ _ _ s
  case ldrbImm | ldrbtImm => exact (opLoadNarrow_admits loadByte_reads).singleImm _ _ _ _ _ _ _ s
  case ldrbReg | ldrbtReg => exact (opLoadNarrow_admits loadByte_reads).singleReg _ _ _ _ _ _ _ _ _ s
  case strhImm => exact (opStoreNarrow_admits .half).halfImm _ _ _ _ _ _ _ _ s
  case strhReg => exact (opStoreNarrow_admits .half).halfReg _ _ _ _ _ _ _ s
  case ldrhImm => exact (opLoadNarrow_admits loadHalf_reads).halfImm _ _ _ _ _ _ _ _ s
  case ldrhReg => exact (opLoadNarrow_admits loadHalf_reads).halfReg _ _ _ _ _ _ _ s
  case ldrsbImm => exact (opLoadNarrow_admits loadSignedByte_reads).halfImm _ _ _ _ _ _ _ _ s
  case ldrsbReg => exact (opLoadNarrow_admits loadSignedByte_reads).halfReg _ _ _ _ _ _ _ s
  case ldrshImm => exact (opLoadNarrow_admits loadSignedHalf_reads).halfImm _ _ _ _ _ _ _ _ s
  case ldrshReg => exact (opLoadNarrow_admits loadSignedHalf_reads).halfReg _ _ _ _ _ _ _ s
  case stm => exact execStm_admits _ _ _ _ _ _ s
  case ldm => exact execLdm_admits _ _ _ _ _ _ s
  case stmUser => exact execStmUser_admits _ _ _ _ _ _ s
  case ldmUser => exact execLdmUser_admits _ _ _ _ _ _ s
  case ldmRestore => exact execLdmRestore_admits _ _ _ _ _ _ s
  -- Thumb data processing
  case tAddReg | tSubReg | tAddImm3 | tSubImm3 | tLslImm | tLsrImm | tAsrImm | tMovImm8 | tAddImm8 | tSubImm8 | tAnd | tEor |
      tLslReg | tLsrReg | tAsrReg | tAdc | tSbc | tRor | tNeg | tOrr | tBic | tMvn =>
    exact thumbResult_admits _ ⟨rfl, rfl, rfl, rfl⟩
  case tCmpImm8 | tTst | tCmpReg | tCmn => exact thumbFlags_admits ⟨rfl, rfl, rfl, rfl⟩
  case tAddHi | tMovHi => exact .check (writeHi_effect s _ _).admits
  case tCmpHi => exact .check (thumbFlags_admits ⟨rfl, rfl, rfl, rfl⟩)
  case tAddPc | tAddSp | tAdjSp => exact (s.setReg_effect _ _).admits
  -- Thumb transfers
  case tLdrPc => exact loadAligned_reads.thumbLoad_admits s _ _
  case tLdrReg | tLdrImm | tLdrSp => exact loadWord_reads.thumbLoad_admits s _ _
  case tLdrbReg | tLdrbImm => exact loadByte_reads.thumbLoad_admits s _ _
  case tLdsbReg => exact loadSignedByte_reads.thumbLoad_admits s _ _
  case tLdrhReg | tLdrhImm => exact loadHalf_reads.thumbLoad_admits s _ _
  case tLdshReg => exact loadSignedHalf_reads.thumbLoad_admits s _ _
  case tStrReg | tStrbReg | tStrhReg | tStrImm | tStrbImm | tStrhImm | tStrSp => exact s.memWrite_admits _ _ _ _
  case tPush => exact execTPush_admits _ _ s
  case tPop => exact execTPop_admits _ _ s
  case tStmia => exact execTStmia_admits _ _ s
  case tLdmia => exact execTLdmia_admits _ _ s

end Sys2Proof.Machine
end

section
/-! What holds of every instruction: the confinement of User mode and the frame of `Execute` (R34, R40, R156, R408). -/

namespace Sys2Proof.Machine

open Sys2Proof.Claims

/-- The link of a raised exception is the address of the next instruction (R391). -/
theorem State.nextAddr_eq_linkValue (s : State) : s.nextAddr = linkValue s := by
  unfold State.nextAddr linkValue State.width
  cases s.cpsr.t <;> rfl

/-- A software interrupt or an Undefined exception is the entry of R390 into its mode. -/
theorem State.Raised.entered {s t : State} (h : s.Raised t) :
    t = entered s .svc 0x8#32 (linkValue s) ∨ t = entered s .und 0x4#32 (linkValue s) := by
  rw [← s.nextAddr_eq_linkValue]
  exact h

theorem State.Raised.keeps {s t : State} (h : s.Raised t) : s.Keeps t := by
  obtain rfl | rfl := h <;> exact s.raise_keeps _

theorem State.Raised.bus {s t : State} (h : s.Raised t) : t.bus = s.bus := by
  obtain rfl | rfl := h <;> simp [State.raise, State.enterException]

theorem State.Raised.draws {s t : State} (h : s.Raised t) : t.draws = s.draws := by
  obtain rfl | rfl := h <;> simp [State.raise, State.enterException]

/-- What every instruction keeps, an exception entry included. -/
theorem exec_keeps {i : Instr} {s t : State} (h : exec i s = .next t) : s.Keeps t :=
  (exec_effect h).elim (·.keeps) (·.keeps)

/-- Settles O56: an instruction's effect is confined in User mode, and what is no such effect is an exception entry. -/
theorem userModeIsConfined : Obligations.UserModeIsConfined := by
  intro i s t hu h
  obtain he | hr := exec_effect h
  · obtain ⟨hmode, hi, hf, hs, hk⟩ := he.user hu
    exact .inl ⟨hmode.trans hu, hi, hf, hs, hk⟩
  · exact .inr hr.entered

/-- Settles O57: the effect of an instruction, and of an exception entry, on the fields that an instruction may not change. -/
theorem executionFrame : Obligations.ExecutionFrame := by
  intro i s t h
  have hk := exec_keeps h
  have hbus : transfers i = false → t.bus = s.bus := fun hi => (exec_effect h).elim (·.bus hi) (·.bus)
  have hdraws : multiplies i = false → t.draws = s.draws := fun hi => (exec_effect h).elim (·.draws hi) (·.draws)
  exact ⟨hk.pipe, hk.faulted, hk.thumb, fun hi => ⟨hbus hi, fun k => by rw [State.cell, State.cell, hbus hi]⟩, hdraws⟩

/-! ## The invariant -/

/-- A word that a halfword fills. -/
theorem setWidth_half_lt (h : BitVec 16) : (h.setWidth 32 : Word).toNat < 2 ^ 16 := by
  rw [BitVec.toNat_setWidth]
  exact Nat.lt_of_le_of_lt (Nat.mod_le _ _) h.isLt

/-- A halfword read answers a halfword, whoever answers it (R77, R89, R91, R93). -/
theorem Bus.valueRead_half (b : Bus) (a : Word) : (b.valueRead a .half).1.toNat < 2 ^ 16 := by
  unfold Bus.valueRead
  split
  · exact setWidth_half_lt _
  · split
    · exact setWidth_half_lt _
    · split <;> exact setWidth_half_lt _

theorem Bus.read_half {b : Bus} {k : AccessKind} {a : Word} {cont : Bool} {x : Word × Bus}
    (h : b.read k a .half cont = .next x) : x.1.toNat < 2 ^ 16 := by
  obtain ⟨c, -, h⟩ := andThen_next h
  obtain ⟨d, -, h⟩ := andThen_next h
  cases h
  exact b.valueRead_half a

/-- Masking the low `k` bits of a word rounds it down to a multiple of `2 ^ k`. -/
theorem toNat_and_mask (a : Word) (k : Nat) : (a &&& (BitVec.allOnes 32 <<< k)).toNat = a.toNat / 2 ^ k * 2 ^ k := by
  have h : a &&& (BitVec.allOnes 32 <<< k) = a >>> k <<< k := by
    apply BitVec.eq_of_getLsbD_eq
    intro i hi
    rw [BitVec.getLsbD_and, BitVec.getLsbD_shiftLeft, BitVec.getLsbD_shiftLeft, BitVec.getLsbD_allOnes,
      BitVec.getLsbD_ushiftRight]
    by_cases hk : i < k
    · simp [hk]
    · simp [hi, hk, show i - k < 32 by omega, Nat.add_sub_of_le (Nat.le_of_not_lt hk)]
  rw [h, BitVec.toNat_shiftLeft, BitVec.toNat_ushiftRight, Nat.shiftRight_eq_div_pow, Nat.shiftLeft_eq]
  exact Nat.mod_eq_of_lt (Nat.lt_of_le_of_lt (Nat.div_mul_le_self _ _) a.isLt)

/-- Aligning an address rounds it down to a multiple of the width (R82). -/
theorem alignTo_toNat (w : Width) (a : Word) : (alignTo w a).toNat = a.toNat / widthBytes w * widthBytes w := by
  cases w
  · simp [alignTo, widthBytes]
  · exact toNat_and_mask a 1
  · exact toNat_and_mask a 2

/-- An address is aligned when the width divides it. -/
theorem alignTo_eq_iff (w : Width) (a : Word) : alignTo w a = a ↔ widthBytes w ∣ a.toNat := by
  rw [← BitVec.toNat_inj, alignTo_toNat]
  exact ⟨fun h => ⟨_, by rw [Nat.mul_comm]; exact h.symm⟩, Nat.div_mul_cancel⟩

theorem alignTo_alignTo (w : Width) (a : Word) : alignTo w (alignTo w a) = alignTo w a := by
  rw [alignTo_eq_iff, alignTo_toNat]
  exact Nat.dvd_mul_left _ _

/-- An aligned address stays aligned by the width of an access (R47). -/
theorem alignTo_addrPlus {w : Width} {a : Word} (h : alignTo w a = a) :
    alignTo w (addrPlus a (widthBytes w)) = addrPlus a (widthBytes w) := by
  rw [alignTo_eq_iff] at h ⊢
  have hw : widthBytes w ∣ 2 ^ 32 := by cases w <;> decide
  unfold addrPlus
  rw [BitVec.toNat_add, BitVec.toNat_ofNat, Nat.add_mod_mod, Nat.dvd_mod_iff hw]
  exact Nat.dvd_add h (Nat.dvd_refl _)

/-! ## The refill and the internal cycles -/

/-- The invariant looks at neither the cycle count nor the trackers, the lines or the halted flag. -/
theorem Bus.Inv.of_eq {b b' : Bus} (h : b.Inv) (hr : b'.running = b.running) (hp : b'.params = b.params)
    (hm : b'.mem = b.mem) (hw : b'.waitcnt = b.waitcnt) (hq : b'.queue = b.queue) (hn : b'.nextSeq = b.nextSeq) : b'.Inv :=
  (Bus.Follows.of_eq hr hp hm hw hq hn).inv h

/-- What the invariant asks of a state whose slots are being refilled: all but the staged halfwords. -/
structure State.Ready (s : State) : Prop where
  bus : s.bus.Inv
  running : s.faulted = none
  sequential : s.flow = none
  aligned : alignTo s.width s.pipe.cursor = s.pipe.cursor

theorem State.Inv.ready {s : State} (h : s.Inv) : s.Ready := ⟨h.bus, h.running, h.sequential, h.aligned⟩

/-- A fetch is one code read, the slots shifted and the cursor moved on (R42). -/
theorem State.fetch_next {s t : State} {cont : Bool} (h : s.fetch cont = .next t) :
    ∃ x, s.bus.read .code s.pipe.cursor s.width cont = .next x ∧
      t = { s with
        bus := x.2
        pipe := { decoded := s.pipe.fetched, fetched := x.1, cursor := addrPlus s.pipe.cursor (widthBytes s.width) } } := by
  obtain ⟨x, hx, h⟩ := State.onBus_next h
  cases h
  exact ⟨x, hx, rfl⟩

theorem State.Ready.fetch {s t : State} {cont : Bool} (h : s.Ready) (hf : s.fetch cont = .next t) : t.Ready := by
  obtain ⟨x, hx, rfl⟩ := State.fetch_next hf
  exact ⟨(Bus.read_follows h.bus.idle hx).inv h.bus, h.running, h.sequential, alignTo_addrPlus h.aligned⟩

/-- The word fetched in Thumb state is a halfword (R41). -/
theorem State.fetch_half {s t : State} {cont : Bool} (hf : s.fetch cont = .next t) (ht : t.cpsr.t = true) :
    t.pipe.fetched.toNat < 2 ^ 16 := by
  obtain ⟨x, hx, rfl⟩ := State.fetch_next hf
  rw [State.width, show s.cpsr.t = true from ht] at hx
  exact Bus.read_half hx

/-- A fetch into a slot behind a fetched halfword completes the staged halfwords. -/
theorem State.Ready.fetch_inv {s t : State} {cont : Bool} (h : s.Ready)
    (hs : s.cpsr.t = true → s.pipe.fetched.toNat < 2 ^ 16) (hf : s.fetch cont = .next t) : t.Inv := by
  have hr := h.fetch hf
  have hhalf := State.fetch_half hf
  obtain ⟨x, -, rfl⟩ := State.fetch_next hf
  exact ⟨hr.bus, hr.running, hr.sequential, hr.aligned, fun ht => ⟨hs ht, hhalf ht⟩⟩

/-- Two fetches at an aligned target give the invariant, whatever the slots held (R43). -/
theorem State.bubble_inv {s t : State} {target : Word} (hb : s.bus.Inv) (hr : s.faulted = none) (hq : s.flow = none)
    (h : s.bubble target = .next t) : t.Inv := by
  obtain ⟨u, hu, h⟩ := andThen_next h
  have ha : ({ s with pipe := { s.pipe with cursor := alignTo s.width target } } : State).Ready :=
    ⟨hb, hr, hq, alignTo_alignTo s.width target⟩
  exact (ha.fetch hu).fetch_inv (State.fetch_half hu) h

/-- What holds of the machine between `Execute` and the refill: the invariant, unless a flow is reported (R152). -/
structure State.MidInv (s : State) : Prop where
  bus : s.bus.Inv
  running : s.faulted = none
  staged : s.flow = none → s.Inv

/-- `Execute` leaves the pipeline alone, and the width of its slots unless it reports a flow (R34, R156). -/
theorem State.Inv.exec {i : Instr} {s t : State} (h : s.Inv) (he : exec i s = .next t) : t.MidInv := by
  obtain ⟨hp, hf, hb, ht⟩ := exec_keeps he
  have hbus := (hb h.bus.idle).inv h.bus
  have hrun := hf.trans h.running
  refine ⟨hbus, hrun, fun hq => ?_⟩
  have hc := (ht hq).2
  refine ⟨hbus, hrun, hq, ?_, ?_⟩
  · rw [State.width, hp, hc]
    exact h.aligned
  · rw [hp, hc]
    exact h.halfwords

theorem State.MidInv.refill {s t : State} (h : s.MidInv) (hr : s.refill = .next t) : t.Inv := by
  unfold State.refill at hr
  split at hr
  · exact State.bubble_inv (s := { s with flow := none }) h.bus h.running rfl hr
  · rename_i hq
    have hi := h.staged hq
    exact hi.ready.fetch_inv (fun ht => (hi.halfwords ht).2) hr

theorem Bus.Inv.advance {b b' : Bus} {c : Nat} (h : b.Inv) (ha : b.advance c = .next b') : b'.Inv :=
  (Bus.advance_follows h.idle ha).inv h

theorem State.Inv.withBus {s : State} {b : Bus} (h : s.Inv) (hb : b.Inv) : (s.withBus b).Inv :=
  ⟨hb, h.running, h.sequential, h.aligned, h.halfwords⟩

/-- An `Advance` from a bus that differs from the state's in the cycle count only. -/
theorem State.Inv.advance {s t : State} {acc c : Nat} (h : s.Inv)
    (ha : s.onBus (({ s.bus with acc := acc } : Bus).advance c) (fun b => .next (s.withBus b)) = .next t) : t.Inv := by
  obtain ⟨b, hb, ha⟩ := State.onBus_next ha
  cases ha
  have hacc : ({ s.bus with acc := acc } : Bus).Inv := h.bus.of_eq rfl rfl rfl rfl rfl rfl
  exact h.withBus (hacc.advance hb)

theorem State.Inv.spend {s t : State} {n : Nat} (h : s.Inv) (hs : s.spend n = .next t) : t.Inv := by
  unfold State.spend at hs
  split at hs
  · cases hs; exact h
  · exact h.advance hs

/-! ## The step -/

theorem State.Inv.begin {s : State} (h : s.Inv) : s.begin.Inv :=
  ⟨h.bus.of_eq rfl rfl rfl rfl rfl rfl, h.running, rfl, h.aligned, h.halfwords⟩

theorem State.Inv.wake {s : State} (h : s.Inv) : s.wake.Inv :=
  ⟨h.bus.of_eq rfl rfl rfl rfl rfl rfl, h.running, h.sequential, h.aligned, h.halfwords⟩

theorem State.Inv.checkInterrupt {s t : State} (h : s.Inv) (hc : s.checkInterrupt = .next t) : t.Inv := by
  unfold State.checkInterrupt at hc
  split at hc
  · have hk := s.enterException_keeps .irq (addrPlus s.here 4)
    exact State.bubble_inv (s := s.enterIrq) ((hk.bus h.bus.idle).inv h.bus) (hk.faulted.trans h.running) rfl hc
  · cases hc; exact h

theorem State.Inv.executeStaged {s t : State} (h : s.Inv) (hs : s.executeStaged = .next t) : t.Inv := by
  obtain ⟨u, hu, hs⟩ := andThen_next hs
  obtain ⟨v, hv, hs⟩ := andThen_next hs
  exact ((h.exec (State.leaving_next hu)).refill hv).spend hs

/-- Settles O58: each part of a step keeps the invariant, `Execute` up to the refill. -/
theorem stepKeepsInvariant : Obligations.StepKeepsInvariant := by
  intro s t h hs
  unfold step State.stepOnce at hs
  rw [h.running] at hs
  dsimp only at hs
  split at hs
  · exact h.begin.advance hs
  · obtain ⟨u, hu, hs⟩ := andThen_next hs
    exact (h.begin.wake.checkInterrupt hu).executeStaged hs

/-- Settles O59: the reset state's store and queue are empty, its cursor is 8 and its slots hold ARM words. -/
theorem resetMeetsInvariant : Obligations.ResetMeetsInvariant where
  bus := ⟨rfl, rfl, rfl, rfl, .nil, nofun, Nat.zero_le _⟩
  running := rfl
  sequential := rfl
  aligned := rfl
  halfwords := nofun

end Sys2Proof.Machine
end

section
/-! The value part of an access by the branch that its address selects; what a store changes of the backing stores, of the
port table and of WAITCNT, and what a read finds after it (R71, R73, R74, R77, R82, R86, R88, R94, R101, R260). -/

namespace Sys2Proof.Machine

/-! ## The branches of an access -/

/-- An address that a region answers: in the region, and within its size (R71, R73). -/
structure Bus.Hits (b : Bus) (a : Word) (w : Width) (r : Region) : Prop where
  region : regionOf b.params (alignTo w a) = some r
  within : pastSize b.params r (alignTo w a) w = false

theorem regionWritable_iff {p : Params} {r : Region} :
    regionWritable p r = true ↔ regionTarget p r = .store ∧ (regionRow p r).writable = true := by
  simp [regionWritable]

section
variable {b : Bus} {a : Word} {w : Width} {r : Region}

theorem Bus.valueRead_none (h : regionOf b.params (alignTo w a) = none) :
    b.valueRead a w = (openBus b.ob w (alignTo w a), b) := by simp only [Bus.valueRead, h]

theorem Bus.valueRead_past (h : regionOf b.params (alignTo w a) = some r)
    (hp : pastSize b.params r (alignTo w a) w = true) :
    b.valueRead a w = (openBus b.ob w (alignTo w a), b) := by simp only [Bus.valueRead, h, hp, if_true]

theorem Bus.valueRead_store (h : b.Hits a w r) (ht : regionTarget b.params r = .store) :
    (b.valueRead a w).1 = storeRead b.mem (storeBase r + regionOffset b.params r (alignTo w a)) w := by
  simp [Bus.valueRead, h.region, h.within, ht]

theorem Bus.valueRead_ports (h : b.Hits a w r) (ht : regionTarget b.params r = .ports) :
    b.valueRead a w = b.portRead (regionOffset b.params r (alignTo w a)) w := by
  simp [Bus.valueRead, h.region, h.within, ht]

theorem Bus.valueWrite_none (v : Word) (h : regionOf b.params (alignTo w a) = none) :
    (b.valueWrite a w v).2 = b := by simp only [Bus.valueWrite, h]

theorem Bus.valueWrite_past (v : Word) (h : regionOf b.params (alignTo w a) = some r)
    (hp : pastSize b.params r (alignTo w a) w = true) :
    (b.valueWrite a w v).2 = { b with ob := replicate w v } := by simp only [Bus.valueWrite, h, hp, if_true]

theorem Bus.valueWrite_store (v : Word) (h : b.Hits a w r) (ht : regionTarget b.params r = .store) :
    (b.valueWrite a w v).2 =
      { b with
        ob := replicate w v
        mem := regionStore b.params b.mem r (regionOffset b.params r (alignTo w a)) w v } := by
  simp [Bus.valueWrite, h.region, h.within, ht]

theorem Bus.valueWrite_device (v : Word) (h : b.Hits a w r) (ht : regionTarget b.params r = .device) :
    (b.valueWrite a w v).2 = { b with ob := replicate w v } := by
  simp [Bus.valueWrite, h.region, h.within, ht]

theorem Bus.valueWrite_ports (v : Word) (h : b.Hits a w r) (ht : regionTarget b.params r = .ports) :
    (b.valueWrite a w v).2 = ({ b with ob := replicate w v } : Bus).portWrite (regionOffset b.params r (alignTo w a)) w v := by
  simp [Bus.valueWrite, h.region, h.within, ht]

end

/-! ## The stored bytes -/

/-- A store that the port table does not answer leaves the port table and WAITCNT (R71, R94). -/
theorem Bus.valueWrite_ports_unchanged {b : Bus} {a : Word} {w : Width} (v : Word)
    (h : ∀ r : Region, regionOf b.params (alignTo w a) = some r →
      regionTarget b.params r ≠ .ports ∨ pastSize b.params r (alignTo w a) w = true) :
    (b.valueWrite a w v).2.ports = b.ports ∧ (b.valueWrite a w v).2.waitcnt = b.waitcnt := by
  cases hr : regionOf b.params (alignTo w a) with
  | none => rw [Bus.valueWrite_none v hr]; exact ⟨rfl, rfl⟩
  | some r =>
    cases hp : pastSize b.params r (alignTo w a) w with
    | true => rw [Bus.valueWrite_past v hr hp]; exact ⟨rfl, rfl⟩
    | false =>
      cases ht : regionTarget b.params r with
      | store => rw [Bus.valueWrite_store v ⟨hr, hp⟩ ht]; exact ⟨rfl, rfl⟩
      | device => rw [Bus.valueWrite_device v ⟨hr, hp⟩ ht]; exact ⟨rfl, rfl⟩
      | ports => exact absurd (h r hr) (by simp [ht, hp])

/-- A region that may not be written keeps its cells (R86). -/
theorem regionStore_readOnly {p : Params} {r : Region} (m : List Host.Cell) (off : Nat) (w : Width) (v : Word)
    (h : regionWritable p r = false) : regionStore p m r off w v = m := by simp [regionStore, h]

/-- A plain store writes its own bytes (R77, R86). -/
theorem regionStore_plain {p : Params} {r : Region} {w : Width} (m : List Host.Cell) (off : Nat) (v : Word)
    (hw : regionWritable p r = true) (hv : p.videoByteWrite = .plain ∨ isVideoByte r w = false) :
    regionStore p m r off w v = storeWrite m (storeBase r + off) w v := by
  rcases hv with hv | hv <;> simp [regionStore, hw, hv]

/-- A video byte under `hw` writes the enclosing halfword, or nothing (R88). -/
theorem regionStore_video {p : Params} {r : Region} {w : Width} (m : List Host.Cell) (off : Nat) (v : Word)
    (hw : regionWritable p r = true) (hp : p.videoByteWrite = .hw) (hv : isVideoByte r w = true) :
    regionStore p m r off w v = videoByteStore m r off v := by simp [regionStore, hw, hp, hv]

/-- The cells of a plain store are its bytes. -/
theorem Bus.mem_storedCells_plain {b : Bus} {a : Word} {w : Width} {r : Region} {k : Nat} (h : b.Hits a w r)
    (hw : regionWritable b.params r = true) (hv : ¬(b.params.videoByteWrite = .hw ∧ isVideoByte r w = true)) :
    k ∈ b.storedCells a w ↔
      storeBase r + regionOffset b.params r (alignTo w a) ≤ k ∧
        k < storeBase r + regionOffset b.params r (alignTo w a) + widthBytes w := by
  simp only [Bus.storedCells, h.region, h.within, hw, if_neg hv, Bool.false_eq_true, Bool.true_eq_false, or_self, if_false,
    List.mem_map, List.mem_range]
  exact ⟨fun ⟨j, hj, e⟩ => by omega, fun hk =>
    ⟨k - (storeBase r + regionOffset b.params r (alignTo w a)), by omega, by omega⟩⟩

/-- The cells of a video byte under `hw`. -/
theorem Bus.storedCells_video {b : Bus} {a : Word} {w : Width} {r : Region} (h : b.Hits a w r)
    (hw : regionWritable b.params r = true) (hp : b.params.videoByteWrite = .hw) (hv : isVideoByte r w = true) :
    b.storedCells a w =
      if r = .palette ∨ (r = .vram ∧ regionOffset b.params r (alignTo w a) < 0x10000) then
        [storeBase r + regionOffset b.params r (alignTo w a) / 2 * 2,
          storeBase r + regionOffset b.params r (alignTo w a) / 2 * 2 + 1]
      else [] := by
  simp [Bus.storedCells, h.region, h.within, hw, hp, hv]

/-- The backing store after a store, outside the cells stored to. -/
theorem Bus.storeByte_regionStore_other {b : Bus} {a : Word} {w : Width} {r : Region} (v : Word) {k : Nat} (h : b.Hits a w r)
    (hk : k ∉ b.storedCells a w) :
    storeByte (regionStore b.params b.mem r (regionOffset b.params r (alignTo w a)) w v) k = storeByte b.mem k := by
  cases hw : regionWritable b.params r with
  | false => rw [regionStore_readOnly _ _ _ _ hw]
  | true =>
    by_cases hv : b.params.videoByteWrite = .hw ∧ isVideoByte r w = true
    · rw [Bus.storedCells_video h hw hv.1 hv.2] at hk
      rw [regionStore_video _ _ _ hw hv.1 hv.2, videoByteStore]
      split
      · rename_i hl
        simp only [if_pos hl, List.mem_cons, List.not_mem_nil, or_false, not_or] at hk
        exact storeByte_storeWrite_other _ _ _ _ _ (by simp only [widthBytes]; omega)
      · rfl
    · rw [Bus.mem_storedCells_plain h hw hv] at hk
      have hp : b.params.videoByteWrite = .plain ∨ isVideoByte r w = false := by
        cases hb : b.params.videoByteWrite
        · exact .inl rfl
        · exact .inr (by simpa [hb] using hv)
      rw [regionStore_plain _ _ _ hw hp]
      exact storeByte_storeWrite_other _ _ _ _ _ (by omega)

theorem Bus.portWrite_mem (b : Bus) (o : Nat) (w : Width) (v : Word) : (b.portWrite o w v).mem = b.mem := by
  obtain ⟨ports, wc, h⟩ := b.portWrite_frame o w v
  rw [h]

/-- A store changes no byte outside the cells stored to (R73, R74, R86, R88). -/
theorem Bus.storeByte_valueWrite_other (b : Bus) (a : Word) (w : Width) (v : Word) {k : Nat} (hk : k ∉ b.storedCells a w) :
    storeByte (b.valueWrite a w v).2.mem k = storeByte b.mem k := by
  cases hr : regionOf b.params (alignTo w a) with
  | none => rw [Bus.valueWrite_none v hr]
  | some r =>
    cases hp : pastSize b.params r (alignTo w a) w with
    | true => rw [Bus.valueWrite_past v hr hp]
    | false =>
      cases ht : regionTarget b.params r with
      | store =>
        rw [Bus.valueWrite_store v ⟨hr, hp⟩ ht]
        exact Bus.storeByte_regionStore_other v ⟨hr, hp⟩ hk
      | device => rw [Bus.valueWrite_device v ⟨hr, hp⟩ ht]
      | ports => rw [Bus.valueWrite_ports v ⟨hr, hp⟩ ht, Bus.portWrite_mem]

/-- A plain store to a writable region leaves the bytes of its value (R77, R86). -/
theorem Bus.mem_valueWrite_plain {b : Bus} {a : Word} {w : Width} {r : Region} (v : Word) (h : b.Hits a w r)
    (hw : regionWritable b.params r = true) (hv : b.params.videoByteWrite = .plain ∨ isVideoByte r w = false) :
    (b.valueWrite a w v).2.mem = storeWrite b.mem (storeBase r + regionOffset b.params r (alignTo w a)) w v := by
  rw [Bus.valueWrite_store v h (regionWritable_iff.mp hw).1]
  exact regionStore_plain _ _ _ hw hv

/-- The stores of a block change no byte outside the cells of its words (R260). -/
theorem Bus.storeByte_writeBlock_other (b : Bus) (vals : List Word) (a : Word) (block : Bool) {k : Nat}
    (hk : ∀ j < vals.length, k ∉ b.storedCells (a + BitVec.ofNat 32 (4 * j)) .word) :
    storeByte (b.writeBlock vals a block).mem k = storeByte b.mem k := by
  induction vals generalizing b a block with
  | nil => rfl
  | cons v vals ih =>
    have hcells : ∀ x, (b.writeResult a .word v block).storedCells x .word = b.storedCells x .word := fun x => by
      simp only [Bus.storedCells, Bus.writeResult_params]
    have haddr : ∀ j : Nat, a + 4#32 + BitVec.ofNat 32 (4 * j) = a + BitVec.ofNat 32 (4 * (j + 1)) := fun j => by
      rw [Nat.mul_succ, Nat.add_comm, BitVec.ofNat_add, BitVec.add_assoc]
    have hfirst : k ∉ b.storedCells a .word := by simpa using hk 0 (Nat.succ_pos _)
    rw [Bus.writeBlock, ih]
    · exact b.storeByte_valueWrite_other a .word v hfirst
    · intro j hj
      rw [hcells, haddr]
      exact hk (j + 1) (Nat.succ_lt_succ hj)

/-- The reads of a block change no memory, no port and no WAITCNT. -/
theorem Bus.readBlock_frame (b : Bus) (n : Nat) (a : Word) (block : Bool) :
    (b.readBlock n a block).2.mem = b.mem ∧ (b.readBlock n a block).2.ports = b.ports ∧
      (b.readBlock n a block).2.waitcnt = b.waitcnt := by
  induction n generalizing b a block with
  | zero => exact ⟨rfl, rfl, rfl⟩
  | succ n ih =>
    obtain ⟨hm, hp, hc⟩ := ih (b.readResult a .word block) (a + 4#32) true
    obtain ⟨rm, rp, rc, -⟩ := b.readResult_frame a .word block
    exact ⟨hm.trans rm, hp.trans rp, hc.trans rc⟩

/-! ## The bytes of a port write -/

/-- The first `n` bytes of a port write, in ascending order (R94). -/
def Bus.portWriteBytes (b : Bus) (o : Nat) (v : Word) (n : Nat) : Bus :=
  (List.range n).foldl (fun b k => b.portWriteByte (o + k) (byteOf v k)) b

theorem Bus.portWrite_eq (b : Bus) (o : Nat) (w : Width) (v : Word) :
    b.portWrite o w v = b.portWriteBytes o v (widthBytes w) := rfl

theorem Bus.portWriteBytes_succ (b : Bus) (o : Nat) (v : Word) (n : Nat) :
    b.portWriteBytes o v (n + 1) = (b.portWriteBytes o v n).portWriteByte (o + n) (byteOf v n) := by
  simp [Bus.portWriteBytes, List.range_succ]

theorem isWaitcntByte_iff {o : Nat} : isWaitcntByte o = true ↔ 0x204 ≤ o ∧ o ≤ 0x207 := by simp [isWaitcntByte]

/-- The port byte `p` after a store of `v`: the new value where it is writable (R94). -/
def PortByte.stored (p : PortByte) (v : Byte) : PortByte := if p.writable then { p with value := v } else p

theorem portRegByte_put (r : PortReg) (o q : Nat) (v : Byte) :
    portRegByte (portRegPut o v false r) q = (portRegByte r q).map fun p => if q = o then p.stored v else p := by
  by_cases ho : r.base ≤ o
  · by_cases hq : r.base ≤ q
    · have he : o - r.base = q - r.base ↔ q = o := by omega
      simp [portRegByte, portRegPut, ho, hq, List.getElem?_modify, he, PortByte.stored]
    · simp [portRegByte, portRegPut, ho, hq]
  · have hne : r.base ≤ q → q ≠ o := by omega
    by_cases hq : r.base ≤ q
    · simp [portRegByte, portRegPut, ho, hq, hne hq]
    · simp [portRegByte, portRegPut, ho, hq]

theorem portByteAt_put (ports : List PortReg) (o q : Nat) (v : Byte) :
    portByteAt (ports.map (portRegPut o v false)) q =
      (portByteAt ports q).map fun p => if q = o then p.stored v else p := by
  rw [portByteAt, portByteAt, List.findSome?_map, List.map_findSome?]
  exact congrArg (List.findSome? · ports) (funext fun r => portRegByte_put r o q v)

/-- One byte of a port write, in the port table: outside the WAITCNT word it changes the byte at its offset (R94). -/
theorem Bus.portByteAt_portWriteByte (b : Bus) (o q : Nat) (v : Byte) :
    portByteAt (b.portWriteByte o v).ports q =
      (portByteAt b.ports q).map fun p => if q = o ∧ (q < 0x204 ∨ 0x207 < q) then p.stored v else p := by
  cases ho : isWaitcntByte o with
  | true =>
    have hports : (b.portWriteByte o v).ports = b.ports := by
      simp only [Bus.portWriteByte, ho, if_true]
      split <;> rfl
    have hq : ¬(q = o ∧ (q < 0x204 ∨ 0x207 < q)) := by have := isWaitcntByte_iff.mp ho; omega
    simp [hports, hq]
  | false =>
    have hq : q = o ∧ (q < 0x204 ∨ 0x207 < q) ↔ q = o := by
      have := mt isWaitcntByte_iff.mpr (Bool.eq_false_iff.mp ho); omega
    simp only [hq, ← portByteAt_put]
    simp [Bus.portWriteByte, ho]

/-- A port write, in the port table (R94). -/
theorem Bus.portByteAt_portWriteBytes (b : Bus) (o : Nat) (v : Word) (n q : Nat) :
    portByteAt (b.portWriteBytes o v n).ports q =
      (portByteAt b.ports q).map fun p =>
        if p.writable = true ∧ o ≤ q ∧ q < o + n ∧ (q < 0x204 ∨ 0x207 < q) then { p with value := byteOf v (q - o) }
        else p := by
  induction n with
  | zero =>
    have hq : ∀ p : PortByte, ¬(p.writable = true ∧ o ≤ q ∧ q < o + 0 ∧ (q < 0x204 ∨ 0x207 < q)) := by omega
    simp only [hq, if_false, Option.map_id']
    rfl
  | succ n ih =>
    rw [Bus.portWriteBytes_succ, Bus.portByteAt_portWriteByte, ih, Option.map_map]
    congr 1
    funext p
    simp only [Function.comp, PortByte.stored]
    by_cases hq : q = o + n
    · subst hq
      by_cases hw : p.writable = true <;> simp [hw]
    · have hlast : q < o + (n + 1) ↔ q < o + n := by omega
      simp only [hq, false_and, if_false, hlast]

/-- One byte of a port write, in WAITCNT (R101). -/
theorem Bus.waitcnt_portWriteByte (b : Bus) (o : Nat) (v : Byte) :
    (b.portWriteByte o v).waitcnt =
      if o = 0x204 then b.waitcnt.extractLsb' 8 8 ++ v
      else if o = 0x205 then (v &&& 0x5F#8) ++ b.waitcnt.extractLsb' 0 8
      else b.waitcnt := by
  cases ho : isWaitcntByte o with
  | true =>
    simp only [Bus.portWriteByte, ho, if_true]
    split
    · rfl
    · rfl
    · rename_i h4 h5
      rw [if_neg h4, if_neg h5]
  | false =>
    have hne := mt isWaitcntByte_iff.mpr (Bool.eq_false_iff.mp ho)
    rw [if_neg (by omega), if_neg (by omega)]
    simp [Bus.portWriteByte, ho]

/-- One byte of a port write, in the low byte of WAITCNT (R101). -/
theorem Bus.waitcnt_low_portWriteByte (b : Bus) (o : Nat) (v : Byte) :
    (b.portWriteByte o v).waitcnt.extractLsb' 0 8 = if o = 0x204 then v else b.waitcnt.extractLsb' 0 8 := by
  rw [Bus.waitcnt_portWriteByte]
  split
  · exact BitVec.extractLsb'_append_eq_right
  · split
    · exact BitVec.extractLsb'_append_eq_right
    · rfl

/-- One byte of a port write, in the high byte of WAITCNT, of which bits 13 and 15 stay zero (R101). -/
theorem Bus.waitcnt_high_portWriteByte (b : Bus) (o : Nat) (v : Byte) :
    (b.portWriteByte o v).waitcnt.extractLsb' 8 8 = if o = 0x205 then v &&& 0x5F#8 else b.waitcnt.extractLsb' 8 8 := by
  rw [Bus.waitcnt_portWriteByte]
  split
  · rename_i h
    rw [if_neg (by omega)]
    exact BitVec.extractLsb'_append_eq_left
  · split
    · exact BitVec.extractLsb'_append_eq_left
    · rfl

/-- A view of the bus that one byte of a port write changes only at offset `c`, and there to what `g` makes of the byte,
shows after the whole write the byte of the value that falls on `c`, if one does (R94). -/
theorem Bus.portWriteBytes_view {f : Bus → Byte} {g : Byte → Byte} {c : Nat}
    (hf : ∀ (b : Bus) (q : Nat) (x : Byte), f (b.portWriteByte q x) = if q = c then g x else f b) (b : Bus) (o : Nat)
    (v : Word) (n : Nat) :
    f (b.portWriteBytes o v n) = if o ≤ c ∧ c < o + n then g (byteOf v (c - o)) else f b := by
  induction n with
  | zero => rw [if_neg (by omega)]; rfl
  | succ n ih =>
    rw [Bus.portWriteBytes_succ, hf, ih]
    by_cases hq : o + n = c
    · rw [if_pos hq, if_pos (by omega), show c - o = n by omega]
    · have hlast : c < o + (n + 1) ↔ c < o + n := by omega
      simp only [if_neg hq, hlast]

/-! ## Memory after a store -/

/-- Settles O30: reads by their frame; a store by the branch its address selects, a block store by induction on its
words; the port table byte by byte. -/
theorem storeChangesOnlyItsBytes : Obligations.StoreChangesOnlyItsBytes := by
  intro b a w v block t
  obtain ⟨rm, rp, rc, -⟩ := b.readResult_frame a w block
  refine ⟨⟨rm, rp, rc⟩, fun k hk => b.storeByte_valueWrite_other a w v hk, fun n => b.readBlock_frame n a block,
    fun vals k hk => b.storeByte_writeBlock_other vals a block hk, Bus.valueWrite_ports_unchanged v, fun r hr hp => ?_⟩
  intro o
  refine ⟨fun hw hv j hj => ?_, fun ht => ?_⟩
  · have hm : t.mem = _ := Bus.mem_valueWrite_plain v ⟨hr, hp⟩ hw hv
    rw [hm]
    exact storeByte_storeWrite _ _ _ _ _ hj
  · have hports : t.ports = (b.valueWrite a w v).2.ports := rfl
    have hwait : t.waitcnt = (b.valueWrite a w v).2.waitcnt := rfl
    rw [hports, hwait, Bus.valueWrite_ports v ⟨hr, hp⟩ ht, Bus.portWrite_eq]
    exact ⟨Bus.portByteAt_portWriteBytes _ o v _,
      Bus.portWriteBytes_view (f := (·.waitcnt.extractLsb' 0 8)) (g := id) Bus.waitcnt_low_portWriteByte _ o v _,
      Bus.portWriteBytes_view (f := (·.waitcnt.extractLsb' 8 8)) (g := (· &&& 0x5F#8)) Bus.waitcnt_high_portWriteByte
        _ o v _⟩

/-- Settles O31: the store writes the bytes that the read reads. -/
theorem readAfterWrite : Obligations.ReadAfterWrite := by
  intro b a w v block r hr hw hp hv
  have hparams := b.writeResult_params a w v block
  have hmem : (b.writeResult a w v block).mem = _ := Bus.mem_valueWrite_plain v ⟨hr, hp⟩ hw hv
  have hits : (b.writeResult a w v block).Hits a w r := ⟨by rw [hparams, hr], by rw [hparams, hp]⟩
  have ht := (regionWritable_iff.mp hw).1
  rw [Bus.valueRead_store hits (by rw [hparams, ht]), hmem, hparams]
  exact (storeRead_storeWrite _ _ w v).trans (by cases w <;> rfl)

end Sys2Proof.Machine
end

section
/-! What a read that reaches no byte answers, what the port table answers, and what a data access costs (R73, R74, R90,
R91, R93, R98 to R102). -/

namespace Sys2Proof.Machine

/-! ## Open bus -/

/-- A field of a word is a shift and a mask. -/
theorem setWidth_extractLsb' (x : Word) (n : Nat) {m : Nat} (hm : m ≤ 32) :
    (x.extractLsb' n m).setWidth 32 = (x >>> n) &&& BitVec.ofNat 32 (2 ^ m - 1) := by
  have hpow : 2 ^ m ≤ 2 ^ 32 := Nat.pow_le_pow_right (by decide) hm
  have hmask : (2 ^ m - 1) % 2 ^ 32 = 2 ^ m - 1 := Nat.mod_eq_of_lt (by have := Nat.two_pow_pos m; omega)
  have hfield : x.toNat >>> n % 2 ^ m < 2 ^ 32 := Nat.lt_of_lt_of_le (Nat.mod_lt _ (Nat.two_pow_pos m)) hpow
  apply BitVec.eq_of_toNat_eq
  rw [BitVec.toNat_setWidth, BitVec.extractLsb'_toNat, Nat.mod_eq_of_lt hfield, BitVec.toNat_and,
    BitVec.toNat_ushiftRight, BitVec.toNat_ofNat, hmask, Nat.and_two_pow_sub_one_eq_mod]

/-- Alignment keeps the halfword lane (R82, R91). -/
theorem alignTo_half_lane (a : Word) : (alignTo .half a).toNat / 2 % 2 = a.toNat / 2 % 2 := by
  rw [alignTo_toNat, widthBytes, Nat.mul_div_cancel _ (by decide)]

/-- The lane of the latch that the address selects, as a shift and a mask (R91). -/
theorem openBus_alignTo (ob : Word) (w : Width) (a : Word) :
    openBus ob w (alignTo w a) =
      match w with
      | .byte => (ob >>> (8 * (a.toNat % 4))) &&& 0xFF#32
      | .half => (ob >>> (16 * (a.toNat / 2 % 2))) &&& 0xFFFF#32
      | .word => ob := by
  cases w with
  | byte => exact setWidth_extractLsb' ob _ (m := 8) (by decide)
  | half =>
    rw [openBus, alignTo_half_lane]
    exact setWidth_extractLsb' ob _ (m := 16) (by decide)
  | word => rfl

/-! ## A read of the port table -/

/-- A read sees the two bytes of WAITCNT and, outside the WAITCNT word, the readable port bytes (R93, R101). -/
theorem Bus.portReadable_isSome (b : Bus) (q : Nat) :
    (b.portReadable q).isSome = true ↔
      q = 0x204 ∨ q = 0x205 ∨ ((q < 0x204 ∨ 0x207 < q) ∧ ∃ p, portByteAt b.ports q = some p ∧ p.readable = true) := by
  cases hw : isWaitcntByte q with
  | true =>
    have hq := isWaitcntByte_iff.mp hw
    obtain rfl | rfl | rfl | rfl : q = 0x204 ∨ q = 0x205 ∨ q = 0x206 ∨ q = 0x207 := by omega
    all_goals simp [Bus.portReadable, hw]
  | false =>
    have hq := mt isWaitcntByte_iff.mpr (Bool.eq_false_iff.mp hw)
    simp only [show q ≠ 0x204 by omega, show q ≠ 0x205 by omega, show q < 0x204 ∨ 0x207 < q by omega, false_or,
      true_and]
    cases hp : portByteAt b.ports q with
    | none => simp [Bus.portReadable, hw, hp]
    | some p => cases hr : p.readable <;> simp [Bus.portReadable, hw, hp, hr]

theorem Bus.portReadable_outside (b : Bus) {q : Nat} {p : PortByte} (hq : q < 0x204 ∨ 0x207 < q)
    (hp : portByteAt b.ports q = some p) (hr : p.readable = true) :
    b.portReadable q = some (Config.portRead b.draws q p.value) := by
  have hw : isWaitcntByte q = false := Bool.eq_false_iff.mpr (mt isWaitcntByte_iff.mp (by omega))
  simp [Bus.portReadable, hw, hp, hr]

theorem Bus.portLane_readable {b : Bus} {q : Nat} {v : Byte} (h : b.portReadable q = some v) : b.portLane q = v := by
  simp [Bus.portLane, h]

theorem Bus.portLane_unreadable {b : Bus} {q : Nat} (h : ¬(b.portReadable q).isSome = true) :
    b.portLane q = byteOf b.ob (q % 4) := by
  simp [Bus.portLane, Option.not_isSome_iff_eq_none.mp h]

theorem byteOf_setWidth {n k : Nat} (x : BitVec n) (h : 8 * k + 8 ≤ 32) :
    byteOf (x.setWidth 32) k = x.extractLsb' (8 * k) 8 :=
  BitVec.extractLsb'_setWidth_of_le h

/-- Byte `k` of a port read is the lane at its offset (R77, R93). (`-Nat.reduceAdd` keeps the width of the appended lanes
a sum, as the library's lemmas about `++` ask for.) -/
theorem Bus.byteOf_portValue (b : Bus) (o : Nat) {w : Width} {k : Nat} (h : k < widthBytes w) :
    byteOf (b.portValue o w) k = b.portLane (o + k) := by
  cases w with
  | byte =>
    obtain rfl : k = 0 := by simpa [widthBytes] using h
    simp [Bus.portValue, byteOf_setWidth]
  | half =>
    obtain rfl | rfl : k = 0 ∨ k = 1 := by simp only [widthBytes] at h; omega
    all_goals simp [-Nat.reduceAdd, Bus.portValue, byteOf_setWidth, BitVec.extractLsb'_append_eq_of_le,
      BitVec.extractLsb'_append_eq_of_add_le]
  | word =>
    obtain rfl | rfl | rfl | rfl : k = 0 ∨ k = 1 ∨ k = 2 ∨ k = 3 := by simp only [widthBytes] at h; omega
    all_goals simp [-Nat.reduceAdd, Bus.portValue, byteOf, BitVec.extractLsb'_append_eq_of_le,
      BitVec.extractLsb'_append_eq_of_add_le]

theorem Bus.portValue_lt (b : Bus) (o : Nat) (w : Width) : (b.portValue o w).toNat < 2 ^ (8 * widthBytes w) := by
  have hlt : ∀ {n : Nat} (x : BitVec n), (x.setWidth 32).toNat < 2 ^ n := fun x =>
    Nat.lt_of_le_of_lt (BitVec.toNat_setWidth 32 x ▸ Nat.mod_le _ _) x.isLt
  cases w with
  | byte => exact hlt (b.portLane o)
  | half => exact hlt (b.portLane (o + 1) ++ b.portLane o)
  | word => exact (b.portValue o .word).isLt

theorem Bus.portTransfers_iff (b : Bus) (o : Nat) (w : Width) :
    b.portTransfers o w = true ↔ ∃ k < widthBytes w, (b.portReadable (o + k)).isSome = true := by
  simp [Bus.portTransfers]

/-- Settles O32: the branches of a read, and the lanes of a port read. -/
theorem openBusValues : Obligations.OpenBusValues := by
  intro b a w v x
  refine ⟨fun h => ?_, fun r hr hp ht => ?_, fun h => Bus.valueWrite_none v h⟩
  · have hx : x = (openBus b.ob w (alignTo w a), b) := by
      rcases h with h | ⟨r, hr, hp⟩
      · exact Bus.valueRead_none h
      · exact Bus.valueRead_past hr hp
    rw [hx]
    exact ⟨rfl, (openBus_alignTo b.ob w a).trans (by cases w <;> rfl)⟩
  · intro o readable
    have hx : x = b.portRead o w := Bus.valueRead_ports ⟨hr, hp⟩ ht
    have hreadable : ∀ q, readable q ↔ (b.portReadable q).isSome = true := fun q => (b.portReadable_isSome q).symm
    simp only [hreadable]
    rw [hx]
    refine ⟨b.portValue_lt o w, fun k hk => ?_, fun h => ?_, fun h => ?_⟩
    · have hlane : byteOf (b.portRead o w).1 k = b.portLane (o + k) := b.byteOf_portValue o hk
      rw [hlane]
      refine ⟨fun e => ?_, fun e => ?_, fun hq p hp hr => ?_, Bus.portLane_unreadable⟩
      · rw [e]; rfl
      · rw [e]; rfl
      · exact Bus.portLane_readable (b.portReadable_outside hq hp hr)
    · exact if_pos ((b.portTransfers_iff o w).mpr h)
    · exact if_neg fun ht => by
        obtain ⟨k, hk, hs⟩ := (b.portTransfers_iff o w).mp ht
        exact h k hk hs

/-! ## The cost of a data access -/

theorem waitFirst_field (wc : BitVec 16) (lo : Nat) :
    waitFirst (wc.extractLsb' lo 2).toNat = [4, 3, 2, 8].getD ((wc.toNat / 2 ^ lo) % 4) 0 := by
  have hv : (wc.extractLsb' lo 2).toNat = wc.toNat / 2 ^ lo % 4 := by
    rw [BitVec.extractLsb'_toNat, Nat.shiftRight_eq_div_pow]
  rw [hv]
  have hlt : wc.toNat / 2 ^ lo % 4 < 4 := Nat.mod_lt _ (by decide)
  generalize wc.toNat / 2 ^ lo % 4 = n at hlt
  interval_cases n <;> rfl

/-- The cost of an access as one expression, the waits being 0 in an undefined region (R99, R101). -/
theorem regionCost_eq (p : Params) (wc : BitVec 16) (r : Option Region) (w : Width) (sq : Bool) :
    regionCost p wc r w sq =
      costCycles (rowCost (waitRow p r) w sq) (r.elim 0 (firstWait wc)) (r.elim 0 (secondWait wc)) := by
  cases r <;> rfl

theorem Bus.costAt_data (b : Bus) (a : Word) (w : Width) (block : Bool) {r : Option Region}
    (hr : regionOf b.params (alignTo w a) = r) :
    b.costAt .data a w block =
      costCycles (rowCost (waitRow b.params r) w (b.sequential .data (alignTo w a) block))
        (r.elim 0 (firstWait b.waitcnt)) (r.elim 0 (secondWait b.waitcnt)) := by
  rw [Bus.costAt, Bus.accessCost_data, regionCost_eq, hr]

/-- The rows of the wait table with the waits that WAITCNT gives their regions (R98, R99, R101). -/
def waitRows (p : Params) (wc : BitVec 16) : List (Option Region × WaitRow × Nat × Nat) :=
  (none :: allRegions.map some).map fun r => (r, waitRow p r, r.elim 0 (firstWait wc), r.elim 0 (secondWait wc))

theorem mem_waitRows {p : Params} {wc : BitVec 16} {r : Option Region} {row : WaitRow} {n s : Nat}
    (h : (r, row, n, s) ∈ waitRows p wc) :
    row = waitRow p r ∧ n = r.elim 0 (firstWait wc) ∧ s = r.elim 0 (secondWait wc) := by
  obtain ⟨r', -, he⟩ := List.mem_map.mp h
  simp only [Prod.mk.injEq] at he
  obtain ⟨rfl, rfl, rfl, rfl⟩ := he
  exact ⟨rfl, rfl, rfl⟩

theorem waitRow_of_default {p : Params} (h : p.wait = WaitTable.default) (r : Option Region) :
    waitRow p r = waitRow Params.default r := by
  unfold waitRow
  rw [h]
  rfl

/-- A cartridge access: `1 + N` or `1 + S`, a word being two of them (R99). -/
theorem costCycles_cartridge (w : Width) (sq : Bool) (n s : Nat) :
    costCycles (rowCost WaitRow.cartridge w sq) n s =
      if w = .word then (if sq then 2 * (1 + s) else (1 + n) + (1 + s)) else if sq then 1 + s else 1 + n := by
  cases w <;> cases sq <;> simp [costCycles, rowCost, WaitRow.cartridge] <;> omega

theorem costCycles_saveMedia (w : Width) (sq : Bool) (n s : Nat) :
    costCycles (rowCost WaitRow.saveMedia w sq) n s = 1 + n := by
  cases w <;> cases sq <;> simp [costCycles, rowCost, WaitRow.saveMedia]

theorem costCycles_fixed (c8 c16 c32 : Nat) (w : Width) (sq : Bool) (n s : Nat) :
    costCycles (rowCost (WaitRow.fixed c8 c16 c32) w sq) n s = match w with | .byte => c8 | .half => c16 | .word => c32 := by
  cases w <;> cases sq <;> simp [costCycles, rowCost, WaitRow.fixed]

/-- Whether the default table gives a region these costs for the three widths, whatever the sequentiality (R98). -/
def isDefaultFixed (e : Option Region × Nat × Nat × Nat) : Bool :=
  decide (waitRow Params.default e.1 = WaitRow.fixed e.2.1 e.2.2.1 e.2.2.2)

/-- Settles O33: the row and the waits of each region, then the default table's three kinds of row. -/
theorem dataAccessCosts : Obligations.DataAccessCosts := by
  intro b a w block sq first s0 s1 s2 region t
  have hn0 : firstWait b.waitcnt .rom0 = first 2 := waitFirst_field b.waitcnt 2
  have hn1 : firstWait b.waitcnt .rom1 = first 5 := waitFirst_field b.waitcnt 5
  have hn2 : firstWait b.waitcnt .rom2 = first 8 := waitFirst_field b.waitcnt 8
  have hns : firstWait b.waitcnt .save = first 0 := waitFirst_field b.waitcnt 0
  refine ⟨fun row n s h => ?_, fun ht => ⟨fun n s h => ?_, fun h => ?_, fun c8 c16 c32 h => ?_⟩⟩
  · rw [← hn0, ← hn1, ← hn2, ← hns] at h
    obtain ⟨rfl, rfl, rfl⟩ := mem_waitRows (p := b.params) (wc := b.waitcnt) h
    intro e
    have he : e = rowCost (waitRow b.params region) w sq := by clear_value sq; cases w <;> cases sq <;> rfl
    rw [he]
    exact b.costAt_data a w block rfl
  · rw [← hn0, ← hn1, ← hn2] at h
    simp only [List.mem_cons, List.not_mem_nil, or_false, Prod.mk.injEq] at h
    rcases h with ⟨hr, rfl, rfl⟩ | ⟨hr, rfl, rfl⟩ | ⟨hr, rfl, rfl⟩ <;>
      exact (b.costAt_data a w block hr).trans (waitRow_of_default ht _ ▸ costCycles_cartridge w sq _ _)
  · rw [← hns, b.costAt_data a w block h, waitRow_of_default ht]
    exact costCycles_saveMedia w sq _ _
  · have hfixed : isDefaultFixed (region, c8, c16, c32) = true := List.all_eq_true.mp (by decide) _ h
    rw [b.costAt_data a w block rfl, waitRow_of_default ht, of_decide_eq_true hfixed]
    exact (costCycles_fixed c8 c16 c32 w sq _ _).trans (by cases w <;> rfl)

end Sys2Proof.Machine
end

section
/-! Conditions: the condition table, the guard of every conditional instruction, the unallocated spaces
(R138 to R141, R145, R253). -/

namespace Sys2Proof.Machine

/-- Settles O7: each row of the table is its flags' Boolean, read as a proposition. -/
theorem conditionTable : Obligations.ConditionTable := fun p =>
  ⟨⟨rfl, .rfl⟩,
    ⟨rfl, .of_eq (Bool.not_eq_true' _)⟩,
    ⟨rfl, .rfl⟩,
    ⟨rfl, .of_eq (Bool.not_eq_true' _)⟩,
    ⟨rfl, .rfl⟩,
    ⟨rfl, .of_eq (Bool.not_eq_true' _)⟩,
    ⟨rfl, .rfl⟩,
    ⟨rfl, .of_eq (Bool.not_eq_true' _)⟩,
    ⟨rfl, by simp [Cond.passes]⟩,
    ⟨rfl, by simp [Cond.passes]⟩,
    ⟨rfl, beq_iff_eq⟩,
    ⟨rfl, bne_iff_ne⟩,
    ⟨rfl, by simp [Cond.passes]⟩,
    ⟨rfl, by simp [Cond.passes]⟩,
    ⟨rfl, rfl⟩, rfl⟩

/-- Every instruction with a condition field is a meaning under the guard of that condition (R138, R139). -/
theorem exec_guarded {i : Instr} {c : Cond} (h : condOf i = some c) : ∃ k, ∀ s, exec i s = guarded c s k := by
  cases i <;> cases h <;> exact ⟨_, fun _ => rfl⟩

/-- Settles O8: a guard whose condition fails answers the state it was given. -/
theorem failedConditionHasNoEffect : Obligations.FailedConditionHasNoEffect := by
  intro i c s hc hf
  obtain ⟨k, hk⟩ := exec_guarded hc
  rw [hk, guarded_of_fails hf]

/-- Both outcomes of a guard (R139). -/
theorem guarded_outcomes (c : Cond) (s : State) (k : State → Result) :
    (Cond.passes c s.cpsr = true → guarded c s k = k s) ∧ (Cond.passes c s.cpsr = false → guarded c s k = .next s) :=
  ⟨guarded_of_passes, guarded_of_fails⟩

/-- Settles O39: the meaning under the guard is the space's fault. -/
theorem unallocatedSpacesFault : Obligations.UnallocatedSpacesFault := fun c s =>
  ⟨fun _ _ _ => guarded_outcomes c s fun _ => .fault .unallocatedMultiply,
    fun _ _ _ _ => guarded_outcomes c s fun _ => .fault .unallocatedHalfwordStore,
    fun _ _ _ _ _ => guarded_outcomes c s fun _ => .fault .unallocatedPsrTransfer⟩

end Sys2Proof.Machine
end

section
/-! No meaning answers with a refusal: the bus, the shared operations, then every instruction (R144 to R148). -/

namespace Sys2Proof.Machine

/-- A next value or a fault. -/
def Answered {α φ : Type} (r : Host.Outcome α φ Refusal) : Prop := ∀ e, r ≠ .refused e

section
variable {α β φ : Type}

theorem Answered.next (x : α) : Answered (.next x : Host.Outcome α φ Refusal) := nofun

theorem Answered.fault (f : φ) : Answered (.fault f : Host.Outcome α φ Refusal) := nofun

theorem Answered.ite {c : Prop} [Decidable c] {r r' : Host.Outcome α φ Refusal} (h : Answered r) (h' : Answered r') :
    Answered (if c then r else r') := by
  split
  · exact h
  · exact h'

/-- A check that faults or lets the instruction run. -/
theorem Answered.check {c : Prop} [Decidable c] {f : φ} {r : Host.Outcome α φ Refusal} (h : Answered r) :
    Answered (if c then .fault f else r) := .ite (.fault f) h

theorem Answered.andThen {r : Host.Outcome α φ Refusal} {k : α → Host.Outcome β φ Refusal} (hr : Answered r)
    (hk : ∀ x, Answered (k x)) : Answered (andThen r k) := by
  cases r with
  | next x => exact hk x
  | fault f => exact .fault f
  | refused e => exact absurd rfl (hr e)

/-- Going on to a next value for certain. -/
theorem Answered.map {r : Host.Outcome α φ Refusal} (hr : Answered r) (f : α → β) :
    Answered (Machine.andThen r fun x => .next (f x)) := hr.andThen fun x => .next (f x)

theorem Answered.onBus {s : State} {r : BusResult α} {k : α → Host.Outcome β Fault Refusal} (hr : Answered r)
    (hk : ∀ x, Answered (k x)) : Answered (s.onBus r k) := by
  cases r with
  | next x => exact hk x
  | fault b => exact .fault _
  | refused e => exact absurd rfl (hr e)

end

theorem Answered.leaving {s : State} {r : Result} (hr : Answered r) : Answered (s.leaving r) := by
  cases r with
  | next t => exact .next t
  | fault f => exact .fault _
  | refused e => exact absurd rfl (hr e)

theorem Answered.guarded {c : Cond} {s : State} {k : State → Result} (h : Answered (k s)) : Answered (guarded c s k) :=
  .ite h (.next s)

/-! ## The bus -/

theorem Bus.schedule_answered (b : Bus) (rel cat cb ctx : Nat) (recursive : Bool) :
    Answered (b.schedule rel cat cb ctx recursive) := .ite (.next _) (.check (.next _))

theorem Bus.perform_answered (b : Bus) (limit : Option Nat) (a : Action) : Answered (b.perform limit a) := by
  cases a with
  | schedule rel cat cb ctx recursive => exact .ite ((b.schedule_answered rel cat cb ctx recursive).map _) (.next _)
  | _ => exact .next _

theorem runEach_answered {run : Action → Bus → BusResult Bus} (h : ∀ a b, Answered (run a b)) (acts : List Action) (b : Bus) :
    Answered (runEach run acts b) := by
  induction acts generalizing b with
  | nil => exact .next b
  | cons a acts ih => exact (h a b).andThen ih

theorem runActions_answered (nesting : Nat) (limit : Option Nat) (acts : List Action) (b : Bus) :
    Answered (runActions nesting limit acts b) := by
  induction nesting generalizing acts b with
  | zero => exact runEach_answered (fun a b => (b.perform_answered limit a).map _) acts b
  | succ d ih => exact runEach_answered (fun a b => (b.perform_answered limit a).andThen fun x => ih x.1 x.2) acts b

theorem Bus.call_answered (b : Bus) (calls : List DeviceCall) : Answered (b.call calls) := by
  cases calls with
  | nil => exact .next b
  | cons c calls => exact runActions_answered _ none _ _

theorem fireDue_answered (n : Nat) (b : Bus) : Answered (fireDue n b) := by
  induction n generalizing b with
  | zero => exact .next b
  | succ n ih =>
    unfold fireDue
    split
    · exact .next b
    · exact ((runActions_answered _ _ _ _).map _).andThen ih

theorem Bus.advance_answered (b : Bus) (c : Nat) : Answered (b.advance c) := by
  unfold Bus.advance
  split
  · exact .next _
  · exact fireDue_answered _ _

theorem Bus.read_answered (b : Bus) (k : AccessKind) (a : Word) (w : Width) (cont : Bool) : Answered (b.read k a w cont) :=
  (Bus.call_answered _ _).andThen fun b' => (b'.advance_answered _).map _

theorem Bus.write_answered (b : Bus) (a : Word) (w : Width) (v : Word) (cont : Bool) : Answered (b.write a w v cont) :=
  (Bus.call_answered _ _).andThen fun b' => b'.advance_answered _

theorem Bus.swap_answered (b : Bus) (a : Word) (w : Width) (v : Word) : Answered (b.swap a w v) :=
  (Bus.call_answered _ _).andThen fun _ => (Bus.call_answered _ _).andThen fun b2 => (b2.advance_answered _).map _

/-! ## Memory -/

theorem State.memRead_answered (s : State) (a : Word) (w : Width) (block : Bool) : Answered (s.memRead a w block) :=
  (s.bus.read_answered .data a w block).onBus fun _ => .next _

theorem State.memWrite_answered (s : State) (a : Word) (w : Width) (v : Word) (block : Bool) :
    Answered (s.memWrite a w v block) := (s.bus.write_answered a w v block).onBus fun _ => .next _

theorem State.swap_answered (s : State) (a : Word) (w : Width) (v : Word) : Answered (s.swap a w v) :=
  (s.bus.swap_answered a w v).onBus fun _ => .next _

/-- A load operation that is never refused. -/
def LoadAnswered (load : State → Word → Host.Outcome (Word × State) Fault Refusal) : Prop :=
  ∀ (s : State) (a : Word), Answered (load s a)

theorem loadAligned_answered : LoadAnswered State.loadAligned := fun s a => s.memRead_answered a .word false

theorem loadByte_answered : LoadAnswered State.loadByte := fun s a => s.memRead_answered a .byte false

theorem loadWord_answered : LoadAnswered State.loadWord := fun s a => (s.memRead_answered a .word false).map _

theorem loadSignedByte_answered : LoadAnswered State.loadSignedByte := fun s a => (s.memRead_answered a .byte false).map _

theorem loadHalf_answered : LoadAnswered State.loadHalf := fun s a => (s.memRead_answered a .half false).map _

theorem loadSignedHalf_answered : LoadAnswered State.loadSignedHalf := fun s a =>
  .ite (loadSignedByte_answered s a) ((s.memRead_answered a .half false).map _)

theorem loadList_answered (s : State) (regs : List Reg) (a : Word) (block : Bool) : Answered (loadList s regs a block) := by
  induction regs generalizing s a block with
  | nil => exact .next _
  | cons r regs ih => exact (s.memRead_answered a .word block).andThen fun x => (ih x.2 _ _).map _

theorem loadEach_answered (m : Mode) (mask : Word) (s : State) (regs : List Reg) (a : Word) (block : Bool) :
    Answered (loadEach m mask s regs a block) := by
  induction regs generalizing s a block with
  | nil => exact .next s
  | cons r regs ih => exact (s.memRead_answered a .word block).andThen fun x => ih _ _ _

theorem storeList_answered (s : State) (vals : List Word) (a : Word) (block : Bool) :
    Answered (storeList s vals a block) := by
  induction vals generalizing s a block with
  | nil => exact .next s
  | cons v vals ih => exact (s.memWrite_answered a .word v block).andThen fun t => ih t _ _

/-! ## Status registers and data processing -/

theorem State.exceptionReturn_answered (s : State) (a : Word) : Answered (s.exceptionReturn a) := by
  refine .map ?_ _
  unfold State.restoreCpsr
  split
  · exact .fault _
  · split
    · exact .fault _
    · exact .next _

theorem State.writeCpsr_answered (s : State) (mask : BitVec 4) (v : Word) : Answered (s.writeCpsr mask v) := by
  refine .ite ?_ (.next _)
  split
  · exact .fault _
  · exact .ite (.next _) (.fault _)

theorem State.writeSpsr_answered (s : State) (mask : BitVec 4) (v : Word) : Answered (s.writeSpsr mask v) := by
  unfold State.writeSpsr
  split
  · exact .fault _
  · exact .next _

theorem execMrs_answered (c : Cond) (r : Bool) (rd : Reg) (s : State) : Answered (execMrs c r rd s) := by
  refine .guarded (.check (.ite ?_ (.next _)))
  split
  · exact .fault _
  · exact .next _

theorem writeDp_answered (s : State) (rd : Reg) (sf : Bool) (a : Alu) : Answered (writeDp s rd sf a) :=
  .ite (.ite (s.exceptionReturn_answered _) (.next _)) (.next _)

theorem writeCompare_answered (s : State) (rd : Reg) (a : Alu) : Answered (writeCompare s rd a) := .check (.next _)

theorem mulLongGuard_answered (s : State) (rdHi rdLo rs rm : Reg) : Answered (mulLongGuard rdHi rdLo rs rm (.next s)) :=
  .check (.check (.next s))

/-! ## Transfers -/

/-- What a single transfer does with its address is never refused. -/
def TransferAnswered (op : State → Transfer → Reg → Reg → Result) : Prop :=
  ∀ (s : State) (t : Transfer) (rn rd : Reg), Answered (op s t rn rd)

theorem opLdr_answered : TransferAnswered opLdr := fun s _ _ _ => (loadWord_answered s _).map _

theorem opStr_answered : TransferAnswered opStr := fun s _ _ _ => (s.memWrite_answered _ _ _ _).map _

theorem opLoadNarrow_answered {load : State → Word → Host.Outcome (Word × State) Fault Refusal} (hl : LoadAnswered load) :
    TransferAnswered (opLoadNarrow load) := fun s _ _ _ => .check ((hl s _).map _)

theorem opStoreNarrow_answered (w : Width) : TransferAnswered (opStoreNarrow w) := fun s _ _ _ =>
  .check ((s.memWrite_answered _ _ _ _).map _)

section
variable {op : State → Transfer → Reg → Reg → Result} (hop : TransferAnswered op)
include hop

theorem TransferAnswered.singleImm (c : Cond) (p u w : Bool) (rn rd : Reg) (off : BitVec 12) (s : State) :
    Answered (singleImm op c p u w rn rd off s) := .guarded (.check (hop _ _ _ _))

theorem TransferAnswered.singleReg (c : Cond) (p u w : Bool) (rn rd : Reg) (n : BitVec 5) (sh : ShiftKind) (rm : Reg)
    (s : State) : Answered (singleReg op c p u w rn rd n sh rm s) := .guarded (.check (.check (hop _ _ _ _)))

theorem TransferAnswered.halfImm (c : Cond) (p u w : Bool) (rn rd : Reg) (immH immL : BitVec 4) (s : State) :
    Answered (halfImm op c p u w rn rd immH immL s) := .guarded (.check (.check (hop _ _ _ _)))

theorem TransferAnswered.halfReg (c : Cond) (p u w : Bool) (rn rd rm : Reg) (s : State) :
    Answered (halfReg op c p u w rn rd rm s) := .guarded (.check (.check (.check (hop _ _ _ _))))

end

theorem LoadAnswered.thumbLoad {load : State → Word → Host.Outcome (Word × State) Fault Refusal} (hl : LoadAnswered load)
    (s : State) (rd : LowReg) (a : Word) : Answered (thumbLoad load s rd a) := (hl s a).map _

theorem swap_answered (rn rd rm : Reg) (s : State) (w : Width) (a v : Word) (k : Word × State → State) :
    Answered (swapGuard rn rd rm (andThen (s.swap a w v) fun x => .next (k x))) :=
  .check (.check ((s.swap_answered a w v).map k))

/-! ## Every instruction -/

/-- Every meaning answers a next state or a fault. -/
theorem exec_answered (i : Instr) (s : State) : Answered (exec i s) := by
  unfold exec
  cases i
  case cond1111 => exact .fault _
  case unallocHalfStore | unallocMul | unallocPsr => exact .guarded (.fault _)
  -- Branches and exceptions
  case undefined | stc | ldc | cdp | mcr | mrc | swi | bx | b | bl | tBCond => exact .guarded (.next _)
  case tUndef1011 | tUndef1110 | tUndef11101 | tSwi | tB | tBlPrefix | tBlSuffix => exact .next _
  case tBx => exact .check (.next _)
  -- Multiplies
  case mul | mla => exact .guarded (.check (.check (.next _)))
  case umull | umlal | smull | smlal => exact .guarded (mulLongGuard_answered _ _ _ _ _)
  case tMul => exact .check (.next _)
  -- Status registers
  case mrs => exact execMrs_answered _ _ _ s
  case msrCpsrReg => exact .guarded (.check (s.writeCpsr_answered _ _))
  case msrSpsrReg => exact .guarded (.check (s.writeSpsr_answered _ _))
  case msrCpsrImm => exact .guarded (s.writeCpsr_answered _ _)
  case msrSpsrImm => exact .guarded (s.writeSpsr_answered _ _)
  -- ARM data processing
  case andImm | andImmShift | eorImm | eorImmShift | subImm | subImmShift | rsbImm | rsbImmShift | addImm | addImmShift |
      adcImm | adcImmShift | sbcImm | sbcImmShift | rscImm | rscImmShift | orrImm | orrImmShift | movImm | movImmShift |
      bicImm | bicImmShift | mvnImm | mvnImmShift =>
    exact .guarded (writeDp_answered _ _ _ _)
  case andRegShift | eorRegShift | subRegShift | rsbRegShift | addRegShift | adcRegShift | sbcRegShift | rscRegShift |
      orrRegShift | movRegShift | bicRegShift | mvnRegShift =>
    exact .guarded (.check (writeDp_answered _ _ _ _))
  case tstImm | tstImmShift | teqImm | teqImmShift | cmpImm | cmpImmShift | cmnImm | cmnImmShift =>
    exact .guarded (writeCompare_answered _ _ _)
  case tstRegShift | teqRegShift | cmpRegShift | cmnRegShift => exact .guarded (.check (writeCompare_answered _ _ _))
  -- ARM transfers
  case swp | swpb => exact .guarded (swap_answered _ _ _ _ _ _ _ _)
  case strImm | strtImm => exact opStr_answered.singleImm _ _ _ _ _ _ _ s
  case strReg | strtReg => exact opStr_answered.singleReg _ _ _ _ _ _ _ _ _ s
  case ldrImm | ldrtImm => exact opLdr_answered.singleImm _ _ _ _ _ _ _ s
  case ldrReg | ldrtReg => exact opLdr_answered.singleReg _ _ _ _ _ _ _ _ _ s
  case strbImm | strbtImm => exact (opStoreNarrow_answered .byte).singleImm _ _ _ _ _ _ _ s
  case strbReg | strbtReg => exact (opStoreNarrow_answered .byte).singleReg _ _ _ _ _ _ _ _ _ s
  case ldrbImm | ldrbtImm => exact (opLoadNarrow_answered loadByte_answered).singleImm _ _ _ _ _ _ _ s
  case ldrbReg | ldrbtReg => exact (opLoadNarrow_answered loadByte_answered).singleReg _ _ _ _ _ _ _ _ _ s
  case strhImm => exact (opStoreNarrow_answered .half).halfImm _ _ _ _ _ _ _ _ s
  case strhReg => exact (opStoreNarrow_answered .half).halfReg _ _ _ _ _ _ _ s
  case ldrhImm => exact (opLoadNarrow_answered loadHalf_answered).halfImm _ _ _ _ _ _ _ _ s
  case ldrhReg => exact (opLoadNarrow_answered loadHalf_answered).halfReg _ _ _ _ _ _ _ s
  case ldrsbImm => exact (opLoadNarrow_answered loadSignedByte_answered).halfImm _ _ _ _ _ _ _ _ s
  case ldrsbReg => exact (opLoadNarrow_answered loadSignedByte_answered).halfReg _ _ _ _ _ _ _ s
  case ldrshImm => exact (opLoadNarrow_answered loadSignedHalf_answered).halfImm _ _ _ _ _ _ _ _ s
  case ldrshReg => exact (opLoadNarrow_answered loadSignedHalf_answered).halfReg _ _ _ _ _ _ _ s
  case stm => exact .guarded (.check ((storeList_answered _ _ _ _).map _))
  case ldm => exact .guarded (.check ((loadList_answered _ _ _ _).map _))
  case stmUser => exact .guarded (.check (.check (.check (storeList_answered _ _ _ _))))
  case ldmUser => exact .guarded (.check (.check ((loadList_answered _ _ _ _).map _)))
  case ldmRestore =>
    exact .guarded (.check ((loadList_answered _ _ _ _).andThen fun x => (State.exceptionReturn_answered _ _).leaving))
  -- Thumb data processing
  case tAddReg | tSubReg | tAddImm3 | tSubImm3 | tLslImm | tLsrImm | tAsrImm | tMovImm8 | tAddImm8 | tSubImm8 | tAnd | tEor |
      tLslReg | tLsrReg | tAsrReg | tAdc | tSbc | tRor | tNeg | tOrr | tBic | tMvn | tCmpImm8 | tTst | tCmpReg | tCmn |
      tAddPc | tAddSp | tAdjSp =>
    exact .next _
  case tAddHi | tCmpHi | tMovHi => exact .check (.next _)
  -- Thumb transfers
  case tLdrPc => exact loadAligned_answered.thumbLoad s _ _
  case tLdrReg | tLdrImm | tLdrSp => exact loadWord_answered.thumbLoad s _ _
  case tLdrbReg | tLdrbImm => exact loadByte_answered.thumbLoad s _ _
  case tLdsbReg => exact loadSignedByte_answered.thumbLoad s _ _
  case tLdrhReg | tLdrhImm => exact loadHalf_answered.thumbLoad s _ _
  case tLdshReg => exact loadSignedHalf_answered.thumbLoad s _ _
  case tStrReg | tStrbReg | tStrhReg | tStrImm | tStrbImm | tStrhImm | tStrSp => exact s.memWrite_answered _ _ _ _
  case tPush => exact .check ((storeList_answered _ _ _ _).map _)
  case tPop => exact .check ((loadEach_answered _ _ _ _ _ _).map _)
  case tStmia => exact (storeList_answered _ _ _ _).map _
  case tLdmia => exact (loadList_answered _ _ _ _).map _

/-- Settles O55: what every meaning is made of answers. -/
theorem noInstructionIsRefused : Obligations.NoInstructionIsRefused := exec_answered

end Sys2Proof.Machine
end

section
/-! The fields of a word, the masks that select them, and the condition field (R10, R140, R141, R144). -/

namespace Sys2Proof

/-! ## Fields and masks -/

theorem fieldOf_toNat {n : Nat} (w : BitVec n) (hi lo : Nat) :
    fieldOf w.toNat hi lo = (w.extractLsb' lo (hi + 1 - lo)).toNat := by
  simp [fieldOf, Nat.shiftRight_eq_div_pow]

theorem fieldOf_lt (v hi lo : Nat) : fieldOf v hi lo < 2 ^ (hi + 1 - lo) := Nat.mod_lt _ (Nat.two_pow_pos _)

theorem bitOf_iff (v i : Nat) : bitOf v i = true ↔ fieldOf v i i = 1 := by
  simp [bitOf, fieldOf]

theorem bitsOf_toNat (n v lo : Nat) : (bitsOf n v lo).toNat = v / 2 ^ lo % 2 ^ n := BitVec.toNat_ofNat _ _

/-- The word whose bits `hi` to `lo` are ones (R10). -/
def fieldMask (n hi lo : Nat) : BitVec n := ((BitVec.allOnes (hi + 1 - lo)).setWidth n) <<< lo

theorem getLsbD_fieldMask {n hi lo i : Nat} (h : i < n) :
    (fieldMask n hi lo).getLsbD i = decide (lo ≤ i ∧ i ≤ hi) := by
  simp only [fieldMask, BitVec.getLsbD_shiftLeft, BitVec.getLsbD_setWidth, BitVec.getLsbD_allOnes, h, decide_true,
    Bool.true_and]
  rw [Bool.eq_iff_iff]
  simp only [Bool.and_eq_true, Bool.not_eq_true', decide_eq_true_eq, decide_eq_false_iff_not]
  omega

/-- Two words agree under a mask that covers a field iff they agree in the field. -/
theorem and_fieldMask_inj {n : Nat} (w k : BitVec n) (hi lo : Nat) :
    w &&& fieldMask n hi lo = k &&& fieldMask n hi lo ↔ fieldOf w.toNat hi lo = fieldOf k.toNat hi lo := by
  rw [fieldOf_toNat, fieldOf_toNat, BitVec.toNat_inj]
  refine ⟨fun h => BitVec.eq_of_getLsbD_eq fun i hi' => ?_, fun h => BitVec.eq_of_getLsbD_eq fun i hi' => ?_⟩
  · simp only [BitVec.getLsbD_extractLsb', hi', decide_true, Bool.true_and]
    by_cases hn : lo + i < n
    · have := congrArg (·.getLsbD (lo + i)) h
      simpa [getLsbD_fieldMask hn, show lo + i ≤ hi by omega] using this
    · rw [BitVec.getLsbD_of_ge _ _ (by omega), BitVec.getLsbD_of_ge _ _ (by omega)]
  · rw [BitVec.getLsbD_and, BitVec.getLsbD_and, getLsbD_fieldMask hi']
    by_cases hb : lo ≤ i ∧ i ≤ hi
    · have := congrArg (·.getLsbD (i - lo)) h
      simpa [hb, show i - lo < hi + 1 - lo by omega, Nat.add_sub_of_le hb.1] using this
    · simp [hb]

theorem and_eq_of_and_or_eq {n : Nat} {w k m m' : BitVec n} (h : w &&& (m ||| m') = k &&& (m ||| m')) :
    w &&& m = k &&& m := by
  have hm : m = (m ||| m') &&& m := by
    ext i hi
    cases hb : m[i] <;> simp [hb]
  rw [hm, ← BitVec.and_assoc, h, BitVec.and_assoc]

/-- Two words agree under the union of two masks iff they agree under each. -/
theorem and_or_inj {n : Nat} (w k m m' : BitVec n) :
    w &&& (m ||| m') = k &&& (m ||| m') ↔ w &&& m = k &&& m ∧ w &&& m' = k &&& m' := by
  constructor
  · intro h
    exact ⟨and_eq_of_and_or_eq h, and_eq_of_and_or_eq (m' := m) (by rwa [BitVec.or_comm])⟩
  · rintro ⟨h, h'⟩
    rw [BitVec.and_or_distrib_left, BitVec.and_or_distrib_left, h, h']

/-- The mask of a list of fields, each with its value (R144, R146). -/
def fieldsMask (n : Nat) (fs : List (Nat × Nat × Nat)) : BitVec n := fs.foldr (fun f m => fieldMask n f.1 f.2.1 ||| m) 0#n

theorem and_fieldsMask_inj {n : Nat} (w k : BitVec n) (fs : List (Nat × Nat × Nat)) :
    w &&& fieldsMask n fs = k &&& fieldsMask n fs ↔
      ∀ f ∈ fs, fieldOf w.toNat f.1 f.2.1 = fieldOf k.toNat f.1 f.2.1 := by
  induction fs with
  | nil => simp [fieldsMask]
  | cons f fs ih =>
    rw [List.forall_mem_cons, ← ih, ← and_fieldMask_inj]
    exact and_or_inj w k _ _

/-- A mask and value test asks for the values of the mask's fields (R144, R146). -/
theorem masked_iff {n : Nat} (w : BitVec n) {m k : BitVec n} (fs : List (Nat × Nat × Nat))
    (h : fieldsMask n fs = m ∧ k &&& m = k ∧ ∀ f ∈ fs, fieldOf k.toNat f.1 f.2.1 = f.2.2) :
    w &&& m = k ↔ ∀ f ∈ fs, fieldOf w.toNat f.1 f.2.1 = f.2.2 := by
  obtain ⟨rfl, hk, hv⟩ := h
  calc w &&& fieldsMask n fs = k
    _ ↔ w &&& fieldsMask n fs = k &&& fieldsMask n fs := by rw [hk]
    _ ↔ ∀ f ∈ fs, fieldOf w.toNat f.1 f.2.1 = fieldOf k.toNat f.1 f.2.1 := and_fieldsMask_inj w k fs
    _ ↔ ∀ f ∈ fs, fieldOf w.toNat f.1 f.2.1 = f.2.2 := forall₂_congr fun f hf => by rw [hv f hf]

/-- The upper part of a field. -/
theorem fieldOf_upper (v : Nat) {hi lo : Nat} (k : Nat) (h : lo + k ≤ hi) :
    fieldOf v hi (lo + k) = fieldOf v hi lo / 2 ^ k := by
  rw [fieldOf, fieldOf, show hi + 1 - lo = k + (hi + 1 - (lo + k)) by omega, pow_add, pow_add, ← Nat.div_div_eq_div_mul,
    Nat.mod_mul_right_div_self]

/-- The lower part of a field. -/
theorem fieldOf_lower (v : Nat) {hi lo : Nat} (k : Nat) (h : lo + k ≤ hi) :
    fieldOf v (lo + k) lo = fieldOf v hi lo % 2 ^ (k + 1) := by
  rw [fieldOf, fieldOf, Nat.mod_mod_of_dvd _ (pow_dvd_pow 2 (by omega)), show lo + k + 1 - lo = k + 1 by omega]

/-! ## The condition field -/

theorem Cond.ofCode_eq_none_iff : ∀ n < 16, (Cond.ofCode n = none ↔ n = 15) := by decide

theorem Cond.ofCode_eq_al_iff : ∀ n < 16, (Cond.ofCode n = some .al ↔ n = 14) := by decide

/-- The condition field of a word is 1111 where it names no condition (R140, R141). -/
theorem ofCode_field_eq_none_iff (w : BitVec 32) :
    Cond.ofCode (fieldOf w.toNat 31 28) = none ↔ w.extractLsb' 28 4 = 15#4 := by
  rw [Cond.ofCode_eq_none_iff _ (fieldOf_lt _ 31 28), fieldOf_toNat, ← BitVec.toNat_inj]
  rfl

end Sys2Proof
end

section
/-! ARM words: the reference classifier by the reduced key, and the decoder against it (R143 to R145). -/

namespace Sys2Proof

/-! ## The ARM classifier by the reduced key -/

/-- The tests of R144 from data processing on, by the two parts of the reduced key, bits 27:20 and 7:4 (R143). -/
def armTopCategory (h l : Nat) : ArmCategory :=
  if h / 64 = 0 then .dataProcessing
  else if h / 32 = 3 ∧ l % 2 = 1 then .undefined
  else if h / 64 = 1 then .singleTransfer
  else if h / 32 = 4 then .blockTransfer
  else if h / 32 = 5 then .branch
  else if h / 32 = 6 ∨ h / 16 = 14 then .coprocessor
  else .softwareInterrupt

/-- The tests of R144 by the two parts of the reduced key (R143). -/
def armKeyCategory (h l : Nat) : ArmCategory :=
  if h = 0x12 ∧ l = 1 then .branchExchange
  else if h / 8 = 2 ∧ h % 4 = 0 ∧ l = 9 then .swap
  else if h / 4 = 0 ∧ l = 9 then .multiply
  else if h / 8 = 1 ∧ l = 9 then .multiplyLong
  else if h / 32 = 0 ∧ l = 11 ∨ h / 32 = 0 ∧ l = 13 ∨ h / 32 = 0 ∧ l = 15 then .halfword
  else if h / 32 = 0 ∧ l / 8 = 1 ∧ l % 2 = 1 then .unallocatedMultiply
  else armTopCategory h l

section
variable (v : Nat)

theorem field_27_22 : fieldOf v 27 22 = fieldOf v 27 20 / 4 := fieldOf_upper v 2 (by decide)
theorem field_27_23 : fieldOf v 27 23 = fieldOf v 27 20 / 8 := fieldOf_upper v 3 (by decide)
theorem field_27_24 : fieldOf v 27 24 = fieldOf v 27 20 / 16 := fieldOf_upper v 4 (by decide)
theorem field_27_25 : fieldOf v 27 25 = fieldOf v 27 20 / 32 := fieldOf_upper v 5 (by decide)
theorem field_27_26 : fieldOf v 27 26 = fieldOf v 27 20 / 64 := fieldOf_upper v 6 (by decide)
theorem field_21_20 : fieldOf v 21 20 = fieldOf v 27 20 % 4 := fieldOf_lower v 1 (by decide)
theorem field_24_20 : fieldOf v 24 20 = fieldOf v 27 20 % 32 := fieldOf_lower v 4 (by decide)
theorem field_24_23 : fieldOf v 24 23 = fieldOf v 27 20 / 8 % 4 := field_27_23 v ▸ fieldOf_lower v 1 (by decide)
theorem field_22_21 : fieldOf v 22 21 = fieldOf v 22 20 / 2 := fieldOf_upper v 1 (by decide)
theorem field_22_20 : fieldOf v 22 20 = fieldOf v 27 20 % 8 := fieldOf_lower v 2 (by decide)
theorem field_6_5 : fieldOf v 6 5 = fieldOf v 7 5 % 4 := fieldOf_lower v 1 (by decide)
theorem field_7_5 : fieldOf v 7 5 = fieldOf v 7 4 / 2 := fieldOf_upper v 1 (by decide)
theorem field_20_20 : fieldOf v 20 20 = fieldOf v 27 20 % 2 := fieldOf_lower v 0 (by decide)
theorem field_24_24 : fieldOf v 24 24 = fieldOf v 27 20 / 16 % 2 := field_27_24 v ▸ fieldOf_lower v 0 (by decide)
theorem field_25_25 : fieldOf v 25 25 = fieldOf v 27 20 / 32 % 2 := field_27_25 v ▸ fieldOf_lower v 0 (by decide)
theorem field_7_7 : fieldOf v 7 7 = fieldOf v 7 4 / 8 := fieldOf_upper v 3 (by decide)
theorem field_4_4 : fieldOf v 4 4 = fieldOf v 7 4 % 2 := fieldOf_lower v 0 (by decide)

end

section
variable {h l : Nat}

/-- The tests before data processing are for bits 27:25 = 000. -/
theorem armKeyCategory_of_ne (hh : h / 32 ≠ 0) : armKeyCategory h l = armTopCategory h l := by
  unfold armKeyCategory
  iterate 6 rw [if_neg (by omega)]

theorem armKeyCategory_halfword (hh : h / 32 = 0) (hl : l = 11 ∨ l = 13 ∨ l = 15) : armKeyCategory h l = .halfword := by
  unfold armKeyCategory
  iterate 4 rw [if_neg (by omega)]
  rw [if_pos (by omega)]

theorem armKeyCategory_unallocatedMultiply (hh : h / 32 = 0) (hl : l = 9)
    (hop : h / 4 ≠ 0 ∧ h / 8 ≠ 1 ∧ h ≠ 16 ∧ h ≠ 20) : armKeyCategory h l = .unallocatedMultiply := by
  unfold armKeyCategory
  iterate 5 rw [if_neg (by omega)]
  rw [if_pos (by omega)]

/-- Neither BX nor, with bits 27:25 = 000, a word with bits 7 and 4 set. -/
theorem armKeyCategory_dataProcessing (hh : h / 64 = 0) (hl : h / 32 ≠ 0 ∨ ¬(l / 8 = 1 ∧ l % 2 = 1))
    (hx : ¬(h = 0x12 ∧ l = 1)) : armKeyCategory h l = .dataProcessing := by
  unfold armKeyCategory
  iterate 6 rw [if_neg (by omega)]
  exact if_pos hh

theorem armKeyCategory_undefined (hh : h / 32 = 3) (hl : l % 2 = 1) : armKeyCategory h l = .undefined := by
  rw [armKeyCategory_of_ne (by omega), armTopCategory, if_neg (by omega), if_pos ⟨hh, hl⟩]

theorem armKeyCategory_singleTransfer (hh : h / 64 = 1) (hl : h / 32 ≠ 3 ∨ l % 2 ≠ 1) :
    armKeyCategory h l = .singleTransfer := by
  rw [armKeyCategory_of_ne (by omega), armTopCategory, if_neg (by omega), if_neg (by omega), if_pos hh]

theorem armKeyCategory_blockTransfer (hh : h / 32 = 4) : armKeyCategory h l = .blockTransfer := by
  rw [armKeyCategory_of_ne (by omega), armTopCategory]
  iterate 3 rw [if_neg (by omega)]
  exact if_pos hh

theorem armKeyCategory_branch (hh : h / 32 = 5) : armKeyCategory h l = .branch := by
  rw [armKeyCategory_of_ne (by omega), armTopCategory]
  iterate 4 rw [if_neg (by omega)]
  exact if_pos hh

theorem armKeyCategory_coprocessor (hh : h / 32 = 6 ∨ h / 16 = 14) : armKeyCategory h l = .coprocessor := by
  rw [armKeyCategory_of_ne (by omega), armTopCategory]
  iterate 5 rw [if_neg (by omega)]
  exact if_pos hh

theorem armKeyCategory_softwareInterrupt (hh : h / 16 = 15) : armKeyCategory h l = .softwareInterrupt := by
  rw [armKeyCategory_of_ne (by omega), armTopCategory]
  iterate 6 rw [if_neg (by omega)]

end

/-- The ARM classifier looks at the reduced key alone (R143, R147). -/
theorem armClassify_eq (w : BitVec 32) :
    armClassify w = armKeyCategory (fieldOf w.toNat 27 20) (fieldOf w.toNat 7 4) := by
  have bx := masked_iff w (m := 0x0FF000F0#32) (k := 0x01200010#32) [(27, 20, 0x12), (7, 4, 1)] (by decide)
  have swp := masked_iff w (m := 0x0FB000F0#32) (k := 0x01000090#32) [(27, 23, 2), (21, 20, 0), (7, 4, 9)] (by decide)
  have mul := masked_iff w (m := 0x0FC000F0#32) (k := 0x00000090#32) [(27, 22, 0), (7, 4, 9)] (by decide)
  have mull := masked_iff w (m := 0x0F8000F0#32) (k := 0x00800090#32) [(27, 23, 1), (7, 4, 9)] (by decide)
  have halfB := masked_iff w (m := 0x0E0000F0#32) (k := 0x000000B0#32) [(27, 25, 0), (7, 4, 11)] (by decide)
  have halfD := masked_iff w (m := 0x0E0000F0#32) (k := 0x000000D0#32) [(27, 25, 0), (7, 4, 13)] (by decide)
  have halfF := masked_iff w (m := 0x0E0000F0#32) (k := 0x000000F0#32) [(27, 25, 0), (7, 4, 15)] (by decide)
  have unalloc := masked_iff w (m := 0x0E000090#32) (k := 0x00000090#32) [(27, 25, 0), (7, 7, 1), (4, 4, 1)] (by decide)
  have dataProc := masked_iff w (m := 0x0C000000#32) (k := 0x00000000#32) [(27, 26, 0)] (by decide)
  have undef := masked_iff w (m := 0x0E000010#32) (k := 0x06000010#32) [(27, 25, 3), (4, 4, 1)] (by decide)
  have single := masked_iff w (m := 0x0C000000#32) (k := 0x04000000#32) [(27, 26, 1)] (by decide)
  have block := masked_iff w (m := 0x0E000000#32) (k := 0x08000000#32) [(27, 25, 4)] (by decide)
  have br := masked_iff w (m := 0x0E000000#32) (k := 0x0A000000#32) [(27, 25, 5)] (by decide)
  have copT := masked_iff w (m := 0x0E000000#32) (k := 0x0C000000#32) [(27, 25, 6)] (by decide)
  have copR := masked_iff w (m := 0x0F000000#32) (k := 0x0E000000#32) [(27, 24, 14)] (by decide)
  simp only [armClassify, armKeyCategory, armTopCategory, bx, swp, mul, mull, halfB, halfD, halfF,
    unalloc, dataProc, undef, single, block, br, copT, copR, List.forall_mem_cons, List.not_mem_nil,
    false_imp_iff, implies_true, and_true, field_27_22, field_27_23, field_27_24, field_27_25,
    field_27_26, field_21_20, field_7_7, field_4_4]

/-! ## The ARM decoder -/

/-- A well-formed instruction of a category (R144). -/
def Instr.InClass (i : Instr) (k : ArmCategory) : Prop := i.wf = true ∧ i.armCategory = some k

theorem Instr.InClass.ite {p : Prop} [Decidable p] {i j : Instr} {k : ArmCategory} (hi : i.InClass k) (hj : j.InClass k) :
    (if p then i else j).InClass k := by
  split
  · exact hi
  · exact hj

section
variable (c : Cond) (v : Nat)

theorem decodeDpImm_class : (decodeDpImm c v).InClass .dataProcessing := by
  unfold decodeDpImm
  split <;> exact ⟨rfl, rfl⟩

theorem decodeDpImmShift_class : (decodeDpImmShift c v).InClass .dataProcessing := by
  unfold decodeDpImmShift
  split <;> exact ⟨rfl, rfl⟩

theorem decodeDpRegShift_class : (decodeDpRegShift c v).InClass .dataProcessing := by
  unfold decodeDpRegShift
  split <;> exact ⟨rfl, rfl⟩

/-- What is no user-mode variant has P = 1 or W = 0 (R240). -/
theorem preIndexed_or_not_writeBack {p w : Bool} (h : ¬(!p && w) = true) : (p || !w) = true := by
  simpa [or_iff_not_imp_left] using h

theorem decodeTransferImm_class : (decodeTransferImm c v).InClass .singleTransfer := by
  unfold decodeTransferImm
  split
  · exact .ite (.ite ⟨rfl, rfl⟩ ⟨rfl, rfl⟩) (.ite ⟨rfl, rfl⟩ ⟨rfl, rfl⟩)
  · rename_i h
    have hpw := preIndexed_or_not_writeBack h
    exact .ite (.ite ⟨hpw, rfl⟩ ⟨hpw, rfl⟩) (.ite ⟨hpw, rfl⟩ ⟨hpw, rfl⟩)

theorem decodeTransferReg_class : (decodeTransferReg c v).InClass .singleTransfer := by
  unfold decodeTransferReg
  split
  · exact .ite (.ite ⟨rfl, rfl⟩ ⟨rfl, rfl⟩) (.ite ⟨rfl, rfl⟩ ⟨rfl, rfl⟩)
  · rename_i h
    have hpw := preIndexed_or_not_writeBack h
    exact .ite (.ite ⟨hpw, rfl⟩ ⟨hpw, rfl⟩) (.ite ⟨hpw, rfl⟩ ⟨hpw, rfl⟩)

theorem decodeBlock_class : (decodeBlock c v).InClass .blockTransfer :=
  .ite (.ite (.ite ⟨rfl, rfl⟩ ⟨rfl, rfl⟩) ⟨rfl, rfl⟩) (.ite ⟨rfl, rfl⟩ ⟨rfl, rfl⟩)

theorem psrSpace_iff : psrSpace v = true ↔ fieldOf v 27 20 / 8 % 4 = 2 ∧ fieldOf v 27 20 % 2 = 0 := by
  have hbit := bitOf_iff v 20
  rw [field_20_20] at hbit
  simp only [psrSpace, Bool.and_eq_true, beq_iff_eq, Bool.not_eq_true', ← Bool.not_eq_true, hbit, field_24_23]
  omega

/-- The unallocated words of the immediate PSR space have bit 21 clear (R145). -/
theorem decodePsrImm_class (him : bitOf v 25 = true) : (decodePsrImm c v).InClass .dataProcessing := by
  unfold decodePsrImm
  split
  · exact .ite ⟨rfl, rfl⟩ ⟨rfl, rfl⟩
  · rename_i h
    have hop : (bitsOf 2 v 21).toNat % 2 = 0 := by
      rw [bitOf_iff, fieldOf] at h
      rw [bitsOf_toNat]
      omega
    exact ⟨by simp [Instr.wf, unallocPsrBits, him, hop], rfl⟩

/-- In the register PSR space BX has bits 7:4 = 0001 and op = 1001; what is neither MRS, MSR nor BX is unallocated, the
multiply and halfword spaces apart (R144, R145). -/
theorem decodePsrReg_class (hh : fieldOf v 27 20 / 32 = 0) (hs : psrSpace v = true)
    (hx : ¬(fieldOf v 7 4 / 8 = 1 ∧ fieldOf v 7 4 % 2 = 1)) :
    (decodePsrReg c v).InClass (armKeyCategory (fieldOf v 27 20) (fieldOf v 7 4)) := by
  have him : bitOf v 25 = false := by
    rw [Bool.eq_false_iff, ne_eq, bitOf_iff, field_25_25, hh]
    decide
  have hop : fieldOf v 22 21 = 1 ↔ fieldOf v 27 20 = 0x12 := by
    rw [psrSpace_iff] at hs
    rw [field_22_21, field_22_20]
    omega
  have hop' : (bitsOf 2 v 21).toNat = fieldOf v 22 21 := bitsOf_toNat 2 v 21
  have hnib : (bitsOf 4 v 4).toNat = fieldOf v 7 4 := bitsOf_toNat 4 v 4
  have hdp (h : ¬(fieldOf v 27 20 = 0x12 ∧ fieldOf v 7 4 = 1)) :=
    armKeyCategory_dataProcessing (by omega) (.inr hx) h
  unfold decodePsrReg
  generalize fieldOf v 7 4 = nib at *
  split
  · rw [hdp (by omega)]
    exact .ite (.ite ⟨rfl, rfl⟩ ⟨rfl, rfl⟩) ⟨rfl, rfl⟩
  · split
    · rename_i h
      rw [hop.mp (by simpa using h)]
      exact ⟨rfl, rfl⟩
    · rename_i h
      rw [beq_iff_eq, hop] at h
      rw [hdp (by omega)]
      exact ⟨by simpa [Instr.wf, unallocPsrBits, him, hop', hnib, hop] using h, rfl⟩
  · rename_i h0 h1
    rw [imp_false] at h0 h1
    rw [hdp (by omega)]
    refine ⟨?_, rfl⟩
    simp [Instr.wf, unallocPsrBits, him, hnib, h0, h1]
    omega

/-- The multiplies, swaps, halfword transfers and the two unallocated spaces among them (R144, R145, R253). -/
theorem decodeExtra_class (hh : fieldOf v 27 20 / 32 = 0) (hl : fieldOf v 7 4 = 9 + 2 * fieldOf v 6 5) :
    (decodeExtra c v).InClass (armKeyCategory (fieldOf v 27 20) (fieldOf v 7 4)) := by
  have hop : fieldOf v 27 20 = fieldOf v 24 20 := by
    rw [field_24_20]
    omega
  have hbits : (bitsOf 5 v 20).toNat = fieldOf v 24 20 := bitsOf_toNat 5 v 20
  have hsh : fieldOf v 6 5 < 4 := fieldOf_lt v 6 5
  rw [hl, hop]
  rw [hop] at hh
  unfold decodeExtra
  generalize fieldOf v 24 20 = op at *
  generalize fieldOf v 6 5 = sh at *
  split
  · split
    case h_15 =>
      simp only [imp_false] at *
      have hrest : op / 4 ≠ 0 ∧ op / 8 ≠ 1 ∧ op ≠ 16 ∧ op ≠ 20 := by omega
      rw [armKeyCategory_unallocatedMultiply hh rfl hrest]
      exact ⟨by simpa [Instr.wf, unallocMulOp, hbits, and_assoc] using hrest, rfl⟩
    all_goals exact ⟨rfl, rfl⟩
  · rw [armKeyCategory_halfword hh (by decide)]
    exact .ite (.ite ⟨rfl, rfl⟩ ⟨rfl, rfl⟩) (.ite ⟨rfl, rfl⟩ ⟨rfl, rfl⟩)
  · rw [armKeyCategory_halfword hh (by decide)]
    exact .ite (.ite ⟨rfl, rfl⟩ ⟨rfl, rfl⟩) ⟨rfl, rfl⟩
  · simp only [imp_false] at *
    rw [armKeyCategory_halfword hh (by omega)]
    exact .ite (.ite ⟨rfl, rfl⟩ ⟨rfl, rfl⟩) ⟨rfl, rfl⟩

theorem decodeCoprocessor_class (hh : fieldOf v 27 20 / 32 = 7) :
    (decodeCoprocessor c v).InClass (armKeyCategory (fieldOf v 27 20) (fieldOf v 7 4)) := by
  unfold decodeCoprocessor
  split
  · rename_i h
    rw [bitOf_iff, field_24_24] at h
    rw [armKeyCategory_softwareInterrupt (by omega)]
    exact ⟨rfl, rfl⟩
  · rename_i h
    rw [bitOf_iff, field_24_24] at h
    rw [armKeyCategory_coprocessor (by omega)]
    exact .ite (.ite ⟨rfl, rfl⟩ ⟨rfl, rfl⟩) ⟨rfl, rfl⟩

end

/-- A decoded ARM word is well-formed and of the category of its word (R144). -/
theorem decodeArm_class {w : BitVec 32} {c : Cond} (hc : Cond.ofCode (fieldOf w.toNat 31 28) = some c) :
    (decodeArm w).InClass (armClassify w) := by
  have hh : fieldOf w.toNat 27 20 < 256 := fieldOf_lt _ 27 20
  have hl : fieldOf w.toNat 7 4 < 16 := fieldOf_lt _ 7 4
  have h7 := bitOf_iff w.toNat 7
  have h4 := bitOf_iff w.toNat 4
  have h25 := bitOf_iff w.toNat 25
  rw [field_7_7] at h7
  rw [field_4_4] at h4
  rw [field_25_25] at h25
  rw [armClassify_eq]
  simp only [decodeArm, hc, field_27_25]
  split <;> rename_i h
  · split
    · rename_i hx
      rw [Bool.and_eq_true, h7, h4] at hx
      exact decodeExtra_class c _ h (by rw [field_6_5, field_7_5]; omega)
    · rename_i hx
      rw [Bool.and_eq_true, h7, h4] at hx
      split
      · rename_i hs
        exact decodePsrReg_class c _ h hs hx
      · rename_i hs
        rw [psrSpace_iff] at hs
        rw [armKeyCategory_dataProcessing (by omega) (.inr hx) (by omega)]
        exact .ite (decodeDpRegShift_class c _) (decodeDpImmShift_class c _)
  · rw [armKeyCategory_dataProcessing (by omega) (.inl (by omega)) (by omega)]
    exact .ite (decodePsrImm_class c _ (h25.mpr (by omega))) (decodeDpImm_class c _)
  · rw [armKeyCategory_singleTransfer (by omega) (.inl (by omega))]
    exact decodeTransferImm_class c _
  · split
    · rename_i hx
      rw [armKeyCategory_undefined h (h4.mp hx)]
      exact ⟨rfl, rfl⟩
    · rename_i hx
      rw [armKeyCategory_singleTransfer (by omega) (.inr (mt h4.mpr hx))]
      exact decodeTransferReg_class c _
  · rw [armKeyCategory_blockTransfer h]
    exact decodeBlock_class c _
  · rw [armKeyCategory_branch h]
    exact .ite ⟨rfl, rfl⟩ ⟨rfl, rfl⟩
  · rw [armKeyCategory_coprocessor (.inl h)]
    exact .ite ⟨rfl, rfl⟩ ⟨rfl, rfl⟩
  · simp only [imp_false] at *
    exact decodeCoprocessor_class c _ (by omega)

/-- A word without a condition is the fault of R141 whatever its category. -/
theorem decodeArm_of_none {w : BitVec 32} (h : Cond.ofCode (fieldOf w.toNat 31 28) = none) :
    decodeArm w = .cond1111 (bitsOf 28 w.toNat 0) := by
  simp only [decodeArm, h]

theorem decodeArm_wf (w : BitVec 32) : (decodeArm w).wf = true := by
  cases hc : Cond.ofCode (fieldOf w.toNat 31 28) with
  | none => rw [decodeArm_of_none hc]; rfl
  | some c => exact (decodeArm_class hc).1

/-- The reduced key's two parts (R143). -/
theorem armKey_toNat (w : BitVec 32) : (armKey w).toNat = fieldOf w.toNat 27 20 * 16 + fieldOf w.toNat 7 4 := by
  have hh : fieldOf w.toNat 27 20 < 256 := fieldOf_lt _ 27 20
  have hl : fieldOf w.toNat 7 4 < 16 := fieldOf_lt _ 7 4
  rw [armKey, BitVec.toNat_ofNat]
  omega

end Sys2Proof
end

section
/-! Thumb halfwords: the reference classifier by the reduced key, and the decoder against it (R143, R146). -/

namespace Sys2Proof

/-! ## The Thumb classifier by the reduced key -/

/-- The tests of R146 by the reduced key, bits 15:8 (R143). -/
def thumbKeyFormat (k : Nat) : ThumbFormat :=
  if k / 8 = 3 then .t2
  else if k / 32 = 0 then .t1
  else if k / 32 = 1 then .t3
  else if k / 4 = 16 then .t4
  else if k / 4 = 17 then .t5
  else if k / 8 = 9 then .t6
  else if k / 16 = 5 ∧ k / 2 % 2 = 0 then .t7
  else if k / 16 = 5 ∧ k / 2 % 2 = 1 then .t8
  else if k / 32 = 3 then .t9
  else if k / 16 = 8 then .t10
  else if k / 16 = 9 then .t11
  else if k / 16 = 10 then .t12
  else if k = 0xB0 then .t13
  else if k / 16 = 11 ∧ k / 2 % 4 = 2 then .t14
  else if k / 16 = 11 then .hole1011
  else if k / 16 = 12 then .t15
  else if k = 0xDE then .hole1110
  else if k = 0xDF then .t17
  else if k / 16 = 13 then .t16
  else if k / 8 = 28 then .t18
  else if k / 8 = 29 then .hole11101
  else .t19

section
variable (v : Nat)

theorem field_15_10 : fieldOf v 15 10 = fieldOf v 15 8 / 4 := fieldOf_upper v 2 (by decide)
theorem field_15_11 : fieldOf v 15 11 = fieldOf v 15 8 / 8 := fieldOf_upper v 3 (by decide)
theorem field_15_12 : fieldOf v 15 12 = fieldOf v 15 8 / 16 := fieldOf_upper v 4 (by decide)
theorem field_15_13 : fieldOf v 15 13 = fieldOf v 15 8 / 32 := fieldOf_upper v 5 (by decide)
theorem field_15_9 : fieldOf v 15 9 = fieldOf v 15 8 / 2 := fieldOf_upper v 1 (by decide)
theorem field_9_9 : fieldOf v 9 9 = fieldOf v 15 8 / 2 % 2 := field_15_9 v ▸ fieldOf_lower v 0 (by decide)
theorem field_10_9 : fieldOf v 10 9 = fieldOf v 15 8 / 2 % 4 := field_15_9 v ▸ fieldOf_lower v 1 (by decide)
theorem field_11_9 : fieldOf v 11 9 = fieldOf v 15 8 / 2 % 8 := field_15_9 v ▸ fieldOf_lower v 2 (by decide)
theorem field_11_8 : fieldOf v 11 8 = fieldOf v 15 8 % 16 := fieldOf_lower v 3 (by decide)
theorem field_12_11 : fieldOf v 12 11 = fieldOf v 15 8 / 8 % 4 := field_15_11 v ▸ fieldOf_lower v 1 (by decide)
theorem field_12_12 : fieldOf v 12 12 = fieldOf v 15 8 / 16 % 2 := field_15_12 v ▸ fieldOf_lower v 0 (by decide)
theorem field_11_11 : fieldOf v 11 11 = fieldOf v 15 8 / 8 % 2 := field_15_11 v ▸ fieldOf_lower v 0 (by decide)
theorem field_10_10 : fieldOf v 10 10 = fieldOf v 15 8 / 4 % 2 := field_15_10 v ▸ fieldOf_lower v 0 (by decide)

end

/-- The Thumb classifier looks at the reduced key alone (R143, R147). -/
theorem thumbClassify_eq (h : BitVec 16) : thumbClassify h = thumbKeyFormat (fieldOf h.toNat 15 8) := by
  have byte (k : BitVec 16) (n : Nat) (hk : _) := masked_iff h (m := 0xFF00#16) (k := k) [(15, 8, n)] hk
  have six (k : BitVec 16) (n : Nat) (hk : _) := masked_iff h (m := 0xFC00#16) (k := k) [(15, 10, n)] hk
  have five (k : BitVec 16) (n : Nat) (hk : _) := masked_iff h (m := 0xF800#16) (k := k) [(15, 11, n)] hk
  have four (k : BitVec 16) (n : Nat) (hk : _) := masked_iff h (m := 0xF000#16) (k := k) [(15, 12, n)] hk
  have three (k : BitVec 16) (n : Nat) (hk : _) := masked_iff h (m := 0xE000#16) (k := k) [(15, 13, n)] hk
  have t7 := masked_iff h (m := 0xF200#16) (k := 0x5000#16) [(15, 12, 5), (9, 9, 0)] (by decide)
  have t8 := masked_iff h (m := 0xF200#16) (k := 0x5200#16) [(15, 12, 5), (9, 9, 1)] (by decide)
  have t14 := masked_iff h (m := 0xF600#16) (k := 0xB400#16) [(15, 12, 11), (10, 9, 2)] (by decide)
  simp only [thumbClassify, thumbKeyFormat, t7, t8, t14, five 0x1800#16 3 (by decide),
    three 0x0000#16 0 (by decide), three 0x2000#16 1 (by decide), six 0x4000#16 16 (by decide),
    six 0x4400#16 17 (by decide), five 0x4800#16 9 (by decide), three 0x6000#16 3 (by decide),
    four 0x8000#16 8 (by decide), four 0x9000#16 9 (by decide), four 0xA000#16 10 (by decide),
    byte 0xB000#16 0xB0 (by decide), four 0xB000#16 11 (by decide), four 0xC000#16 12 (by decide),
    byte 0xDE00#16 0xDE (by decide), byte 0xDF00#16 0xDF (by decide),
    four 0xD000#16 13 (by decide), five 0xE000#16 28 (by decide), five 0xE800#16 29 (by decide),
    List.forall_mem_cons, List.not_mem_nil, false_imp_iff, implies_true, and_true, field_15_10,
    field_15_11, field_15_12, field_15_13, field_9_9, field_10_9]

/-! ## The rows of R146 by bits 15:13, on which the decoder branches -/

section
variable {k : Nat}

theorem thumbKeyFormat_0 (h : k / 32 = 0) : thumbKeyFormat k = if k / 8 % 4 = 3 then .t2 else .t1 := by
  split_ifs <;> simp (disch := omega) only [thumbKeyFormat, if_neg, if_pos]

theorem thumbKeyFormat_1 (h : k / 32 = 1) : thumbKeyFormat k = .t3 := by
  simp (disch := omega) only [thumbKeyFormat, if_neg, if_pos]

theorem thumbKeyFormat_2 (h : k / 32 = 2) :
    thumbKeyFormat k =
      if k / 16 % 2 = 1 then if k / 2 % 2 = 1 then .t8 else .t7
      else if k / 8 % 2 = 1 then .t6
      else if k / 4 % 2 = 1 then .t5
      else .t4 := by
  split_ifs <;> simp (disch := omega) only [thumbKeyFormat, if_neg, if_pos]

theorem thumbKeyFormat_3 (h : k / 32 = 3) : thumbKeyFormat k = .t9 := by
  simp (disch := omega) only [thumbKeyFormat, if_neg, if_pos]

theorem thumbKeyFormat_4 (h : k / 32 = 4) : thumbKeyFormat k = if k / 16 % 2 = 1 then .t11 else .t10 := by
  split_ifs <;> simp (disch := omega) only [thumbKeyFormat, if_neg, if_pos]

theorem thumbKeyFormat_5 (h : k / 32 = 5) :
    thumbKeyFormat k =
      if k / 16 % 2 = 1 then if k % 16 = 0 then .t13 else if k / 2 % 4 = 2 then .t14 else .hole1011
      else .t12 := by
  split_ifs <;> simp (disch := omega) only [thumbKeyFormat, if_neg, if_pos]

theorem thumbKeyFormat_6 (h : k / 32 = 6) :
    thumbKeyFormat k =
      if k / 16 % 2 = 1 then if k % 16 = 15 then .t17 else if k % 16 = 14 then .hole1110 else .t16
      else .t15 := by
  split_ifs <;> simp (disch := omega) only [thumbKeyFormat, if_neg, if_pos]

theorem thumbKeyFormat_7 (h : k / 32 = 7) :
    thumbKeyFormat k = if k / 8 % 4 = 0 then .t18 else if k / 8 % 4 = 1 then .hole11101 else .t19 := by
  split_ifs <;> simp (disch := omega) only [thumbKeyFormat, if_neg, if_pos]

end

/-! ## The Thumb decoder -/

/-- A well-formed instruction of a format (R146). -/
def Instr.InFormat (i : Instr) (f : ThumbFormat) : Prop := i.wf = true ∧ i.thumbFormat = some f

theorem Instr.InFormat.ite {p q : Prop} [Decidable p] [Decidable q] (h : p ↔ q) {i j : Instr} {f g : ThumbFormat}
    (hi : i.InFormat f) (hj : ¬p → j.InFormat g) : (if p then i else j).InFormat (if q then f else g) := by
  by_cases hp : p
  · rwa [if_pos hp, if_pos (h.mp hp)]
  · rw [if_neg hp, if_neg (mt h.mpr hp)]
    exact hj hp

/-- Both outcomes of a test that the format does not look at. -/
theorem Instr.InFormat.either {p : Prop} [Decidable p] {i j : Instr} {f : ThumbFormat}
    (hi : i.InFormat f) (hj : j.InFormat f) : (if p then i else j).InFormat f := by
  split
  · exact hi
  · exact hj

section
variable (v : Nat)

theorem decodeThumbShiftAdd_format :
    (decodeThumbShiftAdd v).InFormat (if fieldOf v 12 11 = 3 then .t2 else .t1) := by
  have hlt : fieldOf v 12 11 < 4 := fieldOf_lt v 12 11
  unfold decodeThumbShiftAdd
  generalize fieldOf v 12 11 = n at *
  split
  · exact ⟨rfl, rfl⟩
  · exact ⟨rfl, rfl⟩
  · exact ⟨rfl, rfl⟩
  · simp only [imp_false] at *
    rw [if_pos (by omega)]
    split <;> exact ⟨rfl, rfl⟩

theorem decodeThumbImm8_format : (decodeThumbImm8 v).InFormat .t3 := by
  unfold decodeThumbImm8
  split <;> exact ⟨rfl, rfl⟩

theorem decodeThumbAlu_format : (decodeThumbAlu v).InFormat .t4 := by
  unfold decodeThumbAlu
  split <;> exact ⟨rfl, rfl⟩

theorem decodeThumbHi_format : (decodeThumbHi v).InFormat .t5 := by
  unfold decodeThumbHi
  split <;> exact ⟨rfl, rfl⟩

theorem decodeThumbRegOffset_format :
    (decodeThumbRegOffset v).InFormat (if fieldOf v 11 9 % 2 = 1 then .t8 else .t7) := by
  have hlt : fieldOf v 11 9 < 8 := fieldOf_lt v 11 9
  unfold decodeThumbRegOffset
  generalize fieldOf v 11 9 = n at *
  split
  case h_8 =>
    simp only [imp_false] at *
    rw [if_pos (by omega)]
    exact ⟨rfl, rfl⟩
  all_goals exact ⟨rfl, rfl⟩

theorem decodeThumbImmOffset_format : (decodeThumbImmOffset v).InFormat .t9 := by
  unfold decodeThumbImmOffset
  split <;> exact ⟨rfl, rfl⟩

/-- What bits 15:12 = 1011 leave to T13 and T14 is a hole (R146). -/
theorem decodeThumbMisc_format :
    (decodeThumbMisc v).InFormat
      (if fieldOf v 12 12 = 1 then
        if fieldOf v 11 8 = 0 then .t13 else if fieldOf v 10 9 = 2 then .t14 else .hole1011
      else .t12) := by
  refine .ite (bitOf_iff v 12)
    (.ite beq_iff_eq ⟨rfl, rfl⟩ fun h0 =>
      .ite beq_iff_eq (.either ⟨rfl, rfl⟩ ⟨rfl, rfl⟩) fun h2 => ?_)
    fun _ => .either ⟨rfl, rfl⟩ ⟨rfl, rfl⟩
  rw [beq_iff_eq, fieldOf] at h0 h2
  refine ⟨?_, rfl⟩
  simp only [Instr.wf, thumbHole, bitsOf_toNat, Bool.and_eq_true, bne_iff_ne]
  omega

/-- A branch has one of the fourteen conditions: 1110 is a hole, 1111 is SWI (R146, R370). -/
theorem decodeThumbBlockBranch_format :
    (decodeThumbBlockBranch v).InFormat
      (if fieldOf v 12 12 = 1 then
        if fieldOf v 11 8 = 15 then .t17 else if fieldOf v 11 8 = 14 then .hole1110 else .t16
      else .t15) := by
  refine .ite (bitOf_iff v 12) ?_ fun _ => .either ⟨rfl, rfl⟩ ⟨rfl, rfl⟩
  have hlt : fieldOf v 11 8 < 16 := fieldOf_lt v 11 8
  have hnone := Cond.ofCode_eq_none_iff _ hlt
  have hal := Cond.ofCode_eq_al_iff _ hlt
  split
  · rw [if_pos (hnone.mp ‹_›)]
    exact ⟨rfl, rfl⟩
  · rw [hal.mp ‹_›]
    exact ⟨rfl, rfl⟩
  · rename_i c hne hc
    have h15 : fieldOf v 11 8 ≠ 15 := fun e => by simp [hnone.mpr e] at hc
    have h14 : fieldOf v 11 8 ≠ 14 := fun e => hne (Option.some.inj (hc.symm.trans (hal.mpr e)))
    rw [if_neg h15, if_neg h14]
    exact ⟨decide_eq_true hne, rfl⟩

theorem decodeThumbBranch_format :
    (decodeThumbBranch v).InFormat
      (if fieldOf v 12 11 = 0 then .t18 else if fieldOf v 12 11 = 1 then .hole11101 else .t19) := by
  unfold decodeThumbBranch
  generalize fieldOf v 12 11 = n
  split
  · exact ⟨rfl, rfl⟩
  · exact ⟨rfl, rfl⟩
  · exact ⟨rfl, rfl⟩
  · simp only [imp_false] at *
    rw [if_neg ‹_›, if_neg ‹_›]
    exact ⟨rfl, rfl⟩

end

/-- A decoded Thumb halfword is well-formed and of the format of its halfword (R146). -/
theorem decodeThumb_format (h : BitVec 16) : (decodeThumb h).InFormat (thumbClassify h) := by
  have hlt : fieldOf h.toNat 15 8 < 256 := fieldOf_lt _ 15 8
  have h12 := bitOf_iff h.toNat 12
  have h11 := bitOf_iff h.toNat 11
  have h10 := bitOf_iff h.toNat 10
  rw [field_12_12] at h12
  rw [field_11_11] at h11
  rw [field_10_10] at h10
  rw [thumbClassify_eq]
  simp only [decodeThumb, field_15_13]
  split <;> rename_i hk
  · rw [thumbKeyFormat_0 hk, ← field_12_11]
    exact decodeThumbShiftAdd_format _
  · rw [thumbKeyFormat_1 hk]
    exact decodeThumbImm8_format _
  · have hodd : fieldOf h.toNat 15 8 / 2 % 2 = fieldOf h.toNat 11 9 % 2 := by
      rw [field_11_9]
      omega
    rw [thumbKeyFormat_2 hk, hodd]
    exact .ite h12 (decodeThumbRegOffset_format _) fun _ => .ite h11 ⟨rfl, rfl⟩ fun _ =>
      .ite h10 (decodeThumbHi_format _) fun _ => decodeThumbAlu_format _
  · rw [thumbKeyFormat_3 hk]
    exact decodeThumbImmOffset_format _
  · rw [thumbKeyFormat_4 hk]
    exact .ite h12 (.either ⟨rfl, rfl⟩ ⟨rfl, rfl⟩) fun _ => .either ⟨rfl, rfl⟩ ⟨rfl, rfl⟩
  · rw [thumbKeyFormat_5 hk, ← field_12_12, ← field_11_8, ← field_10_9]
    exact decodeThumbMisc_format _
  · rw [thumbKeyFormat_6 hk, ← field_12_12, ← field_11_8]
    exact decodeThumbBlockBranch_format _
  · simp only [imp_false] at *
    rw [thumbKeyFormat_7 (by omega), ← field_12_11]
    exact decodeThumbBranch_format _

end Sys2Proof
end

section
/-! The decoders are total and follow the classifiers, which the reduced keys decide (R141 to R147). -/

namespace Sys2Proof

/-- Settles O2: the two decoders, category by category and format by format. -/
theorem everyWordDecodesWellFormed : Obligations.EveryWordDecodesWellFormed
  | .arm w => decodeArm_wf w
  | .thumb h => (decodeThumb_format h).1

/-- Settles O4: a word whose condition field is not 1111 has a condition. -/
theorem armDecoderFollowsClassifier : Obligations.ArmDecoderFollowsClassifier := by
  intro w hw
  obtain ⟨c, hc⟩ := Option.ne_none_iff_exists'.mp (mt (ofCode_field_eq_none_iff w).mp hw)
  exact (decodeArm_class hc).2

/-- Settles O5: the decoder's rows are the classifier's, by bits 15:13. -/
theorem thumbDecoderFollowsClassifier : Obligations.ThumbDecoderFollowsClassifier := fun h => (decodeThumb_format h).2

/-- Settles O6: the tables are the classifiers' tests on the key's own bits. -/
theorem reducedKeyDecidesCategory : Obligations.ReducedKeyDecidesCategory := by
  refine ⟨⟨fun k => armKeyCategory (k.toNat / 16) (k.toNat % 16), fun w => ?_⟩,
    fun k => thumbKeyFormat k.toNat, fun h => ?_⟩
  · have hl : fieldOf w.toNat 7 4 < 16 := fieldOf_lt _ 7 4
    have hhigh : (armKey w).toNat / 16 = fieldOf w.toNat 27 20 := by rw [armKey_toNat]; omega
    have hlow : (armKey w).toNat % 16 = fieldOf w.toNat 7 4 := by rw [armKey_toNat]; omega
    dsimp only
    rw [hhigh, hlow, armClassify_eq]
  · rw [thumbClassify_eq]
    exact congrArg thumbKeyFormat (bitsOf_toNat 8 h.toNat 8)

/-- Settles O9: condition 1111 decodes to the word that only faults. -/
theorem conditionNeverFaults : Obligations.ConditionNeverFaults := by
  intro w s hw
  rw [decodeArm_of_none ((ofCode_field_eq_none_iff w).mpr hw)]
  rfl

end Sys2Proof
end

section
/-! The step of a running machine (R44, R150). -/

namespace Sys2Proof.Machine

/-- The bytes of a word decode to its instruction, whatever the width. -/
theorem decodeBytes_code (t : Bool) (w : Word) (i : Instr) (rest : List Byte)
    (h : decodeBytes t (if t then Code.thumb (w.setWidth 16) else .arm w).bytes = .ok (i, rest)) :
    i = decodeCode (if t then .thumb (w.setWidth 16) else .arm w) := by
  cases t with
  | true =>
    rw [if_pos rfl, decodeBytes_thumb] at h
    cases h
    rfl
  | false =>
    rw [if_neg (by decide), decodeBytes_arm] at h
    cases h
    rfl

/-- Without an interrupt to take, the interrupt check does nothing (R403). -/
theorem State.checkInterrupt_of_masked {s : State} (h : s.bus.irqLine = false ∨ s.cpsr.i = true) :
    s.checkInterrupt = .next s := by
  rw [State.checkInterrupt, if_neg]
  rcases h with h | h <;> simp [State.interrupted, h]

/-- The halt check leaves a machine that is not halted (R406). -/
theorem State.wake_of_running {s : State} (h : s.bus.halted = false) : s.wake = s := by
  rw [State.wake, ← h]

/-- A machine that runs and takes no interrupt executes its staged instruction (R150). -/
theorem step_of_running {s : State} (hf : s.faulted = none) (hh : s.bus.halted = false)
    (hi : s.bus.irqLine = false ∨ s.cpsr.i = true) : step s = s.begin.executeStaged := by
  have hw : s.begin.wake = s.begin := State.wake_of_running hh
  have hc : s.begin.checkInterrupt = .next s.begin := State.checkInterrupt_of_masked hi
  simp only [step, State.stepOnce, hf, hh, Bool.false_and, Bool.false_eq_true, if_false, State.proceed, hw, hc,
    andThen_of_next]

/-- Settles O50: the staged word is the one decoded, and the step executes it. -/
theorem stepRunsDecodedInstruction : Obligations.StepRunsDecodedInstruction := by
  intro s i rest hf hh hi hd
  obtain rfl := decodeBytes_code _ _ _ _ hd
  exact ⟨everyWordDecodesWellFormed _, step_of_running hf hh hi⟩

end Sys2Proof.Machine
end

section
/-! The adder with its flags, and the shifter: every operand form, amount, value and carry (R181 to R186). -/

namespace Sys2Proof.Machine

/-! ## The adder -/

@[simp] theorem addWithCarry_result_toNat (p : Cpsr) (a b : Word) (cin : Bool) :
    (addWithCarry p a b cin).result.toNat = (a.toNat + b.toNat + cin.toNat) % 2 ^ 32 := rfl

/-- The result is the sum of words (R185). -/
theorem addWithCarry_result (p : Cpsr) (a b : Word) (cin : Bool) :
    (addWithCarry p a b cin).result = a + b + if cin then 1#32 else 0#32 := by
  apply BitVec.eq_of_toNat_eq
  rw [addWithCarry_result_toNat]
  cases cin <;> simp [BitVec.toNat_add]

/-- The carry of an addition: the sum reached 2^32 (R185). -/
theorem addWithCarry_carry (p : Cpsr) (a b : Word) (cin : Bool) :
    (addWithCarry p a b cin).flags.c = decide (2 ^ 32 ≤ a.toNat + b.toNat + cin.toNat) := rfl

/-- The overflow by signs (R185). -/
theorem addWithCarry_overflow (p : Cpsr) (a b : Word) (cin : Bool) :
    (addWithCarry p a b cin).flags.v = (a.msb == b.msb && (addWithCarry p a b cin).result.msb != a.msb) := rfl

/-- A subtraction adds the complement: its result (R185). -/
theorem addWithCarry_not_result (p : Cpsr) (a b : Word) (cin : Bool) :
    (addWithCarry p a (~~~b) cin).result = a - b - if cin then 0#32 else 1#32 := by
  rw [addWithCarry_result]
  cases cin <;> simp only [if_true, Bool.false_eq_true, if_false] <;> bv_omega

/-- A subtraction adds the complement: its carry is NOT borrow (R185). -/
theorem addWithCarry_not_carry (p : Cpsr) (a b : Word) (cin : Bool) :
    (addWithCarry p a (~~~b) cin).flags.c = decide (b.toNat + (!cin).toNat ≤ a.toNat) := by
  have hb := b.isLt
  rw [addWithCarry_carry, BitVec.toNat_not, decide_eq_decide]
  cases cin <;> simp only [Bool.toNat_true, Bool.toNat_false, Bool.not_true, Bool.not_false] <;> omega

/-- The overflow says that the signed sum is out of range (R185). -/
theorem addWithCarry_overflow_iff_toInt (p : Cpsr) (a b : Word) (cin : Bool) :
    (addWithCarry p a b cin).flags.v = true ↔
      (addWithCarry p a b cin).result.toInt ≠ a.toInt + b.toInt + if cin then 1 else 0 := by
  have ha := a.isLt
  have hb := b.isLt
  have hr := addWithCarry_result_toNat p a b cin
  rw [addWithCarry_overflow]
  simp only [BitVec.msb_eq_decide, BitVec.toInt_eq_toNat_cond, hr, Bool.and_eq_true, beq_iff_eq, bne_iff_ne, ne_eq,
    decide_eq_decide]
  cases cin <;> simp only [Bool.toNat_true, Bool.toNat_false, if_true, Bool.false_eq_true, if_false] <;> omega

/-- Settles O19: the sum, its carry and overflow, and the subtraction as the addition of the complement. -/
theorem addWithCarryFlags : Obligations.AddWithCarryFlags := by
  intro p a b cin
  refine ⟨rfl, by simp [addWithCarry_carry], by simp [addWithCarry_overflow], addWithCarry_overflow_iff_toInt p a b cin,
    ?_, addWithCarry_not_result p a b cin⟩
  rw [addWithCarry_not_carry, decide_eq_true_iff]
  cases cin <;> rfl

/-! ## The shifter -/

/-- A rotation moves each bit, around the end of the word. -/
theorem getLsbD_rotateRight_word (m : Word) {n k : Nat} (hk : k < 32) :
    (m.rotateRight n).getLsbD k = m.getLsbD ((k + n) % 32) := by
  rw [BitVec.getLsbD_rotateRight]
  by_cases h : k < 32 - n % 32
  · rw [decide_eq_true h, cond_true]
    congr 1
    omega
  · rw [decide_eq_false h, cond_false, decide_eq_true hk, Bool.true_and]
    congr 1
    omega

/-- A rotation by a multiple of the width moves nothing. -/
theorem rotateRight_of_dvd (m : Word) {n : Nat} (h : n % 32 = 0) : m.rotateRight n = m := by
  apply BitVec.eq_of_getLsbD_eq
  intro k hk
  rw [getLsbD_rotateRight_word m hk]
  congr 1
  omega

/-- An arithmetic shift by the width or more fills the word with the sign (R182, R183). -/
theorem sshiftRight_eq_signFill (m : Word) {n : Nat} (h : 32 ≤ n) : m.sshiftRight n = signFill m := by
  have hfill : signFill m = if m.msb then BitVec.allOnes 32 else 0#32 := rfl
  apply BitVec.eq_of_getLsbD_eq
  intro k hk
  have hn : ¬n + k < 32 := by omega
  rw [BitVec.getLsbD_sshiftRight, if_neg hn, hfill]
  cases m.msb
  · simp
  · rw [if_pos rfl, BitVec.getLsbD_allOnes]
    simp [hk]

/-- LSL by a register amount (R183). -/
theorem regShift_lsl (m : Word) (a : BitVec 8) (c : Bool) :
    regShift .lsl m a c =
      ⟨m <<< a.toNat, if a = 0#8 then c else decide (a.toNat ≤ 32) && m.getLsbD (32 - a.toNat)⟩ := by
  unfold regShift
  by_cases h : a = 0#8
  · subst h
    simp
  · by_cases h32 : a.toNat < 32
    · simp [h, h32, Nat.le_of_lt h32]
    · have hz : m <<< a.toNat = 0#32 := BitVec.shiftLeft_eq_zero (by omega)
      have hc : (a.toNat == 32 && m.getLsbD 0) = (decide (a.toNat ≤ 32) && m.getLsbD (32 - a.toNat)) := by
        by_cases he : a.toNat = 32
        · simp [he]
        · simp [he, show ¬a.toNat ≤ 32 by omega]
      simp only [if_neg h, if_neg h32, hz, hc]

/-- LSR by a register amount (R183). -/
theorem regShift_lsr (m : Word) (a : BitVec 8) (c : Bool) :
    regShift .lsr m a c = ⟨m >>> a.toNat, if a = 0#8 then c else m.getLsbD (a.toNat - 1)⟩ := by
  unfold regShift
  by_cases h : a = 0#8
  · subst h
    simp
  · by_cases h32 : a.toNat < 32
    · simp [h, h32]
    · have hz : m >>> a.toNat = 0#32 := BitVec.ushiftRight_eq_zero (by omega)
      have hc : (a.toNat == 32 && m.msb) = m.getLsbD (a.toNat - 1) := by
        by_cases he : a.toNat = 32
        · simp [he, BitVec.msb_eq_getLsbD_last]
        · simp [he, BitVec.getLsbD_of_ge m (a.toNat - 1) (by omega)]
      simp only [if_neg h, if_neg h32, hz, hc]

/-- ASR by a register amount (R183). -/
theorem regShift_asr (m : Word) (a : BitVec 8) (c : Bool) :
    regShift .asr m a c =
      ⟨m.sshiftRight a.toNat, if a = 0#8 then c else if a.toNat < 32 then m.getLsbD (a.toNat - 1) else m.msb⟩ := by
  unfold regShift
  by_cases h : a = 0#8
  · subst h
    simp
  · by_cases h32 : a.toNat < 32
    · simp only [if_neg h, if_pos h32]
    · simp only [if_neg h, if_neg h32, sshiftRight_eq_signFill m (Nat.le_of_not_lt h32)]

/-- ROR by a register amount (R183). -/
theorem regShift_ror (m : Word) (a : BitVec 8) (c : Bool) :
    regShift .ror m a c = ⟨m.rotateRight a.toNat, if a = 0#8 then c else m.getLsbD ((a.toNat + 31) % 32)⟩ := by
  unfold regShift
  by_cases h : a = 0#8
  · subst h
    simp [rotateRight_of_dvd m]
  · by_cases hd : a.toNat % 32 = 0
    · have hc : (a.toNat + 31) % 32 = 31 := by omega
      simp [h, hd, hc, rotateRight_of_dvd m, BitVec.msb_eq_getLsbD_last]
    · have hc : (a.toNat + 31) % 32 = a.toNat % 32 - 1 := by omega
      simp [h, hd, hc, BitVec.rotateRight_mod_eq_rotateRight]

/-- A shift by an immediate amount 1 to 31 is the shift by that register amount (R182, R183). -/
theorem immShift_eq_regShift (k : ShiftKind) (m : Word) {n : BitVec 5} (c : Bool) (h : n ≠ 0#5) :
    immShift k m n c = regShift k m (n.setWidth 8) c := by
  have hn : (n.setWidth 8 : BitVec 8).toNat = n.toNat := by
    rw [BitVec.toNat_setWidth]
    exact Nat.mod_eq_of_lt (by omega)
  have h8 : (n.setWidth 8 : BitVec 8) ≠ 0#8 := fun e => h (BitVec.eq_of_toNat_eq (by rw [← hn, e]; rfl))
  have h32 : n.toNat < 32 := n.isLt
  have hmod : n.toNat % 32 = n.toNat := Nat.mod_eq_of_lt h32
  have h0 : n.toNat ≠ 0 := fun e => h (BitVec.eq_of_toNat_eq e)
  unfold immShift regShift
  cases k <;> simp only [if_neg h, if_neg h8, hn, if_pos h32, hmod, if_neg h0]

/-- ROR by the immediate 0 shifts the carry in from above (R182). -/
theorem immShift_rrx_toNat (m : Word) (c : Bool) :
    (immShift .ror m 0#5 c).value.toNat = c.toNat * 2 ^ 31 + m.toNat / 2 := by
  have hm := m.isLt
  have h : (immShift .ror m 0#5 c).value = (BitVec.ofBool c ++ m.extractLsb' 1 31 : BitVec (1 + 31)) := rfl
  rw [h, BitVec.toNat_append, BitVec.toNat_ofBool, BitVec.extractLsb'_toNat, Nat.shiftRight_eq_div_pow, Nat.pow_one,
    Nat.mod_eq_of_lt (by omega), ← Nat.shiftLeft_add_eq_or_of_lt (by omega), Nat.shiftLeft_eq]

/-- Settles O18: the rotated immediate by its bits, each kind of register shift, the immediate shifts by them. -/
theorem shifterOperands : Obligations.ShifterOperands := by
  refine ⟨fun rot imm c => ⟨fun k hk => getLsbD_rotateRight_word _ hk, rfl⟩, fun m a c => ?_, fun k m n c =>
    ⟨immShift_eq_regShift k m c, rfl, rfl, rfl, immShift_rrx_toNat m c, rfl⟩⟩
  rw [regShift_lsl, regShift_lsr, regShift_asr, regShift_ror]
  refine ⟨⟨?_, rfl⟩, ⟨?_, rfl⟩, ⟨?_, rfl⟩, fun k hk => getLsbD_rotateRight_word m hk, rfl⟩
  · rw [BitVec.toNat_shiftLeft, Nat.shiftLeft_eq]
  · rw [BitVec.toNat_ushiftRight, Nat.shiftRight_eq_div_pow]
  · rw [BitVec.toInt_sshiftRight, Int.shiftRight_eq_div_pow, Nat.cast_pow, Nat.cast_ofNat]

end Sys2Proof.Machine
end

section
/-! MRS and MSR: what each answers where its condition passes (R36, R39, R220 to R222). -/

namespace Sys2Proof.Machine

open Sys2Proof.Claims

/-! ## MSR to CPSR -/

/-- In User mode, and without the control byte, MSR writes the flags byte alone (R221). -/
theorem State.writeCpsr_flags {s : State} {mask : BitVec 4} (v : Word) (h : mask.getLsbD 0 = false ∨ s.cpsr.mode = .usr) :
    s.writeCpsr mask v = .next { s with cpsr := msrFlags s.cpsr mask v } := by
  have hc : ¬(mask.getLsbD 0 && s.cpsr.mode != .usr) = true := by
    obtain h | h := h <;> rw [h] <;> simp
  exact if_neg hc

section
variable {s : State} {mask : BitVec 4} {v : Word} (hmask : mask.getLsbD 0 = true) (hpriv : s.cpsr.mode ≠ .usr)
include hmask hpriv

/-- In a privileged mode the control byte must name a mode (R36, R221). -/
theorem State.writeCpsr_notAMode (hm : Mode.ofBits (v.extractLsb' 0 5) = none) :
    s.writeCpsr mask v = .fault .notAMode := by
  simp only [State.writeCpsr, hmask, bne_iff_ne.mpr hpriv, Bool.and_self, if_true, hm]

/-- In a privileged mode the control byte must keep T (R221). -/
theorem State.writeCpsr_changesEncoding (hn : Mode.ofBits (v.extractLsb' 0 5) ≠ none) (ht : v.getLsbD 5 ≠ s.cpsr.t) :
    s.writeCpsr mask v = .fault .changesEncoding := by
  obtain ⟨m, hm⟩ := Option.ne_none_iff_exists'.mp hn
  simp only [State.writeCpsr, hmask, bne_iff_ne.mpr hpriv, Bool.and_self, if_true, hm, if_neg ht]

/-- In a privileged mode a control byte that passes both checks is written, T apart (R221). -/
theorem State.writeCpsr_control {m : Mode} (hm : Mode.ofBits (v.extractLsb' 0 5) = some m) (ht : v.getLsbD 5 = s.cpsr.t) :
    s.writeCpsr mask v =
      .next { s with cpsr := { msrFlags s.cpsr mask v with i := v.getLsbD 7, f := v.getLsbD 6, mode := m } } := by
  simp only [State.writeCpsr, hmask, bne_iff_ne.mpr hpriv, Bool.and_self, if_true, hm, if_pos ht]
  rfl

end

/-! ## The meanings, the condition passed -/

section
variable {c : Cond} {s : State} (hp : Cond.passes c s.cpsr = true)
include hp

theorem exec_mrs_cpsr {rd : Reg} (hd : rd ≠ 15#4) : exec (.mrs c false rd) s = .next (s.setReg rd s.cpsr.save.toWord) := by
  rw [exec, execMrs, guarded_of_passes hp, if_neg hd]
  rfl

theorem exec_mrs_spsr_some {rd : Reg} {p : Psr} (hd : rd ≠ 15#4) (hs : s.spsrOf s.cpsr.mode = some p) :
    exec (.mrs c true rd) s = .next (s.setReg rd p.toWord) := by
  rw [exec, execMrs, guarded_of_passes hp, if_neg hd, if_pos rfl, hs]

theorem exec_mrs_spsr_none {rd : Reg} (hd : rd ≠ 15#4) (hs : s.spsrOf s.cpsr.mode = none) :
    exec (.mrs c true rd) s = .fault .noSavedStatus := by
  rw [exec, execMrs, guarded_of_passes hp, if_neg hd, if_pos rfl, hs]

theorem exec_mrs_pc (r : Bool) : exec (.mrs c r 15#4) s = .fault .r15Operand := by
  rw [exec, execMrs, guarded_of_passes hp, if_pos rfl]

theorem exec_msrCpsrReg (mask : BitVec 4) {rm : Reg} (hm : rm ≠ 15#4) :
    exec (.msrCpsrReg c mask rm) s = s.writeCpsr mask (s.reg rm) := by
  rw [exec, execMsrCpsrReg, guarded_of_passes hp, if_neg hm]

theorem exec_msrCpsrReg_pc (mask : BitVec 4) : exec (.msrCpsrReg c mask 15#4) s = .fault .r15Operand := by
  rw [exec, execMsrCpsrReg, guarded_of_passes hp, if_pos rfl]

theorem exec_msrCpsrImm (mask rot : BitVec 4) (imm : BitVec 8) :
    exec (.msrCpsrImm c mask rot imm) s = s.writeCpsr mask (rotatedImm rot imm) := by
  rw [exec, execMsrCpsrImm, guarded_of_passes hp]

theorem exec_msrSpsrReg (mask : BitVec 4) {rm : Reg} (hm : rm ≠ 15#4) :
    exec (.msrSpsrReg c mask rm) s = s.writeSpsr mask (s.reg rm) := by
  rw [exec, execMsrSpsrReg, guarded_of_passes hp, if_neg hm]

theorem exec_msrSpsrReg_pc (mask : BitVec 4) : exec (.msrSpsrReg c mask 15#4) s = .fault .r15Operand := by
  rw [exec, execMsrSpsrReg, guarded_of_passes hp, if_pos rfl]

theorem exec_msrSpsrImm (mask rot : BitVec 4) (imm : BitVec 8) :
    exec (.msrSpsrImm c mask rot imm) s = s.writeSpsr mask (rotatedImm rot imm) := by
  rw [exec, execMsrSpsrImm, guarded_of_passes hp]

end

/-- Settles O14: MRS writes the word of the status it names. -/
theorem mrsReadsStatus : Obligations.MrsReadsStatus := fun _ _ _ hp hd =>
  ⟨exec_mrs_cpsr hp hd, fun _ => exec_mrs_spsr_some hp hd⟩

/-- An instruction whose meaning is the write of CPSR does what R221 says of MSR. -/
theorem msrWritesCpsrAs_of_writeCpsr {i : Instr} {c : Cond} {mask : BitVec 4} {v : State → Word}
    (h : ∀ s : State, Cond.passes c s.cpsr = true → exec i s = s.writeCpsr mask (v s)) : MsrWritesCpsrAs i c mask v :=
  fun s hp => ⟨fun hf => (h s hp).trans (State.writeCpsr_flags _ hf), fun m hmask hpriv hm ht =>
    (h s hp).trans (State.writeCpsr_control hmask hpriv ((Mode.ofBits_iff _ m).mpr hm) ht)⟩

/-- Settles O15: both operand forms write CPSR with their operand. -/
theorem msrWritesCpsr : Obligations.MsrWritesCpsr :=
  ⟨fun _ mask _ hm => msrWritesCpsrAs_of_writeCpsr fun _ hp => exec_msrCpsrReg hp mask hm,
    fun _ mask rot imm => msrWritesCpsrAs_of_writeCpsr fun _ hp => exec_msrCpsrImm hp mask rot imm⟩

/-! ## MSR to the current SPSR -/

/-- The field mask selects the flags byte and the control byte, each field by itself (R222). -/
theorem Psr.writeFields_eq (p : Psr) (mask : BitVec 4) (v : Word) : p.writeFields mask v = msrSaved p mask v := by
  unfold Psr.writeFields msrSaved Psr.ofWord
  cases mask.getLsbD 3 <;> cases mask.getLsbD 0 <;> rfl

theorem State.writeSpsr_some {s : State} {p : Psr} (mask : BitVec 4) (v : Word) (hs : s.spsrOf s.cpsr.mode = some p) :
    s.writeSpsr mask v = .next (s.setSpsr s.cpsr.mode (msrSaved p mask v)) := by
  simp only [State.writeSpsr, hs, Psr.writeFields_eq]

theorem State.writeSpsr_none {s : State} (mask : BitVec 4) (v : Word) (hs : s.spsrOf s.cpsr.mode = none) :
    s.writeSpsr mask v = .fault .noSavedStatus := by
  simp only [State.writeSpsr, hs]

/-- Settles O16: both operand forms write the current SPSR with their operand. -/
theorem msrWritesSpsr : Obligations.MsrWritesSpsr := fun _ mask rot imm _ _ _ hp hs =>
  ⟨fun hm => (exec_msrSpsrReg hp mask hm).trans (State.writeSpsr_some mask _ hs),
    (exec_msrSpsrImm hp mask rot imm).trans (State.writeSpsr_some mask _ hs)⟩

/-! ## Faults -/

/-- Settles O17: R15 operands, the modes without an SPSR, and the two checks of the control byte. -/
theorem statusTransferFaults : Obligations.StatusTransferFaults := by
  intro c mask rot imm rd rm r s hp v
  refine ⟨exec_mrs_pc hp r, exec_msrCpsrReg_pc hp mask, exec_msrSpsrReg_pc hp mask, fun hu hd hm => ?_, fun hmask hpriv =>
    ⟨fun hm => ?_, ?_⟩⟩
  · have hs := (s.spsrOf_none s.cpsr.mode).mpr hu
    exact ⟨exec_mrs_spsr_none hp hd hs, (exec_msrSpsrReg hp mask hm).trans (State.writeSpsr_none mask _ hs),
      (exec_msrSpsrImm hp mask rot imm).trans (State.writeSpsr_none mask _ hs)⟩
  · rw [exec_msrCpsrReg hp mask hm]
    exact ⟨State.writeCpsr_notAMode hmask hpriv, State.writeCpsr_changesEncoding hmask hpriv⟩
  · rw [exec_msrCpsrImm hp mask rot imm]
    exact ⟨State.writeCpsr_notAMode hmask hpriv, State.writeCpsr_changesEncoding hmask hpriv⟩

end Sys2Proof.Machine
end

section
/-! ARM data processing: every operation in every operand form is one operation of the arithmetic unit on the two operands,
written to Rd, to the flags or to R15 (R180 to R206, R394). -/

namespace Sys2Proof.Machine

open Sys2Proof.Claims

/-! ## The operations -/

/-- What the model computes for an operation (R188 to R203). -/
def dpAlu : DpOp → Cpsr → Word → Shifted → Alu
  | .and => aluAnd
  | .eor => aluEor
  | .sub => aluSub
  | .rsb => aluRsb
  | .add => aluAdd
  | .adc => aluAdc
  | .sbc => aluSbc
  | .rsc => aluRsc
  | .tst => aluTst
  | .teq => aluTeq
  | .cmp => aluCmp
  | .cmn => aluCmn
  | .orr => aluOrr
  | .mov => aluMov
  | .bic => aluBic
  | .mvn => aluMvn

/-- `AddWithCarry` by its result, its carry and its overflow; N and Z are the result's (R185, R186). -/
theorem addWithCarry_eq {p : Cpsr} {a b r : Word} {c v cin : Bool} (hr : (addWithCarry p a b cin).result = r)
    (hc : (addWithCarry p a b cin).flags.c = c) (hv : (a.msb == b.msb && r.msb != a.msb) = v) :
    addWithCarry p a b cin = ⟨r, { p with n := r.msb, z := r == 0#32, c := c, v := v }⟩ := by
  subst hr hc hv
  rfl

/-- Every operation has the result and the flags of the arithmetic on words (R185 to R203). -/
theorem dpAlu_eq (op : DpOp) (p : Cpsr) (n : Word) (o : Shifted) :
    dpAlu op p n o = ⟨dpResult op n o.value p.c, dpFlags op p n o⟩ := by
  cases op
  case and | eor | tst | teq | orr | mov | bic | mvn => rfl
  case add | cmn => exact addWithCarry_eq (by simp [addWithCarry_result, dpResult]) rfl rfl
  case adc => exact addWithCarry_eq (addWithCarry_result ..) rfl rfl
  case sub | cmp | rsb =>
    exact addWithCarry_eq (by simp [addWithCarry_not_result, dpResult]) (addWithCarry_not_carry ..)
      (by simp [dpOverflow])
  case sbc | rsc =>
    exact addWithCarry_eq (addWithCarry_not_result ..) (addWithCarry_not_carry ..) (by simp [dpOverflow])

/-! ## The operand forms -/

/-- The check of an operand form before anything is read: Rs = 15 (R184). -/
def dpCheck (o : Operand2) (k : Result) : Result :=
  match o with
  | .regShift rs _ _ => checkRs rs k
  | _ => k

theorem dpCheck_of_legal {o : Operand2} (h : o.legal) (k : Result) : dpCheck o k = k := by
  cases o
  case imm | immShift => rfl
  case regShift => exact checkRs_ok h

theorem shiftAmount_eq (v : Word) : shiftAmount v = v.setWidth 8 := (BitVec.setWidth_eq_extractLsb' (by decide)).symm

/-- The end of an operation: a compare's or a result's (R187, R204). -/
def dpWrite (op : DpOp) (s : State) (rd : Reg) (sf : Bool) (a : Alu) : Result :=
  if op.compares then writeCompare s rd a else writeDp s rd sf a

/-- Every data-processing instruction is its operation on its two operands, checked and written (R180 to R206). -/
theorem exec_dpInstr (op : DpOp) (o : Operand2) (c : Cond) (sf : Bool) (rn rd : Reg) (s : State) :
    exec (dpInstr op o c sf rn rd) s =
      guarded c s fun s => dpCheck o (dpWrite op s rd sf (dpAlu op s.cpsr (o.first s rn) (o.eval s))) := by
  cases o
  case imm | immShift => cases op <;> rfl
  case regShift =>
    simp only [Operand2.eval, ← shiftAmount_eq]
    cases op <;> rfl

/-- Every data-processing instruction that is allowed and whose condition passes writes the result and the flags of the
arithmetic on words. -/
theorem exec_dpInstr_of_legal {op : DpOp} {o : Operand2} {c : Cond} {s : State} (sf : Bool) (rn rd : Reg)
    (hp : Cond.passes c s.cpsr = true) (ho : o.legal) :
    exec (dpInstr op o c sf rn rd) s =
      dpWrite op s rd sf
        ⟨dpResult op (o.first s rn) (o.eval s).value s.cpsr.c, dpFlags op s.cpsr (o.first s rn) (o.eval s)⟩ := by
  rw [exec_dpInstr, guarded_of_passes hp, dpCheck_of_legal ho, dpAlu_eq]

/-! ## The ends of an operation -/

theorem dpWrite_of_compares {op : DpOp} (h : op.compares = true) (s : State) (rd : Reg) (sf : Bool) (a : Alu) :
    dpWrite op s rd sf a = writeCompare s rd a := if_pos h

theorem dpWrite_of_not_compares {op : DpOp} (h : op.compares = false) (s : State) (rd : Reg) (sf : Bool) (a : Alu) :
    dpWrite op s rd sf a = writeDp s rd sf a := by rw [dpWrite, h]; rfl

/-- Flags that are written where S = 1, as one update of CPSR (R186). -/
theorem State.setFlags_eq (s : State) (sf : Bool) (p : Cpsr) :
    s.setFlags sf p = { s with cpsr := if sf then p else s.cpsr } := by
  cases sf <;> rfl

theorem State.exceptionReturn_notAMode {s : State} {p : Psr} (a : Word) (hs : s.spsrOf s.cpsr.mode = some p)
    (hr : p.restore = none) : s.exceptionReturn a = .fault .notAMode := by
  simp only [State.exceptionReturn, State.restoreCpsr, hs, hr, andThen]

theorem State.exceptionReturn_none {s : State} (a : Word) (hs : s.spsrOf s.cpsr.mode = none) :
    s.exceptionReturn a = .fault .noSavedStatus := by
  simp only [State.exceptionReturn, State.restoreCpsr, hs, andThen]

/-- Settles O20: a result to R0 to R14, and with S = 1 the flags. -/
theorem armDataProcResults : Obligations.ArmDataProcResults := by
  intro op hop o c sf rn rd s hp ho hd
  rw [exec_dpInstr_of_legal sf rn rd hp ho, dpWrite_of_not_compares hop, writeDp_reg sf _ hd, State.setFlags_eq,
    State.setReg_cpsr]
  rfl

/-- Settles O21: the flags of a compare. -/
theorem armCompareResults : Obligations.ArmCompareResults := by
  intro op o c sf rn rd s hop hp ho hd
  rw [exec_dpInstr_of_legal sf rn rd hp ho, dpWrite_of_compares hop, writeCompare_ok _ hd, State.setFlags_true]

/-- Settles O22: a result to R15 is a flow report, after the restore of CPSR with S = 1; the check of Rs comes first. -/
theorem armDataProcToPc : Obligations.ArmDataProcToPc := by
  intro op o c sf rn rd s hp r
  refine ⟨fun ho hop => ?_, fun ho hop => ?_, fun sh rm => ?_⟩
  · rw [exec_dpInstr_of_legal false rn _ hp ho, exec_dpInstr_of_legal true rn _ hp ho, dpWrite_of_not_compares hop,
      dpWrite_of_not_compares hop, writeDp_pc, writeDp_return]
    exact ⟨rfl, fun _ _ => State.exceptionReturn_ok r, fun _ => State.exceptionReturn_notAMode r, fun hu =>
      State.exceptionReturn_none r ((s.spsrOf_none s.cpsr.mode).mpr hu)⟩
  · rw [exec_dpInstr_of_legal sf rn _ hp ho, dpWrite_of_compares hop]
    rfl
  · rw [exec_dpInstr, guarded_of_passes hp]
    rfl

end Sys2Proof.Machine
end

section
/-! The multiplies: the checks of the registers, then one write of the product to Rd, or to RdHi and RdLo (R230 to R236,
R324). -/

namespace Sys2Proof.Machine

open Sys2Proof.Claims

/-! ## The ends of a multiply -/

/-- The flags of a multiply are those of the state before the write of Rd, which changes none (R230). -/
theorem writeMul_eq_mulDone (s : State) (sf : Bool) (rd : Reg) (r : Word) : writeMul s sf rd r = mulDone s sf rd r := by
  cases sf
  case false => rfl
  case true =>
    simp only [writeMul, mulDone, State.setMulFlags, Cpsr.setNZ, State.setReg_cpsr, State.setReg_draws, if_true]

/-- A long multiply writes the two halves of its result, and the flags change after them (R230, R233). -/
theorem writeMulLong_eq_mulLongDone (s : State) (sf : Bool) (rdHi rdLo : Reg) (r : BitVec 64) :
    writeMulLong s sf rdHi rdLo r = mulLongDone s sf rdHi rdLo r := by
  have hlo : r.extractLsb' 0 32 = r.setWidth 32 := (BitVec.setWidth_eq_extractLsb' (by decide)).symm
  have hhi : r.extractLsb' 32 32 = (r >>> 32).setWidth 32 := BitVec.setWidth_ushiftRight_eq_extractLsb.symm
  rw [writeMulLong, mulLongDone, hlo, hhi]
  cases sf
  case false => rfl
  case true => simp only [State.setMulLongFlags, State.setReg_cpsr, State.setReg_draws, if_true]

/-! ## MUL, MLA and Thumb MUL -/

section
variable {c : Cond} {rd rn rs rm : Reg} {s : State} (hp : Cond.passes c s.cpsr = true) (sf : Bool)
include hp

theorem exec_mul_pc (h : rd = 15#4 ∨ rm = 15#4 ∨ rs = 15#4) : exec (.mul c sf rd rs rm) s = .fault .r15Operand := by
  rw [exec, execMul, guarded_of_passes hp, if_pos h]

theorem exec_mul_clash (h : ¬(rd = 15#4 ∨ rm = 15#4 ∨ rs = 15#4)) (hdm : rd = rm) :
    exec (.mul c sf rd rs rm) s = .fault .registerClash := by
  rw [exec, execMul, guarded_of_passes hp, if_neg h, if_pos hdm]

/-- MUL writes the product of words (R231). -/
theorem exec_mul_ok (h : ¬(rd = 15#4 ∨ rm = 15#4 ∨ rs = 15#4)) (hdm : rd ≠ rm) :
    exec (.mul c sf rd rs rm) s = .next (mulDone s sf rd (s.reg rm * s.reg rs)) := by
  rw [exec, execMul, guarded_of_passes hp, if_neg h, if_neg hdm, writeMul_eq_mulDone]

theorem exec_mla_pc (h : rd = 15#4 ∨ rn = 15#4 ∨ rm = 15#4 ∨ rs = 15#4) :
    exec (.mla c sf rd rn rs rm) s = .fault .r15Operand := by
  rw [exec, execMla, guarded_of_passes hp, if_pos h]

theorem exec_mla_clash (h : ¬(rd = 15#4 ∨ rn = 15#4 ∨ rm = 15#4 ∨ rs = 15#4)) (hdm : rd = rm) :
    exec (.mla c sf rd rn rs rm) s = .fault .registerClash := by
  rw [exec, execMla, guarded_of_passes hp, if_neg h, if_pos hdm]

/-- MLA writes the product of words plus Rn (R232). -/
theorem exec_mla_ok (h : ¬(rd = 15#4 ∨ rn = 15#4 ∨ rm = 15#4 ∨ rs = 15#4)) (hdm : rd ≠ rm) :
    exec (.mla c sf rd rn rs rm) s = .next (mulDone s sf rd (s.reg rm * s.reg rs + s.reg rn)) := by
  rw [exec, execMla, guarded_of_passes hp, if_neg h, if_neg hdm, writeMul_eq_mulDone]

end

theorem exec_tMul_clash (rd : LowReg) (s : State) : exec (.tMul rd rd) s = .fault .registerClash := if_pos rfl

/-- Thumb MUL is MUL with S = 1 (R324). -/
theorem exec_tMul_ok {rs rd : LowReg} (s : State) (h : rd ≠ rs) :
    exec (.tMul rs rd) s = .next (mulDone s true rd.reg (s.reg rs.reg * s.reg rd.reg)) := by
  rw [exec, execTMul, if_neg h, ← writeMul_eq_mulDone]
  rfl

/-- The product of words is the product of their numbers modulo 2^32 (R231). -/
theorem ofNat_toNat_mul (a b : Word) : BitVec.ofNat 32 (a.toNat * b.toNat) = a * b := by
  rw [BitVec.ofNat_mul, BitVec.ofNat_toNat, BitVec.ofNat_toNat, BitVec.setWidth_eq, BitVec.setWidth_eq]

/-- Settles O23: the checks in their order, then the product of words, which is that of their numbers modulo 2^32. -/
theorem multiplyResults : Obligations.MultiplyResults := by
  unfold Obligations.MultiplyResults
  simp only [BitVec.ofNat_add, ofNat_toNat_mul, BitVec.ofNat_toNat, BitVec.setWidth_eq]
  refine ⟨fun c sf rd rn rs rm s hp => ⟨fun hd hm hs hdm => ⟨?_, fun hn => ?_⟩, exec_mul_pc hp sf, exec_mla_pc hp sf,
    fun hd hs hdm => ⟨?_, fun hn => ?_⟩⟩, fun rs rd s => ⟨exec_tMul_ok s, exec_tMul_clash rd s⟩⟩
  · exact exec_mul_ok hp sf (by simp [hd, hm, hs]) hdm
  · exact exec_mla_ok hp sf (by simp [hd, hn, hm, hs]) hdm
  · exact exec_mul_clash hp sf (by simp [← hdm, hd, hs]) hdm
  · exact exec_mla_clash hp sf (by simp [← hdm, hd, hn, hs]) hdm

/-! ## The long multiplies -/

/-- The unsigned product of two words is the product of their zero extensions (R233, R234). -/
theorem unsignedProduct_eq (a b : Word) (acc : BitVec 64) :
    unsignedProduct a b acc = a.setWidth 64 * b.setWidth 64 + acc := by
  simp only [unsignedProduct, BitVec.ofNat_add, BitVec.ofNat_mul, BitVec.ofNat_toNat, BitVec.setWidth_eq]

/-- The signed product of two words is the product of their sign extensions (R235, R236). -/
theorem signedProduct_eq (a b : Word) (acc : BitVec 64) :
    signedProduct a b acc = a.signExtend 64 * b.signExtend 64 + acc := by
  simp only [signedProduct, BitVec.ofInt_add, BitVec.ofInt_mul, BitVec.ofInt_toInt, BitVec.signExtend]

theorem mulLongGuard_pc {rdHi rdLo rs rm : Reg} (k : Result) (h : rdHi = 15#4 ∨ rdLo = 15#4 ∨ rm = 15#4 ∨ rs = 15#4) :
    mulLongGuard rdHi rdLo rs rm k = .fault .r15Operand := if_pos h

theorem mulLongGuard_clash {rdHi rdLo rs rm : Reg} (k : Result) (h : ¬(rdHi = 15#4 ∨ rdLo = 15#4 ∨ rm = 15#4 ∨ rs = 15#4))
    (hc : rdHi = rdLo ∨ rdHi = rm ∨ rdLo = rm) : mulLongGuard rdHi rdLo rs rm k = .fault .registerClash := by
  rw [mulLongGuard, if_neg h, if_pos hc]

/-- A guarded meaning that checks the registers and writes a product is a long multiply of that product (R230, R233). -/
theorem mulLongAs_of_exec {mk : Cond → Bool → Reg → Reg → Reg → Reg → Instr} {r : Word → Word → BitVec 64 → BitVec 64}
    (h : ∀ c sf rdHi rdLo rs rm s, exec (mk c sf rdHi rdLo rs rm) s = guarded c s fun s =>
      mulLongGuard rdHi rdLo rs rm
        (.next (writeMulLong s sf rdHi rdLo (r (s.reg rm) (s.reg rs) (s.accumulator rdHi rdLo))))) :
    MulLongAs mk r := by
  intro c sf rdHi rdLo rs rm s hp
  rw [h, guarded_of_passes hp, writeMulLong_eq_mulLongDone]
  exact ⟨mulLongGuard_ok, mulLongGuard_pc _, fun hh hl hm hs => mulLongGuard_clash _ (by simp [hh, hl, hm, hs])⟩

/-- Settles O24: each long multiply is its product, without an accumulator the one with 0 added. -/
theorem multiplyLongResults : Obligations.MultiplyLongResults := by
  refine ⟨mulLongAs_of_exec ?umull, mulLongAs_of_exec ?umlal, mulLongAs_of_exec ?smull, mulLongAs_of_exec ?smlal⟩
  all_goals intro c sf rdHi rdLo rs rm s
  case umull => simp only [exec, execUmull, unsignedProduct_eq, BitVec.add_zero]
  case umlal => simp only [exec, execUmlal, unsignedProduct_eq]
  case smull => simp only [exec, execSmull, signedProduct_eq, BitVec.add_zero]
  case smlal => simp only [exec, execSmlal, signedProduct_eq]

end Sys2Proof.Machine
end

section
/-! ARM single transfers and swaps: each instruction is one operation on an address of R240 or R246, under the checks of its
form; what it answers in a quiet stretch (R240 to R254, R270, R271). -/

namespace Sys2Proof.Machine

open Sys2Proof.Claims

/-! ## The addresses -/

theorem transferAddr_addr (p u w : Bool) (base off : Word) :
    (transferAddr p u w base off).addr = transferAt p u base off := rfl

theorem transferAddr_writeBack_iff {p u w : Bool} {base off : Word} :
    (transferAddr p u w base off).writeBack = true ↔ p = false ∨ w = true := by
  simp [transferAddr]

/-- The write-back of R240, its condition on P and W written out. -/
theorem State.writeBack_transferAddr (s : State) (p u w : Bool) (rn : Reg) (base off : Word) :
    s.writeBack (transferAddr p u w base off) rn = if p = false ∨ w = true then s.setReg rn (movedBase u base off) else s :=
  if_congr transferAddr_writeBack_iff rfl rfl

/-- The end of a load on the bus that its read leaves; the write-back of its own destination is dropped (R251). -/
theorem finishLoad_transferAddr (s : State) (p u w : Bool) (rn rd : Reg) (off addr : Word) (wd : Width) (v : Word) :
    finishLoad (s.withBus (s.bus.readResult addr wd false)) (transferAddr p u w (s.reg rn) off) rn rd v =
      loadDone s p u w rn rd off addr wd v := by
  rw [finishLoad, State.writeBack_transferAddr, loadDone]
  by_cases h : rn = rd <;> simp [h]

/-! ## The addressing forms -/

/-- Where the condition passes and the base may be written back, `i` is the operation `op` on the address of R240. -/
def TransfersAt (i : Instr) (op : State → Transfer → Reg → Reg → Result) (c : Cond) (p u w : Bool) (rn rd : Reg)
    (off : State → Word) : Prop :=
  ∀ s : State, Cond.passes c s.cpsr = true → (p = false ∨ w = true → rn ≠ 15#4) →
    exec i s = op s (transferAddr p u w (s.reg rn) (off s)) rn rd

section
variable {i : Instr} {op : State → Transfer → Reg → Reg → Result} {c : Cond} {p u w : Bool} {rn rd rm : Reg}

theorem checkBase_transferAddr {base off : Word} {k : Result} (h : p = false ∨ w = true → rn ≠ 15#4) :
    checkBase (transferAddr p u w base off) rn k = k :=
  checkBase_ok fun e => h (transferAddr_writeBack_iff.mp e)

theorem transfersAt_singleImm {off : BitVec 12} (h : ∀ s, exec i s = singleImm op c p u w rn rd off s) :
    TransfersAt i op c p u w rn rd fun _ => off.setWidth 32 := by
  intro s hp hb
  rw [h, singleImm, guarded_of_passes hp, checkBase_transferAddr hb]

theorem transfersAt_singleReg {n : BitVec 5} {sh : ShiftKind} (hm : rm ≠ 15#4)
    (h : ∀ s, exec i s = singleReg op c p u w rn rd n sh rm s) :
    TransfersAt i op c p u w rn rd (Claims.shiftedOffset n sh rm) := by
  intro s hp hb
  rw [h, singleReg, guarded_of_passes hp, if_neg hm, checkBase_transferAddr hb]
  rfl

theorem transfersAt_halfImm {immH immL : BitVec 4} (hpw : p = true ∨ w = false)
    (h : ∀ s, exec i s = halfImm op c p u w rn rd immH immL s) :
    TransfersAt i op c p u w rn rd fun _ => (immH ++ immL).setWidth 32 := by
  intro s hp hb
  rw [h, halfImm, guarded_of_passes hp, checkPostIndexed_ok hpw, checkBase_transferAddr hb]

theorem transfersAt_halfReg (hpw : p = true ∨ w = false) (hm : rm ≠ 15#4)
    (h : ∀ s, exec i s = halfReg op c p u w rn rd rm s) : TransfersAt i op c p u w rn rd fun s => s.reg rm := by
  intro s hp hb
  rw [h, halfReg, guarded_of_passes hp, if_neg hm, checkPostIndexed_ok hpw, checkBase_transferAddr hb]

/-! ## Loads -/

/-- `op` into Rd is one data read at the width `wd`, its value shaped, and the end of a load. -/
def OpLoads (op : State → Transfer → Reg → Reg → Result) (rd : Reg) (wd : Word → Width) (shape : Word → Word → Word) :
    Prop :=
  ∀ (s : State) (t : Transfer) (rn : Reg), s.bus.Calm t.addr (wd t.addr) → s.bus.QuietFor 1 →
    op s t rn rd =
      .next (finishLoad (s.withBus (s.bus.readResult t.addr (wd t.addr) false)) t rn rd
        (shape t.addr (s.bus.valueRead t.addr (wd t.addr)).1))

/-- A load at an address of R240 answers what the obligations say of a load. -/
theorem OpLoads.loadsAs {wd : Word → Width} {shape : Word → Word → Word} {off : State → Word}
    (hop : OpLoads op rd wd shape) (h : TransfersAt i op c p u w rn rd off) :
    LoadsAs i c p u w rn rd off wd shape := by
  intro s hp hq hb addr hm
  rw [h s hp hb, hop s (transferAddr p u w (s.reg rn) (off s)) rn hm hq, finishLoad_transferAddr, transferAddr_addr]

theorem opLdr_loads (rd : Reg) : OpLoads opLdr rd (fun _ => .word) (rotatedFor rd) :=
  fun _ t rn hm hq => opLdr_answers t rn rd hm hq

theorem opLdrb_loads (hd : rd ≠ 15#4) : OpLoads opLdrb rd (fun _ => .byte) asRead :=
  fun _ t rn => opLoadNarrow_answers loadByte_answers t rn hd

theorem opLdrh_loads (hd : rd ≠ 15#4) : OpLoads opLdrh rd (fun _ => .half) halfValue :=
  fun _ t rn => opLoadNarrow_answers loadHalf_answers t rn hd

theorem opLdrsb_loads (hd : rd ≠ 15#4) : OpLoads opLdrsb rd (fun _ => .byte) signedByte :=
  fun _ t rn => opLoadNarrow_answers loadSignedByte_answers t rn hd

theorem opLdrsh_loads (hd : rd ≠ 15#4) : OpLoads opLdrsh rd signedHalfWidth signedHalf :=
  fun _ t rn => opLoadNarrow_answers loadSignedHalf_answers t rn hd

/-! ## Stores -/

/-- `op` of Rd is one data write of `val` and the write-back. -/
def OpStores (op : State → Transfer → Reg → Reg → Result) (rd : Reg) (wd : Width) (val : State → Word) : Prop :=
  ∀ (s : State) (t : Transfer) (rn : Reg), s.bus.Silent t.addr wd → s.bus.QuietFor 1 →
    op s t rn rd = .next ((s.withBus (s.bus.writeResult t.addr wd (val s) false)).writeBack t rn)

/-- A store at an address of R240 answers what the obligations say of a store. -/
theorem OpStores.storesAs {wd : Width} {val off : State → Word} (hop : OpStores op rd wd val)
    (h : TransfersAt i op c p u w rn rd off) : StoresAs i c p u w rn off wd val := by
  intro s hp hq hb addr hs s1
  rw [h s hp hb, hop s (transferAddr p u w (s.reg rn) (off s)) rn hs hq, State.writeBack_transferAddr, transferAddr_addr]

theorem opStr_stores (rd : Reg) : OpStores opStr rd .word (storedWord rd) := fun _ t rn => opStr_answers t rn rd

theorem opStoreNarrow_stores (wd : Width) (hd : rd ≠ 15#4) : OpStores (opStoreNarrow wd) rd wd fun s => s.reg rd :=
  fun _ t rn => opStoreNarrow_answers t rn hd

end

/-- Settles O25: LDR and LDRT are the word load on the address of their form; a translated load has P = 0. -/
theorem wordLoads : Obligations.WordLoads := by
  intro c p u w rn rd
  have hop := opLdr_loads rd
  refine ⟨fun off => ⟨?_, ?_⟩, fun n sh rm hm => ⟨?_, ?_⟩⟩
  · exact hop.loadsAs (transfersAt_singleImm fun _ => rfl)
  · exact hop.loadsAs (transfersAt_singleImm fun _ => rfl)
  · exact hop.loadsAs (transfersAt_singleReg hm fun _ => rfl)
  · exact hop.loadsAs (transfersAt_singleReg hm fun _ => rfl)

/-- Settles O26: each narrow load is its own operation on the address of its form. -/
theorem narrowLoads : Obligations.NarrowLoads := by
  intro c p u w rn rd hd
  have hb := opLdrb_loads hd
  refine ⟨fun off => ⟨?_, ?_⟩, fun n sh rm hm => ⟨?_, ?_⟩, fun hpw =>
    ⟨fun immH immL => ⟨?_, ?_, ?_⟩, fun rm hm => ⟨?_, ?_, ?_⟩⟩⟩
  · exact hb.loadsAs (transfersAt_singleImm fun _ => rfl)
  · exact hb.loadsAs (transfersAt_singleImm fun _ => rfl)
  · exact hb.loadsAs (transfersAt_singleReg hm fun _ => rfl)
  · exact hb.loadsAs (transfersAt_singleReg hm fun _ => rfl)
  · exact (opLdrh_loads hd).loadsAs (transfersAt_halfImm hpw fun _ => rfl)
  · exact (opLdrsb_loads hd).loadsAs (transfersAt_halfImm hpw fun _ => rfl)
  · exact (opLdrsh_loads hd).loadsAs (transfersAt_halfImm hpw fun _ => rfl)
  · exact (opLdrh_loads hd).loadsAs (transfersAt_halfReg hpw hm fun _ => rfl)
  · exact (opLdrsb_loads hd).loadsAs (transfersAt_halfReg hpw hm fun _ => rfl)
  · exact (opLdrsh_loads hd).loadsAs (transfersAt_halfReg hpw hm fun _ => rfl)

/-- Settles O27: each store is its own operation on the address of its form. -/
theorem singleStores : Obligations.SingleStores := by
  intro c p u w rn rd
  have hw := opStr_stores rd
  have hb := opStoreNarrow_stores (rd := rd) .byte
  have hh := opStoreNarrow_stores (rd := rd) .half
  refine ⟨fun off => ⟨?_, ?_, fun hd => ⟨?_, ?_⟩⟩, fun n sh rm hm => ⟨?_, ?_, fun hd => ⟨?_, ?_⟩⟩, fun hpw hd =>
    ⟨fun immH immL => ?_, fun rm hm => ?_⟩⟩
  · exact hw.storesAs (transfersAt_singleImm fun _ => rfl)
  · exact hw.storesAs (transfersAt_singleImm fun _ => rfl)
  · exact (hb hd).storesAs (transfersAt_singleImm fun _ => rfl)
  · exact (hb hd).storesAs (transfersAt_singleImm fun _ => rfl)
  · exact hw.storesAs (transfersAt_singleReg hm fun _ => rfl)
  · exact hw.storesAs (transfersAt_singleReg hm fun _ => rfl)
  · exact (hb hd).storesAs (transfersAt_singleReg hm fun _ => rfl)
  · exact (hb hd).storesAs (transfersAt_singleReg hm fun _ => rfl)
  · exact (hh hd).storesAs (transfersAt_halfImm hpw fun _ => rfl)
  · exact (hh hd).storesAs (transfersAt_halfReg hpw hm fun _ => rfl)

/-! ## Swaps -/

/-- A swap for which `DEVICE` does nothing, and what goes on after it: one `Advance` of both costs, which in a quiet
stretch fires nothing (R115). -/
theorem State.andThen_swap {s : State} {a : Word} {w : Width} (v : Word) (k : Word × State → Result)
    (hm : s.bus.Calm a w) (hs : s.bus.Silent a w) :
    andThen (s.swap a w v) k =
      s.onBus (({ (s.bus.readResult a w false).writeResult a w v false with ts := s.bus.ts } : Bus).advance
        (s.bus.costAt .data a w false + (s.bus.readResult a w false).costAt .data a w false)) (fun b =>
          k ((s.bus.valueRead a w).1, s.withBus b)) ∧
    (s.bus.QuietFor 2 →
      andThen (s.swap a w v) k =
        k ((s.bus.valueRead a w).1, s.withBus ((s.bus.readResult a w false).writeResult a w v false))) := by
  refine ⟨?_, fun hq => ?_⟩
  · rw [State.swap_silent hm hs, State.andThen_onBus]
    rfl
  · rw [State.swap_quiet hm hs hq (Nat.le_of_eq (Nat.mul_comm ..)), andThen_of_next]

/-- Settles O28: the checks passed, the swap is one operation of the bus. -/
theorem swapExchanges : Obligations.SwapExchanges := by
  intro c rn rd rm s hp hn hd hm hnm hnd a b cost value
  rw [exec, execSwp, exec, execSwpb, guarded_of_passes hp, guarded_of_passes hp, swapGuard_ok hn hd hm hnm hnd,
    swapGuard_ok hn hd hm hnm hnd]
  exact ⟨State.andThen_swap (s.reg rm) _, State.andThen_swap (s.reg rm) _⟩

end Sys2Proof.Machine
end

section
/-! ARM block transfers: the register list, the addresses in the terms of R260, and what each form answers in a quiet stretch
(R260 to R267). -/

namespace Sys2Proof.Machine

open Sys2Proof.Claims

/-! ## The register list -/

theorem mem_regsOf (list : BitVec 16) (r : Reg) : r ∈ regsOf list ↔ list.getLsbD r.toNat = true := by
  simp only [regsOf, List.mem_filterMap, List.mem_range, Option.ite_none_right_eq_some, Option.some.injEq]
  constructor
  · rintro ⟨k, hk, hbit, rfl⟩
    rwa [BitVec.toNat_ofNat, Nat.mod_eq_of_lt hk]
  · exact fun h => ⟨r.toNat, r.isLt, h, BitVec.ofNat_toNat ..⟩

/-- The list ascends: it filters the indices 0 to 15 in their order (R260). -/
theorem regsOf_ascending (list : BitVec 16) : (regsOf list).Pairwise fun r r' => r.toNat < r'.toNat := by
  rw [regsOf, List.pairwise_filterMap]
  refine List.Pairwise.imp_of_mem (fun {j k} hj hk hlt r hr r' hr' => ?_) List.pairwise_lt_range
  simp only [Option.ite_none_right_eq_some, Option.some.injEq] at hr hr'
  obtain ⟨⟨-, rfl⟩, -, rfl⟩ := And.intro hr hr'
  rw [List.mem_range] at hj hk
  rwa [BitVec.toNat_ofNat, BitVec.toNat_ofNat, Nat.mod_eq_of_lt hj, Nat.mod_eq_of_lt hk]

/-! ## Addresses and values -/

theorem blockRegs_eq_moved (regs : List Reg) : blockRegs regs = moved regs := if_congr List.isEmpty_iff rfl rfl

theorem moved_of_ne_nil {regs : List Reg} (h : regs ≠ []) : moved regs = regs := if_neg h

theorem blockSize_eq_listSize (regs : List Reg) : blockSize regs = listSize regs := if_congr List.isEmpty_iff rfl rfl

theorem State.blockAddr_eq_listStart (s : State) (p u : Bool) (rn : Reg) (regs : List Reg) :
    s.blockAddr p u rn regs = listStart p u (s.reg rn) regs := by
  rw [State.blockAddr, blockSize_eq_listSize]
  cases p <;> cases u <;> rfl

theorem State.newBase_eq_listBase (s : State) (u : Bool) (rn : Reg) (regs : List Reg) :
    s.newBase u rn regs = listBase u (s.reg rn) regs := by
  rw [State.newBase, blockSize_eq_listSize]
  rfl

/-- The stored values of a block store, the new base in the terms of R260. -/
theorem State.storedValue_eq (s : State) (m : Mode) (u w : Bool) (rn : Reg) (regs : List Reg) :
    s.storedValue m u w rn regs = fun r =>
      if r = 15#4 then s.here + 12#32
      else if r = rn ∧ w = true ∧ regs.head? ≠ some rn then listBase u (s.reg rn) regs else s.xm m r := by
  funext r
  rw [State.storedValue, State.newBase_eq_listBase]
  rfl

/-- Without write-back a register stores its old value (R263, R266). -/
theorem State.storedValue_of_not_writeBack (s : State) (m : Mode) (u : Bool) (rn : Reg) (regs : List Reg) :
    s.storedValue m u false rn regs = fun r => if r = 15#4 then s.here + 12#32 else s.xm m r := by
  rw [State.storedValue_eq]
  simp

theorem loadRegs_eq_loadedRegs (m : Mode) (mask : Word) (s : State) (regs : List Reg) (words : List Word) :
    loadRegs m mask s regs words = loadedRegs m mask s regs words := by
  induction regs generalizing s words with
  | nil => rfl
  | cons r regs ih =>
    cases words with
    | nil => rfl
    | cons v words => exact ih _ words

theorem State.blockWriteBack_eq_basedLoad (s : State) (w : Bool) (rn : Reg) (regs : List Reg) (nb : Word) :
    s.blockWriteBack w rn regs nb = basedLoad s w rn regs nb := rfl

/-! ## Block stores -/

section
variable {c : Cond} {p u w : Bool} {rn : Reg} {s : State} (hp : Cond.passes c s.cpsr = true) (hn : rn ≠ 15#4)
include hp hn

theorem exec_stm {list : BitVec 16} (hq : s.bus.QuietFor (moved (regsOf list)).length)
    (hs : s.bus.SilentBlock (listStart p u (s.reg rn) (regsOf list)) (moved (regsOf list)).length) :
    let s1 := s.withBus (s.bus.writeBlock
      ((moved (regsOf list)).map (s.storedValue s.cpsr.mode u w rn (regsOf list)))
      (listStart p u (s.reg rn) (regsOf list)) false)
    exec (.stm c p u w rn list) s = .next (if w then s1.setReg rn (listBase u (s.reg rn) (regsOf list)) else s1) := by
  rw [exec, execStm, guarded_of_passes hp, checkBlockBase_ok hn, blockRegs_eq_moved, State.blockAddr_eq_listStart,
    State.newBase_eq_listBase, storeList_quiet _ _ _ (by rwa [List.length_map]) (by rwa [List.length_map]), andThen_of_next]

theorem exec_stmUser {list : BitVec 16} (hu : s.cpsr.mode ≠ .usr) (hy : s.cpsr.mode ≠ .sys) (hl : regsOf list ≠ [])
    (hq : s.bus.QuietFor (regsOf list).length)
    (hs : s.bus.SilentBlock (listStart p u (s.reg rn) (regsOf list)) (regsOf list).length) :
    exec (.stmUser c p u false rn list) s =
      .next (s.withBus (s.bus.writeBlock ((regsOf list).map (s.storedValue .usr u false rn (regsOf list)))
        (listStart p u (s.reg rn) (regsOf list)) false)) := by
  have hlist : list ≠ 0#16 := by
    rintro rfl
    exact hl rfl
  rw [exec, execStmUser, guarded_of_passes hp, checkBlockBase_ok hn, checkUserBank_ok rfl hu hy, if_neg hlist,
    State.blockAddr_eq_listStart, storeList_quiet _ _ _ (by rwa [List.length_map]) (by rwa [List.length_map])]

end

/-- Settles O34: the list's order, then the stores of its values at ascending addresses. -/
theorem blockStores : Obligations.BlockStores := by
  refine ⟨fun list => ⟨mem_regsOf list, regsOf_ascending list⟩, ?_⟩
  intro c p u w rn list s hp hn regs start nb hq hs
  refine ⟨?_, fun hw hu hy hl => ?_⟩
  · rw [exec_stm hp hn hq hs, State.storedValue_eq]
    rfl
  · rw [moved_of_ne_nil hl] at hq hs
    rw [hw, exec_stmUser hp hn hu hy hl hq hs, State.storedValue_of_not_writeBack]

/-! ## Block loads -/

/-- Settles O35: the loads at ascending addresses, then the write-back and the registers. -/
theorem blockLoads : Obligations.BlockLoads := by
  intro c p u w rn s hp hn
  constructor
  · intro list regs start words hq hm
    rw [exec, execLdm, guarded_of_passes hp, checkBlockBase_ok hn, blockRegs_eq_moved, State.blockAddr_eq_listStart,
      State.newBase_eq_listBase, loadList_quiet _ _ _ hm hq, andThen_of_next, loadRegs_eq_loadedRegs]
    rfl
  · intro list regs start words hq hm hw hu hy
    rw [exec, execLdmUser, guarded_of_passes hp, checkBlockBase_ok hn, checkUserBank_ok hw hu hy, blockRegs_eq_moved,
      State.blockAddr_eq_listStart, loadList_quiet _ _ _ hm hq, andThen_of_next, loadRegs_eq_loadedRegs]

/-! ## The return from an exception -/

/-- The registers and the write-back of a block load leave the current mode and its saved status. -/
theorem spsrOf_loadedRegs (m : Mode) (mask : Word) (s : State) (w : Bool) (rn : Reg) (regs : List Reg) (nb : Word)
    (words : List Word) :
    (loadedRegs m mask (basedLoad s w rn regs nb) regs words).spsrOf
        (loadedRegs m mask (basedLoad s w rn regs nb) regs words).cpsr.mode = s.spsrOf s.cpsr.mode := by
  rw [← State.blockWriteBack_eq_basedLoad, ← loadRegs_eq_loadedRegs, loadRegs_cpsr, State.blockWriteBack_cpsr]
  exact State.spsrOf_congr (by rw [loadRegs_spsrs, State.blockWriteBack_spsrs]) _

theorem exec_ldmRestore {c : Cond} {p u w : Bool} {rn : Reg} {list : BitVec 15} {s : State}
    (hp : Cond.passes c s.cpsr = true) (hn : rn ≠ 15#4) :
    let low := regsOf (list.setWidth 16)
    let regs := low ++ [15#4]
    let start := listStart p u (s.reg rn) regs
    let words := s.bus.readBlock regs.length start false
    s.bus.QuietFor regs.length → s.bus.CalmBlock start regs.length →
    exec (.ldmRestore c p u w rn list) s =
      (s.withBus words.2).leaving
        ((loadedRegs s.cpsr.mode 0xFFFFFFFC#32 (basedLoad (s.withBus words.2) w rn low (listBase u (s.reg rn) regs)) low
          words.1).exceptionReturn (words.1.getLastD 0#32)) := by
  intro low regs start words hq hm
  rw [exec, execLdmRestore, guarded_of_passes hp, checkBlockBase_ok hn, State.blockAddr_eq_listStart,
    State.newBase_eq_listBase, loadList_quiet _ _ _ hm hq, andThen_of_next, loadRegs_eq_loadedRegs]
  rfl

/-- Settles O36: the registers and the write-back leave the saved status of the old mode, from which the return restores. -/
theorem blockLoadRestoresStatus : Obligations.BlockLoadRestoresStatus := by
  intro c p u w rn list s hp hn low regs start words left hq hm
  have hstatus := spsrOf_loadedRegs s.cpsr.mode 0xFFFFFFFC#32 (s.withBus words.2) w rn low
    (listBase u (s.reg rn) regs) words.1
  rw [exec_ldmRestore hp hn hq hm]
  refine ⟨fun saved q hs hr => ?_, fun saved hs hr => ?_, fun hu => ?_⟩
  · rw [State.exceptionReturn_ok _ (hstatus.trans hs) hr]
    rfl
  · rw [State.exceptionReturn_notAMode _ (hstatus.trans hs) hr]
    rfl
  · rw [State.exceptionReturn_none _ (hstatus.trans ((s.spsrOf_none _).mpr hu))]
    rfl

end Sys2Proof.Machine
end

section
/-! Where the single transfers, the block transfers and the swaps are faults (R240, R244 to R246, R254, R260, R266, R270). -/

namespace Sys2Proof.Machine

open Sys2Proof.Claims

/-! ## The checks that fail -/

theorem checkBase_pc {t : Transfer} (h : t.writeBack = true) (k : Result) : checkBase t 15#4 k = .fault .r15Operand :=
  if_pos ⟨h, rfl⟩

theorem checkPostIndexed_fault (k : Result) : checkPostIndexed false true k = .fault .postIndexedWriteBack := rfl

theorem checkBlockBase_pc (k : Result) : checkBlockBase 15#4 k = .fault .r15Operand := rfl

theorem checkUserBank_fault {s : State} {w : Bool} (h : w = true ∨ s.cpsr.mode = .usr ∨ s.cpsr.mode = .sys) (k : Result) :
    checkUserBank s w k = .fault .userBankTransfer := if_pos h

theorem swapGuard_pc {rn rd rm : Reg} (h : rn = 15#4 ∨ rd = 15#4 ∨ rm = 15#4) (k : Result) :
    swapGuard rn rd rm k = .fault .r15Operand := if_pos (or_left_comm.mp h)

theorem swapGuard_clash {rn rd rm : Reg} (hn : rn ≠ 15#4) (hd : rd ≠ 15#4) (hm : rm ≠ 15#4) (h : rn = rm ∨ rn = rd)
    (k : Result) : swapGuard rn rd rm k = .fault .registerClash := by
  rw [swapGuard, if_neg (by simp [hn, hd, hm]), if_pos h]

/-! ## The addressing forms -/

/-- An operation that R15 as Rd makes a fault, as those narrower than a word are (R244, R246). -/
def NarrowOp (op : State → Transfer → Reg → Reg → Result) : Prop :=
  ∀ (s : State) (t : Transfer) (rn : Reg), op s t rn 15#4 = .fault .r15Operand

/-- Either way a fault: the check of the base before it has the same reason. -/
theorem NarrowOp.checkBase_pc {op : State → Transfer → Reg → Reg → Result} (hop : NarrowOp op) (s : State) (t : Transfer)
    (rn : Reg) : checkBase t rn (op s t rn 15#4) = .fault .r15Operand := by
  rw [hop, checkBase, ite_self]

theorem opLoadNarrow_narrow (load : State → Word → Host.Outcome (Word × State) Fault Refusal) :
    NarrowOp (opLoadNarrow load) := fun _ _ _ => rfl

theorem opStoreNarrow_narrow (w : Width) : NarrowOp (opStoreNarrow w) := fun _ _ _ => rfl

section
variable {op : State → Transfer → Reg → Reg → Result} {c : Cond} {p u w : Bool} {rn rd rm : Reg} {s : State}
  (hp : Cond.passes c s.cpsr = true)
include hp

theorem singleImm_base_pc (hw : p = false ∨ w = true) (off : BitVec 12) :
    singleImm op c p u w 15#4 rd off s = .fault .r15Operand := by
  rw [singleImm, guarded_of_passes hp, checkBase_pc (transferAddr_writeBack_iff.mpr hw)]

theorem singleImm_rd_pc (hop : NarrowOp op) (off : BitVec 12) :
    singleImm op c p u w rn 15#4 off s = .fault .r15Operand := by
  rw [singleImm, guarded_of_passes hp, hop.checkBase_pc]

theorem singleReg_rm_pc (n : BitVec 5) (sh : ShiftKind) : singleReg op c p u w rn rd n sh 15#4 s = .fault .r15Operand := by
  rw [singleReg, guarded_of_passes hp, if_pos rfl]

theorem singleReg_base_pc (hw : p = false ∨ w = true) (n : BitVec 5) (sh : ShiftKind) :
    singleReg op c p u w 15#4 rd n sh rm s = .fault .r15Operand := by
  rw [singleReg, guarded_of_passes hp, checkBase_pc (transferAddr_writeBack_iff.mpr hw), ite_self]

theorem singleReg_rd_pc (hop : NarrowOp op) (n : BitVec 5) (sh : ShiftKind) :
    singleReg op c p u w rn 15#4 n sh rm s = .fault .r15Operand := by
  rw [singleReg, guarded_of_passes hp, hop.checkBase_pc, ite_self]

theorem halfImm_base_pc (hpw : p = true ∨ w = false) (hw : p = false ∨ w = true) (immH immL : BitVec 4) :
    halfImm op c p u w 15#4 rd immH immL s = .fault .r15Operand := by
  rw [halfImm, guarded_of_passes hp, checkPostIndexed_ok hpw, checkBase_pc (transferAddr_writeBack_iff.mpr hw)]

theorem halfImm_rd_pc (hop : NarrowOp op) (hpw : p = true ∨ w = false) (immH immL : BitVec 4) :
    halfImm op c p u w rn 15#4 immH immL s = .fault .r15Operand := by
  rw [halfImm, guarded_of_passes hp, checkPostIndexed_ok hpw, hop.checkBase_pc]

theorem halfImm_postIndexed (immH immL : BitVec 4) :
    halfImm op c false u true rn rd immH immL s = .fault .postIndexedWriteBack := by
  rw [halfImm, guarded_of_passes hp, checkPostIndexed_fault]

theorem halfReg_rm_pc : halfReg op c p u w rn rd 15#4 s = .fault .r15Operand := by
  rw [halfReg, guarded_of_passes hp, if_pos rfl]

theorem halfReg_base_pc (hpw : p = true ∨ w = false) (hw : p = false ∨ w = true) :
    halfReg op c p u w 15#4 rd rm s = .fault .r15Operand := by
  rw [halfReg, guarded_of_passes hp, checkPostIndexed_ok hpw, checkBase_pc (transferAddr_writeBack_iff.mpr hw), ite_self]

theorem halfReg_rd_pc (hop : NarrowOp op) (hpw : p = true ∨ w = false) :
    halfReg op c p u w rn 15#4 rm s = .fault .r15Operand := by
  rw [halfReg, guarded_of_passes hp, checkPostIndexed_ok hpw, hop.checkBase_pc, ite_self]

theorem halfReg_postIndexed (hm : rm ≠ 15#4) :
    halfReg op c false u true rn rd rm s = .fault .postIndexedWriteBack := by
  rw [halfReg, guarded_of_passes hp, if_neg hm, checkPostIndexed_fault]

end

/-! ## The instructions of each form -/

section
variable {c : Cond} {p u w : Bool} {rn rd rm : Reg} {i : Instr}

/-- A transfer, or with P = 0 its translated form. -/
theorem mem_translated {a b a' b' : Instr} (h : i ∈ [a, b] ++ if p then [] else [a', b']) :
    i = a ∨ i = b ∨ p = false ∧ (i = a' ∨ i = b') := by
  cases p <;> simpa [or_assoc] using h

theorem exec_wordImms {off : BitVec 12} (h : i ∈ wordImms c p u w rn rd off) :
    ∃ op, ∀ s, exec i s = singleImm op c p u w rn rd off s := by
  obtain rfl | rfl | ⟨rfl, rfl | rfl⟩ := mem_translated h
  case inl | inr.inr.inl => exact ⟨opLdr, fun _ => rfl⟩
  case inr.inl | inr.inr.inr => exact ⟨opStr, fun _ => rfl⟩

theorem exec_wordRegs {n : BitVec 5} {sh : ShiftKind} (h : i ∈ wordRegs c p u w rn rd n sh rm) :
    ∃ op, ∀ s, exec i s = singleReg op c p u w rn rd n sh rm s := by
  obtain rfl | rfl | ⟨rfl, rfl | rfl⟩ := mem_translated h
  case inl | inr.inr.inl => exact ⟨opLdr, fun _ => rfl⟩
  case inr.inl | inr.inr.inr => exact ⟨opStr, fun _ => rfl⟩

theorem exec_byteImms {off : BitVec 12} (h : i ∈ byteImms c p u w rn rd off) :
    ∃ op, NarrowOp op ∧ ∀ s, exec i s = singleImm op c p u w rn rd off s := by
  obtain rfl | rfl | ⟨rfl, rfl | rfl⟩ := mem_translated h
  case inl | inr.inr.inl => exact ⟨opLdrb, opLoadNarrow_narrow _, fun _ => rfl⟩
  case inr.inl | inr.inr.inr => exact ⟨opStrb, opStoreNarrow_narrow _, fun _ => rfl⟩

theorem exec_byteRegs {n : BitVec 5} {sh : ShiftKind} (h : i ∈ byteRegs c p u w rn rd n sh rm) :
    ∃ op, NarrowOp op ∧ ∀ s, exec i s = singleReg op c p u w rn rd n sh rm s := by
  obtain rfl | rfl | ⟨rfl, rfl | rfl⟩ := mem_translated h
  case inl | inr.inr.inl => exact ⟨opLdrb, opLoadNarrow_narrow _, fun _ => rfl⟩
  case inr.inl | inr.inr.inr => exact ⟨opStrb, opStoreNarrow_narrow _, fun _ => rfl⟩

theorem exec_halfImms {immH immL : BitVec 4} (h : i ∈ halfImms c p u w rn rd immH immL) :
    ∃ op, NarrowOp op ∧ ∀ s, exec i s = halfImm op c p u w rn rd immH immL s := by
  simp only [halfImms, List.mem_cons, List.not_mem_nil, or_false] at h
  obtain rfl | rfl | rfl | rfl := h
  · exact ⟨opLdrh, opLoadNarrow_narrow _, fun _ => rfl⟩
  · exact ⟨opLdrsb, opLoadNarrow_narrow _, fun _ => rfl⟩
  · exact ⟨opLdrsh, opLoadNarrow_narrow _, fun _ => rfl⟩
  · exact ⟨opStrh, opStoreNarrow_narrow _, fun _ => rfl⟩

theorem exec_halfRegs (h : i ∈ halfRegs c p u w rn rd rm) :
    ∃ op, NarrowOp op ∧ ∀ s, exec i s = halfReg op c p u w rn rd rm s := by
  simp only [halfRegs, List.mem_cons, List.not_mem_nil, or_false] at h
  obtain rfl | rfl | rfl | rfl := h
  · exact ⟨opLdrh, opLoadNarrow_narrow _, fun _ => rfl⟩
  · exact ⟨opLdrsb, opLoadNarrow_narrow _, fun _ => rfl⟩
  · exact ⟨opLdrsh, opLoadNarrow_narrow _, fun _ => rfl⟩
  · exact ⟨opStrh, opStoreNarrow_narrow _, fun _ => rfl⟩

end

/-! ## Every forbidden form -/

section
variable {c : Cond} {s : State} (hp : Cond.passes c s.cpsr = true) (p u w : Bool) (rn rd rm : Reg) {i : Instr}
include hp

theorem exec_singleRegs_rm_pc {n : BitVec 5} {sh : ShiftKind}
    (hi : i ∈ wordRegs c p u w rn rd n sh 15#4 ++ byteRegs c p u w rn rd n sh 15#4) : exec i s = .fault .r15Operand := by
  rcases List.mem_append.mp hi with hi | hi
  · obtain ⟨_, h⟩ := exec_wordRegs hi
    rw [h, singleReg_rm_pc hp]
  · obtain ⟨_, -, h⟩ := exec_byteRegs hi
    rw [h, singleReg_rm_pc hp]

theorem exec_single_base_pc (hw : p = false ∨ w = true) {n : BitVec 5} {sh : ShiftKind} {off : BitVec 12}
    (hi : i ∈ wordImms c p u w 15#4 rd off ++ byteImms c p u w 15#4 rd off ++ wordRegs c p u w 15#4 rd n sh rm ++
      byteRegs c p u w 15#4 rd n sh rm) : exec i s = .fault .r15Operand := by
  simp only [List.mem_append] at hi
  obtain ((hi | hi) | hi) | hi := hi
  · obtain ⟨_, h⟩ := exec_wordImms hi
    rw [h, singleImm_base_pc hp hw]
  · obtain ⟨_, -, h⟩ := exec_byteImms hi
    rw [h, singleImm_base_pc hp hw]
  · obtain ⟨_, h⟩ := exec_wordRegs hi
    rw [h, singleReg_base_pc hp hw]
  · obtain ⟨_, -, h⟩ := exec_byteRegs hi
    rw [h, singleReg_base_pc hp hw]

theorem exec_bytes_rd_pc {n : BitVec 5} {sh : ShiftKind} {off : BitVec 12}
    (hi : i ∈ byteImms c p u w rn 15#4 off ++ byteRegs c p u w rn 15#4 n sh rm) : exec i s = .fault .r15Operand := by
  rcases List.mem_append.mp hi with hi | hi
  · obtain ⟨_, hop, h⟩ := exec_byteImms hi
    rw [h, singleImm_rd_pc hp hop]
  · obtain ⟨_, hop, h⟩ := exec_byteRegs hi
    rw [h, singleReg_rd_pc hp hop]

theorem exec_halfs_pc (hpw : p = true ∨ w = false) {immH immL : BitVec 4}
    (hi : i ∈ halfImms c p u w rn 15#4 immH immL ++ halfRegs c p u w rn 15#4 rm ++ halfRegs c p u w rn rd 15#4) :
    exec i s = .fault .r15Operand := by
  simp only [List.mem_append] at hi
  obtain (hi | hi) | hi := hi
  · obtain ⟨_, hop, h⟩ := exec_halfImms hi
    rw [h, halfImm_rd_pc hp hop hpw]
  · obtain ⟨_, hop, h⟩ := exec_halfRegs hi
    rw [h, halfReg_rd_pc hp hop hpw]
  · obtain ⟨_, -, h⟩ := exec_halfRegs hi
    rw [h, halfReg_rm_pc hp]

/-- A halfword transfer with P = W either writes its base back or is post-indexed, which writes it back too. -/
theorem exec_halfs_base_pc (hpw : p = w) {immH immL : BitVec 4}
    (hi : i ∈ halfImms c p u w 15#4 rd immH immL ++ halfRegs c p u w 15#4 rd rm) : exec i s = .fault .r15Operand := by
  have hlegal : p = true ∨ w = false := by cases w <;> simp [hpw]
  have hw : p = false ∨ w = true := by cases w <;> simp [hpw]
  rcases List.mem_append.mp hi with hi | hi
  · obtain ⟨_, -, h⟩ := exec_halfImms hi
    rw [h, halfImm_base_pc hp hlegal hw]
  · obtain ⟨_, -, h⟩ := exec_halfRegs hi
    rw [h, halfReg_base_pc hp hlegal hw]

theorem exec_halfs_postIndexed (hm : rm ≠ 15#4) {immH immL : BitVec 4}
    (hi : i ∈ halfImms c false u true rn rd immH immL ++ halfRegs c false u true rn rd rm) :
    exec i s = .fault .postIndexedWriteBack := by
  rcases List.mem_append.mp hi with hi | hi
  · obtain ⟨_, -, h⟩ := exec_halfImms hi
    rw [h, halfImm_postIndexed hp]
  · obtain ⟨_, -, h⟩ := exec_halfRegs hi
    rw [h, halfReg_postIndexed hp hm]

theorem exec_blocks_base_pc {list : BitVec 16} {low : BitVec 15}
    (hi : i ∈ [.ldm c p u w 15#4 list, .stm c p u w 15#4 list, .stmUser c p u w 15#4 list, .ldmUser c p u w 15#4 low,
      .ldmRestore c p u w 15#4 low]) : exec i s = .fault .r15Operand := by
  simp only [List.mem_cons, List.not_mem_nil, or_false] at hi
  obtain rfl | rfl | rfl | rfl | rfl := hi
  all_goals simp only [exec, execLdm, execStm, execStmUser, execLdmUser, execLdmRestore, guarded_of_passes hp,
    checkBlockBase_pc]

theorem exec_userBank_fault (hn : rn ≠ 15#4) (h : w = true ∨ s.cpsr.mode = .usr ∨ s.cpsr.mode = .sys) (list : BitVec 16)
    (low : BitVec 15) :
    exec (.stmUser c p u w rn list) s = .fault .userBankTransfer ∧
      exec (.ldmUser c p u w rn low) s = .fault .userBankTransfer := by
  rw [exec, execStmUser, exec, execLdmUser, guarded_of_passes hp, guarded_of_passes hp, checkBlockBase_ok hn,
    checkBlockBase_ok hn, checkUserBank_fault h, checkUserBank_fault h]
  exact ⟨rfl, rfl⟩

/-- An empty list has the same reason as the checks of the user bank before it (R266). -/
theorem exec_stmUser_empty (hn : rn ≠ 15#4) : exec (.stmUser c p u w rn 0#16) s = .fault .userBankTransfer := by
  rw [exec, execStmUser, guarded_of_passes hp, checkBlockBase_ok hn, if_pos rfl, checkUserBank, ite_self]

theorem exec_swaps_pc (h : rn = 15#4 ∨ rd = 15#4 ∨ rm = 15#4) :
    exec (.swp c rn rd rm) s = .fault .r15Operand ∧ exec (.swpb c rn rd rm) s = .fault .r15Operand := by
  rw [exec, execSwp, exec, execSwpb, guarded_of_passes hp, guarded_of_passes hp, swapGuard_pc h, swapGuard_pc h]
  exact ⟨rfl, rfl⟩

theorem exec_swaps_clash (hn : rn ≠ 15#4) (hd : rd ≠ 15#4) (hm : rm ≠ 15#4) (h : rn = rm ∨ rn = rd) :
    exec (.swp c rn rd rm) s = .fault .registerClash ∧ exec (.swpb c rn rd rm) s = .fault .registerClash := by
  rw [exec, execSwp, exec, execSwpb, guarded_of_passes hp, guarded_of_passes hp, swapGuard_clash hn hd hm h,
    swapGuard_clash hn hd hm h]
  exact ⟨rfl, rfl⟩

end

/-- Settles O29: each forbidden form fails a check, or an operation that R15 makes a fault. -/
theorem transferFaults : Obligations.TransferFaults := by
  intro c p u w rn rd rm s hp
  exact ⟨fun _ _ _ => exec_singleRegs_rm_pc hp p u w rn rd,
    fun _ _ _ hw _ => exec_single_base_pc hp p u w rd rm hw,
    fun _ _ _ _ => exec_bytes_rd_pc hp p u w rn rm,
    fun hpw _ _ _ => exec_halfs_pc hp p u w rn rd rm hpw,
    fun hpw _ _ _ => exec_halfs_base_pc hp p u w rd rm hpw,
    fun hm _ _ _ => exec_halfs_postIndexed hp u rn rd rm hm,
    fun _ _ _ => exec_blocks_base_pc hp p u w,
    exec_userBank_fault hp p u w rn,
    exec_stmUser_empty hp p u w rn,
    exec_swaps_pc hp rn rd rm,
    exec_swaps_clash hp rn rd rm⟩

end Sys2Proof.Machine
end

section
/-! ARM branches, and the exceptions that an instruction raises, in the terms of R280 to R287, R371, R390 and R391. -/

namespace Sys2Proof.Machine

open Sys2Proof.Claims

/-! ## Branches -/

/-- The offset with two zeros after it is four times the offset, and R15 reads as the cursor (R45, R280). -/
theorem State.branchTarget_eq (s : State) (off : BitVec 24) :
    s.branchTarget off = s.pipe.cursor + (off.signExtend 32 <<< 2) :=
  congrArg (s.pipe.cursor + ·) (signExtend_append 24 2 off (by decide))

/-- Settles O37: each form is its meaning where the condition passes, the target in the terms of the cursor. -/
theorem armBranches : Obligations.ArmBranches := by
  intro c off rm s hp target
  have htarget : s.branchTarget off = target := s.branchTarget_eq off
  refine ⟨?_, ?_, ?_⟩
  · rw [exec, execB, guarded_of_passes hp, htarget]
  · rw [exec, execBl, guarded_of_passes hp, htarget]
    rfl
  · rw [exec, execBx, guarded_of_passes hp]
    rfl

/-! ## Exceptions -/

/-- A raised exception that leaves F as it was is the entry of R390 with the link of R391. -/
theorem State.raise_eq_entered (s : State) {e : Exception} (hf : e.masksFiq = false) :
    s.raise e = entered s e.mode e.vector (linkValue s) := by
  rw [State.raise, s.nextAddr_eq_linkValue, State.enterException, State.setReg, State.setSpsr_cpsr, Cpsr.enter, hf,
    Bool.false_or]
  rfl

/-- Settles O38: each form raises its exception, the ARM forms where their condition passes. -/
theorem exceptionsAreTaken : Obligations.ExceptionsAreTaken := by
  intro s
  have hswi : s.raise .softwareInterrupt = entered s .svc 0x8#32 (linkValue s) := s.raise_eq_entered rfl
  have hund : s.raise .undefined = entered s .und 0x4#32 (linkValue s) := s.raise_eq_entered rfl
  rw [← hswi, ← hund]
  refine ⟨fun c hp => ?_, fun _ => rfl, fun _ => rfl, fun _ => rfl, fun _ => rfl⟩
  have harm (e : Exception) : guarded c s (fun s => .next (s.raise e)) = .next (s.raise e) := guarded_of_passes hp
  exact ⟨fun _ => harm .softwareInterrupt, fun _ _ => harm .undefined,
    fun _ _ _ _ _ _ _ _ => ⟨harm .undefined, harm .undefined⟩, fun _ _ _ _ _ _ => harm .undefined,
    fun _ _ _ _ _ _ => ⟨harm .undefined, harm .undefined⟩⟩

end Sys2Proof.Machine
end

section
/-! Thumb data processing, hi registers and address arithmetic: every form is its end (a result to a register, or flags
alone) of an operation of the arithmetic unit, in the terms of the words (R300 to R333). -/

namespace Sys2Proof.Machine

open Sys2Proof.Claims

/-! ## The operations -/

/-- A result with N and Z of it, and the carry and the overflow it comes with (R186). -/
def Cpsr.aluOf (p : Cpsr) (r : Word) (c v : Bool) : Alu := ⟨r, { p with n := r.msb, z := r == 0#32, c := c, v := v }⟩

section
variable (p : Cpsr) (a b : Word)

theorem logical_eq_aluOf (r : Word) (carry : Bool) : logical p r carry = p.aluOf r carry p.v := rfl

theorem addWithCarry_eq_aluOf (cin : Bool) :
    addWithCarry p a b cin =
      p.aluOf (a + b + if cin then 1#32 else 0#32) (decide (2 ^ 32 ≤ a.toNat + b.toNat + cin.toNat))
        (overflowed a b (a + b + if cin then 1#32 else 0#32)) :=
  addWithCarry_eq (addWithCarry_result p a b cin) (addWithCarry_carry p a b cin) rfl

/-- The sum of two words (R303). -/
theorem addWithCarry_false_eq_aluOf :
    addWithCarry p a b false =
      p.aluOf (a + b) (decide (2 ^ 32 ≤ a.toNat + b.toNat)) (overflowed a b (a + b)) :=
  addWithCarry_eq (by simp [addWithCarry_result]) (addWithCarry_carry p a b false) rfl

/-- The sum with the complement and the carry flag: C is NOT borrow (R317). -/
theorem addWithCarry_not_eq_aluOf (cin : Bool) :
    addWithCarry p a (~~~b) cin =
      p.aluOf (a + ~~~b + if cin then 1#32 else 0#32) (decide (b.toNat + (!cin).toNat ≤ a.toNat))
        (overflowed a (~~~b) (a + ~~~b + if cin then 1#32 else 0#32)) :=
  addWithCarry_eq (addWithCarry_result p a (~~~b) cin) (addWithCarry_not_carry p a b cin) rfl

/-- The difference of two words: C is NOT borrow (R304). -/
theorem difference_eq_aluOf :
    difference p a b = p.aluOf (a - b) (decide (b.toNat ≤ a.toNat)) (overflowed a (~~~b) (a - b)) :=
  addWithCarry_eq (by simp [addWithCarry_not_result]) (addWithCarry_not_carry p a b true) rfl

end

/-! ## The two ends -/

section
variable (s : State) (rd : LowReg) (r : Word) (c v : Bool)

theorem thumbResult_aluOf : thumbResult s rd (s.cpsr.aluOf r c v) = .next (thumbDone s rd r c v) := rfl

theorem thumbFlags_aluOf : thumbFlags s (s.cpsr.aluOf r c v) = .next (thumbCompared s r c v) := rfl

end

/-- Settles O41: each form is a sum or a difference, written to Rd or compared. -/
theorem thumbArithmetic : Obligations.ThumbArithmetic := by
  intro rn rs rd imm3 imm8 s plus minus compare x y cin
  have hplus (a b : Word) : thumbResult s rd (addWithCarry s.cpsr a b false) = .next (plus a b) := by
    rw [addWithCarry_false_eq_aluOf, thumbResult_aluOf]
  have hminus (a b : Word) : thumbResult s rd (difference s.cpsr a b) = .next (minus a b) := by
    rw [difference_eq_aluOf, thumbResult_aluOf]
  have hcompare (a b : Word) : thumbFlags s (difference s.cpsr a b) = .next (compare a b) := by
    rw [difference_eq_aluOf, thumbFlags_aluOf]
  refine ⟨hplus _ _, hminus _ _, hplus _ _, hminus _ _, hcompare _ _, hplus _ _, hminus _ _, ?adc, ?sbc, hminus _ _,
    hcompare _ _, ?cmn⟩
  case adc => rw [exec, execTAdc, addWithCarry_eq_aluOf, thumbResult_aluOf]
  case sbc => rw [exec, execTSbc, addWithCarry_not_eq_aluOf, thumbResult_aluOf]
  case cmn => rw [exec, execTCmn, addWithCarry_false_eq_aluOf, thumbFlags_aluOf]

/-- Settles O40: each form writes what the shifter gives; a register's amount is its low byte. -/
theorem thumbShifts : Obligations.ThumbShifts := by
  intro off rs rd s done amount
  have hdone (x : Shifted) : thumbShifted s rd x = .next (done x) := by
    rw [thumbShifted, logical_eq_aluOf, thumbResult_aluOf]
  have hreg (k : ShiftKind) : thumbShifted s rd (regShift k (s.reg rd.reg) (s.thumbAmount rs) s.cpsr.c) =
      .next (done (regShift k (s.reg rd.reg) amount s.cpsr.c)) := by
    rw [State.thumbAmount, shiftAmount_eq, hdone]
  exact ⟨hdone _, hdone _, hdone _, hreg .lsl, hreg .lsr, hreg .asr, hreg .ror⟩

/-- Settles O42: each form is a logical result, written to Rd or, for TST, tested. -/
theorem thumbLogical : Obligations.ThumbLogical := by
  intro rs rd imm s done x y
  have hdone (r : Word) : thumbResult s rd (keepCarry s.cpsr r) = .next (done r) := by
    rw [keepCarry, logical_eq_aluOf, thumbResult_aluOf]
  refine ⟨hdone _, hdone _, hdone _, ?tst, hdone _, hdone _, hdone _⟩
  case tst => rw [exec, execTTst, keepCarry, logical_eq_aluOf, thumbFlags_aluOf]

/-! ## Hi registers -/

/-- The number `H : R` is the low register's, and 8 more where H is set (R327). -/
theorem hiReg_eq_highReg (h : Bool) (r : LowReg) : hiReg h r = highReg h r := by
  apply BitVec.eq_of_toNat_eq
  have hr := r.isLt
  rw [hiReg, highReg, BitVec.toNat_append, ← Nat.shiftLeft_add_eq_or_of_lt hr, Nat.shiftLeft_eq, BitVec.toNat_ofBool,
    BitVec.toNat_ofNat]
  cases h
  · simp only [Bool.toNat_false]
    omega
  · simp only [Bool.toNat_true]
    omega

/-- Settles O43: the check of H1 and H2, then the ends of R327 to R330 on the registers `H : R`. -/
theorem thumbHiRegisters : Obligations.ThumbHiRegisters := by
  intro h1 h2 rs rd s d x y wrote
  have hd : hiReg h1 rd = d := hiReg_eq_highReg h1 rd
  have hs : hiReg h2 rs = highReg h2 rs := hiReg_eq_highReg h2 rs
  refine ⟨fun h => ⟨?_, ?_, ?_⟩, rfl, rfl, rfl, rfl, ?_⟩
  · rw [exec, execTAddHi, checkHi_ok h, hd, hs]
    rfl
  · rw [exec, execTMovHi, checkHi_ok h, hd, hs]
    rfl
  · rw [exec, execTCmpHi, checkHi_ok h, hd, hs, difference_eq_aluOf, thumbFlags_aluOf]
  · rw [exec, execTBx, hs]
    rfl

/-! ## Address arithmetic -/

/-- Settles O44: the offset is four times the immediate's number. -/
theorem thumbAddressArithmetic : Obligations.ThumbAddressArithmetic := by
  intro rd imm8 imm7 s
  have h8 : wordOffset imm8 = BitVec.ofNat 32 (4 * imm8.toNat) := append_zero_setWidth 8 2 imm8
  have h7 : (imm7 ++ 0#2).setWidth 32 = BitVec.ofNat 32 (4 * imm7.toNat) := append_zero_setWidth 7 2 imm7
  rw [← h8, ← h7]
  exact ⟨rfl, rfl, rfl, rfl⟩

end Sys2Proof.Machine
end

section
/-! Thumb branches, and the offsets of the Thumb transfers, in the terms of the cursor and of the words
(R340, R349 to R356, R370, R372 to R374). -/

namespace Sys2Proof.Machine

open Sys2Proof.Claims

/-! ## Branches -/

/-- R15 reads as the cursor, and the offset with a zero after it is twice the offset (R45, R370). -/
theorem State.shortTarget_eq (s : State) (off : BitVec 8) :
    s.shortTarget off = s.pipe.cursor + (off.signExtend 32 <<< 1) :=
  congrArg (s.pipe.cursor + ·) (signExtend_append 8 1 off (by decide))

/-- R15 reads as the cursor, and the offset with a zero after it is twice the offset (R45, R374). -/
theorem State.nearTarget_eq (s : State) (off : BitVec 11) :
    s.nearTarget off = s.pipe.cursor + (off.signExtend 32 <<< 1) :=
  congrArg (s.pipe.cursor + ·) (signExtend_append 11 1 off (by decide))

/-- Settles O45: B<cond> is a branch under the guard of its condition; the halves of BL are an update each. -/
theorem thumbBranches : Obligations.ThumbBranches := by
  intro c off8 off11 s
  obtain ⟨hpass, hfail⟩ := guarded_outcomes c s fun s => .next (s.branch (s.shortTarget off8))
  have hlow : (off11 ++ 0#1).setWidth 32 = BitVec.ofNat 32 (2 * off11.toNat) := append_zero_setWidth 11 1 off11
  rw [← s.shortTarget_eq, ← s.nearTarget_eq, ← hlow]
  exact ⟨hpass, hfail, rfl, rfl, rfl⟩

end Sys2Proof.Machine
end

section
/-! Thumb single transfers: each form is one load or one store of a low register at the address of its rule, in the terms of
the words; what it answers in a quiet stretch (R340 to R356). -/

namespace Sys2Proof.Machine

open Sys2Proof.Claims

/-! ## The addresses -/

section
variable (s : State) (off : BitVec 5) (imm : BitVec 8) (rb : LowReg)

theorem wordOffset_eq : wordOffset imm = BitVec.ofNat 32 (4 * imm.toNat) := append_zero_setWidth 8 2 imm

theorem State.wordOffsetAddr_eq : s.wordOffsetAddr off rb = s.reg rb.reg + BitVec.ofNat 32 (4 * off.toNat) :=
  congrArg (s.reg rb.reg + ·) (append_zero_setWidth 5 2 off)

theorem State.byteOffsetAddr_eq : s.byteOffsetAddr off rb = s.reg rb.reg + BitVec.ofNat 32 off.toNat :=
  congrArg (s.reg rb.reg + ·) (BitVec.ofNat_toNat 32 off).symm

theorem State.halfOffsetAddr_eq : s.halfOffsetAddr off rb = s.reg rb.reg + BitVec.ofNat 32 (2 * off.toNat) :=
  congrArg (s.reg rb.reg + ·) (append_zero_setWidth 5 1 off)

theorem State.spOffsetAddr_eq : s.spOffsetAddr imm = s.reg 13#4 + BitVec.ofNat 32 (4 * imm.toNat) :=
  congrArg (s.reg 13#4 + ·) (wordOffset_eq imm)

/-- The address of T6: the cursor without its low two bits, and four times the immediate (R340). -/
theorem State.pcBase_add_wordOffset :
    s.pcBase + wordOffset imm = (s.pipe.cursor &&& 0xFFFFFFFC#32) + BitVec.ofNat 32 (4 * imm.toNat) :=
  congrArg (s.pcBase + ·) (wordOffset_eq imm)

end

/-! ## One access at an address -/

section
variable {i : Instr} {rd : LowReg} {addr : State → Word}

/-- A form that loads Rd from `addr` answers what the obligations say of a Thumb load. -/
theorem LoadAnswers.thumbLoadsAs {load : State → Word → Host.Outcome (Word × State) Fault Refusal} {wd : Word → Width}
    {shape : Word → Word → Word} (hl : LoadAnswers load wd shape)
    (h : ∀ s, exec i s = thumbLoad load s rd (addr s)) : ThumbLoadsAs i rd addr wd shape := by
  intro s hq hm
  rw [h, thumbLoad_answers hl rd (addr s) hm hq]

/-- A form that stores Rd at `addr` answers what the obligations say of a Thumb store. -/
theorem thumbStoresAs_of_exec {w : Width} (h : ∀ s, exec i s = thumbStore w s rd (addr s)) :
    ThumbStoresAs i rd addr w := by
  intro s hq hs
  rw [h, thumbStore_answers rd (addr s) hs hq]

end

/-- Settles O46: each form is its load at the address of its rule. -/
theorem thumbLoads : Obligations.ThumbLoads := by
  intro ro rb rd off imm sum
  simp only [← State.pcBase_add_wordOffset, ← State.wordOffsetAddr_eq, ← State.byteOffsetAddr_eq, ← State.halfOffsetAddr_eq,
    ← State.spOffsetAddr_eq]
  refine ⟨?_, ?_, ?_, ?_, ?_, ?_, ?_, ?_, ?_, ?_⟩
  · exact loadAligned_answers.thumbLoadsAs fun _ => rfl
  · exact loadWord_answers.thumbLoadsAs fun _ => rfl
  · exact loadByte_answers.thumbLoadsAs fun _ => rfl
  · exact loadSignedByte_answers.thumbLoadsAs fun _ => rfl
  · exact loadHalf_answers.thumbLoadsAs fun _ => rfl
  · exact loadSignedHalf_answers.thumbLoadsAs fun _ => rfl
  · exact loadWord_answers.thumbLoadsAs fun _ => rfl
  · exact loadByte_answers.thumbLoadsAs fun _ => rfl
  · exact loadHalf_answers.thumbLoadsAs fun _ => rfl
  · exact loadWord_answers.thumbLoadsAs fun _ => rfl

/-- Settles O47: each form is its store at the address of its rule. -/
theorem thumbStores : Obligations.ThumbStores := by
  intro ro rb rd off imm sum
  simp only [← State.wordOffsetAddr_eq, ← State.byteOffsetAddr_eq, ← State.halfOffsetAddr_eq, ← State.spOffsetAddr_eq]
  refine ⟨?_, ?_, ?_, ?_, ?_, ?_, ?_⟩
  all_goals exact thumbStoresAs_of_exec fun _ => rfl

end Sys2Proof.Machine
end

section
/-! Thumb block transfers: PUSH and POP on the stack list, STMIA and LDMIA on the low list, and what each answers in a quiet
stretch (R360 to R365). -/

namespace Sys2Proof.Machine

open Sys2Proof.Claims

/-! ## The lists -/

theorem stackRegs_eq_stackList (r : Bool) (extra : Reg) (list : BitVec 8) :
    stackRegs r extra list = stackList r extra list := by
  cases r
  · exact List.append_nil _
  · rfl

/-- R14 and R15 take the same room in a stack list. -/
theorem length_stackList (r : Bool) (extra extra' : Reg) (list : BitVec 8) :
    (stackList r extra list).length = (stackList r extra' list).length := by
  cases r
  · rfl
  · rw [stackList, stackList, if_pos rfl, if_pos rfl, List.length_append, List.length_append]
    rfl

/-- A Thumb list names R0 to R7 (R360). -/
theorem not_mem_lowRegsOf (list : BitVec 8) {r : Reg} (h : 8 ≤ r.toNat) : r ∉ lowRegsOf list := by
  rw [lowRegsOf, mem_regsOf, BitVec.getLsbD_setWidth, BitVec.getLsbD_of_ge list r.toNat h, Bool.and_false]
  exact Bool.false_ne_true

/-- SP is in no list of POP (R361). -/
theorem sp_not_mem_stackList (r : Bool) (list : BitVec 8) : 13#4 ∉ stackList r 15#4 list := by
  have hlow : 13#4 ∉ lowRegsOf list := not_mem_lowRegsOf list (by decide)
  cases r
  · exact hlow
  · simpa [stackList] using hlow

/-! ## PUSH and POP -/

section
variable {s : State} {r : Bool} {list : BitVec 8}

theorem exec_tPush (h : stackList r 14#4 list ≠ []) (hq : s.bus.QuietFor (stackList r 14#4 list).length)
    (hs : s.bus.SilentBlock (s.reg 13#4 - stackBytes (stackList r 14#4 list)) (stackList r 14#4 list).length) :
    exec (.tPush r list) s =
      .next ((s.withBus (s.bus.writeBlock ((stackList r 14#4 list).map s.reg)
        (s.reg 13#4 - stackBytes (stackList r 14#4 list)) false)).setReg 13#4
          (s.reg 13#4 - stackBytes (stackList r 14#4 list))) := by
  rw [exec, execTPush, stackRegs_eq_stackList, checkStackList_ok h,
    storeList_quiet _ _ _ (by rwa [List.length_map]) (by rwa [List.length_map]), andThen_of_next]

/-- The new SP may be written before the registers, of which it is none (R361). -/
theorem exec_tPop (h : stackList r 15#4 list ≠ []) (hq : s.bus.QuietFor (stackList r 15#4 list).length)
    (hm : s.bus.CalmBlock (s.reg 13#4) (stackList r 15#4 list).length) :
    let words := s.bus.readBlock (stackList r 15#4 list).length (s.reg 13#4) false
    exec (.tPop r list) s =
      .next (loadedRegs s.cpsr.mode 0xFFFFFFFE#32
        ((s.withBus words.2).setReg 13#4 (s.reg 13#4 + stackBytes (stackList r 15#4 list))) (stackList r 15#4 list)
        words.1) := by
  intro words
  rw [exec, execTPop, stackRegs_eq_stackList, checkStackList_ok h, loadEach_quiet _ _ _ hm hq, andThen_of_next,
    ← loadRegs_eq_loadedRegs]
  exact congrArg _ (loadRegs_setReg _ (s.withBus words.2) _ _ _ (sp_not_mem_stackList r list))

end

/-- Settles O48: the check of the list, then the transfers and the new SP; both lists are as long. -/
theorem thumbStackTransfers : Obligations.ThumbStackTransfers := by
  intro r list s pushed popped bytes words
  have hbytes : stackBytes popped = bytes :=
    congrArg (fun n => BitVec.ofNat 32 (4 * n)) (length_stackList r 15#4 14#4 list)
  refine ⟨fun h hq hs => exec_tPush h hq hs, fun h hq hm => ?_, rfl, rfl⟩
  rw [← hbytes]
  exact exec_tPop h hq hm

/-! ## STMIA and LDMIA -/

/-- The new base of a Thumb block transfer, in the terms of R260. -/
theorem State.newBase_up_eq (s : State) (rn : Reg) (regs : List Reg) :
    s.newBase true rn regs = s.reg rn + listSize regs := by
  rw [State.newBase_eq_listBase]
  rfl

/-- The stored values of STMIA, the new base in the terms of R260. -/
theorem State.thumbStoredValue_eq (s : State) (rb : LowReg) (regs : List Reg) :
    s.thumbStoredValue rb regs = fun r =>
      if r = 15#4 then s.here + 6#32
      else if r = rb.reg ∧ regs.head? ≠ some rb.reg then s.reg rb.reg + listSize regs else s.reg r := by
  funext r
  rw [State.thumbStoredValue, State.newBase_up_eq]
  rfl

/-- Settles O49: the stores of the list's values and the new base; the loads, the write-back and the registers. -/
theorem thumbBlockTransfers : Obligations.ThumbBlockTransfers := by
  intro rb list s regs base nb words hq
  constructor
  · intro hs value
    rw [exec, execTStmia, blockRegs_eq_moved, State.newBase_up_eq, State.thumbStoredValue_eq,
      storeList_quiet _ _ _ (by rwa [List.length_map]) (by rwa [List.length_map]), andThen_of_next]
  · intro hm
    rw [exec, execTLdmia, blockRegs_eq_moved, State.newBase_up_eq, loadList_quiet _ _ _ hm hq, andThen_of_next,
      loadRegs_eq_loadedRegs]
    rfl

end Sys2Proof.Machine
end

section
/-! Interrupts, the halted state and the scheduler: what a step does before its decode, and the loop of `Advance` (R55,
R390, R391, R403, R406, R415 to R417). -/

namespace Sys2Proof.Machine

open Sys2Proof.Claims

/-! ## Interrupts and the halted state -/

/-- With the line asserted a step wakes whatever CPSR.I, and then runs from the interrupt check on (R150, R406). -/
theorem step_of_line {s : State} (hf : s.faulted = none) (hl : s.bus.irqLine = true) : step s = s.begin.wake.proceed := by
  simp only [step, State.stepOnce, hf, hl, Bool.not_true, Bool.and_false, Bool.false_eq_true, if_false]

/-- With the line clear a halted step only lets cycles pass (R406). -/
theorem step_of_halted {s : State} (hf : s.faulted = none) (hh : s.bus.halted = true) (hl : s.bus.irqLine = false) :
    step s = s.begin.idle := by
  simp only [step, State.stepOnce, hf, hh, hl, Bool.not_false, Bool.and_true, if_true]

/-- The entry of an IRQ is that of R390 with the link N + 4, its flow report taken by the bubble. -/
theorem State.enterIrq_eq_entered (s : State) :
    s.enterIrq = { entered s .irq 0x18#32 (s.here + 4#32) with flow := none } := by
  rw [State.enterIrq, State.enterException, State.setReg, State.setSpsr_cpsr]
  rfl

/-- An interrupt that is taken is the entry and the bubble at its vector (R153, R403). -/
theorem State.checkInterrupt_of_unmasked {s : State} (hl : s.bus.irqLine = true) (hi : s.cpsr.i = false) :
    s.checkInterrupt = s.enterIrq.bubble 0x18#32 := by
  rw [State.checkInterrupt, if_pos (by rw [State.interrupted, hl, hi]; rfl)]
  rfl

/-- Settles O52: the step wakes, and the interrupt check enters the IRQ exception or does nothing. -/
theorem interruptIsTaken : Obligations.InterruptIsTaken := by
  intro s hf hl s0
  rw [step_of_line hf hl, State.proceed]
  constructor
  · intro hi
    rw [State.checkInterrupt_of_unmasked (s := s0) hl hi, s0.enterIrq_eq_entered]
    rfl
  · intro hi
    rw [State.checkInterrupt_of_masked (s := s0) (.inr hi), andThen_of_next]

/-- Where no event comes due, a halted machine changes its cycle count and its timestamp alone (R406). -/
theorem State.idle_quiet {s : State} (hq : s.bus.Quiet s.bus.params.haltStepCycles) :
    s.idle = .next (s.withBus { s.bus with
      acc := s.bus.params.haltStepCycles
      ts := s.bus.ts + s.bus.params.haltStepCycles }) := by
  have hadv := Bus.advance_quiet (b := { s.bus with acc := s.bus.params.haltStepCycles }) hq (Nat.le_refl _)
  rw [State.idle, hadv, State.onBus_of_next]

/-- Settles O53: a fault ends the step; a halted step is idle with the line clear, and wakes with it asserted. -/
theorem haltedStep : Obligations.HaltedStep := by
  intro s
  refine ⟨fun f hf => ?_, fun hf hh hl hq => ?_, fun hf _ hl => ?_⟩
  · simp only [step, State.stepOnce, hf]
  · exact (step_of_halted hf hh hl).trans (State.idle_quiet (s := s.begin) hq)
  · rw [step_of_line hf hl, step_of_line (s := { s with bus := { s.bus with halted := false } }) hf hl]
    rfl

/-! ## The earliest due event -/

/-- No event is due exactly where every pending one is later (R415). -/
theorem earliestDue_eq_none_iff (ts : Nat) (q : List Event) : earliestDue ts q = none ↔ ∀ e ∈ q, ts < e.time := by
  refine ⟨fun h => ?_, earliestDue_none⟩
  induction q with
  | nil => exact nofun
  | cons e q ih =>
    rw [earliestDue] at h
    split at h
    case h_1 hq => exact List.forall_mem_cons.mpr ⟨Nat.lt_of_not_le fun he => by simp [he] at h, ih hq⟩
    case h_2 => split at h <;> cases h

/-- `e` comes no later than `d` in the order of `Advance`: by timestamp, then by insertion (R415). -/
def Event.NotAfter (e d : Event) : Prop := e.time < d.time ∨ (e.time = d.time ∧ e.seq ≤ d.seq)

theorem Event.NotAfter.refl (e : Event) : e.NotAfter e := .inr ⟨rfl, Nat.le_refl _⟩

theorem Event.NotAfter.trans {a b c : Event} (h1 : a.NotAfter b) (h2 : b.NotAfter c) : a.NotAfter c := by
  unfold Event.NotAfter at *
  omega

theorem Event.NotAfter.of_not {e d : Event} (h : ¬e.NotAfter d) : d.NotAfter e := by
  unfold Event.NotAfter at *
  omega

/-- The event that `Advance` takes is pending and due, and no due event comes before it (R415, R416). -/
theorem earliestDue_some {ts : Nat} {q : List Event} {e : Event} (h : earliestDue ts q = some e) :
    e ∈ q ∧ e.time ≤ ts ∧ ∀ d ∈ q, d.time ≤ ts → e.NotAfter d := by
  induction q generalizing e with
  | nil => cases h
  | cons x q ih =>
    rw [earliestDue] at h
    split at h
    case h_1 hq =>
      have hlater := (earliestDue_eq_none_iff ts q).mp hq
      split at h <;> cases h
      next hx =>
        refine ⟨List.mem_cons_self, hx, List.forall_mem_cons.mpr ⟨fun _ => .refl _, fun d hd hdue => ?_⟩⟩
        exact absurd hdue (Nat.not_le.mpr (hlater d hd))
    case h_2 d hq =>
      obtain ⟨hmem, hdue, hfirst⟩ := ih hq
      split at h <;> cases h
      next hx =>
        exact ⟨List.mem_cons_self, hx.1,
          List.forall_mem_cons.mpr ⟨fun _ => .refl _, fun c hc hcdue => .trans hx.2 (hfirst c hc hcdue)⟩⟩
      next hx =>
        exact ⟨List.mem_cons_of_mem x hmem, hdue,
          List.forall_mem_cons.mpr ⟨fun hxdue => .of_not fun hxd => hx ⟨hxdue, hxd⟩, hfirst⟩⟩

/-! ## The loop of `Advance` -/

/-- Taking a due event out of the queue leaves one fewer due. -/
theorem Bus.dueCount_pop {b : Bus} {e : Event} (h : earliestDue b.ts b.queue = some e) :
    (b.pop e).dueCount + 1 = b.dueCount := by
  obtain ⟨hmem, hdue, -⟩ := earliestDue_some h
  have hf : e ∈ b.queue.filter fun d => decide (d.time ≤ b.ts) := List.mem_filter.mpr ⟨hmem, decide_eq_true hdue⟩
  have hpop : (b.pop e).dueCount = ((b.queue.filter fun d => decide (d.time ≤ b.ts)).erase e).length :=
    congrArg List.length List.erase_filter.symm
  rw [hpop, List.length_erase_add_one hf, Bus.dueCount]

/-- None is due exactly where the count of due events is zero (R415). -/
theorem Bus.dueCount_eq_zero_iff (b : Bus) : b.dueCount = 0 ↔ ∀ e ∈ b.queue, b.ts < e.time := by
  simp [Bus.dueCount]

/-- Firing an event leaves the timestamp, and no more events due than the `Advance` may still fire. -/
theorem Bus.fire_within {b b' : Bus} {n : Nat} {e : Event} (h : b.fire n e = .next b') : (b.pop e).Within n b' := by
  obtain ⟨c, hc, h⟩ := andThen_next h
  cases h
  exact (runActions_within hc).trans (.of_eq rfl rfl)

/-- Where an event is due, the loop fires it and goes on (R416). -/
theorem fireDue_succ {b : Bus} {e : Event} (n : Nat) (h : earliestDue b.ts b.queue = some e) :
    fireDue (n + 1) b = andThen (b.fire n e) (fireDue n) := by
  rw [fireDue, h]

/-- A loop that may fire as many events as are due ends with none due, at the timestamp it began with: each event that it
fires leaves one fewer to fire, and the callback adds none beyond those (R416). -/
theorem fireDue_next {n : Nat} {b b' : Bus} (hn : b.dueCount ≤ n) (h : fireDue n b = .next b') :
    b'.ts = b.ts ∧ ∀ e ∈ b'.queue, b'.ts < e.time := by
  induction n generalizing b with
  | zero =>
    cases h
    exact ⟨rfl, b'.dueCount_eq_zero_iff.mp (Nat.le_zero.mp hn)⟩
  | succ n ih =>
    cases he : earliestDue b.ts b.queue with
    | none =>
      rw [fireDue, he] at h
      cases h
      exact ⟨rfl, (earliestDue_eq_none_iff _ _).mp he⟩
    | some e =>
      rw [fireDue_succ n he] at h
      obtain ⟨c, hc, h⟩ := andThen_next h
      have hw := Bus.fire_within hc
      have hpop := Bus.dueCount_pop he
      obtain ⟨hts, hnone⟩ := ih (hw.due (by omega)) h
      exact ⟨hts.trans hw.ts, hnone⟩

/-- Where an event comes due, `Advance` is the loop from the raised timestamp, which fires at least that event. -/
theorem Bus.advance_due {b : Bus} {c : Nat} {e : Event} (h : earliestDue (b.ts + c) b.queue = some e) :
    ∃ n, (b.later c).dueCount ≤ n + 1 ∧ b.advance c = fireDue (n + 1) (b.later c) := by
  have hpop : ((b.later c).pop e).dueCount + 1 = (b.later c).dueCount := Bus.dueCount_pop h
  refine ⟨Config.chain b.draws + ((b.later c).pop e).dueCount, by omega, ?_⟩
  have hl : earliestDue (b.later c).ts (b.later c).queue = some e := h
  rw [Bus.advance, hl, Nat.add_assoc, hpop]

/-- An `Advance` that ends has raised the timestamp and leaves nothing due (R416). -/
theorem Bus.advance_next {b b' : Bus} {c : Nat} (h : b.advance c = .next b') :
    b'.ts = b.ts + c ∧ ∀ e ∈ b'.queue, b'.ts < e.time := by
  cases he : earliestDue (b.ts + c) b.queue with
  | none =>
    have hnone := (earliestDue_eq_none_iff _ _).mp he
    rw [Bus.advance_quiet hnone (Nat.le_refl c)] at h
    cases h
    exact ⟨rfl, hnone⟩
  | some e =>
    obtain ⟨n, hn, hadv⟩ := Bus.advance_due he
    exact fireDue_next hn (hadv ▸ h)

/-- Settles O54: the choice of the event, an `Advance` with none due and with one, one firing, and the end. -/
theorem earliestDueEventFires : Obligations.EarliestDueEventFires := by
  refine ⟨fun ts q e => earliestDue_some, earliestDue_eq_none_iff, fun b c hq => Bus.advance_quiet hq (Nat.le_refl c),
    fun b c e h => ?_, fun b n e => ⟨rfl, fireDue_succ n⟩, fun b b' c => Bus.advance_next⟩
  obtain ⟨n, -, hadv⟩ := Bus.advance_due h
  exact ⟨n, hadv.trans (fireDue_succ n h)⟩

end Sys2Proof.Machine
end

section
/-! Reading the fields of a word that is a concatenation of its parts (R10, R131, R134). -/

namespace Sys2Proof

section
variable {m n k lo hi i : Nat} (x : BitVec m) (y : BitVec n)

theorem toNat_append_eq : (no_index (x ++ y)).toNat = x.toNat * 2 ^ n + y.toNat := by
  rw [BitVec.toNat_append, ← Nat.shiftLeft_add_eq_or_of_lt y.isLt, Nat.shiftLeft_eq]

/-- What lies above the lower part. -/
theorem toNat_append_div (h : n ≤ lo) : (x ++ y).toNat / 2 ^ lo = x.toNat / 2 ^ (lo - n) := by
  obtain ⟨d, rfl⟩ := Nat.exists_eq_add_of_le h
  rw [toNat_append_eq, pow_add, ← Nat.div_div_eq_div_mul, Nat.add_comm, Nat.add_mul_div_right _ _ (Nat.two_pow_pos n),
    Nat.div_eq_of_lt y.isLt, Nat.zero_add, Nat.add_sub_cancel_left]

/-- What lies within the lower part. -/
theorem toNat_append_div_mod (h : lo + k ≤ n) : (x ++ y).toNat / 2 ^ lo % 2 ^ k = y.toNat / 2 ^ lo % 2 ^ k := by
  obtain ⟨d, rfl⟩ := Nat.exists_eq_add_of_le h
  have hsplit : x.toNat * 2 ^ (lo + k + d) = 2 ^ lo * (2 ^ k * (x.toNat * 2 ^ d)) := by ring
  rw [toNat_append_eq, hsplit, Nat.add_comm, Nat.add_mul_div_left _ _ (Nat.two_pow_pos lo), Nat.add_mul_mod_self_left]

/-! A read of `x ++ y` is a read of the part it lies in. The widths of a word's parts are sums of numerals, by which
`simp` does not find `x ++ y`: hence `no_index`. -/

@[simp] theorem fieldOf_append_high (h : n ≤ lo) (hle : lo ≤ hi) :
    fieldOf (no_index (x ++ y)).toNat hi lo = fieldOf x.toNat (hi - n) (lo - n) := by
  rw [fieldOf, fieldOf, toNat_append_div x y h, show hi + 1 - lo = hi - n + 1 - (lo - n) by omega]

@[simp] theorem fieldOf_append_low (h : hi < n) (hle : lo ≤ hi) :
    fieldOf (no_index (x ++ y)).toNat hi lo = fieldOf y.toNat hi lo :=
  toNat_append_div_mod x y (by omega)

@[simp] theorem bitOf_append_high (h : n ≤ i) : bitOf (no_index (x ++ y)).toNat i = bitOf x.toNat (i - n) := by
  rw [bitOf, bitOf, toNat_append_div x y h]

@[simp] theorem bitOf_append_low (h : i < n) : bitOf (no_index (x ++ y)).toNat i = bitOf y.toNat i :=
  congrArg (· == 1) (toNat_append_div_mod x y (k := 1) h)

@[simp] theorem bitsOf_append_high (h : n ≤ lo) : bitsOf k (no_index (x ++ y)).toNat lo = bitsOf k x.toNat (lo - n) := by
  rw [bitsOf, bitsOf, toNat_append_div x y h]

@[simp] theorem bitsOf_append_low (h : lo + k ≤ n) : bitsOf k (no_index (x ++ y)).toNat lo = bitsOf k y.toNat lo := by
  rw [← BitVec.toNat_inj, bitsOf_toNat, bitsOf_toNat, toNat_append_div_mod x y h]

@[simp] theorem fieldOf_self (h : hi + 1 = n) : fieldOf y.toNat hi 0 = y.toNat := by
  rw [fieldOf, pow_zero, Nat.div_one, h, Nat.sub_zero, Nat.mod_eq_of_lt y.isLt]

@[simp] theorem bitsOf_self : bitsOf n y.toNat 0 = y := by
  rw [bitsOf, pow_zero, Nat.div_one, BitVec.ofNat_toNat, BitVec.setWidth_eq]

end

/-! ## Reads of a part: fixed bits, a flag, a condition, a shift -/

@[simp] theorem fieldOf_ofNat (k hi lo : Nat) :
    fieldOf (no_index (OfNat.ofNat k)) hi lo = OfNat.ofNat k / 2 ^ lo % 2 ^ (hi + 1 - lo) := rfl

@[simp] theorem bitOf_ofNat (k i : Nat) : bitOf (no_index (OfNat.ofNat k)) i = (OfNat.ofNat k / 2 ^ i % 2 == 1) := rfl

@[simp] theorem bitsOf_ofNat (n k lo : Nat) :
    bitsOf n (no_index (OfNat.ofNat k)) lo = BitVec.ofNat n (OfNat.ofNat k / 2 ^ lo) := rfl

@[simp] theorem bitOf_toNat_zero (b : Bool) : bitOf b.toNat 0 = b := by cases b <;> rfl

/-- The field of a condition (R140). -/
def Cond.bits (c : Cond) : BitVec 4 := BitVec.ofNat 4 c.code

theorem Cond.toNat_bits (c : Cond) : c.bits.toNat = c.code := by cases c <;> rfl

@[simp] theorem Cond.ofCode_bits (c : Cond) : Cond.ofCode c.bits.toNat = some c := by cases c <;> rfl

/-- The field of a shift (R131). -/
def ShiftKind.bits (k : ShiftKind) : BitVec 2 := BitVec.ofNat 2 k.code

theorem ShiftKind.toNat_bits (k : ShiftKind) : k.bits.toNat = k.code := by cases k <;> rfl

@[simp] theorem ShiftKind.ofCode_bits (k : ShiftKind) : ShiftKind.ofCode k.bits.toNat = k := by cases k <;> rfl

end Sys2Proof
end

section
/-! ARM instructions are what their own words decode to, format by format (R131). -/

namespace Sys2Proof

/-- An instruction is what its own encoding decodes to. -/
def RoundTrips (i : Instr) : Prop := decodeCode (encode i) = i

namespace RoundTrips

/-- An ARM word is its condition followed by its other 28 bits. -/
theorem encode_arm {i : Instr} {c : Cond} {base : Nat} {fs : List (Nat × Nat)} {x : BitVec 28}
    (henc : encode i = armWord base c fs) (hx : packFields base fs = x.toNat) : encode i = .arm (c.bits ++ x) := by
  rw [henc, armWord, packFields, hx, ← c.toNat_bits, ← toNat_append_eq, BitVec.ofNat_toNat, BitVec.setWidth_eq]

/-- The decoder on the word of an ARM instruction. -/
theorem of_arm {i : Instr} (w : BitVec 32) (hdec : decodeArm w = i) (henc : encode i = .arm w) : RoundTrips i := by
  rw [RoundTrips, henc]
  exact hdec

/-- The decoder on the layout of an ARM instruction: `x` is the word after its condition. -/
theorem of_layout {i : Instr} (c : Cond) (x : BitVec 28) (hdec : decodeArm (c.bits ++ x) = i)
    (henc : encode i = .arm (c.bits ++ x) := by
      exact encode_arm rfl (by simp [packFields, toNat_append_eq, ShiftKind.toNat_bits] <;> omega)) : RoundTrips i :=
  of_arm _ hdec henc

section
open BitVec (ofBool)

variable {c : Cond} {sf p u w : Bool} {rn rd rs rm : Reg} {rot hi lo : BitVec 4} {imm : BitVec 8}
  {amount : BitVec 5} {sh : ShiftKind} {off : BitVec 12} {list : BitVec 16}

/-! ## Formats of many instructions

Each lemma is about the instructions `mk` of one format, told apart by the fixed bits that are its explicit arguments:
`henc` says that their word is the format's layout, `hdec` that the decoder of the format takes these bits to `mk` of
the operands it reads. An operand that an instruction of the format has not is 0, or S = 1 for the compares. -/

/-! Data processing (A1 to A3): the operation is bits 24:21, and S = 0 with bits 24:23 = 10 is the PSR space (R132, R145). -/

theorem dpImm (op : BitVec 4) (mk : Bool → Reg → Reg → BitVec 4 → BitVec 8 → Instr)
    (hdec : ∀ v, fieldOf v 24 21 = op.toNat →
      decodeDpImm c v = mk (bitOf v 20) (bitsOf 4 v 16) (bitsOf 4 v 12) (bitsOf 4 v 8) (bitsOf 8 v 0) := by
        intro v h; rw [decodeDpImm, h]; rfl)
    (hs : (fieldOf op.toNat 3 2 == 2 && !sf) = false := by rfl)
    (henc : encode (mk sf rn rd rot imm) =
      .arm (c.bits ++ (1#3 ++ (op ++ (ofBool sf ++ (rn ++ (rd ++ (rot ++ imm))))))) := by
        exact encode_arm rfl (by simp [packFields, toNat_append_eq] <;> omega)) :
    RoundTrips (mk sf rn rd rot imm) :=
  of_arm _ (by simp [decodeArm, psrSpace, hs, hdec]) henc

theorem dpImmShift (op : BitVec 4) (mk : Bool → Reg → Reg → BitVec 5 → ShiftKind → Reg → Instr)
    (hdec : ∀ v, fieldOf v 24 21 = op.toNat → decodeDpImmShift c v =
      mk (bitOf v 20) (bitsOf 4 v 16) (bitsOf 4 v 12) (bitsOf 5 v 7) (.ofCode (fieldOf v 6 5)) (bitsOf 4 v 0) := by
        intro v h; rw [decodeDpImmShift, h]; rfl)
    (hs : (fieldOf op.toNat 3 2 == 2 && !sf) = false := by rfl)
    (henc : encode (mk sf rn rd amount sh rm) =
      .arm (c.bits ++ (0#3 ++ (op ++ (ofBool sf ++ (rn ++ (rd ++ (amount ++ (sh.bits ++ (0#1 ++ rm))))))))) := by
        exact encode_arm rfl (by simp [packFields, toNat_append_eq, ShiftKind.toNat_bits] <;> omega)) :
    RoundTrips (mk sf rn rd amount sh rm) :=
  of_arm _ (by simp [decodeArm, psrSpace, hs, hdec]) henc

theorem dpRegShift (op : BitVec 4) (mk : Bool → Reg → Reg → Reg → ShiftKind → Reg → Instr)
    (hdec : ∀ v, fieldOf v 24 21 = op.toNat → decodeDpRegShift c v =
      mk (bitOf v 20) (bitsOf 4 v 16) (bitsOf 4 v 12) (bitsOf 4 v 8) (.ofCode (fieldOf v 6 5)) (bitsOf 4 v 0) := by
        intro v h; rw [decodeDpRegShift, h]; rfl)
    (hs : (fieldOf op.toNat 3 2 == 2 && !sf) = false := by rfl)
    (henc : encode (mk sf rn rd rs sh rm) =
      .arm (c.bits ++ (0#3 ++ (op ++ (ofBool sf ++ (rn ++ (rd ++ (rs ++ (0#1 ++ (sh.bits ++ (1#1 ++ rm)))))))))) := by
        exact encode_arm rfl (by simp [packFields, toNat_append_eq, ShiftKind.toNat_bits] <;> omega)) :
    RoundTrips (mk sf rn rd rs sh rm) :=
  of_arm _ (by simp [decodeArm, psrSpace, hs, hdec]) henc

/-! Multiplies and halfword transfers (A7, A8, A11, A12): bits 27:25 = 000 with bits 7 and 4 set. -/

theorem multiply (op : BitVec 4) (mk : Bool → Reg → Reg → Reg → Reg → Instr)
    (hdec : ∀ v s, fieldOf v 6 5 = 0 → fieldOf v 24 20 = (op ++ ofBool s).toNat →
      decodeExtra c v = mk (bitOf v 20) (bitsOf 4 v 16) (bitsOf 4 v 12) (bitsOf 4 v 8) (bitsOf 4 v 0) := by
        intro v s h hop; rw [decodeExtra, h, hop]; cases s <;> rfl)
    (henc : encode (mk sf rd rn rs rm) =
      .arm (c.bits ++ (0#3 ++ ((op ++ ofBool sf) ++ (rd ++ (rn ++ (rs ++ (9#4 ++ rm))))))) := by
        exact encode_arm rfl (by simp [packFields, toNat_append_eq] <;> omega)) :
    RoundTrips (mk sf rd rn rs rm) :=
  of_arm _ (by simp [decodeArm, hdec _ sf]) henc

theorem halfTransfer (i l : Bool) (k : BitVec 2) (mk : Bool → Bool → Bool → Reg → Reg → BitVec 4 → BitVec 4 → Instr)
    (hdec : ∀ v, fieldOf v 6 5 = k.toNat → bitOf v 22 = i → bitOf v 20 = l → decodeExtra c v =
      mk (bitOf v 24) (bitOf v 23) (bitOf v 21) (bitsOf 4 v 16) (bitsOf 4 v 12) (bitsOf 4 v 8) (bitsOf 4 v 0) := by
        intro v hk hi hl; rw [decodeExtra, hk, hi, hl]; rfl)
    (henc : encode (mk p u w rn rd hi lo) =
      .arm (c.bits ++ (0#3 ++ (ofBool p ++ (ofBool u ++ (ofBool i ++ (ofBool w ++ (ofBool l ++ (rn ++ (rd ++
        (hi ++ (1#1 ++ (k ++ (1#1 ++ lo))))))))))))) := by
        exact encode_arm rfl (by simp [packFields, toNat_append_eq] <;> omega)) :
    RoundTrips (mk p u w rn rd hi lo) :=
  of_arm _ (by simp [decodeArm, hdec]) henc

/-! Single and block transfers (A13, A14, A16); P = 0 with W = 1 is a user-mode variant (R240). -/

/-- What P and W of a well-formed transfer are not (R240). -/
theorem not_userMode (h : (p || !w) = true) : (!p && w) = false := by
  cases p <;> simp_all

theorem transferImm (user b l : Bool) (mk : Bool → Bool → Bool → Reg → Reg → BitVec 12 → Instr)
    (hu : (!p && w) = user)
    (hdec : ∀ v, bitOf v 22 = b → bitOf v 20 = l → (!bitOf v 24 && bitOf v 21) = user → decodeTransferImm c v =
      mk (bitOf v 24) (bitOf v 23) (bitOf v 21) (bitsOf 4 v 16) (bitsOf 4 v 12) (bitsOf 12 v 0) := by
        intro v hb hl hu; rw [decodeTransferImm, hb, hl, hu]; rfl)
    (henc : encode (mk p u w rn rd off) =
      .arm (c.bits ++ (2#3 ++ (ofBool p ++ (ofBool u ++ (ofBool b ++ (ofBool w ++ (ofBool l ++ (rn ++ (rd ++
        off))))))))) := by
        exact encode_arm rfl (by simp [packFields, toNat_append_eq] <;> omega)) :
    RoundTrips (mk p u w rn rd off) :=
  of_arm _ (by simp [decodeArm, hdec, hu]) henc

theorem transferReg (user b l : Bool) (mk : Bool → Bool → Bool → Reg → Reg → BitVec 5 → ShiftKind → Reg → Instr)
    (hu : (!p && w) = user)
    (hdec : ∀ v, bitOf v 22 = b → bitOf v 20 = l → (!bitOf v 24 && bitOf v 21) = user → decodeTransferReg c v =
      mk (bitOf v 24) (bitOf v 23) (bitOf v 21) (bitsOf 4 v 16) (bitsOf 4 v 12) (bitsOf 5 v 7) (.ofCode (fieldOf v 6 5))
        (bitsOf 4 v 0) := by
        intro v hb hl hu; rw [decodeTransferReg, hb, hl, hu]; rfl)
    (henc : encode (mk p u w rn rd amount sh rm) =
      .arm (c.bits ++ (3#3 ++ (ofBool p ++ (ofBool u ++ (ofBool b ++ (ofBool w ++ (ofBool l ++ (rn ++ (rd ++
        (amount ++ (sh.bits ++ (0#1 ++ rm)))))))))))) := by
        exact encode_arm rfl (by simp [packFields, toNat_append_eq, ShiftKind.toNat_bits] <;> omega)) :
    RoundTrips (mk p u w rn rd amount sh rm) :=
  of_arm _ (by simp [decodeArm, hdec, hu]) henc

theorem blockTransfer (s l : Bool) (mk : Bool → Bool → Bool → Reg → BitVec 16 → Instr)
    (hdec : ∀ v, bitOf v 22 = s → bitOf v 20 = l →
      decodeBlock c v = mk (bitOf v 24) (bitOf v 23) (bitOf v 21) (bitsOf 4 v 16) (bitsOf 16 v 0) := by
        intro v hs hl; rw [decodeBlock, hs, hl]; rfl)
    (henc : encode (mk p u w rn list) =
      .arm (c.bits ++ (4#3 ++ (ofBool p ++ (ofBool u ++ (ofBool s ++ (ofBool w ++ (ofBool l ++ (rn ++ list)))))))) := by
        exact encode_arm rfl (by simp [packFields, toNat_append_eq] <;> omega)) :
    RoundTrips (mk p u w rn list) :=
  of_arm _ (by simp [decodeArm, hdec]) henc

end

/-! ## Layouts of one instruction -/

section
open BitVec (ofBool)
variable (c : Cond)

theorem cond1111 (bits) : RoundTrips (.cond1111 bits) := by
  refine of_arm (15#4 ++ bits) (by simp [decodeArm, Cond.ofCode]) ?_
  have hx : packFields 0xF0000000 [(bits.toNat, 0)] = (15#4 ++ bits).toNat := by
    simp [packFields, toNat_append_eq]
    omega
  rw [encode, hx, BitVec.ofNat_toNat, BitVec.setWidth_eq]

theorem bx (rm) : RoundTrips (.bx c rm) :=
  of_layout c (0#3 ++ (0x12FFF1#21 ++ rm)) (by simp [decodeArm, psrSpace, decodePsrReg])

theorem swp (rn rd rm) : RoundTrips (.swp c rn rd rm) :=
  of_layout c (0#3 ++ (16#5 ++ (rn ++ (rd ++ (9#8 ++ rm))))) (by simp [decodeArm, decodeExtra])

theorem swpb (rn rd rm) : RoundTrips (.swpb c rn rd rm) :=
  of_layout c (0#3 ++ (20#5 ++ (rn ++ (rd ++ (9#8 ++ rm))))) (by simp [decodeArm, decodeExtra])

theorem mrs (r rd) : RoundTrips (.mrs c r rd) :=
  of_layout c (0#3 ++ (2#2 ++ (ofBool r ++ (0x0F#6 ++ (rd ++ 0#12)))))
    (by simp [decodeArm, psrSpace, decodePsrReg])

theorem msrCpsrReg (mask rm) : RoundTrips (.msrCpsrReg c mask rm) :=
  of_layout c (0#3 ++ (2#2 ++ (0#1 ++ (2#2 ++ (mask ++ (0xF00#12 ++ rm))))))
    (by simp [decodeArm, psrSpace, decodePsrReg])

theorem msrSpsrReg (mask rm) : RoundTrips (.msrSpsrReg c mask rm) :=
  of_layout c (0#3 ++ (2#2 ++ (1#1 ++ (2#2 ++ (mask ++ (0xF00#12 ++ rm))))))
    (by simp [decodeArm, psrSpace, decodePsrReg])

theorem msrCpsrImm (mask rot imm) : RoundTrips (.msrCpsrImm c mask rot imm) :=
  of_layout c (1#3 ++ (2#2 ++ (0#1 ++ (2#2 ++ (mask ++ (15#4 ++ (rot ++ imm)))))))
    (by simp [decodeArm, psrSpace, decodePsrImm])

theorem msrSpsrImm (mask rot imm) : RoundTrips (.msrSpsrImm c mask rot imm) :=
  of_layout c (1#3 ++ (2#2 ++ (1#1 ++ (2#2 ++ (mask ++ (15#4 ++ (rot ++ imm)))))))
    (by simp [decodeArm, psrSpace, decodePsrImm])

theorem undefined (hi lo) : RoundTrips (.undefined c hi lo) :=
  of_layout c (3#3 ++ (hi ++ (1#1 ++ lo))) (by simp [decodeArm])

theorem ldmUser (p u w rn list) : RoundTrips (.ldmUser c p u w rn list) :=
  of_layout c (4#3 ++ (ofBool p ++ (ofBool u ++ (1#1 ++ (ofBool w ++ (1#1 ++ (rn ++ (0#1 ++ list))))))))
    (by simp [decodeArm, decodeBlock])

theorem ldmRestore (p u w rn list) : RoundTrips (.ldmRestore c p u w rn list) :=
  of_layout c (4#3 ++ (ofBool p ++ (ofBool u ++ (1#1 ++ (ofBool w ++ (1#1 ++ (rn ++ (1#1 ++ list))))))))
    (by simp [decodeArm, decodeBlock])

theorem b (off) : RoundTrips (.b c off) := of_layout c (5#3 ++ (0#1 ++ off)) (by simp [decodeArm])

theorem bl (off) : RoundTrips (.bl c off) := of_layout c (5#3 ++ (1#1 ++ off)) (by simp [decodeArm])

theorem stc (p u n w rn crd cp off) : RoundTrips (.stc c p u n w rn crd cp off) :=
  of_layout c (6#3 ++ (ofBool p ++ (ofBool u ++ (ofBool n ++ (ofBool w ++ (0#1 ++ (rn ++ (crd ++ (cp ++ off)))))))))
    (by simp [decodeArm])

theorem ldc (p u n w rn crd cp off) : RoundTrips (.ldc c p u n w rn crd cp off) :=
  of_layout c (6#3 ++ (ofBool p ++ (ofBool u ++ (ofBool n ++ (ofBool w ++ (1#1 ++ (rn ++ (crd ++ (cp ++ off)))))))))
    (by simp [decodeArm])

theorem cdp (op1 crn crd cp op2 crm) : RoundTrips (.cdp c op1 crn crd cp op2 crm) :=
  of_layout c (7#3 ++ (0#1 ++ (op1 ++ (crn ++ (crd ++ (cp ++ (op2 ++ (0#1 ++ crm))))))))
    (by simp [decodeArm, decodeCoprocessor])

theorem mcr (op1 crn rd cp op2 crm) : RoundTrips (.mcr c op1 crn rd cp op2 crm) :=
  of_layout c (7#3 ++ (0#1 ++ (op1 ++ (0#1 ++ (crn ++ (rd ++ (cp ++ (op2 ++ (1#1 ++ crm)))))))))
    (by simp [decodeArm, decodeCoprocessor])

theorem mrc (op1 crn rd cp op2 crm) : RoundTrips (.mrc c op1 crn rd cp op2 crm) :=
  of_layout c (7#3 ++ (0#1 ++ (op1 ++ (1#1 ++ (crn ++ (rd ++ (cp ++ (op2 ++ (1#1 ++ crm)))))))))
    (by simp [decodeArm, decodeCoprocessor])

theorem swi (comment) : RoundTrips (.swi c comment) :=
  of_layout c (7#3 ++ (1#1 ++ comment)) (by simp [decodeArm, decodeCoprocessor])

end

/-! ## The unallocated spaces (R145, R253) -/

section
variable {c : Cond}

/-- Bits 24:20 that no multiply and no swap has (R145). -/
theorem decodeExtra_unallocMul {v : Nat} (hk : fieldOf v 6 5 = 0) (hop : unallocMulOp (bitsOf 5 v 20) = true) :
    decodeExtra c v = .unallocMul c (bitsOf 5 v 20) (bitsOf 12 v 8) (bitsOf 4 v 0) := by
  have hn : (bitsOf 5 v 20).toNat = fieldOf v 24 20 := bitsOf_toNat 5 v 20
  simp only [unallocMulOp, hn] at hop
  simp only [decodeExtra, hk]
  split
  case h_15 => rfl
  all_goals
    rename_i e
    simp [e] at hop

theorem unallocMul {op mid lo} (h : unallocMulOp op = true) : RoundTrips (.unallocMul c op mid lo) :=
  of_layout c (0#3 ++ (op ++ (mid ++ (9#4 ++ lo)))) (by simp [decodeArm, decodeExtra_unallocMul, h])

theorem unallocHalfStore {hi mid sh lo} : RoundTrips (.unallocHalfStore c hi mid sh lo) := by
  refine of_layout c (0#3 ++ (hi ++ (0#1 ++ (mid ++ (1#1 ++ ((1#1 ++ sh) ++ (1#1 ++ lo))))))) ?_
  obtain rfl | rfl : sh = 0#1 ∨ sh = 1#1 := by revert sh; decide
  all_goals simp [decodeArm, decodeExtra]

/-- Bits 7:4 and 22:21 that neither MRS, MSR nor BX has (R145). -/
theorem decodePsrReg_unallocPsr {v : Nat} (h : unallocPsrBits false (bitsOf 2 v 21) (bitsOf 4 v 4) = true) :
    decodePsrReg c v = .unallocPsr c (bitOf v 25) (bitsOf 2 v 21) (bitsOf 12 v 8) (bitsOf 4 v 4) (bitsOf 4 v 0) := by
  have hop : (bitsOf 2 v 21).toNat = fieldOf v 22 21 := bitsOf_toNat 2 v 21
  have hnib : (bitsOf 4 v 4).toNat = fieldOf v 7 4 := bitsOf_toNat 4 v 4
  simp only [unallocPsrBits, hop, hnib] at h
  unfold decodePsrReg
  split <;> rename_i e
  · simp [e] at h
  · have hbx : fieldOf v 22 21 ≠ 1 := by simpa [e] using h
    rw [if_neg (by simpa using hbx)]
  · rfl

theorem unallocPsr {im op mid nib lo} (h : unallocPsrBits im op nib = true) :
    RoundTrips (.unallocPsr c im op mid nib lo) := by
  cases im with
  | true =>
    have h21 : bitOf op.toNat 0 = false := by simpa [unallocPsrBits, bitOf] using h
    exact of_layout c (1#3 ++ (2#2 ++ (op ++ (0#1 ++ (mid ++ (nib ++ lo))))))
      (by simp [decodeArm, psrSpace, decodePsrImm, h21])
  | false =>
    have h74 : (bitOf nib.toNat 3 && bitOf nib.toNat 0) = false := by
      revert op nib
      decide
    exact of_layout c (0#3 ++ (2#2 ++ (op ++ (0#1 ++ (mid ++ (nib ++ lo))))))
      (by simp [decodeArm, psrSpace, decodePsrReg_unallocPsr, h74, h])

end

end RoundTrips
end Sys2Proof
end

section
/-! Thumb instructions are what their own halfwords decode to, format by format (R134, R146). -/

namespace Sys2Proof.RoundTrips

/-- A Thumb halfword is the sum of its fields. -/
theorem encode_thumb {i : Instr} {base : Nat} {fs : List (Nat × Nat)} {x : BitVec 16}
    (henc : encode i = thumbWord base fs) (hx : packFields base fs = x.toNat) : encode i = .thumb x := by
  rw [henc, thumbWord, hx, BitVec.ofNat_toNat, BitVec.setWidth_eq]

/-- The decoder on the layout of a Thumb instruction. -/
theorem of_thumb {i : Instr} (h : BitVec 16) (hdec : decodeThumb h = i)
    (henc : encode i = .thumb h := by exact encode_thumb rfl (by simp [packFields, toNat_append_eq] <;> omega)) :
    RoundTrips i := by
  rw [RoundTrips, henc]
  exact hdec

/-! ## Formats of many instructions, as for ARM -/

section
open BitVec (ofBool)

variable {h1 h2 : Bool} {ro rs rd : LowReg} {off : BitVec 5} {imm : BitVec 8} {disp : BitVec 11}

/-- A layout of one register and an 8-bit field after five fixed bits (T3, T6, T11, T12, T15). -/
theorem thumbRegImm (pre : BitVec 5) (mk : LowReg → BitVec 8 → Instr)
    (hdec : ∀ x : BitVec 11, decodeThumb (pre ++ x) = mk (bitsOf 3 x.toNat 8) (bitsOf 8 x.toNat 0) := by
      intro x; simp [decodeThumb, decodeThumbImm8, decodeThumbMisc, decodeThumbBlockBranch])
    (henc : encode (mk rd imm) = .thumb (pre ++ (rd ++ imm)) := by
      exact encode_thumb rfl (by simp [packFields, toNat_append_eq] <;> omega)) :
    RoundTrips (mk rd imm) :=
  of_thumb _ (by simp [hdec]) henc

/-- A layout of a 5-bit offset and two registers after five fixed bits (T1, T9, T10). -/
theorem thumbOffset (pre : BitVec 5) (mk : BitVec 5 → LowReg → LowReg → Instr)
    (hdec : ∀ x : BitVec 11,
      decodeThumb (pre ++ x) = mk (bitsOf 5 x.toNat 6) (bitsOf 3 x.toNat 3) (bitsOf 3 x.toNat 0) := by
      intro x; simp [decodeThumb, decodeThumbShiftAdd, decodeThumbImmOffset])
    (henc : encode (mk off rs rd) = .thumb (pre ++ (off ++ (rs ++ rd))) := by
      exact encode_thumb rfl (by simp [packFields, toNat_append_eq] <;> omega)) :
    RoundTrips (mk off rs rd) :=
  of_thumb _ (by simp [hdec]) henc

/-- A layout of three 3-bit fields after seven fixed bits (T2, T7, T8). -/
theorem thumbThree (pre : BitVec 7) (mk : BitVec 3 → LowReg → LowReg → Instr)
    (hdec : ∀ x : BitVec 9,
      decodeThumb (pre ++ x) = mk (bitsOf 3 x.toNat 6) (bitsOf 3 x.toNat 3) (bitsOf 3 x.toNat 0) := by
      intro x; simp [decodeThumb, decodeThumbShiftAdd, decodeThumbRegOffset])
    (henc : encode (mk ro rs rd) = .thumb (pre ++ (ro ++ (rs ++ rd))) := by
      exact encode_thumb rfl (by simp [packFields, toNat_append_eq] <;> omega)) :
    RoundTrips (mk ro rs rd) :=
  of_thumb _ (by simp [hdec]) henc

/-- The register operations (T4), by bits 9:6. -/
theorem thumbAlu (op : BitVec 4) (mk : LowReg → LowReg → Instr)
    (hdec : ∀ v, fieldOf v 9 6 = op.toNat → decodeThumbAlu v = mk (bitsOf 3 v 3) (bitsOf 3 v 0) := by
      intro v h; rw [decodeThumbAlu, h]; rfl)
    (henc : encode (mk rs rd) = .thumb (0x10#6 ++ (op ++ (rs ++ rd))) := by
      exact encode_thumb rfl (by simp [packFields, toNat_append_eq] <;> omega)) :
    RoundTrips (mk rs rd) :=
  of_thumb _ (by simp [decodeThumb, hdec]) henc

/-- The operations on high registers (T5), by bits 9:8. -/
theorem thumbHi (op : BitVec 2) (mk : Bool → Bool → LowReg → LowReg → Instr)
    (hdec : ∀ v, fieldOf v 9 8 = op.toNat →
      decodeThumbHi v = mk (bitOf v 7) (bitOf v 6) (bitsOf 3 v 3) (bitsOf 3 v 0) := by
      intro v h; rw [decodeThumbHi, h]; rfl)
    (henc : encode (mk h1 h2 rs rd) = .thumb (0x11#6 ++ (op ++ (ofBool h1 ++ (ofBool h2 ++ (rs ++ rd))))) := by
      exact encode_thumb rfl (by simp [packFields, toNat_append_eq] <;> omega)) :
    RoundTrips (mk h1 h2 rs rd) :=
  of_thumb _ (by simp [decodeThumb, hdec]) henc

/-- The branches of bits 15:13 = 111 (T18, T19) and the hole among them, by bits 12:11. -/
theorem thumbBranch (op : BitVec 2) (mk : BitVec 11 → Instr)
    (hdec : ∀ v, fieldOf v 12 11 = op.toNat → decodeThumbBranch v = mk (bitsOf 11 v 0) := by
      intro v h; rw [decodeThumbBranch, h]; rfl)
    (henc : encode (mk disp) = .thumb (7#3 ++ (op ++ disp)) := by
      exact encode_thumb rfl (by simp [packFields, toNat_append_eq] <;> omega)) :
    RoundTrips (mk disp) :=
  of_thumb _ (by simp [decodeThumb, hdec]) henc

end

/-! ## Layouts of one instruction, and the holes -/

section
open BitVec (ofBool)

theorem tAdjSp (neg imm) : RoundTrips (.tAdjSp neg imm) :=
  of_thumb (0xB0#8 ++ (ofBool neg ++ imm)) (by simp [decodeThumb, decodeThumbMisc])

theorem tPush (r list) : RoundTrips (.tPush r list) := by
  cases r with
  | false => exact of_thumb (0xB4#8 ++ list) (by simp [decodeThumb, decodeThumbMisc])
  | true => exact of_thumb (0xB5#8 ++ list) (by simp [decodeThumb, decodeThumbMisc])

theorem tPop (r list) : RoundTrips (.tPop r list) := by
  cases r with
  | false => exact of_thumb (0xBC#8 ++ list) (by simp [decodeThumb, decodeThumbMisc])
  | true => exact of_thumb (0xBD#8 ++ list) (by simp [decodeThumb, decodeThumbMisc])

theorem tUndef1110 (bits) : RoundTrips (.tUndef1110 bits) :=
  of_thumb (0xDE#8 ++ bits) (by simp [decodeThumb, decodeThumbBlockBranch, Cond.ofCode])

theorem tSwi (value) : RoundTrips (.tSwi value) :=
  of_thumb (0xDF#8 ++ value) (by simp [decodeThumb, decodeThumbBlockBranch, Cond.ofCode])

/-- What bits 15:12 = 1011 leave to T13 and T14 (R146). -/
theorem tUndef1011 {bits} (h : thumbHole bits = true) : RoundTrips (.tUndef1011 bits) := by
  simp only [thumbHole, Bool.and_eq_true, bne_iff_ne] at h
  have hlt := bits.isLt
  have h8 : fieldOf bits.toNat 11 8 ≠ 0 := by
    rw [fieldOf]
    omega
  have h9 : fieldOf bits.toNat 10 9 ≠ 2 := by
    rw [fieldOf]
    omega
  exact of_thumb (11#4 ++ bits) (by simp [decodeThumb, decodeThumbMisc, h8, h9])

/-- A branch has one of the fourteen conditions before AL (R370). -/
theorem decodeThumbBlockBranch_tBCond {v : Nat} {c : Cond} (h12 : bitOf v 12 = true)
    (hc : Cond.ofCode (fieldOf v 11 8) = some c) (hne : c ≠ .al) :
    decodeThumbBlockBranch v = .tBCond c (bitsOf 8 v 0) := by
  rw [decodeThumbBlockBranch, h12, hc]
  cases c
  case al => contradiction
  all_goals rfl

theorem tBCond {c : Cond} {off} (hne : c ≠ .al) : RoundTrips (.tBCond c off) :=
  of_thumb (13#4 ++ (c.bits ++ off)) (by simp [decodeThumb, decodeThumbBlockBranch_tBCond, hne])
    (encode_thumb rfl (by simp [packFields, toNat_append_eq, Cond.toNat_bits]; omega))

end

end Sys2Proof.RoundTrips
end

section
/-! The decoder reads back every well-formed instruction (R131, R134, R142). -/

namespace Sys2Proof

/-- Every well-formed instruction, by its format: the fixed bits of its layout are those of R131 and R134. -/
theorem RoundTrips.of_wf (i : Instr) (hwf : i.wf = true) : RoundTrips i := by
  cases i with
  -- ARM (R131)
  | cond1111 => exact .cond1111 _
  | bx => exact .bx _ _
  | swp => exact .swp _ _ _ _
  | swpb => exact .swpb _ _ _ _
  | mul c => exact .multiply 0#4 (rn := 0#4) fun sf rd _ => .mul c sf rd
  | mla c => exact .multiply 1#4 (.mla c)
  | umull c => exact .multiply 4#4 (.umull c)
  | umlal c => exact .multiply 5#4 (.umlal c)
  | smull c => exact .multiply 6#4 (.smull c)
  | smlal c => exact .multiply 7#4 (.smlal c)
  | strhReg c => exact .halfTransfer false false 1#2 (hi := 0#4) fun p u w rn rd _ => .strhReg c p u w rn rd
  | strhImm c => exact .halfTransfer true false 1#2 (.strhImm c)
  | ldrhReg c => exact .halfTransfer false true 1#2 (hi := 0#4) fun p u w rn rd _ => .ldrhReg c p u w rn rd
  | ldrhImm c => exact .halfTransfer true true 1#2 (.ldrhImm c)
  | ldrsbReg c => exact .halfTransfer false true 2#2 (hi := 0#4) fun p u w rn rd _ => .ldrsbReg c p u w rn rd
  | ldrsbImm c => exact .halfTransfer true true 2#2 (.ldrsbImm c)
  | ldrshReg c => exact .halfTransfer false true 3#2 (hi := 0#4) fun p u w rn rd _ => .ldrshReg c p u w rn rd
  | ldrshImm c => exact .halfTransfer true true 3#2 (.ldrshImm c)
  | unallocHalfStore => exact .unallocHalfStore
  | unallocMul => exact .unallocMul hwf
  | mrs => exact .mrs _ _ _
  | msrCpsrReg => exact .msrCpsrReg _ _ _
  | msrSpsrReg => exact .msrSpsrReg _ _ _
  | msrCpsrImm => exact .msrCpsrImm _ _ _ _
  | msrSpsrImm => exact .msrSpsrImm _ _ _ _
  | unallocPsr => exact .unallocPsr hwf
  | andImm c => exact .dpImm 0#4 (.andImm c)
  | andImmShift c => exact .dpImmShift 0#4 (.andImmShift c)
  | andRegShift c => exact .dpRegShift 0#4 (.andRegShift c)
  | eorImm c => exact .dpImm 1#4 (.eorImm c)
  | eorImmShift c => exact .dpImmShift 1#4 (.eorImmShift c)
  | eorRegShift c => exact .dpRegShift 1#4 (.eorRegShift c)
  | subImm c => exact .dpImm 2#4 (.subImm c)
  | subImmShift c => exact .dpImmShift 2#4 (.subImmShift c)
  | subRegShift c => exact .dpRegShift 2#4 (.subRegShift c)
  | rsbImm c => exact .dpImm 3#4 (.rsbImm c)
  | rsbImmShift c => exact .dpImmShift 3#4 (.rsbImmShift c)
  | rsbRegShift c => exact .dpRegShift 3#4 (.rsbRegShift c)
  | addImm c => exact .dpImm 4#4 (.addImm c)
  | addImmShift c => exact .dpImmShift 4#4 (.addImmShift c)
  | addRegShift c => exact .dpRegShift 4#4 (.addRegShift c)
  | adcImm c => exact .dpImm 5#4 (.adcImm c)
  | adcImmShift c => exact .dpImmShift 5#4 (.adcImmShift c)
  | adcRegShift c => exact .dpRegShift 5#4 (.adcRegShift c)
  | sbcImm c => exact .dpImm 6#4 (.sbcImm c)
  | sbcImmShift c => exact .dpImmShift 6#4 (.sbcImmShift c)
  | sbcRegShift c => exact .dpRegShift 6#4 (.sbcRegShift c)
  | rscImm c => exact .dpImm 7#4 (.rscImm c)
  | rscImmShift c => exact .dpImmShift 7#4 (.rscImmShift c)
  | rscRegShift c => exact .dpRegShift 7#4 (.rscRegShift c)
  | tstImm c => exact .dpImm 8#4 (sf := true) fun _ => .tstImm c
  | tstImmShift c => exact .dpImmShift 8#4 (sf := true) fun _ => .tstImmShift c
  | tstRegShift c => exact .dpRegShift 8#4 (sf := true) fun _ => .tstRegShift c
  | teqImm c => exact .dpImm 9#4 (sf := true) fun _ => .teqImm c
  | teqImmShift c => exact .dpImmShift 9#4 (sf := true) fun _ => .teqImmShift c
  | teqRegShift c => exact .dpRegShift 9#4 (sf := true) fun _ => .teqRegShift c
  | cmpImm c => exact .dpImm 10#4 (sf := true) fun _ => .cmpImm c
  | cmpImmShift c => exact .dpImmShift 10#4 (sf := true) fun _ => .cmpImmShift c
  | cmpRegShift c => exact .dpRegShift 10#4 (sf := true) fun _ => .cmpRegShift c
  | cmnImm c => exact .dpImm 11#4 (sf := true) fun _ => .cmnImm c
  | cmnImmShift c => exact .dpImmShift 11#4 (sf := true) fun _ => .cmnImmShift c
  | cmnRegShift c => exact .dpRegShift 11#4 (sf := true) fun _ => .cmnRegShift c
  | orrImm c => exact .dpImm 12#4 (.orrImm c)
  | orrImmShift c => exact .dpImmShift 12#4 (.orrImmShift c)
  | orrRegShift c => exact .dpRegShift 12#4 (.orrRegShift c)
  | movImm c => exact .dpImm 13#4 (rn := 0#4) fun sf _ => .movImm c sf
  | movImmShift c => exact .dpImmShift 13#4 (rn := 0#4) fun sf _ => .movImmShift c sf
  | movRegShift c => exact .dpRegShift 13#4 (rn := 0#4) fun sf _ => .movRegShift c sf
  | bicImm c => exact .dpImm 14#4 (.bicImm c)
  | bicImmShift c => exact .dpImmShift 14#4 (.bicImmShift c)
  | bicRegShift c => exact .dpRegShift 14#4 (.bicRegShift c)
  | mvnImm c => exact .dpImm 15#4 (rn := 0#4) fun sf _ => .mvnImm c sf
  | mvnImmShift c => exact .dpImmShift 15#4 (rn := 0#4) fun sf _ => .mvnImmShift c sf
  | mvnRegShift c => exact .dpRegShift 15#4 (rn := 0#4) fun sf _ => .mvnRegShift c sf
  | undefined => exact .undefined _ _ _
  | strtImm c => exact .transferImm true false false (p := false) (w := true) (fun _ u _ => .strtImm c u) rfl
  | strtReg c => exact .transferReg true false false (p := false) (w := true) (fun _ u _ => .strtReg c u) rfl
  | ldrtImm c => exact .transferImm true false true (p := false) (w := true) (fun _ u _ => .ldrtImm c u) rfl
  | ldrtReg c => exact .transferReg true false true (p := false) (w := true) (fun _ u _ => .ldrtReg c u) rfl
  | strbtImm c => exact .transferImm true true false (p := false) (w := true) (fun _ u _ => .strbtImm c u) rfl
  | strbtReg c => exact .transferReg true true false (p := false) (w := true) (fun _ u _ => .strbtReg c u) rfl
  | ldrbtImm c => exact .transferImm true true true (p := false) (w := true) (fun _ u _ => .ldrbtImm c u) rfl
  | ldrbtReg c => exact .transferReg true true true (p := false) (w := true) (fun _ u _ => .ldrbtReg c u) rfl
  | strImm c => exact .transferImm false false false (.strImm c) (not_userMode hwf)
  | strReg c => exact .transferReg false false false (.strReg c) (not_userMode hwf)
  | ldrImm c => exact .transferImm false false true (.ldrImm c) (not_userMode hwf)
  | ldrReg c => exact .transferReg false false true (.ldrReg c) (not_userMode hwf)
  | strbImm c => exact .transferImm false true false (.strbImm c) (not_userMode hwf)
  | strbReg c => exact .transferReg false true false (.strbReg c) (not_userMode hwf)
  | ldrbImm c => exact .transferImm false true true (.ldrbImm c) (not_userMode hwf)
  | ldrbReg c => exact .transferReg false true true (.ldrbReg c) (not_userMode hwf)
  | stm c => exact .blockTransfer false false (.stm c)
  | ldm c => exact .blockTransfer false true (.ldm c)
  | stmUser c => exact .blockTransfer true false (.stmUser c)
  | ldmUser => exact .ldmUser _ _ _ _ _ _
  | ldmRestore => exact .ldmRestore _ _ _ _ _ _
  | b => exact .b _ _
  | bl => exact .bl _ _
  | stc => exact .stc _ _ _ _ _ _ _ _ _
  | ldc => exact .ldc _ _ _ _ _ _ _ _ _
  | cdp => exact .cdp _ _ _ _ _ _ _
  | mcr => exact .mcr _ _ _ _ _ _ _
  | mrc => exact .mrc _ _ _ _ _ _ _
  | swi => exact .swi _ _
  -- Thumb (R134)
  | tAddReg => exact .thumbThree 12#7 .tAddReg
  | tSubReg => exact .thumbThree 13#7 .tSubReg
  | tAddImm3 => exact .thumbThree 14#7 .tAddImm3
  | tSubImm3 => exact .thumbThree 15#7 .tSubImm3
  | tLslImm => exact .thumbOffset 0#5 .tLslImm
  | tLsrImm => exact .thumbOffset 1#5 .tLsrImm
  | tAsrImm => exact .thumbOffset 2#5 .tAsrImm
  | tMovImm8 => exact .thumbRegImm 4#5 .tMovImm8
  | tCmpImm8 => exact .thumbRegImm 5#5 .tCmpImm8
  | tAddImm8 => exact .thumbRegImm 6#5 .tAddImm8
  | tSubImm8 => exact .thumbRegImm 7#5 .tSubImm8
  | tAnd => exact .thumbAlu 0#4 .tAnd
  | tEor => exact .thumbAlu 1#4 .tEor
  | tLslReg => exact .thumbAlu 2#4 .tLslReg
  | tLsrReg => exact .thumbAlu 3#4 .tLsrReg
  | tAsrReg => exact .thumbAlu 4#4 .tAsrReg
  | tAdc => exact .thumbAlu 5#4 .tAdc
  | tSbc => exact .thumbAlu 6#4 .tSbc
  | tRor => exact .thumbAlu 7#4 .tRor
  | tTst => exact .thumbAlu 8#4 .tTst
  | tNeg => exact .thumbAlu 9#4 .tNeg
  | tCmpReg => exact .thumbAlu 10#4 .tCmpReg
  | tCmn => exact .thumbAlu 11#4 .tCmn
  | tOrr => exact .thumbAlu 12#4 .tOrr
  | tMul => exact .thumbAlu 13#4 .tMul
  | tBic => exact .thumbAlu 14#4 .tBic
  | tMvn => exact .thumbAlu 15#4 .tMvn
  | tAddHi => exact .thumbHi 0#2 .tAddHi
  | tCmpHi => exact .thumbHi 1#2 .tCmpHi
  | tMovHi => exact .thumbHi 2#2 .tMovHi
  | tBx => exact .thumbHi 3#2 (rd := 0#3) fun h1 h2 rs _ => .tBx h1 h2 rs
  | tLdrPc => exact .thumbRegImm 9#5 .tLdrPc
  | tStrReg => exact .thumbThree 40#7 .tStrReg
  | tStrbReg => exact .thumbThree 42#7 .tStrbReg
  | tLdrReg => exact .thumbThree 44#7 .tLdrReg
  | tLdrbReg => exact .thumbThree 46#7 .tLdrbReg
  | tStrhReg => exact .thumbThree 41#7 .tStrhReg
  | tLdsbReg => exact .thumbThree 43#7 .tLdsbReg
  | tLdrhReg => exact .thumbThree 45#7 .tLdrhReg
  | tLdshReg => exact .thumbThree 47#7 .tLdshReg
  | tStrImm => exact .thumbOffset 12#5 .tStrImm
  | tLdrImm => exact .thumbOffset 13#5 .tLdrImm
  | tStrbImm => exact .thumbOffset 14#5 .tStrbImm
  | tLdrbImm => exact .thumbOffset 15#5 .tLdrbImm
  | tStrhImm => exact .thumbOffset 16#5 .tStrhImm
  | tLdrhImm => exact .thumbOffset 17#5 .tLdrhImm
  | tStrSp => exact .thumbRegImm 18#5 .tStrSp
  | tLdrSp => exact .thumbRegImm 19#5 .tLdrSp
  | tAddPc => exact .thumbRegImm 20#5 .tAddPc
  | tAddSp => exact .thumbRegImm 21#5 .tAddSp
  | tAdjSp => exact .tAdjSp _ _
  | tPush => exact .tPush _ _
  | tPop => exact .tPop _ _
  | tUndef1011 => exact .tUndef1011 hwf
  | tStmia => exact .thumbRegImm 24#5 .tStmia
  | tLdmia => exact .thumbRegImm 25#5 .tLdmia
  | tUndef1110 => exact .tUndef1110 _
  | tUndef11101 => exact .thumbBranch 1#2 .tUndef11101
  | tSwi => exact .tSwi _
  | tBCond => exact .tBCond (of_decide_eq_true hwf)
  | tB => exact .thumbBranch 0#2 .tB
  | tBlPrefix => exact .thumbBranch 2#2 .tBlPrefix
  | tBlSuffix => exact .thumbBranch 3#2 .tBlSuffix

/-- Settles O1: each word is decoded by evaluation. -/
theorem knownWordsDecode : Obligations.KnownWordsDecode := by
  unfold Obligations.KnownWordsDecode
  decide

/-- Settles O3: form by form, the decoder reads its fields back from the concatenation of the word's parts. -/
theorem decodeInvertsEncode : Obligations.DecodeInvertsEncode := RoundTrips.of_wf

end Sys2Proof
end
